-- ==== Sys2Proof/Word.lean ====
section
/-! DEFINITION. The word types of the Cuval M8 and the sparse tables that hold its arrays.

R3 (00_scope): bits are numbered from 0 at the least significant end. Arrays of the machine (memory, register
files, cores, dies) are tables: lists of key and value with rising keys, in which a key that is not listed
holds the table's default value. -/

namespace Sys2Proof

/-- A 64-bit scalar value. -/
abbrev Word := BitVec 64
/-- A byte of memory. -/
abbrev Byte := BitVec 8
/-- The 512 bytes of a vector register or of a load-data queue entry (R11, R30). -/
abbrev VData := BitVec 4096
/-- One bit per element of a vector register: a mask register, or the poison of a register (R378). -/
abbrev Mask := BitVec 128

/-- A sparse table: keys rise strictly, and an unlisted key holds the default that each operation names. -/
abbrev Tbl (α : Type) := List (Nat × α)

/-- The value at key `k`, or `d` where `k` is not listed. -/
def Tbl.get {α : Type} (d : α) : Tbl α → Nat → α
  | [], _ => d
  | (k', v) :: t, k => if k = k' then v else Tbl.get d t k

/-- The table with key `k` removed. -/
def Tbl.erase {α : Type} : Tbl α → Nat → Tbl α
  | [], _ => []
  | (k', v) :: t, k => if k = k' then Tbl.erase t k else (k', v) :: Tbl.erase t k

/-- The table with `k ↦ v` put in its place among the keys (`k` is not listed yet). -/
def Tbl.insert {α : Type} : Tbl α → Nat → α → Tbl α
  | [], k, v => [(k, v)]
  | (k', v') :: t, k, v => if k < k' then (k, v) :: (k', v') :: t else (k', v') :: Tbl.insert t k v

/-- The table with `v` at key `k`; writing the default removes the entry, so that equal contents are equal data. -/
def Tbl.set {α : Type} [DecidableEq α] (d : α) (t : Tbl α) (k : Nat) (v : α) : Tbl α :=
  if v = d then Tbl.erase t k else Tbl.insert (Tbl.erase t k) k v

/-- The canonical form: keys rise strictly above `lo` and no entry holds the default. -/
def Tbl.wfFrom {α : Type} [DecidableEq α] (d : α) : Nat → Tbl α → Bool
  | _, [] => true
  | lo, (k, v) :: t => decide (lo ≤ k) && decide (v ≠ d) && Tbl.wfFrom d (k + 1) t

/-- The canonical form of a table. -/
def Tbl.wf {α : Type} [DecidableEq α] (d : α) (t : Tbl α) : Bool := Tbl.wfFrom d 0 t

/-- An element put before the first element of a list that it may stand before. -/
def insertBy {α : Type} (le : α → α → Bool) (x : α) : List α → List α
  | [] => [x]
  | y :: ys => if le x y then x :: y :: ys else y :: insertBy le x ys

/-- A list in order, elements that may stand either way in the order they had. -/
def sortBy {α : Type} (le : α → α → Bool) : List α → List α
  | [] => []
  | x :: xs => insertBy le x (sortBy le xs)

end Sys2Proof
end

