-- ==== Sys2Proof/Config.lean ====
section
/-! DEFINITION. What the spec leaves open for one device: constants without a body, so that no proof can see a value.

R5 (00_scope): an undefined value is some bit pattern of the stated width. Each use applies a free value to the counter
`State.fresh`, which the machine then advances. -/

namespace Sys2Proof.Config

/-- The contents of a vector register where the spec calls them undefined (R31, R46, R225, R237). (DESIGN CHOICE, log 3.) -/
opaque freeReg : Nat → VData

/-- A 64-bit value where the spec calls it undefined or does not state it. (DESIGN CHOICE, log 3.) -/
opaque freeWord : Nat → Word

/-- A byte of memory where the spec calls it undefined (R86, R135, R262, R390). (DESIGN CHOICE, log 3.) -/
opaque freeByte : Nat → Byte

/-- Contents of a byte of memory since its region became undefined for the time given (R390). (DESIGN CHOICE, log 3.) -/
opaque freeCell : Nat → Nat → Byte

/-- The physical address of the first byte of a row of an HBM stack (R381): stack, bank, row. The spec does not give the map
of addresses to banks and rows. (DEDUCED, log 66.) -/
opaque rowAddress : Nat → Nat → Nat → Nat

/-- The public half of the module's identity key (R320): 64 bytes from the physically unclonable function.
(DESIGN CHOICE, log 61.) -/
opaque identityKey : Nat → BitVec 512

/-- The SM2 signature, r and s, over an SM3 digest with the identity key (R320). (DESIGN CHOICE, log 61.) -/
opaque identitySign : BitVec 256 → BitVec 256 × BitVec 256

/-- Whether an image carries an SM2 signature that verifies under a public key (R321). (DESIGN CHOICE, log 61.) -/
opaque signedBy : BitVec 512 → List Byte → Bool

/-- The golden image, and the firmware image that the module was made with (R321). (DESIGN CHOICE, log 61.) -/
opaque goldenImage : List Byte
opaque firstImage : List Byte

/-- What the configuration record holds (Table 1.6, R315, R382): the spare map (cores by die in logical order, spare lanes in use
as core, pipe and lane, remapped rows), the last owner term, the owner key slots, the partition defaults. -/
structure Record where
  cores : List (Nat × Option (List Nat))
  lanes : List (Nat × Nat × Nat)
  rows : List Nat
  lastTerm : BitVec 32
  keys : List (BitVec 512)
  defaults : List Byte
  deriving DecidableEq, Repr

/-- The bytes of the configuration record, which the spec does not lay out (R320). (DESIGN CHOICE, log 61.) -/
opaque recordBytes : Record → List Byte

/-- SM4-XTS with a data key and a tweak key over a data unit with its tweak (R386): the spec names the cipher and no more.
(DESIGN CHOICE, log 61.) -/
opaque sm4Xts : BitVec 128 → BitVec 128 → Nat → List Byte → List Byte

/-- The keys that a module derives from its identity function at each boot (R386): data key, tweak key, tag key.
(DESIGN CHOICE, log 61.) -/
opaque dataKey : BitVec 128
opaque tweakKey : BitVec 128
opaque tagKey : List Byte

/-- Which of n elements the taster chooses from an LFSR's value (R383): the spec does not give the map. (DESIGN CHOICE, log 11.) -/
opaque tasterPick : BitVec 16 → Nat → Nat

/-- The port that leads to a fabric peer that does not acknowledge (R359): the spec gives no map from peers to ports.
(DEDUCED, log 47.) -/
opaque portOfPeer : Nat → BitVec 5

end Sys2Proof.Config
end

