-- ==== Sys2Proof/Syntax.lean ====
section
/-! DEFINITION. The instructions of the Cuval M8: one constructor per row of the spec's table of operations and events.

A word's constructor carries the operand fields of its format (Table 8.1), each at its own width, the HINT field among
them (a word without any other operand carries none: its HINT is never more than a hint, R159). A command and an event
of the module carry no operand: the record that is being executed, and the unit that an event concerns, are State
(`State.cmd`, `State.ev`), put there by the step that takes them. -/

namespace Sys2Proof

/-- Format FR (Table 8.1) below MAJ and FN. -/
structure FR where
  d : BitVec 6
  a : BitVec 6
  b : BitVec 6
  c : BitVec 6
  hint : BitVec 4
  imm : BitVec 20
  deriving DecidableEq, Repr

/-- Format FI below MAJ and FN. -/
structure FI where
  d : BitVec 6
  a : BitVec 6
  hint : BitVec 4
  imm : BitVec 36
  deriving DecidableEq, Repr

/-- Format FB below MAJ and COND. -/
structure FB where
  a : BitVec 6
  b : BitVec 6
  hint : BitVec 4
  off : BitVec 36
  deriving DecidableEq, Repr

/-- Format F3 below MAJ and FN. -/
structure F3 where
  d : BitVec 8
  a : BitVec 8
  b : BitVec 8
  msk : BitVec 4
  mu : Bool
  qa : Bool
  qb : Bool
  spare : Bool
  hint : BitVec 4
  x : BitVec 12
  deriving DecidableEq, Repr

/-- Format FM below MAJ and FN. -/
structure FM where
  v : BitVec 8
  base : BitVec 6
  x : BitVec 8
  msk : BitVec 4
  mu : Bool
  q : BitVec 3
  wr : Bool
  seg : BitVec 3
  hint : BitVec 4
  mt : BitVec 5
  off : BitVec 7
  deriving DecidableEq, Repr

/-- Format FX below MAJ and FN. -/
structure FX where
  a : BitVec 8
  gf : BitVec 3
  t : BitVec 3
  vr : BitVec 8
  vc : BitVec 7
  ty : BitVec 4
  src : Bool
  hint : BitVec 4
  sp : BitVec 4
  xm : BitVec 8
  deriving DecidableEq, Repr

/-- Format FC below MAJ and FN. -/
structure FC where
  d : BitVec 6
  a : BitVec 6
  b : BitVec 6
  c : BitVec 6
  tag : BitVec 6
  hint : BitVec 4
  x : BitVec 14
  deriving DecidableEq, Repr

/-- The fields of an EP slot other than its OP (R161). -/
structure EpArgs where
  d : BitVec 8
  a : BitVec 8
  msk : BitVec 4
  imm : BitVec 5
  deriving DecidableEq, Repr

/-- A whole EP slot: slot 1 of every paired word (R161). -/
structure EpSlot where
  op : BitVec 6
  args : EpArgs
  deriving DecidableEq, Repr

/-- The fields of an AP slot other than its OP (R162). -/
structure ApArgs where
  d : BitVec 6
  a : BitVec 6
  imm : BitVec 13
  deriving DecidableEq, Repr

/-- A command record (Table 15.1) as it was taken from record slot `slot` of port `port`. -/
structure CmdRec where
  port : Nat
  slot : Nat
  code : BitVec 8
  seq : BitVec 8
  master : BitVec 16
  term : BitVec 32
  w0 : Word
  w1 : Word
  w2 : Word
  w3 : Word
  w4 : Word
  w5 : Word
  w6 : Word
  /-- When the service die received it (R315). -/
  since : Nat := 0
  /-- It named another master than its port's when the port carried it (R325). -/
  alien : Bool := false
  deriving DecidableEq, Repr

/-- What a fabric peer asks of this module's memory (R92). -/
inductive FabricOp where
  /-- Read `len` bytes. -/
  | read (len : Nat)
  /-- Write the bytes, lowest address first. -/
  | write (bytes : List Byte)
  /-- An atomic of Table 9.8 by its FN[6:0], 8 bytes wide when `d64`, with operands b and c. -/
  | amo (fn : BitVec 7) (d64 : Bool) (b c : Word)
  deriving DecidableEq, Repr

/-- What an event concerns: the unit, the entry of a list, and what comes from outside the module with it. Each event
reads the fields that name its unit and no others. -/
structure Ev where
  hart : Nat := 0
  core : Nat := 0
  die : Nat := 0
  team : Nat := 0
  launch : Nat := 0
  slot : Nat := 0
  tag : Nat := 0
  line : Nat := 0
  idx : Nat := 0
  port : Nat := 0
  pa : Nat := 0
  /-- Bounds in ns of a clock reading, or of a mark that comes from outside. -/
  lo : Nat := 0
  hi : Nat := 0
  stack : Nat := 0
  bank : Nat := 0
  row : Nat := 0
  pipe : Nat := 0
  lane : Nat := 0
  /-- A corrected error was found (SCRUB_BURST); the vendor key's signature of the firmware image verified (BOOT). -/
  good : Bool := false
  /-- The recovery strap is asserted (BOOT). -/
  strap : Bool := false
  /-- The owner-term section of the configuration record fails its HMAC (BOOT). -/
  badTerm : Bool := false
  /-- The spare map of the configuration record fails its HMAC (BOOT). -/
  badMap : Bool := false
  dies : BitVec 8 := 0
  cap : BitVec 8 := 0
  cause : BitVec 8 := 0
  unit : BitVec 32 := 0
  failing : List (BitVec 32) := []
  fop : FabricOp := .read 0
  deriving DecidableEq, Repr

/-- One constructor per row of the table of operations and events. -/
inductive Instr where
  -- major 0x01 (Table 9.2)
  | add (o : FR) | sub (o : FR) | mul (o : FR) | mulh (o : FR) | mulhu (o : FR)
  | div (o : FR) | divu (o : FR) | rem (o : FR) | remu (o : FR)
  | and (o : FR) | or (o : FR) | xor (o : FR) | andn (o : FR)
  | sll (o : FR) | srl (o : FR) | sra (o : FR)
  | slt (o : FR) | sltu (o : FR) | min (o : FR) | max (o : FR) | minu (o : FR) | maxu (o : FR)
  | cmov (o : FR) | clz (o : FR) | ctz (o : FR) | popc (o : FR) | bext (o : FR) | bins (o : FR)
  -- major 0x02 (Table 9.4)
  | addi (o : FI) | andi (o : FI) | ori (o : FI) | xori (o : FI) | slli (o : FI) | srli (o : FI) | srai (o : FI)
  | slti (o : FI) | sltiu (o : FI) | ldi (o : FI) | ldhi (o : FI) | adpc (o : FI)
  -- major 0x08 (Table 9.6); `sz` is the size code
  | ld (sz : BitVec 2) (o : FR) | ldz (sz : BitVec 2) (o : FR) | st (sz : BitVec 2) (o : FR)
  | ldAcq (sz : BitVec 2) (o : FR) | stRel (sz : BitVec 2) (o : FR)
  -- major 0x09 (Table 9.8); `d64` is FN[7]
  | amoAdd (d64 : Bool) (o : FR) | amoAnd (d64 : Bool) (o : FR) | amoOr (d64 : Bool) (o : FR) | amoXor (d64 : Bool) (o : FR)
  | amoMin (d64 : Bool) (o : FR) | amoMax (d64 : Bool) (o : FR) | amoMinu (d64 : Bool) (o : FR) | amoMaxu (d64 : Bool) (o : FR)
  | amoSwap (d64 : Bool) (o : FR) | amoCas (d64 : Bool) (o : FR) | amoFadd (d64 : Bool) (o : FR)
  -- major 0x0C (R186)
  | beq (o : FB) | bne (o : FB) | blt (o : FB) | bge (o : FB) | bltu (o : FB) | bgeu (o : FB) | jmp (o : FB) | call (o : FB)
  -- major 0x0D (R188)
  | jr (o : FR) | jmpF (o : FR) | callt (o : FR) 
  -- major 0x0E (R191, R192)
  | bvAny (o : FB) | bvNone (o : FB) | bvAll (o : FB) | bvNall (o : FB) | brot (o : FB) | bloop (o : FB)
  -- major 0x10 (Table 12.11); `swr` is split by the register it names (R272)
   | trap (o : FC)  | srd (o : FC)
  | swr (o : FC) | swrFcsr (o : FC) | swrSlots (o : FC) | swrVl (o : FC) | swrRrb (o : FC) | swrEc (o : FC)
   | brk (o : FC)  | tlbinv (o : FC) | pgmig (o : FC)
  -- major 0x18 (Table 10.2)
  | vadd (o : F3) | vsub (o : F3) | vmul (o : F3) | vmulh (o : F3) | vfma (o : F3) | vfms (o : F3) | vfnma (o : F3)
  | vdiv (o : F3) | vrem (o : F3) | vsqrt (o : F3) | vrcp (o : F3) | vrsqrt (o : F3) | vmin (o : F3) | vmax (o : F3)
  | vabs (o : F3) | vneg (o : F3) | vand (o : F3) | vor (o : F3) | vxor (o : F3) | vandn (o : F3) | vnot (o : F3)
  | vsll (o : F3) | vsrl (o : F3) | vsra (o : F3) | vclz (o : F3) | vpopc (o : F3) | vcvt (o : F3) | vmov (o : F3)
  | vsel (o : F3) | vexp2 (o : F3) | vlog2 (o : F3)
  -- majors 0x19 and 0x1A (R208-R211)
  | vcmp (o : F3) | vclass (o : F3)
  | mand (o : F3) | mor (o : F3) | mxor (o : F3) | mandn (o : F3) | mnot (o : F3) | mpopc (o : F3) | mfirst (o : F3)
  | mset (o : F3) | vmsk (o : F3)
  -- major 0x1B (R212-R216)
  | vred (o : F3) | vscan (o : F3) | vdot (o : F3) | vdotg (o : F3) | vsac (o : F3) | vsacb (o : F3)
  -- major 0x1C (Table 10.7)
  | vslup (o : F3) | vsldn (o : F3) | vperm (o : F3) | vcompress (o : F3) | vexpand (o : F3) | vzip (o : F3)
  | vunzip (o : F3) | vrev (o : F3)
  -- major 0x1D (R218-R220)
  | vpack4 (o : F3) | vunpk4 (o : F3) | vbscale (o : F3)
  -- major 0x1E (R221-R226)
  | vcfg (o : F3) | vsetl (o : F3) | vlq (o : F3) | vtag (o : F3) | vrotb (o : F3) | vdead (o : F3) | vmvAe (o : F3)
  | vmvEa (o : F3) | vbcast (o : F3) | vid (o : F3)
  -- major 0x20 (Table 11.1)
  | vld (o : FM) | vlds (o : FM) | vldx (o : FM) | vldseg (o : FM) | vldm (o : FM) | vpref (o : FM) | vst (o : FM)
  | vsts (o : FM) | vstx (o : FM) | vstseg (o : FM) | vstm (o : FM) | vamoadd (o : FM) | vspill (o : FM) | vfill (o : FM)
  | vwait (o : FM) | vsave (o : FM) | vrest (o : FM)
  -- major 0x21
  | rpSend (o : FM) | rpRecv (o : FM)
  -- major 0x28 (Table 12.3)
  | mma (o : FX) | mmasp (o : FX) | mzero (o : FX) | mvat2v (o : FX) | mv2vat (o : FX) | mv2t (o : FX) | mt2v (o : FX)
  -- major 0x29 (R255, R261)
  | mshape (o : FC) | mldt (o : FC) | mstt (o : FC) | mldvat (o : FC) | mstvat (o : FC) | mrdshape (o : FC)
  -- major 0x30 (Table 12.5)
  | cpy (o : FC) | cpy2d (o : FC) | cpyBb (o : FC) | cwaitAny (o : FC) | cwaitAll (o : FC) | cffr (o : FC) | cdone (o : FC)
  | cclr (o : FC)
  -- majors 0x31 and 0x32 (Tables 12.7 and 12.9)
  | bbInit (o : FC) | bbExpect (o : FC) | bbArrive (o : FC) | bbWait (o : FC) | bbTest (o : FC)
  | barArrive (o : FC) | barWait (o : FC) | barSync (o : FC) | barMset (o : FC) | barGen (o : FC)
  -- major 0x38 (Table 11.6, R246-R248)
  | fence (o : FC) | fencePath (o : FC)   | stStamp (o : FC) | ldAsof (o : FC)
  | clkRd (o : FC) | clkWait (o : FC)
  -- major 0x39 (Table 12.10)
  | cfetch (o : FC) | cfwait (o : FC) | lnch (o : FC) | claimWork (o : FC)  | digPost (o : FC) | digWait (o : FC)
  -- major 0x7E (Table 11.10)
  | vmac (o : F3) | vrecip (o : F3) | vsum (o : F3) | vldu (o : F3)
  -- paired words by the operation of slot 0 (Tables 8.5 and 8.6); `p` is slot 1
  | epSlotVadd (s : EpArgs) (p : EpSlot) | epSlotVsub (s : EpArgs) (p : EpSlot) | epSlotVmul (s : EpArgs) (p : EpSlot)
  | epSlotVmin (s : EpArgs) (p : EpSlot) | epSlotVmax (s : EpArgs) (p : EpSlot) | epSlotVand (s : EpArgs) (p : EpSlot)
  | epSlotVor (s : EpArgs) (p : EpSlot) | epSlotVxor (s : EpArgs) (p : EpSlot) | epSlotVmov (s : EpArgs) (p : EpSlot)
  | epSlotVcvt (s : EpArgs) (p : EpSlot) | epSlotVslli (s : EpArgs) (p : EpSlot) | epSlotVsrli (s : EpArgs) (p : EpSlot)
  | epSlotVsrai (s : EpArgs) (p : EpSlot) | epSlotVneg (s : EpArgs) (p : EpSlot) | epSlotVabs (s : EpArgs) (p : EpSlot)
  | epSlotVaddi (s : EpArgs) (p : EpSlot)
  | apSlotAdd (s : ApArgs) (p : EpSlot) | apSlotSub (s : ApArgs) (p : EpSlot) | apSlotAnd (s : ApArgs) (p : EpSlot)
  | apSlotOr (s : ApArgs) (p : EpSlot) | apSlotXor (s : ApArgs) (p : EpSlot) | apSlotAddi (s : ApArgs) (p : EpSlot)
  | apSlotSlli (s : ApArgs) (p : EpSlot) | apSlotSrli (s : ApArgs) (p : EpSlot) | apSlotLdi (s : ApArgs) (p : EpSlot)
  -- a fetched word that is no instruction; its class is in State (R167)
  | reservedEncoding
  -- words without operands (Tables 8.9 and 12.11)
  | nop | eret | halt | syncAe | ret | pbar | fenceDur | yield
  -- commands (Table 15.2) and the WRITE commands to registers of the register window; the record is in State
  | launch | read | write | claim | handover
  | freeze | unfreeze | partition | selftest | attest
  | recover
  | supvecWrite | evtailWrite | evdropClear | logbaseWrite
  | loglenWrite | tailWrite | dropClear
  -- events of the service die, the clocks and the power input
  | selftestComplete
  | boot
  | powerFailDrain
  | portNoActiveLane
  | syncBeat
  | packageMarkUpdate
  | fabricMarkExchange
  | vlcapChange
  -- events of the scheduler
  | admitTeam
  | ageTick
  | saveComplete
  | hartStart
  | tileRunStart
  | stageSwitch
  | teamEnd
  | launchComplete
  | supervisorSlotLanded
  | machineCheck
  -- events of the copy engines and the code stores
  | copyFailure
  | copyLineLand
  | copyComplete
  | copyIssueResume
  | cfetchLand
  -- events that end a stall or a wait of a hart
  | apDecodeResume
  | apResync
  | vwaitMet
  | vwaitTimeout
  | barWake
  | barTimeout
  | bbWake
  | cwaitWake
  | cfwaitWake
  | clkWaitWake
  | clockWide
  | rpAccept
  | rpResult
  | rpTimeout
  | ldAsofRead
  | digWaitWake
  | fenceDone
  | fenceDurDone
  | pbarComplete
  | commitWait
  | lnchAnswer
  | tlbinvComplete
  | pgmigComplete
  -- events of the memory system
  | writeApply
  | dupWritePerform
  | migrationTimeout
  | cellarAccept
  | scrubBurst
  | filterClear
  | rowSpareBurst
  | rowSpareRemap
  | wearLevelMove
  | laneSpareSwitch
  | logWrite
  | eventWrite
  | unlistedCommandCode
  | storeAppliedToL2
  | fabricWindowAccess
  deriving DecidableEq, Repr

end Sys2Proof
end

