-- ==== Sys2Proof/Decode.lean ====
section
/-! DEFINITION. The decoder and the encoder of instruction words (08_encoding, 22_instruction_exceptions), and the reading
of command records (Tables 15.1 and 15.2).

A word is first cut into the fields of its format (Table 8.1), the major and the function code then choose the
instruction (Tables 8.8 and 8.9), and the checks of R167 and R372 come last, in the order of R168. -/

namespace Sys2Proof

/-- Why a word is not an instruction (Table 8.10). -/
inductive DecodeError where
  /-- Class 0x400: a reserved major. -/
  | reservedMajor
  /-- Class 0x401: a reserved FN, COND or slot OP; `slot1` where it lies in slot 1. -/
  | reservedFunction (slot1 : Bool)
  /-- Class 0x402, or the value that a rule of its own gives in its place. -/
  | reservedValue (tval : Word)
  /-- Class 0x403: a non-zero field that the function does not use. -/
  | unusedField (slot1 : Bool)
  deriving DecidableEq, Repr

/-- `sr.tval` of the ILLEGAL that the word raises (R167). -/
def DecodeError.tval : DecodeError → Word
  | .reservedMajor => 0x400
  | .reservedFunction s => if s then 0x411 else 0x401
  | .reservedValue t => t
  | .unusedField s => if s then 0x413 else 0x403

/-- A word cut into the fields of its format (Table 8.1), the major and the function code not yet looked up. -/
inductive Raw where
  | fr (maj : BitVec 7) (fn : BitVec 8) (o : FR)
  | fi (fn : BitVec 4) (o : FI)
  | fb (maj : BitVec 7) (cond : BitVec 4) (o : FB)
  | f3 (maj : BitVec 7) (fn : BitVec 8) (o : F3)
  | fm (maj : BitVec 7) (fn : BitVec 6) (o : FM)
  | fx (maj : BitVec 7) (fn : BitVec 6) (o : FX)
  | fc (maj : BitVec 7) (fn : BitVec 8) (o : FC)
  | epep (op : BitVec 6) (s : EpArgs) (p : EpSlot)
  | apep (op : BitVec 6) (s : ApArgs) (p : EpSlot)
  deriving DecidableEq, Repr

/-! ### Cutting a word into fields -/

/-- Format FR below MAJ and FN. -/
def unpackFR (w : Word) : FR :=
  ⟨w.extractLsb' 42 6, w.extractLsb' 36 6, w.extractLsb' 30 6, w.extractLsb' 24 6, w.extractLsb' 20 4, w.extractLsb' 0 20⟩

/-- Format FI below MAJ and FN. -/
def unpackFI (w : Word) : FI :=
  ⟨w.extractLsb' 46 6, w.extractLsb' 40 6, w.extractLsb' 36 4, w.extractLsb' 0 36⟩

/-- Format FB below MAJ and COND. -/
def unpackFB (w : Word) : FB :=
  ⟨w.extractLsb' 46 6, w.extractLsb' 40 6, w.extractLsb' 36 4, w.extractLsb' 0 36⟩

/-- Format F3 below MAJ and FN. -/
def unpackF3 (w : Word) : F3 :=
  ⟨w.extractLsb' 40 8, w.extractLsb' 32 8, w.extractLsb' 24 8, w.extractLsb' 20 4, w.getLsbD 19, w.getLsbD 18,
    w.getLsbD 17, w.getLsbD 16, w.extractLsb' 12 4, w.extractLsb' 0 12⟩

/-- Format FM below MAJ and FN. -/
def unpackFM (w : Word) : FM :=
  ⟨w.extractLsb' 42 8, w.extractLsb' 36 6, w.extractLsb' 28 8, w.extractLsb' 24 4, w.getLsbD 23, w.extractLsb' 20 3,
    w.getLsbD 19, w.extractLsb' 16 3, w.extractLsb' 12 4, w.extractLsb' 7 5, w.extractLsb' 0 7⟩

/-- Format FX below MAJ and FN. -/
def unpackFX (w : Word) : FX :=
  ⟨w.extractLsb' 42 8, w.extractLsb' 39 3, w.extractLsb' 36 3, w.extractLsb' 28 8, w.extractLsb' 21 7, w.extractLsb' 17 4,
    w.getLsbD 16, w.extractLsb' 12 4, w.extractLsb' 8 4, w.extractLsb' 0 8⟩

/-- Format FC below MAJ and FN. -/
def unpackFC (w : Word) : FC :=
  ⟨w.extractLsb' 42 6, w.extractLsb' 36 6, w.extractLsb' 30 6, w.extractLsb' 24 6, w.extractLsb' 18 6, w.extractLsb' 14 4,
    w.extractLsb' 0 14⟩

/-- The fields below OP of the EP slot whose bit 0 lies at bit `lo` of the word (R161). -/
def unpackEpArgs (w : Word) (lo : Nat) : EpArgs :=
  ⟨w.extractLsb' (lo + 17) 8, w.extractLsb' (lo + 9) 8, w.extractLsb' (lo + 5) 4, w.extractLsb' lo 5⟩

/-- Slot 1 of a paired word: the EP slot in bits [30:0] (R160, R161). -/
def unpackSlot1 (w : Word) : EpSlot := ⟨w.extractLsb' 25 6, unpackEpArgs w 0⟩

/-- Slot 0 of an AP+EP word below its OP, in bits [55:31] (R162). -/
def unpackApArgs (w : Word) : ApArgs := ⟨w.extractLsb' 50 6, w.extractLsb' 44 6, w.extractLsb' 31 13⟩

/-- The fields of the word by its PR, PS and major (R152, Table 8.8); none for a reserved major. -/
def Raw.unpack (w : Word) : Option Raw :=
  let maj := w.extractLsb' 56 7
  if w.getLsbD 63 then
    if w.getLsbD 62 then some (.apep (w.extractLsb' 56 6) (unpackApArgs w) (unpackSlot1 w))
    else some (.epep (w.extractLsb' 56 6) (unpackEpArgs w 31) (unpackSlot1 w))
  else match maj.toNat with
    | 0x01 | 0x08 | 0x09 | 0x0D => some (.fr maj (w.extractLsb' 48 8) (unpackFR w))
    | 0x02 => some (.fi (w.extractLsb' 52 4) (unpackFI w))
    | 0x0C | 0x0E => some (.fb maj (w.extractLsb' 52 4) (unpackFB w))
    | 0x18 | 0x19 | 0x1A | 0x1B | 0x1C | 0x1D | 0x1E | 0x7E => some (.f3 maj (w.extractLsb' 48 8) (unpackF3 w))
    | 0x20 | 0x21 => some (.fm maj (w.extractLsb' 50 6) (unpackFM w))
    | 0x28 => some (.fx maj (w.extractLsb' 50 6) (unpackFX w))
    | 0x10 | 0x29 | 0x30 | 0x31 | 0x32 | 0x38 | 0x39 => some (.fc maj (w.extractLsb' 48 8) (unpackFC w))
    | _ => none

/-! ### Choosing the instruction (Table 8.9, and Table 22.3 for what is reserved) -/

/-- Major 0x01 by FN (Table 8.9). -/
def selectFr01 (fn : Nat) (o : FR) : Option Instr :=
  match fn with
  | 0x00 => some (.add o)
  | 0x01 => some (.sub o)
  | 0x02 => some (.mul o)
  | 0x03 => some (.mulh o)
  | 0x04 => some (.mulhu o)
  | 0x05 => some (.div o)
  | 0x06 => some (.divu o)
  | 0x07 => some (.rem o)
  | 0x08 => some (.remu o)
  | 0x09 => some (.and o)
  | 0x0A => some (.or o)
  | 0x0B => some (.xor o)
  | 0x0C => some (.andn o)
  | 0x0D => some (.sll o)
  | 0x0E => some (.srl o)
  | 0x0F => some (.sra o)
  | 0x10 => some (.slt o)
  | 0x11 => some (.sltu o)
  | 0x12 => some (.min o)
  | 0x13 => some (.max o)
  | 0x14 => some (.minu o)
  | 0x15 => some (.maxu o)
  | 0x16 => some (.cmov o)
  | 0x17 => some (.clz o)
  | 0x18 => some (.ctz o)
  | 0x19 => some (.popc o)
  | 0x1A => some (.bext o)
  | 0x1B => some (.bins o)
  | _ => none

/-- Major 0x08 by FN = kind × 4 + size (R178). -/
def selectFr08 (fn : BitVec 8) (o : FR) : Option Instr :=
  match (fn.extractLsb' 2 6).toNat with
  | 0 => some (.ld (fn.extractLsb' 0 2) o)
  | 1 => some (.ldz (fn.extractLsb' 0 2) o)
  | 2 => some (.st (fn.extractLsb' 0 2) o)
  | 3 => some (.ldAcq (fn.extractLsb' 0 2) o)
  | 4 => some (.stRel (fn.extractLsb' 0 2) o)
  | _ => none

/-- Major 0x09 by FN[6:0], FN[7] the width (R181). -/
def selectFr09 (fn : BitVec 8) (o : FR) : Option Instr :=
  match (fn.extractLsb' 0 7).toNat with
  | 0x00 => some (.amoAdd (fn.getLsbD 7) o)
  | 0x01 => some (.amoAnd (fn.getLsbD 7) o)
  | 0x02 => some (.amoOr (fn.getLsbD 7) o)
  | 0x03 => some (.amoXor (fn.getLsbD 7) o)
  | 0x04 => some (.amoMin (fn.getLsbD 7) o)
  | 0x05 => some (.amoMax (fn.getLsbD 7) o)
  | 0x06 => some (.amoMinu (fn.getLsbD 7) o)
  | 0x07 => some (.amoMaxu (fn.getLsbD 7) o)
  | 0x08 => some (.amoSwap (fn.getLsbD 7) o)
  | 0x09 => some (.amoCas (fn.getLsbD 7) o)
  | 0x0A => some (.amoFadd (fn.getLsbD 7) o)
  | _ => none

/-- Major 0x0D by FN. -/
def selectFr0d (fn : Nat) (o : FR) : Option Instr :=
  match fn with
  | 0x00 => some (.jr o)
  | 0x01 => some (.jmpF o)
  | 0x02 => some (.callt o)
  | 0x03 => some .ret
  | _ => none

/-- Major 0x02 by FN. -/
def selectFi02 (fn : Nat) (o : FI) : Option Instr :=
  match fn with
  | 0x00 => some (.addi o)
  | 0x01 => some (.andi o)
  | 0x02 => some (.ori o)
  | 0x03 => some (.xori o)
  | 0x04 => some (.slli o)
  | 0x05 => some (.srli o)
  | 0x06 => some (.srai o)
  | 0x07 => some (.slti o)
  | 0x08 => some (.sltiu o)
  | 0x09 => some (.ldi o)
  | 0x0A => some (.ldhi o)
  | 0x0B => some (.adpc o)
  | _ => none

/-- Major 0x0C by COND. -/
def selectFb0c (fn : Nat) (o : FB) : Option Instr :=
  match fn with
  | 0x00 => some (.beq o)
  | 0x01 => some (.bne o)
  | 0x02 => some (.blt o)
  | 0x03 => some (.bge o)
  | 0x04 => some (.bltu o)
  | 0x05 => some (.bgeu o)
  | 0x06 => some (.jmp o)
  | 0x07 => some (.call o)
  | _ => none

/-- Major 0x0E by COND. -/
def selectFb0e (fn : Nat) (o : FB) : Option Instr :=
  match fn with
  | 0x00 => some (.bvAny o)
  | 0x01 => some (.bvNone o)
  | 0x02 => some (.bvAll o)
  | 0x03 => some (.bvNall o)
  | 0x08 => some (.brot o)
  | 0x09 => some (.bloop o)
  | _ => none

/-- Major 0x18 by FN. -/
def selectF318 (fn : Nat) (o : F3) : Option Instr :=
  match fn with
  | 0x00 => some (.vadd o)
  | 0x01 => some (.vsub o)
  | 0x02 => some (.vmul o)
  | 0x03 => some (.vmulh o)
  | 0x04 => some (.vfma o)
  | 0x05 => some (.vfms o)
  | 0x06 => some (.vfnma o)
  | 0x07 => some (.vdiv o)
  | 0x08 => some (.vrem o)
  | 0x09 => some (.vsqrt o)
  | 0x0A => some (.vrcp o)
  | 0x0B => some (.vrsqrt o)
  | 0x0C => some (.vmin o)
  | 0x0D => some (.vmax o)
  | 0x0E => some (.vabs o)
  | 0x0F => some (.vneg o)
  | 0x10 => some (.vand o)
  | 0x11 => some (.vor o)
  | 0x12 => some (.vxor o)
  | 0x13 => some (.vandn o)
  | 0x14 => some (.vnot o)
  | 0x15 => some (.vsll o)
  | 0x16 => some (.vsrl o)
  | 0x17 => some (.vsra o)
  | 0x18 => some (.vclz o)
  | 0x19 => some (.vpopc o)
  | 0x1A => some (.vcvt o)
  | 0x1B => some (.vmov o)
  | 0x1C => some (.vsel o)
  | 0x1D => some (.vexp2 o)
  | 0x1E => some (.vlog2 o)
  | _ => none

/-- Major 0x19 by FN. -/
def selectF319 (fn : Nat) (o : F3) : Option Instr :=
  match fn with
  | 0x00 => some (.vcmp o)
  | 0x01 => some (.vclass o)
  | _ => none

/-- Major 0x1A by FN. -/
def selectF31a (fn : Nat) (o : F3) : Option Instr :=
  match fn with
  | 0x00 => some (.mand o)
  | 0x01 => some (.mor o)
  | 0x02 => some (.mxor o)
  | 0x03 => some (.mandn o)
  | 0x04 => some (.mnot o)
  | 0x05 => some (.mpopc o)
  | 0x06 => some (.mfirst o)
  | 0x07 => some (.mset o)
  | 0x08 => some (.vmsk o)
  | _ => none

/-- Major 0x1B by FN. -/
def selectF31b (fn : Nat) (o : F3) : Option Instr :=
  match fn with
  | 0x00 => some (.vred o)
  | 0x01 => some (.vscan o)
  | 0x02 => some (.vdot o)
  | 0x03 => some (.vdotg o)
  | 0x04 => some (.vsac o)
  | 0x05 => some (.vsacb o)
  | _ => none

/-- Major 0x1C by FN. -/
def selectF31c (fn : Nat) (o : F3) : Option Instr :=
  match fn with
  | 0x00 => some (.vslup o)
  | 0x01 => some (.vsldn o)
  | 0x02 => some (.vperm o)
  | 0x03 => some (.vcompress o)
  | 0x04 => some (.vexpand o)
  | 0x05 => some (.vzip o)
  | 0x06 => some (.vunzip o)
  | 0x07 => some (.vrev o)
  | _ => none

/-- Major 0x1D by FN. -/
def selectF31d (fn : Nat) (o : F3) : Option Instr :=
  match fn with
  | 0x00 => some (.vpack4 o)
  | 0x01 => some (.vunpk4 o)
  | 0x02 => some (.vbscale o)
  | _ => none

/-- Major 0x1E by FN. -/
def selectF31e (fn : Nat) (o : F3) : Option Instr :=
  match fn with
  | 0x00 => some (.vcfg o)
  | 0x01 => some (.vsetl o)
  | 0x02 => some (.vlq o)
  | 0x03 => some (.vtag o)
  | 0x04 => some (.vrotb o)
  | 0x05 => some (.vdead o)
  | 0x06 => some (.vmvAe o)
  | 0x07 => some (.vmvEa o)
  | 0x08 => some (.vbcast o)
  | 0x09 => some (.vid o)
  | _ => none

/-- Major 0x7E by FN. -/
def selectF37e (fn : Nat) (o : F3) : Option Instr :=
  match fn with
  | 0x00 => some (.vmac o)
  | 0x01 => some (.vrecip o)
  | 0x02 => some (.vsum o)
  | 0x03 => some (.vldu o)
  | _ => none

/-- Major 0x20 by FN. -/
def selectFm20 (fn : Nat) (o : FM) : Option Instr :=
  match fn with
  | 0x00 => some (.vld o)
  | 0x01 => some (.vlds o)
  | 0x02 => some (.vldx o)
  | 0x03 => some (.vldseg o)
  | 0x04 => some (.vldm o)
  | 0x05 => some (.vpref o)
  | 0x08 => some (.vst o)
  | 0x09 => some (.vsts o)
  | 0x0A => some (.vstx o)
  | 0x0B => some (.vstseg o)
  | 0x0C => some (.vstm o)
  | 0x0D => some (.vamoadd o)
  | 0x10 => some (.vspill o)
  | 0x11 => some (.vfill o)
  | 0x12 => some (.vwait o)
  | 0x13 => some (.vsave o)
  | 0x14 => some (.vrest o)
  | _ => none

/-- Major 0x21 by FN. -/
def selectFm21 (fn : Nat) (o : FM) : Option Instr :=
  match fn with
  | 0x00 => some (.rpSend o)
  | 0x01 => some (.rpRecv o)
  | _ => none

/-- Major 0x28 by FN. -/
def selectFx28 (fn : Nat) (o : FX) : Option Instr :=
  match fn with
  | 0x00 => some (.mma o)
  | 0x01 => some (.mmasp o)
  | 0x02 => some (.mzero o)
  | 0x03 => some (.mvat2v o)
  | 0x04 => some (.mv2vat o)
  | 0x05 => some (.mv2t o)
  | 0x06 => some (.mt2v o)
  | _ => none

/-- `swr` by the register that X[11:0] names (R272). -/
def selectSwr (o : FC) : Instr :=
  match (o.x.extractLsb' 0 12).toNat with
  | 0x000 => .swrVl o
  | 0x003 => .swrFcsr o
  | 0x011 => .swrSlots o
  | 0x019 => .swrEc o
  | 0x01A => .swrRrb o
  | _ => .swr o

/-- Major 0x10 by FN. -/
def selectFc10 (fn : Nat) (o : FC) : Option Instr :=
  match fn with
  | 0x00 => some .nop
  | 0x01 => some (.trap o)
  | 0x02 => some .eret
  | 0x03 => some (.srd o)
  | 0x04 => some (selectSwr o)
  | 0x05 => some .halt
  | 0x06 => some (.brk o)
  | 0x07 => some .syncAe
  | 0x08 => some (.tlbinv o)
  | 0x09 => some (.pgmig o)
  | _ => none

/-- Major 0x29 by FN. -/
def selectFc29 (fn : Nat) (o : FC) : Option Instr :=
  match fn with
  | 0x00 => some (.mshape o)
  | 0x01 => some (.mldt o)
  | 0x02 => some (.mstt o)
  | 0x03 => some (.mldvat o)
  | 0x04 => some (.mstvat o)
  | 0x05 => some (.mrdshape o)
  | _ => none

/-- Major 0x30 by FN. -/
def selectFc30 (fn : Nat) (o : FC) : Option Instr :=
  match fn with
  | 0x00 => some (.cpy o)
  | 0x01 => some (.cpy2d o)
  | 0x02 => some (.cpyBb o)
  | 0x03 => some (.cwaitAny o)
  | 0x04 => some (.cwaitAll o)
  | 0x05 => some (.cffr o)
  | 0x06 => some (.cdone o)
  | 0x07 => some (.cclr o)
  | _ => none

/-- Major 0x31 by FN. -/
def selectFc31 (fn : Nat) (o : FC) : Option Instr :=
  match fn with
  | 0x00 => some (.bbInit o)
  | 0x01 => some (.bbExpect o)
  | 0x02 => some (.bbArrive o)
  | 0x03 => some (.bbWait o)
  | 0x04 => some (.bbTest o)
  | _ => none

/-- Major 0x32 by FN. -/
def selectFc32 (fn : Nat) (o : FC) : Option Instr :=
  match fn with
  | 0x00 => some (.barArrive o)
  | 0x01 => some (.barWait o)
  | 0x02 => some (.barSync o)
  | 0x03 => some (.barMset o)
  | 0x04 => some (.barGen o)
  | _ => none

/-- Major 0x38 by FN. -/
def selectFc38 (fn : Nat) (o : FC) : Option Instr :=
  match fn with
  | 0x00 => some (.fence o)
  | 0x01 => some (.fencePath o)
  | 0x02 => some .pbar
  | 0x03 => some .fenceDur
  | 0x04 => some (.stStamp o)
  | 0x05 => some (.ldAsof o)
  | 0x06 => some (.clkRd o)
  | 0x07 => some (.clkWait o)
  | _ => none

/-- Major 0x39 by FN. -/
def selectFc39 (fn : Nat) (o : FC) : Option Instr :=
  match fn with
  | 0x00 => some (.cfetch o)
  | 0x01 => some (.cfwait o)
  | 0x02 => some (.lnch o)
  | 0x03 => some (.claimWork o)
  | 0x04 => some .yield
  | 0x05 => some (.digPost o)
  | 0x06 => some (.digWait o)
  | _ => none

/-- A paired word with PS = 0 by the OP of slot 0 (Table 8.5). -/
def selectEp (op : Nat) (s : EpArgs) (p : EpSlot) : Option Instr :=
  match op with
  | 0x00 => some (.epSlotVadd s p)
  | 0x01 => some (.epSlotVsub s p)
  | 0x02 => some (.epSlotVmul s p)
  | 0x03 => some (.epSlotVmin s p)
  | 0x04 => some (.epSlotVmax s p)
  | 0x05 => some (.epSlotVand s p)
  | 0x06 => some (.epSlotVor s p)
  | 0x07 => some (.epSlotVxor s p)
  | 0x08 => some (.epSlotVmov s p)
  | 0x09 => some (.epSlotVcvt s p)
  | 0x0A => some (.epSlotVslli s p)
  | 0x0B => some (.epSlotVsrli s p)
  | 0x0C => some (.epSlotVsrai s p)
  | 0x0D => some (.epSlotVneg s p)
  | 0x0E => some (.epSlotVabs s p)
  | 0x10 => some (.epSlotVaddi s p)
  | _ => none

/-- A paired word with PS = 1 by the OP of slot 0 (Table 8.6). -/
def selectAp (op : Nat) (s : ApArgs) (p : EpSlot) : Option Instr :=
  match op with
  | 0x00 => some (.apSlotAdd s p)
  | 0x01 => some (.apSlotSub s p)
  | 0x02 => some (.apSlotAnd s p)
  | 0x03 => some (.apSlotOr s p)
  | 0x04 => some (.apSlotXor s p)
  | 0x10 => some (.apSlotAddi s p)
  | 0x11 => some (.apSlotSlli s p)
  | 0x12 => some (.apSlotSrli s p)
  | 0x13 => some (.apSlotLdi s p)
  | _ => none
/-- The instruction of a cut word; none for a reserved function code (R370). -/
def Raw.select : Raw → Option Instr
  | .fr maj fn o => match maj.toNat with
    | 0x01 => selectFr01 fn.toNat o
    | 0x08 => selectFr08 fn o
    | 0x09 => selectFr09 fn o
    | 0x0D => selectFr0d fn.toNat o
    | _ => none
  | .fi fn o => selectFi02 fn.toNat o
  | .fb maj cond o => match maj.toNat with
    | 0x0C => selectFb0c cond.toNat o
    | 0x0E => selectFb0e cond.toNat o
    | _ => none
  | .f3 maj fn o => match maj.toNat with
    | 0x18 => selectF318 fn.toNat o
    | 0x19 => selectF319 fn.toNat o
    | 0x1A => selectF31a fn.toNat o
    | 0x1B => selectF31b fn.toNat o
    | 0x1C => selectF31c fn.toNat o
    | 0x1D => selectF31d fn.toNat o
    | 0x1E => selectF31e fn.toNat o
    | 0x7E => selectF37e fn.toNat o
    | _ => none
  | .fm maj fn o => match maj.toNat with
    | 0x20 => selectFm20 fn.toNat o
    | 0x21 => selectFm21 fn.toNat o
    | _ => none
  | .fx maj fn o => match maj.toNat with
    | 0x28 => selectFx28 fn.toNat o
    | _ => none
  | .fc maj fn o => match maj.toNat with
    | 0x10 => selectFc10 fn.toNat o
    | 0x29 => selectFc29 fn.toNat o
    | 0x30 => selectFc30 fn.toNat o
    | 0x31 => selectFc31 fn.toNat o
    | 0x32 => selectFc32 fn.toNat o
    | 0x38 => selectFc38 fn.toNat o
    | 0x39 => selectFc39 fn.toNat o
    | _ => none
  | .epep op s p => selectEp op.toNat s p
  | .apep op s p => selectAp op.toNat s p

/-! ### Element tags (Table 3.1) and TY codes (Table 8.3) -/

/-- The code is one of Table 3.1. -/
def tagListed (t : BitVec 5) : Bool := t.toNat ≤ 0x0D || (0x10 ≤ t.toNat && t.toNat ≤ 0x13)

/-- A tag of the q4 family. -/
def tagIsQ4 (t : BitVec 5) : Bool := 0x10 ≤ t.toNat && t.toNat ≤ 0x13

/-- A float tag: e4m3, e5m2, f16, bf16, f32 or f64. -/
def tagIsFloat (t : BitVec 5) : Bool := 0x08 ≤ t.toNat && t.toNat ≤ 0x0D

/-- An integer tag. -/
def tagIsInt (t : BitVec 5) : Bool := t.toNat ≤ 0x07

/-- A two's-complement integer tag. -/
def tagIsSigned (t : BitVec 5) : Bool := 0x04 ≤ t.toNat && t.toNat ≤ 0x07

/-- The element width in bits (Table 3.1). -/
def tagWidth (t : BitVec 5) : Nat := match t.toNat with
  | 0x00 | 0x04 | 0x08 | 0x09 => 8
  | 0x01 | 0x05 | 0x0A | 0x0B => 16
  | 0x02 | 0x06 | 0x0C => 32
  | 0x03 | 0x07 | 0x0D => 64
  | _ => 4

/-! ### The checks of a decoded word (R167, R372; Tables 22.4 and 22.5) -/

/-- A reserved value in a defined field: class 0x402. -/
def reserved (bad : Bool) : Option DecodeError := if bad then some (.reservedValue 0x402) else none

/-- A reserved value that reports `t` (R167, last sentence). -/
def reservedAs (bad : Bool) (t : Word) : Option DecodeError := if bad then some (.reservedValue t) else none

/-- A non-zero field that the function does not use: class 0x403. -/
def unused (bad : Bool) : Option DecodeError := if bad then some (.unusedField false) else none

/-- A scope of 6 or 7 reports itself (R94). -/
def badScope (s : BitVec 3) : Option DecodeError := reservedAs (6 ≤ s.toNat) (s.setWidth 64)

/-- A field of eight bits that names an a-register has bits [7:6] clear (R196, R228). -/
def badA8 (f : BitVec 8) : Option DecodeError := reserved (f.extractLsb' 6 2 != 0)

/-- A field of eight bits that names a mask has bits [7:4] clear (R196). -/
def badM8 (f : BitVec 8) : Option DecodeError := reserved (f.extractLsb' 4 4 != 0)

/-- A field that names a mask destination: not m0, bits [7:4] clear (R154, R196). -/
def badMDest (f : BitVec 8) : Option DecodeError := reserved (f.extractLsb' 4 4 != 0 || f.extractLsb' 0 4 == 0)

/-- A and B sources of F3: bits [7:3] of a field that names a queue are 0 (R155). Table 22.5 asks it of every F3 word with
QA or QB set, of one whose function takes no queue too. -/
def badQueues (o : F3) : Option DecodeError :=
  reserved ((o.qa && o.a.extractLsb' 3 5 != 0) || (o.qb && o.b.extractLsb' 3 5 != 0))

/-- The destination of a cross-element instruction names no source (R198). The rotation of R38 is one to one on names,
so two names agree after it exactly when they agree before it. -/
def badOverlap (o : F3) (useB : Bool) : Option DecodeError :=
  reserved ((!o.qa && o.a == o.d) || (useB && !o.qb && o.b == o.d))

/-- F3, two sources: X is unused. -/
def checkF3Two (o : F3) : Option DecodeError := badQueues o <|> unused (o.spare || o.x != 0)

/-- F3, one source: B, QB and X are unused. -/
def checkF3One (o : F3) : Option DecodeError := badQueues o <|> unused (o.spare || o.b != 0 || o.qb || o.x != 0)

/-- A mask operation of R210: only D, A and B, each a mask. -/
def checkMaskOp (o : F3) (useB : Bool) : Option DecodeError :=
  badMDest o.d <|> badM8 o.a <|> (if useB then badM8 o.b else none) <|> badQueues o
    <|> unused (o.spare || o.msk != 0 || o.mu || o.qa || o.qb || o.x != 0 || (!useB && o.b != 0))

/-- FR with the fields of a two-source operation: C and IMM unused (Table 9.2). -/
def checkFRTwo (o : FR) : Option DecodeError := unused (o.c != 0 || o.imm != 0)

/-- An atomic (R181): IMM[19:5] unused, and C too where `useC` is false. -/
def checkAmo (o : FR) (useC : Bool) : Option DecodeError :=
  badScope (o.imm.extractLsb' 0 3) <|> unused (o.imm.extractLsb' 5 15 != 0 || (!useC && o.c != 0))

/-- MT of a vector load or store (R228, R229). A function whose MT must be 0 refuses an unlisted or q4 code as a reserved
value before it refuses a non-zero field (R168). -/
def badMt (mt : BitVec 5) (q4 : Bool) : Option DecodeError := reserved (!tagListed mt || (!q4 && tagIsQ4 mt))

/-- Q, WR, QN and V of a load are a row of Table 11.2, and an entry holds 32 bits an element (R229). -/
def badDest (o : FM) : Option DecodeError :=
  let qn := o.seg.getLsbD 0
  reserved (!((!qn && (o.wr || o.v == 0)) || (qn && o.wr && o.q == 0)) || (!qn && 32 < tagWidth o.mt))

/-- A plain store: Q, WR, SEG and MU are 0 (Table 11.1). -/
def unusedStore (o : FM) : Bool := o.q != 0 || o.wr || o.seg != 0 || o.mu

/-- FC with every field of `used` allowed and the others 0; `xm` marks the bits of X that are used. -/
def checkFC (o : FC) (useD useA useB useC useTag : Bool) (xm : BitVec 14) : Option DecodeError :=
  unused ((!useD && o.d != 0) || (!useA && o.a != 0) || (!useB && o.b != 0) || (!useC && o.c != 0)
    || (!useTag && o.tag != 0) || o.x &&& ~~~xm != 0)

/-- The grouping factor (R157). -/
def groupOf (gf : BitVec 3) : Nat := 2 ^ gf.toNat

/-- TY codes 0xC to 0xF are reserved; an f64 form names an even A and an even VC (R157, R257). -/
def badTy (o : FX) : Option DecodeError :=
  reserved (0xC ≤ o.ty.toNat || (o.ty == 0 && (o.a.getLsbD 0 || o.vc.getLsbD 0)))

/-- GF = 7, or VR + G − 1 above 255 (R157, R257). -/
def badGroup (o : FX) : Option DecodeError := reserved (o.gf == 7 || 255 < o.vr.toNat + groupOf o.gf - 1)

/-- SRC = 1 (R257, R258; Table 22.5). -/
def badVatSource (o : FX) : Option DecodeError :=
  let g := groupOf o.gf
  reserved (o.src && (6 ≤ o.ty.toNat || 255 < o.a.toNat + g - 1
    || (o.a.toNat < o.vr.toNat + g && o.vr.toNat < o.a.toNat + g)))

/-- The decode checks that every word of format FX obeys, whatever of its fields the function uses (R257; Table 22.5). -/
def checkFX (o : FX) : Option DecodeError := badGroup o <|> badTy o <|> badVatSource o

/-- The IMM of an EP slot is used by the ops 0x0A to 0x0C and 0x10 alone (R161). -/
def badEpImm (op : BitVec 6) (s : EpArgs) : Bool :=
  s.imm != 0 && !((0x0A ≤ op.toNat && op.toNat ≤ 0x0C) || op.toNat == 0x10)

/-- An OP of Table 8.5. -/
def epOpListed (op : BitVec 6) : Bool := op.toNat ≤ 0x0E || op.toNat == 0x10

/-- An EP+EP word after slot 0's OP (Table 22.4). -/
def checkEp (op : BitVec 6) (s : EpArgs) (p : EpSlot) : Option DecodeError :=
  if !epOpListed p.op then some (.reservedFunction true)
  else if badEpImm op s then some (.unusedField false)
  else if badEpImm p.op p.args then some (.unusedField true) else none

/-- An AP+EP word after slot 0's OP; `bad0` says that slot 0 has a non-zero unused field (Table 22.4). -/
def checkAp (bad0 : Bool) (p : EpSlot) : Option DecodeError :=
  if !epOpListed p.op then some (.reservedFunction true)
  else if bad0 then some (.unusedField false)
  else if badEpImm p.op p.args then some (.unusedField true) else none

/-- The first failing check of a word's fields, classes 0x402 before 0x403 (R168); commands and events have none. -/
def fieldError : Instr → Option DecodeError
  -- Table 9.2
  | .add o | .sub o | .mul o | .mulh o | .mulhu o | .div o | .divu o | .rem o | .remu o | .and o | .or o | .xor o
  | .andn o | .sll o | .srl o | .sra o | .slt o | .sltu o | .min o | .max o | .minu o | .maxu o => checkFRTwo o
  | .cmov o => unused (o.imm != 0)
  | .clz o | .ctz o | .popc o => unused (o.b != 0 || o.c != 0 || o.imm != 0)
  | .bext o =>
    let len := (o.imm.extractLsb' 6 7).toNat
    reserved (len == 0 || 64 < (o.imm.extractLsb' 0 6).toNat + len)
      <|> unused (o.b != 0 || o.c != 0 || o.imm.extractLsb' 14 6 != 0)
  | .bins o =>
    let len := (o.imm.extractLsb' 6 7).toNat
    reserved (len == 0 || 64 < (o.imm.extractLsb' 0 6).toNat + len)
      <|> unused (o.b != 0 || o.c != 0 || o.imm.extractLsb' 13 7 != 0)
  -- Table 9.4
  | .addi _ | .andi _ | .ori _ | .xori _ | .slti _ | .sltiu _ | .ldhi _ => none
  | .slli o | .srli o | .srai o => unused (o.imm.extractLsb' 6 30 != 0)
  | .ldi o | .adpc o => unused (o.a != 0)
  -- Table 9.6
  | .ld _ o | .ldz _ o => unused (o.b != 0 || o.c != 0)
  | .st _ o => unused (o.d != 0 || o.c != 0)
  | .ldAcq _ o => badScope (o.imm.extractLsb' 0 3) <|> unused (o.b != 0 || o.c != 0 || o.imm.extractLsb' 3 17 != 0)
  | .stRel _ o => badScope (o.imm.extractLsb' 0 3) <|> unused (o.d != 0 || o.c != 0 || o.imm.extractLsb' 3 17 != 0)
  -- R181
  | .amoAdd _ o | .amoAnd _ o | .amoOr _ o | .amoXor _ o | .amoMin _ o | .amoMax _ o | .amoMinu _ o | .amoMaxu _ o
  | .amoSwap _ o | .amoFadd _ o => checkAmo o false
  | .amoCas _ o => checkAmo o true
  -- R186, R188, R191, R192
  | .beq _ | .bne _ | .blt _ | .bge _ | .bltu _ | .bgeu _ => none
  | .jmp o | .call o | .brot o | .bloop o => unused (o.a != 0 || o.b != 0)
  | .jr o | .jmpF o => unused (o.d != 0 || o.b != 0 || o.c != 0 || o.imm != 0)
  | .callt o => unused (o.d != 0 || o.b != 0 || o.c != 0)
  | .bvAny o | .bvNone o | .bvAll o | .bvNall o => unused (o.a.extractLsb' 4 2 != 0 || o.b.extractLsb' 4 2 != 0)
  -- Table 12.11
  | .trap o | .brk o => checkFC o false false false false false 0x3FFF
  | .srd o => checkFC o true false false false false 0xFFF
  | .swr o | .swrFcsr o | .swrSlots o | .swrVl o | .swrRrb o | .swrEc o => checkFC o false true false false false 0xFFF
  | .tlbinv o => reserved (o.x.getLsbD 1) <|> checkFC o false true false false false 0xF
  | .pgmig o => reserved (o.x.extractLsb' 0 2 == 3) <|> checkFC o true true true false false 0x3
  -- Table 10.2
  | .vadd o | .vsub o | .vmul o | .vmulh o | .vfma o | .vfms o | .vfnma o | .vdiv o | .vrem o | .vmin o | .vmax o
  | .vand o | .vor o | .vxor o | .vandn o | .vsll o | .vsrl o | .vsra o => checkF3Two o
  | .vsqrt o | .vrcp o | .vrsqrt o | .vabs o | .vneg o | .vnot o | .vclz o | .vpopc o | .vcvt o | .vmov o
  | .vexp2 o | .vlog2 o => checkF3One o
  | .vsel o => reserved o.mu <|> checkF3Two o
  -- R208-R211
  | .vcmp o => badMDest o.d <|> badQueues o <|> unused (o.spare || o.x.extractLsb' 3 9 != 0)
  | .vclass o => checkF3One o
  | .mand o | .mor o | .mxor o | .mandn o => checkMaskOp o true
  | .mnot o => checkMaskOp o false
  | .mpopc o | .mfirst o => badM8 o.a <|> badQueues o <|> unused (o.spare || o.qa || o.b != 0 || o.qb || o.x != 0)
  | .mset o => badMDest o.d <|> badQueues o <|> reserved (128 < (o.x.extractLsb' 0 8).toNat)
      <|> unused (o.spare || o.a != 0 || o.b != 0 || o.msk != 0 || o.mu || o.qa || o.qb || o.x.extractLsb' 8 4 != 0)
  | .vmsk o => badMDest o.d <|> checkF3One o
  -- R212-R216
  | .vred o => badQueues o <|> reserved (6 ≤ (o.x.extractLsb' 0 3).toNat || o.mu) <|> badOverlap o false
      <|> unused (o.spare || o.b != 0 || o.qb || o.x.extractLsb' 3 9 != 0)
  | .vscan o => badQueues o <|> reserved (6 ≤ (o.x.extractLsb' 0 3).toNat) <|> badOverlap o false
      <|> unused (o.spare || o.b != 0 || o.qb || o.x.extractLsb' 3 9 != 0)
  | .vdot o | .vsacb o | .vmac o => badQueues o <|> reserved o.mu <|> badOverlap o true <|> unused (o.spare || o.x != 0)
  | .vdotg o => badQueues o <|> reserved (o.mu || o.x.extractLsb' 0 3 == 0) <|> badOverlap o true
      <|> unused (o.spare || o.x.extractLsb' 3 9 != 0)
  | .vsac o => checkF3Two o
  -- Table 10.7
  | .vslup o | .vsldn o => badQueues o <|> badOverlap o false
      <|> unused (o.spare || o.b != 0 || o.qb || o.x.extractLsb' 7 5 != 0)
  | .vperm o | .vzip o => badQueues o <|> badOverlap o true <|> unused (o.spare || o.x != 0)
  | .vcompress o | .vexpand o | .vrev o => badOverlap o false <|> checkF3One o
  | .vunzip o => badQueues o <|> badOverlap o true <|> unused (o.spare || o.x.extractLsb' 1 11 != 0)
  -- R218-R220
  | .vpack4 o => checkF3One o
  | .vunpk4 o | .vbscale o => checkF3Two o
  -- R221-R226
  | .vcfg o =>
    let tag := o.x.extractLsb' 0 5
    reservedAs (!tagListed tag) (tag.setWidth 64) <|> badQueues o
      <|> reserved (255 < o.d.toNat + (o.x.extractLsb' 6 6).toNat * (if tagWidth tag = 64 then 2 else 1))
      <|> unused (o.spare || o.a != 0 || o.b != 0 || o.msk != 0 || o.mu || o.qa || o.qb)
  | .vsetl o | .vlq o => badA8 o.d <|> badA8 o.a <|> badQueues o
      <|> unused (o.spare || o.b != 0 || o.msk != 0 || o.mu || o.qa || o.qb || o.x != 0)
  | .vtag o => badA8 o.a <|> badQueues o <|> unused (o.spare || o.b != 0 || o.msk != 0 || o.mu || o.qa || o.qb || o.x != 0)
  | .vrotb o => badQueues o <|> unused (o.spare || o.d != 0 || o.a != 0 || o.b != 0 || o.msk != 0 || o.mu || o.qa || o.qb
      || o.x.extractLsb' 7 5 != 0)
  | .vdead o => badQueues o <|> reserved (255 < o.d.toNat + (o.x.extractLsb' 0 8).toNat)
      <|> unused (o.spare || o.a != 0 || o.b != 0 || o.msk != 0 || o.mu || o.qa || o.qb || o.x.extractLsb' 8 4 != 0)
  | .vmvAe o => badA8 o.a <|> badQueues o <|> reserved (o.x.extractLsb' 7 2 == 3)
      <|> unused (o.spare || o.b != 0 || o.msk != 0 || o.mu || o.qa || o.qb || o.x.extractLsb' 9 3 != 0)
  | .vmvEa o => badA8 o.d <|> badQueues o <|> reserved (o.x.extractLsb' 7 2 == 3)
      <|> unused (o.spare || o.b != 0 || o.msk != 0 || o.mu || o.qb || o.x.extractLsb' 9 3 != 0)
  | .vbcast o => badA8 o.a <|> badQueues o <|> reserved (o.x.extractLsb' 7 2 == 3)
      <|> unused (o.spare || o.b != 0 || o.qa || o.qb || o.x.extractLsb' 9 3 != 0 || o.x.extractLsb' 0 7 != 0)
  | .vid o => badQueues o <|> unused (o.spare || o.a != 0 || o.b != 0 || o.qa || o.qb || o.x != 0)
  -- Table 11.1
  | .vld o => badMt o.mt true <|> badDest o <|> unused (o.x != 0 || o.seg.extractLsb' 1 2 != 0)
  | .vlds o => badMt o.mt false <|> badA8 o.x <|> badDest o <|> unused (o.seg.extractLsb' 1 2 != 0)
  | .vldx o => badMt o.mt false <|> badDest o <|> unused (o.seg.extractLsb' 1 2 != 0)
  | .vldseg o => badMt o.mt false <|> reserved (!o.wr) <|> unused (o.x != 0 || o.q != 0)
  | .vldm o => badMt o.mt false <|> badA8 o.x <|> badDest o
      <|> unused (o.seg.extractLsb' 1 2 != 0 || o.mt != 0 || o.off.extractLsb' 3 4 != 0)
  | .vpref o => badMt o.mt false <|> unused (o.v != 0 || o.x != 0 || unusedStore o)
  | .vst o => badMt o.mt true <|> unused (o.x != 0 || unusedStore o)
  | .vsts o => badMt o.mt false <|> badA8 o.x <|> unused (unusedStore o)
  | .vstx o => badMt o.mt false <|> unused (unusedStore o)
  | .vstseg o => badMt o.mt false <|> unused (o.x != 0 || o.q != 0 || o.wr || o.mu)
  | .vstm o => badMt o.mt false <|> badA8 o.x <|> unused (o.mt != 0 || o.off.extractLsb' 3 4 != 0 || unusedStore o)
  | .vamoadd o => reserved (!([2, 6, 3, 7, 0xC, 0xD].contains o.mt.toNat)) <|> unused (unusedStore o)
  | .vspill o | .vfill o => badMt o.mt false <|> unused (o.x != 0 || o.mt != 0 || o.msk != 0 || unusedStore o)
  | .vwait o => reserved (o.seg.extractLsb' 0 2 == 3 || !([2, 6, 3, 7].contains o.mt.toNat) || o.off.extractLsb' 0 4 == 0)
      <|> unused (o.seg.getLsbD 2 || o.q != 0 || o.wr || o.mu || o.off.extractLsb' 4 3 != 0)
  | .vsave o | .vrest o => badMt o.mt false <|> reserved (255 < o.v.toNat + o.x.toNat)
      <|> unused (o.mt != 0 || o.msk != 0 || unusedStore o)
  | .rpSend o | .rpRecv o =>
    let op := (o.x.extractLsb' 0 3).toNat
    reserved (!([0xC, 0xD, 6, 2, 7, 3].contains o.mt.toNat) || 5 < op || (3 ≤ op && tagIsFloat o.mt))
      <|> unused (o.x.extractLsb' 3 5 != 0 || o.q != 0 || o.wr || o.mu || o.seg.extractLsb' 1 2 != 0 || o.off != 0)
  -- Table 12.3
  | .mma o => checkFX o <|> unused (o.sp != 0 || o.xm.extractLsb' 5 3 != 0)
  | .mmasp o => checkFX o <|> reserved (o.ty.toNat ≤ 1) <|> unused (o.src || o.sp != 0 || o.xm.extractLsb' 5 3 != 0)
  | .mzero o => checkFX o
      <|> unused (o.a != 0 || o.t != 0 || o.vc != 0 || o.ty != 0 || o.src || o.sp != 0 || o.xm != 0)
  | .mvat2v o | .mv2vat o => checkFX o
      <|> unused (o.t != 0 || o.src || o.sp != 0 || o.xm.getLsbD 4 || o.xm.extractLsb' 6 2 != 0)
  | .mv2t o | .mt2v o => checkFX o <|> unused (o.vc != 0 || o.src || o.sp != 0 || o.xm.extractLsb' 1 7 != 0)
  -- R255, R261
  | .mshape o => reserved (0xC ≤ (o.x.extractLsb' 0 4).toNat) <|> checkFC o false true true false false 0xF
  | .mldt o | .mstt o => checkFC o false true true false false 0x7
  | .mldvat o | .mstvat o => reserved (255 < (o.x.extractLsb' 0 8).toNat + (o.x.extractLsb' 8 6).toNat)
      <|> checkFC o false true true false false 0x3FFF
  | .mrdshape o => checkFC o true false false false false 0x7
  -- Table 12.5
  | .cpy o => checkFC o false true true true true 0x1
  | .cpy2d o | .cpyBb o => checkFC o true true true true true 0x1
  | .cwaitAny o | .cwaitAll o | .cffr o => checkFC o true true false false false 0
  | .cdone o => checkFC o true false false false true 0
  | .cclr o => checkFC o false true false false false 0
  -- Tables 12.7 and 12.9
  | .bbInit o | .bbExpect o | .bbArrive o | .bbWait o => checkFC o false true true false false 0
  | .bbTest o => checkFC o true true false false false 0
  | .barArrive o => checkFC o false false false false false 0x1F
  | .barWait o => checkFC o false true true false false 0x1F
  | .barSync o => checkFC o false false true false false 0x1F
  | .barMset o => checkFC o false true false false false 0x1F
  | .barGen o => checkFC o true false false false false 0x1F
  -- Table 11.6, R246-R248
  | .fence o => badScope (o.x.extractLsb' 0 3) <|> checkFC o false false false false false 0x7
  | .fencePath o => checkFC o false false false false false 0xFFF
  | .stStamp o | .ldAsof o => checkFC o true true true false false 0
  | .clkRd o => checkFC o true false true false false 0
  | .clkWait o => checkFC o false true false false false 0
  -- Table 12.10
  | .cfetch o => checkFC o false true false false false 0x3F
  | .cfwait o => checkFC o true false false false false 0x3F
  | .lnch o => checkFC o true true false false false 0
  | .claimWork o => checkFC o true true true false false 0
  | .digPost o | .digWait o => checkFC o true true true true false 0
  -- Table 11.10
  | .vrecip o => checkF3One o
  | .vsum o => reserved o.mu <|> badOverlap o false <|> checkF3One o
  | .vldu o => badA8 o.a <|> badQueues o <|> badMt (o.x.extractLsb' 0 5) false
      <|> unused (o.spare || o.b != 0 || o.qa || o.qb || o.x.extractLsb' 5 7 != 0)
  -- Table 22.4
  | .epSlotVadd s p => checkEp 0x00 s p
  | .epSlotVsub s p => checkEp 0x01 s p
  | .epSlotVmul s p => checkEp 0x02 s p
  | .epSlotVmin s p => checkEp 0x03 s p
  | .epSlotVmax s p => checkEp 0x04 s p
  | .epSlotVand s p => checkEp 0x05 s p
  | .epSlotVor s p => checkEp 0x06 s p
  | .epSlotVxor s p => checkEp 0x07 s p
  | .epSlotVmov s p => checkEp 0x08 s p
  | .epSlotVcvt s p => checkEp 0x09 s p
  | .epSlotVslli s p => checkEp 0x0A s p
  | .epSlotVsrli s p => checkEp 0x0B s p
  | .epSlotVsrai s p => checkEp 0x0C s p
  | .epSlotVneg s p => checkEp 0x0D s p
  | .epSlotVabs s p => checkEp 0x0E s p
  | .epSlotVaddi s p => checkEp 0x10 s p
  | .apSlotAdd s p | .apSlotSub s p | .apSlotAnd s p | .apSlotOr s p | .apSlotXor s p => checkAp (s.imm != 0) p
  | .apSlotAddi _ p => checkAp false p
  | .apSlotSlli s p | .apSlotSrli s p => checkAp (s.imm.extractLsb' 6 7 != 0) p
  | .apSlotLdi s p => checkAp (s.a != 0) p
  | _ => none

/-- A word without operands has every field but HINT clear (R171, R253). -/
def strayField : Instr → Raw → Option DecodeError
  | .nop, .fc _ _ o | .eret, .fc _ _ o | .halt, .fc _ _ o | .syncAe, .fc _ _ o | .pbar, .fc _ _ o | .fenceDur, .fc _ _ o
  | .yield, .fc _ _ o => checkFC o false false false false false 0
  | .ret, .fr _ _ o => unused (o.d != 0 || o.a != 0 || o.b != 0 || o.c != 0 || o.imm != 0)
  | _, _ => none

/-- Decode a word: its fields, its function code, its checks (R167, R168). -/
def decode (w : Word) : Except DecodeError Instr :=
  match Raw.unpack w with
  | none => .error .reservedMajor
  | some r => match r.select with
    | none => .error (.reservedFunction false)
    | some i => match strayField i r <|> fieldError i with
      | some e => .error e
      | none => .ok i

/-! ### The encoder -/

/-- The format, major, function code and fields of an instruction's word; none for commands and events. -/
def Instr.raw : Instr → Option Raw
  | .add o => some (.fr 0x01 0x00 o)
  | .sub o => some (.fr 0x01 0x01 o)
  | .mul o => some (.fr 0x01 0x02 o)
  | .mulh o => some (.fr 0x01 0x03 o)
  | .mulhu o => some (.fr 0x01 0x04 o)
  | .div o => some (.fr 0x01 0x05 o)
  | .divu o => some (.fr 0x01 0x06 o)
  | .rem o => some (.fr 0x01 0x07 o)
  | .remu o => some (.fr 0x01 0x08 o)
  | .and o => some (.fr 0x01 0x09 o)
  | .or o => some (.fr 0x01 0x0A o)
  | .xor o => some (.fr 0x01 0x0B o)
  | .andn o => some (.fr 0x01 0x0C o)
  | .sll o => some (.fr 0x01 0x0D o)
  | .srl o => some (.fr 0x01 0x0E o)
  | .sra o => some (.fr 0x01 0x0F o)
  | .slt o => some (.fr 0x01 0x10 o)
  | .sltu o => some (.fr 0x01 0x11 o)
  | .min o => some (.fr 0x01 0x12 o)
  | .max o => some (.fr 0x01 0x13 o)
  | .minu o => some (.fr 0x01 0x14 o)
  | .maxu o => some (.fr 0x01 0x15 o)
  | .cmov o => some (.fr 0x01 0x16 o)
  | .clz o => some (.fr 0x01 0x17 o)
  | .ctz o => some (.fr 0x01 0x18 o)
  | .popc o => some (.fr 0x01 0x19 o)
  | .bext o => some (.fr 0x01 0x1A o)
  | .bins o => some (.fr 0x01 0x1B o)
  | .jr o => some (.fr 0x0D 0x00 o)
  | .jmpF o => some (.fr 0x0D 0x01 o)
  | .callt o => some (.fr 0x0D 0x02 o)
  | .ret => some (.fr 0x0D 0x03 ⟨0, 0, 0, 0, 0, 0⟩)
  | .ld sz o => some (.fr 0x08 (0#6 ++ sz) o)
  | .ldz sz o => some (.fr 0x08 (1#6 ++ sz) o)
  | .st sz o => some (.fr 0x08 (2#6 ++ sz) o)
  | .ldAcq sz o => some (.fr 0x08 (3#6 ++ sz) o)
  | .stRel sz o => some (.fr 0x08 (4#6 ++ sz) o)
  | .amoAdd d64 o => some (.fr 0x09 (BitVec.ofBool d64 ++ 0#7) o)
  | .amoAnd d64 o => some (.fr 0x09 (BitVec.ofBool d64 ++ 1#7) o)
  | .amoOr d64 o => some (.fr 0x09 (BitVec.ofBool d64 ++ 2#7) o)
  | .amoXor d64 o => some (.fr 0x09 (BitVec.ofBool d64 ++ 3#7) o)
  | .amoMin d64 o => some (.fr 0x09 (BitVec.ofBool d64 ++ 4#7) o)
  | .amoMax d64 o => some (.fr 0x09 (BitVec.ofBool d64 ++ 5#7) o)
  | .amoMinu d64 o => some (.fr 0x09 (BitVec.ofBool d64 ++ 6#7) o)
  | .amoMaxu d64 o => some (.fr 0x09 (BitVec.ofBool d64 ++ 7#7) o)
  | .amoSwap d64 o => some (.fr 0x09 (BitVec.ofBool d64 ++ 8#7) o)
  | .amoCas d64 o => some (.fr 0x09 (BitVec.ofBool d64 ++ 9#7) o)
  | .amoFadd d64 o => some (.fr 0x09 (BitVec.ofBool d64 ++ 10#7) o)
  | .addi o => some (.fi 0x0 o)
  | .andi o => some (.fi 0x1 o)
  | .ori o => some (.fi 0x2 o)
  | .xori o => some (.fi 0x3 o)
  | .slli o => some (.fi 0x4 o)
  | .srli o => some (.fi 0x5 o)
  | .srai o => some (.fi 0x6 o)
  | .slti o => some (.fi 0x7 o)
  | .sltiu o => some (.fi 0x8 o)
  | .ldi o => some (.fi 0x9 o)
  | .ldhi o => some (.fi 0xA o)
  | .adpc o => some (.fi 0xB o)
  | .beq o => some (.fb 0x0C 0x0 o)
  | .bne o => some (.fb 0x0C 0x1 o)
  | .blt o => some (.fb 0x0C 0x2 o)
  | .bge o => some (.fb 0x0C 0x3 o)
  | .bltu o => some (.fb 0x0C 0x4 o)
  | .bgeu o => some (.fb 0x0C 0x5 o)
  | .jmp o => some (.fb 0x0C 0x6 o)
  | .call o => some (.fb 0x0C 0x7 o)
  | .bvAny o => some (.fb 0x0E 0x0 o)
  | .bvNone o => some (.fb 0x0E 0x1 o)
  | .bvAll o => some (.fb 0x0E 0x2 o)
  | .bvNall o => some (.fb 0x0E 0x3 o)
  | .brot o => some (.fb 0x0E 0x8 o)
  | .bloop o => some (.fb 0x0E 0x9 o)
  | .vadd o => some (.f3 0x18 0x00 o)
  | .vsub o => some (.f3 0x18 0x01 o)
  | .vmul o => some (.f3 0x18 0x02 o)
  | .vmulh o => some (.f3 0x18 0x03 o)
  | .vfma o => some (.f3 0x18 0x04 o)
  | .vfms o => some (.f3 0x18 0x05 o)
  | .vfnma o => some (.f3 0x18 0x06 o)
  | .vdiv o => some (.f3 0x18 0x07 o)
  | .vrem o => some (.f3 0x18 0x08 o)
  | .vsqrt o => some (.f3 0x18 0x09 o)
  | .vrcp o => some (.f3 0x18 0x0A o)
  | .vrsqrt o => some (.f3 0x18 0x0B o)
  | .vmin o => some (.f3 0x18 0x0C o)
  | .vmax o => some (.f3 0x18 0x0D o)
  | .vabs o => some (.f3 0x18 0x0E o)
  | .vneg o => some (.f3 0x18 0x0F o)
  | .vand o => some (.f3 0x18 0x10 o)
  | .vor o => some (.f3 0x18 0x11 o)
  | .vxor o => some (.f3 0x18 0x12 o)
  | .vandn o => some (.f3 0x18 0x13 o)
  | .vnot o => some (.f3 0x18 0x14 o)
  | .vsll o => some (.f3 0x18 0x15 o)
  | .vsrl o => some (.f3 0x18 0x16 o)
  | .vsra o => some (.f3 0x18 0x17 o)
  | .vclz o => some (.f3 0x18 0x18 o)
  | .vpopc o => some (.f3 0x18 0x19 o)
  | .vcvt o => some (.f3 0x18 0x1A o)
  | .vmov o => some (.f3 0x18 0x1B o)
  | .vsel o => some (.f3 0x18 0x1C o)
  | .vexp2 o => some (.f3 0x18 0x1D o)
  | .vlog2 o => some (.f3 0x18 0x1E o)
  | .vcmp o => some (.f3 0x19 0x00 o)
  | .vclass o => some (.f3 0x19 0x01 o)
  | .mand o => some (.f3 0x1A 0x00 o)
  | .mor o => some (.f3 0x1A 0x01 o)
  | .mxor o => some (.f3 0x1A 0x02 o)
  | .mandn o => some (.f3 0x1A 0x03 o)
  | .mnot o => some (.f3 0x1A 0x04 o)
  | .mpopc o => some (.f3 0x1A 0x05 o)
  | .mfirst o => some (.f3 0x1A 0x06 o)
  | .mset o => some (.f3 0x1A 0x07 o)
  | .vmsk o => some (.f3 0x1A 0x08 o)
  | .vred o => some (.f3 0x1B 0x00 o)
  | .vscan o => some (.f3 0x1B 0x01 o)
  | .vdot o => some (.f3 0x1B 0x02 o)
  | .vdotg o => some (.f3 0x1B 0x03 o)
  | .vsac o => some (.f3 0x1B 0x04 o)
  | .vsacb o => some (.f3 0x1B 0x05 o)
  | .vslup o => some (.f3 0x1C 0x00 o)
  | .vsldn o => some (.f3 0x1C 0x01 o)
  | .vperm o => some (.f3 0x1C 0x02 o)
  | .vcompress o => some (.f3 0x1C 0x03 o)
  | .vexpand o => some (.f3 0x1C 0x04 o)
  | .vzip o => some (.f3 0x1C 0x05 o)
  | .vunzip o => some (.f3 0x1C 0x06 o)
  | .vrev o => some (.f3 0x1C 0x07 o)
  | .vpack4 o => some (.f3 0x1D 0x00 o)
  | .vunpk4 o => some (.f3 0x1D 0x01 o)
  | .vbscale o => some (.f3 0x1D 0x02 o)
  | .vcfg o => some (.f3 0x1E 0x00 o)
  | .vsetl o => some (.f3 0x1E 0x01 o)
  | .vlq o => some (.f3 0x1E 0x02 o)
  | .vtag o => some (.f3 0x1E 0x03 o)
  | .vrotb o => some (.f3 0x1E 0x04 o)
  | .vdead o => some (.f3 0x1E 0x05 o)
  | .vmvAe o => some (.f3 0x1E 0x06 o)
  | .vmvEa o => some (.f3 0x1E 0x07 o)
  | .vbcast o => some (.f3 0x1E 0x08 o)
  | .vid o => some (.f3 0x1E 0x09 o)
  | .vmac o => some (.f3 0x7E 0x00 o)
  | .vrecip o => some (.f3 0x7E 0x01 o)
  | .vsum o => some (.f3 0x7E 0x02 o)
  | .vldu o => some (.f3 0x7E 0x03 o)
  | .vld o => some (.fm 0x20 0x00 o)
  | .vlds o => some (.fm 0x20 0x01 o)
  | .vldx o => some (.fm 0x20 0x02 o)
  | .vldseg o => some (.fm 0x20 0x03 o)
  | .vldm o => some (.fm 0x20 0x04 o)
  | .vpref o => some (.fm 0x20 0x05 o)
  | .vst o => some (.fm 0x20 0x08 o)
  | .vsts o => some (.fm 0x20 0x09 o)
  | .vstx o => some (.fm 0x20 0x0A o)
  | .vstseg o => some (.fm 0x20 0x0B o)
  | .vstm o => some (.fm 0x20 0x0C o)
  | .vamoadd o => some (.fm 0x20 0x0D o)
  | .vspill o => some (.fm 0x20 0x10 o)
  | .vfill o => some (.fm 0x20 0x11 o)
  | .vwait o => some (.fm 0x20 0x12 o)
  | .vsave o => some (.fm 0x20 0x13 o)
  | .vrest o => some (.fm 0x20 0x14 o)
  | .rpSend o => some (.fm 0x21 0x00 o)
  | .rpRecv o => some (.fm 0x21 0x01 o)
  | .mma o => some (.fx 0x28 0x00 o)
  | .mmasp o => some (.fx 0x28 0x01 o)
  | .mzero o => some (.fx 0x28 0x02 o)
  | .mvat2v o => some (.fx 0x28 0x03 o)
  | .mv2vat o => some (.fx 0x28 0x04 o)
  | .mv2t o => some (.fx 0x28 0x05 o)
  | .mt2v o => some (.fx 0x28 0x06 o)
  | .nop => some (.fc 0x10 0x00 ⟨0, 0, 0, 0, 0, 0, 0⟩)
  | .trap o => some (.fc 0x10 0x01 o)
  | .eret => some (.fc 0x10 0x02 ⟨0, 0, 0, 0, 0, 0, 0⟩)
  | .srd o => some (.fc 0x10 0x03 o)
  | .halt => some (.fc 0x10 0x05 ⟨0, 0, 0, 0, 0, 0, 0⟩)
  | .brk o => some (.fc 0x10 0x06 o)
  | .syncAe => some (.fc 0x10 0x07 ⟨0, 0, 0, 0, 0, 0, 0⟩)
  | .tlbinv o => some (.fc 0x10 0x08 o)
  | .pgmig o => some (.fc 0x10 0x09 o)
  | .swr o => some (.fc 0x10 0x04 o)
  | .swrFcsr o => some (.fc 0x10 0x04 o)
  | .swrSlots o => some (.fc 0x10 0x04 o)
  | .swrVl o => some (.fc 0x10 0x04 o)
  | .swrRrb o => some (.fc 0x10 0x04 o)
  | .swrEc o => some (.fc 0x10 0x04 o)
  | .mshape o => some (.fc 0x29 0x00 o)
  | .mldt o => some (.fc 0x29 0x01 o)
  | .mstt o => some (.fc 0x29 0x02 o)
  | .mldvat o => some (.fc 0x29 0x03 o)
  | .mstvat o => some (.fc 0x29 0x04 o)
  | .mrdshape o => some (.fc 0x29 0x05 o)
  | .cpy o => some (.fc 0x30 0x00 o)
  | .cpy2d o => some (.fc 0x30 0x01 o)
  | .cpyBb o => some (.fc 0x30 0x02 o)
  | .cwaitAny o => some (.fc 0x30 0x03 o)
  | .cwaitAll o => some (.fc 0x30 0x04 o)
  | .cffr o => some (.fc 0x30 0x05 o)
  | .cdone o => some (.fc 0x30 0x06 o)
  | .cclr o => some (.fc 0x30 0x07 o)
  | .bbInit o => some (.fc 0x31 0x00 o)
  | .bbExpect o => some (.fc 0x31 0x01 o)
  | .bbArrive o => some (.fc 0x31 0x02 o)
  | .bbWait o => some (.fc 0x31 0x03 o)
  | .bbTest o => some (.fc 0x31 0x04 o)
  | .barArrive o => some (.fc 0x32 0x00 o)
  | .barWait o => some (.fc 0x32 0x01 o)
  | .barSync o => some (.fc 0x32 0x02 o)
  | .barMset o => some (.fc 0x32 0x03 o)
  | .barGen o => some (.fc 0x32 0x04 o)
  | .fence o => some (.fc 0x38 0x00 o)
  | .fencePath o => some (.fc 0x38 0x01 o)
  | .pbar => some (.fc 0x38 0x02 ⟨0, 0, 0, 0, 0, 0, 0⟩)
  | .fenceDur => some (.fc 0x38 0x03 ⟨0, 0, 0, 0, 0, 0, 0⟩)
  | .stStamp o => some (.fc 0x38 0x04 o)
  | .ldAsof o => some (.fc 0x38 0x05 o)
  | .clkRd o => some (.fc 0x38 0x06 o)
  | .clkWait o => some (.fc 0x38 0x07 o)
  | .cfetch o => some (.fc 0x39 0x00 o)
  | .cfwait o => some (.fc 0x39 0x01 o)
  | .lnch o => some (.fc 0x39 0x02 o)
  | .claimWork o => some (.fc 0x39 0x03 o)
  | .yield => some (.fc 0x39 0x04 ⟨0, 0, 0, 0, 0, 0, 0⟩)
  | .digPost o => some (.fc 0x39 0x05 o)
  | .digWait o => some (.fc 0x39 0x06 o)
  | .epSlotVadd s p => some (.epep 0x00 s p)
  | .epSlotVsub s p => some (.epep 0x01 s p)
  | .epSlotVmul s p => some (.epep 0x02 s p)
  | .epSlotVmin s p => some (.epep 0x03 s p)
  | .epSlotVmax s p => some (.epep 0x04 s p)
  | .epSlotVand s p => some (.epep 0x05 s p)
  | .epSlotVor s p => some (.epep 0x06 s p)
  | .epSlotVxor s p => some (.epep 0x07 s p)
  | .epSlotVmov s p => some (.epep 0x08 s p)
  | .epSlotVcvt s p => some (.epep 0x09 s p)
  | .epSlotVslli s p => some (.epep 0x0A s p)
  | .epSlotVsrli s p => some (.epep 0x0B s p)
  | .epSlotVsrai s p => some (.epep 0x0C s p)
  | .epSlotVneg s p => some (.epep 0x0D s p)
  | .epSlotVabs s p => some (.epep 0x0E s p)
  | .epSlotVaddi s p => some (.epep 0x10 s p)
  | .apSlotAdd s p => some (.apep 0x00 s p)
  | .apSlotSub s p => some (.apep 0x01 s p)
  | .apSlotAnd s p => some (.apep 0x02 s p)
  | .apSlotOr s p => some (.apep 0x03 s p)
  | .apSlotXor s p => some (.apep 0x04 s p)
  | .apSlotAddi s p => some (.apep 0x10 s p)
  | .apSlotSlli s p => some (.apep 0x11 s p)
  | .apSlotSrli s p => some (.apep 0x12 s p)
  | .apSlotLdi s p => some (.apep 0x13 s p)
  | _ => none

/-- The 31 bits of an EP slot (R161). -/
def packEp (op : BitVec 6) (s : EpArgs) : BitVec 31 := op ++ s.d ++ s.a ++ s.msk ++ s.imm

/-- The 31 bits of an AP slot (R162). -/
def packAp (op : BitVec 6) (s : ApArgs) : BitVec 31 := op ++ s.d ++ s.a ++ s.imm

/-- A word put together from its fields (Table 8.1; R160 for paired words). -/
def Raw.pack : Raw → Word
  | .fr maj fn o => 0#1 ++ maj ++ fn ++ o.d ++ o.a ++ o.b ++ o.c ++ o.hint ++ o.imm
  | .fi fn o => 0#1 ++ 0x02#7 ++ fn ++ o.d ++ o.a ++ o.hint ++ o.imm
  | .fb maj cond o => 0#1 ++ maj ++ cond ++ o.a ++ o.b ++ o.hint ++ o.off
  | .f3 maj fn o => 0#1 ++ maj ++ fn ++ o.d ++ o.a ++ o.b ++ o.msk ++ BitVec.ofBool o.mu ++ BitVec.ofBool o.qa
      ++ BitVec.ofBool o.qb ++ BitVec.ofBool o.spare ++ o.hint ++ o.x
  | .fm maj fn o => 0#1 ++ maj ++ fn ++ o.v ++ o.base ++ o.x ++ o.msk ++ BitVec.ofBool o.mu ++ o.q ++ BitVec.ofBool o.wr
      ++ o.seg ++ o.hint ++ o.mt ++ o.off
  | .fx maj fn o => 0#1 ++ maj ++ fn ++ o.a ++ o.gf ++ o.t ++ o.vr ++ o.vc ++ o.ty ++ BitVec.ofBool o.src ++ o.hint
      ++ o.sp ++ o.xm
  | .fc maj fn o => 0#1 ++ maj ++ fn ++ o.d ++ o.a ++ o.b ++ o.c ++ o.tag ++ o.hint ++ o.x
  | .epep op s p => 0b10#2 ++ packEp op s ++ packEp p.op p.args
  | .apep op s p => 0b11#2 ++ packAp op s ++ packEp p.op p.args

/-- The word of an instruction, from the encoding tables of 08_encoding; none for commands and events. -/
def encode (i : Instr) : Option Word := i.raw.map Raw.pack

/-! ### Words as bytes -/

/-- Byte `i` of a word, byte 0 holding bits [7:0] (R3). -/
def byteOf (w : Word) (i : Nat) : Byte := w.extractLsb' (8 * i) 8

/-- The word of eight bytes, lowest address first (R3). -/
def wordOfBytes (bs : List Byte) : Word := bs.foldr (fun b acc => (acc <<< 8) ||| b.setWidth 64) 0

/-- Decode an instruction from its eight bytes in memory order; a shorter list is no instruction. -/
def decodeBytes (bs : List Byte) : Except DecodeError Instr :=
  if bs.length = 8 then decode (wordOfBytes bs) else .error .reservedMajor

/-- The instruction that the decoder reads from a word whose bits the opcode table numbers from the least significant
bit of its first (and only) word: the word's bytes as memory holds them, then the decoder. -/
def decodeTableWord (_nbits w : Nat) : Option Instr :=
  match decodeBytes ((List.range 8).map (byteOf (BitVec.ofNat 64 w))) with
  | .ok i => some i
  | .error _ => none

/-! ### Command records (Tables 15.1 and 15.2) -/

/-- First address of the module status window (Table 15.3). -/
def statusWindow : Nat := 0x700000000000
/-- First address of the error-log registers (Table 15.3). -/
def logWindow : Nat := 0x700000010000
/-- First address of the event queue (Table 15.3). -/
def eventWindow : Nat := 0x700000020000

/-- A WRITE of one 8-byte register of the register window is the operation on that register; every other WRITE is
`write`, which treats the registers that its range covers in the same way. -/
def decodeWrite (r : CmdRec) : Instr :=
  let a := r.w0.toNat
  if r.w1 ≠ 8 then .write
  else if statusWindow + 0x800 ≤ a ∧ a < statusWindow + 0x840 ∧ a % 8 = 0 then .supvecWrite
  else if a = logWindow then .logbaseWrite
  else if a = logWindow + 0x08 then .loglenWrite
  else if a = logWindow + 0x18 then .tailWrite
  else if logWindow + 0x20 ≤ a ∧ a < logWindow + 0x48 ∧ a % 8 = 0 then .dropClear
  else if a = eventWindow + 0x08 then .evtailWrite
  else if a = eventWindow + 0x10 then .evdropClear
  else .write

/-- The record whose 64 bytes, lowest first, fill record slot `slot` of port `port` (Table 15.1, R313). -/
def CmdRec.ofRaw (port slot : Nat) (raw : BitVec 512) : CmdRec :=
  let w := fun (i : Nat) => raw.extractLsb' (64 + 64 * i) 64
  { port := port, slot := slot, code := raw.extractLsb' 0 8, seq := raw.extractLsb' 8 8, master := raw.extractLsb' 16 16,
    term := raw.extractLsb' 32 32, w0 := w 0, w1 := w 1, w2 := w 2, w3 := w 3, w4 := w 4, w5 := w 5, w6 := w 6 }

/-- The operation of a command record by its code (Table 15.2). -/
def decodeCommand (r : CmdRec) : Instr :=
  match r.code.toNat with
  | 0x01 => .launch
  | 0x02 => .read
  | 0x03 => decodeWrite r
  | 0x04 => .claim
  | 0x05 => .handover
  | 0x06 => .freeze
  | 0x07 => .unfreeze
  | 0x08 => .partition
  | 0x09 => .selftest
  | 0x0A => .attest
  | 0x0B => .recover
  | _ => .unlistedCommandCode

end Sys2Proof
end

