-- ==== Sys2Proof/Machine/Num.lean ====
section
/-! DEFINITION. Exact values: what the bits of an element mean, and exact arithmetic on them (03_numbers, R45-R57).

An instruction computes exactly and rounds once (R53). A quotient or a root is kept to far more bits than any format
holds, with a mark that a non-zero remainder lies below them, so that one rounding of it is the rounding of the exact
value in every mode. -/

namespace Sys2Proof.Machine

/-- The flags of `sr.fcsr` (Table 3.3): bit 4 NV, 3 DZ, 2 OF, 1 UF, 0 NX. -/
abbrev Flags := BitVec 5

/-- Rounding modes (Table 3.3). -/
inductive RMode where
  | rne | rtz | rup | rdn | rna
  deriving DecidableEq, Repr

/-- An exact value: (−1)^neg × (m + δ) × 2^e, where δ is 0, or lies strictly between 0 and 1 when `sticky` is set. -/
inductive Exact where
  | fin (neg : Bool) (m : Nat) (e : Int) (sticky : Bool)
  | inf (neg : Bool)
  | nan (signalling : Bool)
  deriving DecidableEq, Repr

/-- A value read from a source, and whether it was read as a float (R405). -/
structure Val where
  x : Exact
  isFloat : Bool
  deriving DecidableEq, Repr

/-- The layout of a floating format (Table 3.1): exponent bits, fraction bits, bias; e4m3 has no infinity. -/
structure Fmt where
  ebits : Nat
  fbits : Nat
  bias : Nat
  e4m3 : Bool
  deriving DecidableEq, Repr

/-- The format of a float tag (Table 3.1); f64 for any other code. -/
def fmtOf (t : BitVec 5) : Fmt := match t.toNat with
  | 0x08 => ⟨4, 3, 7, true⟩
  | 0x09 => ⟨5, 2, 15, false⟩
  | 0x0A => ⟨5, 10, 15, false⟩
  | 0x0B => ⟨8, 7, 127, false⟩
  | 0x0C => ⟨8, 23, 127, false⟩
  | _ => ⟨11, 52, 1023, false⟩

/-- The pattern of the largest finite value (Table 3.2). -/
def Fmt.maxFinite (f : Fmt) : Nat :=
  if f.e4m3 then 0x7E else (2 ^ f.ebits - 1) * 2 ^ f.fbits - 1

/-- The pattern of +∞; e4m3 has none. -/
def Fmt.infPattern (f : Fmt) : Nat := (2 ^ f.ebits - 1) * 2 ^ f.fbits

/-- The canonical NaN: quiet, positive, payload 1 (R48, Table 3.2). -/
def Fmt.canonicalNaN (f : Fmt) : Nat :=
  if f.e4m3 then 0x7F else (2 ^ f.ebits - 1) * 2 ^ f.fbits + 2 ^ (f.fbits - 1) + 1

/-- The sign bit in place. -/
def Fmt.signBit (f : Fmt) : Nat := 2 ^ (f.ebits + f.fbits)

/-- An exact integer. -/
def Exact.ofInt (i : Int) : Exact := .fin (decide (i < 0)) i.natAbs 0 false

/-- The number of bits of `n`, 0 for 0. -/
def bitLength (n : Nat) : Nat := if n = 0 then 0 else Nat.log2 n + 1

/-- The value of a float pattern (R47). -/
def decodeFloat (f : Fmt) (bits : Nat) : Exact :=
  let frac := bits % 2 ^ f.fbits
  let ex := bits / 2 ^ f.fbits % 2 ^ f.ebits
  let neg := bits / f.signBit % 2 == 1
  if f.e4m3 then
    if bits % 128 = 127 then .nan false
    else if ex = 0 then .fin neg frac (1 - (f.bias : Int) - f.fbits) false
    else .fin neg (2 ^ f.fbits + frac) ((ex : Int) - f.bias - f.fbits) false
  else if ex = 2 ^ f.ebits - 1 then
    if frac = 0 then .inf neg else .nan (decide (frac < 2 ^ (f.fbits - 1)))
  else if ex = 0 then .fin neg frac (1 - (f.bias : Int) - f.fbits) false
  else .fin neg (2 ^ f.fbits + frac) ((ex : Int) - f.bias - f.fbits) false

/-- Twice-signed integer value of the low `w` bits. -/
def signedOf (w bits : Nat) : Int :=
  let b := bits % 2 ^ w
  if b < 2 ^ (w - 1) then b else (b : Int) - 2 ^ w

/-- Eighths of the magnitude of a q4 code's low three bits under T = 01, 10, 11 (Table 3.6). -/
def q4Eighths (t c : Nat) : Nat :=
  match t, c % 8 with
  | _, 0 => 0
  | 1, 1 => 4 | 1, 2 => 8 | 1, 3 => 12 | 1, 4 => 16 | 1, 5 => 24 | 1, 6 => 32 | 1, _ => 48
  | 2, 1 => 1 | 2, 2 => 2 | 2, 3 => 4 | 2, 4 => 8 | 2, 5 => 16 | 2, 6 => 32 | 2, _ => 64
  | _, 1 => 8 | _, 2 => 16 | _, 3 => 24 | _, 4 => 32 | _, 5 => 48 | _, 6 => 64 | _, _ => 96

/-- The unscaled value of a q4 code under meaning `t` (R54, Table 3.6). (DEDUCED, log 16.) -/
def decodeQ4 (t c : Nat) : Exact :=
  if t = 0 then Exact.ofInt (signedOf 4 c)
  else .fin (decide (8 ≤ c % 16)) (q4Eighths t c) (-3) false

/-- The value of an element pattern read as the type `t` (R196). -/
def readAs (t : BitVec 5) (bits : Nat) : Val :=
  if tagIsQ4 t then ⟨decodeQ4 (t.toNat - 0x10) bits, t.toNat != 0x10⟩
  else if tagIsFloat t then ⟨decodeFloat (fmtOf t) bits, true⟩
  else if tagIsSigned t then ⟨Exact.ofInt (signedOf (tagWidth t) bits), false⟩
  else ⟨Exact.ofInt (bits % 2 ^ tagWidth t : Nat), false⟩

/-! ### Exact operations -/

/-- NV (R51). -/
def flagNV : Flags := 16
/-- DZ. -/
def flagDZ : Flags := 8
/-- OF. -/
def flagOF : Flags := 4
/-- UF. -/
def flagUF : Flags := 2
/-- NX. -/
def flagNX : Flags := 1

/-- NV for a signalling NaN (R48). -/
def Exact.snan : Exact → Flags
  | .nan true => flagNV
  | _ => 0

/-- Whether a value is a NaN. -/
def Exact.isNaN : Exact → Bool
  | .nan _ => true
  | _ => false

/-- Sign of a value; false for a NaN. -/
def Exact.neg? : Exact → Bool
  | .fin n _ _ _ => n
  | .inf n => n
  | .nan _ => false

/-- Whether a value is ±0. -/
def Exact.isZero : Exact → Bool
  | .fin _ m _ s => m == 0 && !s
  | _ => false

/-- The value with its sign changed; a NaN is unchanged. -/
def Exact.negate : Exact → Exact
  | .fin n m e s => .fin (!n) m e s
  | .inf n => .inf (!n)
  | .nan s => .nan s

/-- The magnitude. -/
def Exact.abs : Exact → Exact
  | .fin _ m e s => .fin false m e s
  | .inf _ => .inf false
  | .nan s => .nan s

/-- Signed mantissa of a finite value brought to exponent `e'` at or below its own. -/
def alignTo (neg : Bool) (m : Nat) (e e' : Int) : Int :=
  let v : Int := ((m <<< (e - e').toNat : Nat) : Int)
  if neg then -v else v

/-- The exact sum of two finite values without remainder; an exact zero sum of values that are not both of one sign is
−0 under RDN and +0 otherwise. -/
def addFin (rm : RMode) (nx : Bool) (mx : Nat) (ex : Int) (ny : Bool) (my : Nat) (ey : Int) : Exact :=
  let e := min ex ey
  let v := alignTo nx mx ex e + alignTo ny my ey e
  if v = 0 then
    .fin (if mx = 0 && my = 0 && nx == ny then nx else decide (rm = .rdn)) 0 0 false
  else .fin (decide (v < 0)) v.natAbs e false

/-- x + y with the flags of the operation itself (R51). -/
def addE (rm : RMode) (x y : Exact) : Exact × Flags :=
  match x, y with
  | .nan _, _ | _, .nan _ => (.nan false, x.snan ||| y.snan)
  | .inf a, .inf b => if a = b then (.inf a, 0) else (.nan false, flagNV)
  | .inf a, _ | _, .inf a => (.inf a, 0)
  | .fin a m e _, .fin b n f _ => (addFin rm a m e b n f, 0)

/-- x × y. (DESIGN CHOICE, log 76.) -/
def mulE (x y : Exact) : Exact × Flags :=
  match x, y with
  | .nan _, _ | _, .nan _ => (.nan false, x.snan ||| y.snan)
  | .inf a, y | y, .inf a => if y.isZero then (.nan false, flagNV) else (.inf (a != y.neg?), 0)
  | .fin a m e _, .fin b n f _ => (.fin (a != b) (m * n) (e + f) false, 0)

/-- x × y + z, one exact value; 0 × ∞ gives NV whatever the addend is (R51). -/
def fmaE (rm : RMode) (x y z : Exact) : Exact × Flags :=
  let (p, f) := mulE x y
  let (r, g) := addE rm p z
  (r, f ||| g ||| x.snan ||| y.snan ||| z.snan)

/-- Bits kept below the leading one of a quotient or root: more than twice any format's significand. -/
def guardBits : Nat := 140

/-- The quotient of two finite non-zero values. -/
def divFin (neg : Bool) (mx : Nat) (ex : Int) (my : Nat) (ey : Int) : Exact :=
  let k := guardBits + bitLength my
  let n := mx <<< k
  .fin neg (n / my) (ex - ey - k) (n % my != 0)

/-- x ÷ y (R204). -/
def divE (x y : Exact) : Exact × Flags :=
  match x, y with
  | .nan _, _ | _, .nan _ => (.nan false, x.snan ||| y.snan)
  | .inf _, .inf _ => (.nan false, flagNV)
  | .inf a, y => (.inf (a != y.neg?), 0)
  | x, .inf b => (.fin (x.neg? != b) 0 0 false, 0)
  | .fin a m e _, .fin b n f _ =>
    if n = 0 then if m = 0 then (.nan false, flagNV) else (.inf (a != b), flagDZ)
    else if m = 0 then (.fin (a != b) 0 0 false, 0)
    else (divFin (a != b) m e n f, 0)

/-- x − y × trunc(x ÷ y), which has the sign of x (R204). -/
def remE (x y : Exact) : Exact × Flags :=
  match x, y with
  | .nan _, _ | _, .nan _ => (.nan false, x.snan ||| y.snan)
  | .inf _, _ => (.nan false, flagNV)
  | .fin a m e s, .inf _ => (.fin a m e s, 0)
  | .fin a m e _, .fin _ n f _ =>
    if n = 0 then (.nan false, flagNV)
    else
      let g := min e f
      (.fin a ((m <<< (e - g).toNat) % (n <<< (f - g).toNat)) g false, 0)

/-- One bit of the digit-by-digit square root: the root so far, with bit `b` set if the square still fits in `n`. -/
def isqrtStep (n r b : Nat) : Nat := let c := r + 2 ^ b; if c * c ≤ n then c else r

/-- The square root rounded down, from bit `k − 1` of the root downwards. -/
def isqrtFrom (n : Nat) : Nat → Nat → Nat
  | 0, r => r
  | k + 1, r => isqrtFrom n k (isqrtStep n r k)

/-- The square root rounded down. -/
def isqrt (n : Nat) : Nat := isqrtFrom n (bitLength n / 2 + 1) 0

/-- √x (R205, Table 10.3). -/
def sqrtE : Exact → Exact × Flags
  | .nan s => (.nan false, (Exact.nan s).snan)
  | .inf n => if n then (.nan false, flagNV) else (.inf false, 0)
  | .fin n m e _ =>
    if m = 0 then (.fin n 0 0 false, 0)
    else if n then (.nan false, flagNV)
    else
      let (m', e') := if e % 2 = 0 then (m, e) else (2 * m, e - 1)
      let v := m' <<< (2 * guardBits)
      let r := isqrt v
      (.fin false r (e' / 2 - guardBits) (r * r != v), 0)

/-- 1/x (R205, Table 10.3). -/
def rcpE (x : Exact) : Exact × Flags := divE (.fin false 1 0 false) x

/-- 1/√x (R205, Table 10.3). -/
def rsqrtE : Exact → Exact × Flags
  | .nan s => (.nan false, (Exact.nan s).snan)
  | .inf n => if n then (.nan false, flagNV) else (.fin false 0 0 false, 0)
  | .fin n m e _ =>
    if m = 0 then (.inf n, flagDZ)
    else if n then (.nan false, flagNV)
    else
      let (m', e') := if e % 2 = 0 then (m, e) else (2 * m, e - 1)
      let k := guardBits + bitLength m'
      let v := 2 ^ (2 * k)
      let q := v / m'
      let r := isqrt q
      (.fin false r (-(e' / 2) - k) (v % m' != 0 || r * r != q), 0)

/-- x scaled by 2^k. -/
def Exact.scale (x : Exact) (k : Int) : Exact :=
  match x with
  | .fin n m e s => .fin n m (e + k) s
  | x => x

/-- Three-way comparison of two values that are not NaNs, with −0 equal to +0: −1, 0 or 1. -/
def cmpE (x y : Exact) : Int :=
  match x, y with
  | .inf a, .inf b => if a = b then 0 else if a then -1 else 1
  | .inf a, _ => if a then -1 else 1
  | _, .inf b => if b then 1 else -1
  | .fin a m e _, .fin b n f _ =>
    let g := min e f
    let v := alignTo a m e g - alignTo b n f g
    if v < 0 then -1 else if v = 0 then 0 else 1
  | _, _ => 0

/-- x before y in the order of `vmin`: by value, with −0 below +0 (R203). -/
def beforeE (x y : Exact) : Bool :=
  let c := cmpE x y
  c < 0 || (c == 0 && x.neg? && !y.neg?)

/-- The lesser (or greater) of two values by R203. -/
def minMaxE (greater : Bool) (x y : Exact) : Exact × Flags :=
  let f := x.snan ||| y.snan
  if x.isNaN then if y.isNaN then (.nan false, f) else (y, f)
  else if y.isNaN then (x, f)
  else if greater then (if beforeE x y then y else x, f)
  else (if beforeE y x then y else x, f)

/-- The exact integer nearest below in magnitude of a finite value; 0 for others. -/
def truncE : Exact → Int
  | .fin n m e _ =>
    let v : Nat := if 0 ≤ e then m <<< e.toNat else m >>> (-e).toNat
    if n then -(v : Int) else v
  | _ => 0

end Sys2Proof.Machine
end

