-- ==== Sys2Proof/Machine/Flags.lean ====
section
/-! DEFINITION. Rounding, flags and conversion into a destination (03_numbers, R51-R65).

Every result is rounded here, once, and every flag arises here or in the exact operation (Num). -/

namespace Sys2Proof.Machine

/-- A rounding mode by its code in RM; the codes 5 to 7 are never written (R49). -/
def RMode.ofCode (c : Nat) : RMode := match c with
  | 1 => .rtz | 2 => .rup | 3 => .rdn | 4 => .rna | _ => .rne

/-- Whether a magnitude is rounded up: `odd` is the last kept bit, `half` compares what was cut off with one half (−1, 0,
1), `inexact` says that anything was cut off. -/
def roundsUp (rm : RMode) (neg odd inexact : Bool) (half : Int) : Bool :=
  inexact && match rm with
    | .rne => half > 0 || (half == 0 && odd)
    | .rna => half ≥ 0
    | .rtz => false
    | .rup => !neg
    | .rdn => neg

/-- The magnitude m·2^e (plus a remainder below, when sticky) as a whole number of quanta 2^q, rounded, and whether
anything was cut off. -/
def roundQuanta (rm : RMode) (neg : Bool) (m : Nat) (e : Int) (sticky : Bool) (q : Int) : Nat × Bool :=
  if q ≤ e then (m <<< (e - q).toNat, sticky)
  else
    let d := (q - e).toNat
    let r := m >>> d
    let rest := m % 2 ^ d
    let inexact := rest != 0 || sticky
    let h : Nat := 2 ^ (d - 1)
    let half : Int := if rest < h then -1 else if rest = h then (if sticky then 1 else 0) else 1
    (r + (roundsUp rm neg (r % 2 == 1) inexact half).toNat, inexact)

/-- Exponent of the leading one of m·2^e. -/
def leadExp (m : Nat) (e : Int) : Int := (bitLength m : Int) - 1 + e

/-- A finite non-zero value rounded into a float format: its pattern without the sign, and NX, UF, OF (R51); none for the
pattern where the rounded magnitude exceeds the largest finite value. -/
def roundMag (f : Fmt) (rm : RMode) (neg : Bool) (m : Nat) (e : Int) (sticky : Bool) : Option Nat × Flags :=
  let emin : Int := 1 - f.bias
  let lead := leadExp m e
  let q := max lead emin - f.fbits
  let (r, inexact) := roundQuanta rm neg m e sticky q
  let pat := (q - (emin - f.fbits)).toNat * 2 ^ f.fbits + r
  let tiny :=
    if emin ≤ lead then false
    else if lead < emin - 1 then true
    else decide ((roundQuanta rm neg m e sticky (lead - f.fbits)).1 < 2 ^ (f.fbits + 1))
  if f.maxFinite < pat then (none, flagOF ||| flagNX)
  else (some pat, if inexact then (if tiny then flagUF ||| flagNX else flagNX) else 0)

/-- Whether an overflowing value goes to ∞ rather than to the largest finite value (Table 3.4). -/
def overflowsToInf (rm : RMode) (neg : Bool) : Bool := match rm with
  | .rne | .rna => true
  | .rtz => false
  | .rup => !neg
  | .rdn => neg

/-- Conversion into a float format (Table 3.4). -/
def toFloat (f : Fmt) (sat : Bool) (rm : RMode) (x : Exact) : Nat × Flags :=
  let signed (neg : Bool) (p : Nat) := if neg then p + f.signBit else p
  match x with
  | .nan _ => (f.canonicalNaN, 0)
  | .inf n =>
    if sat then (signed n f.maxFinite, flagNX)
    else if f.e4m3 then (f.canonicalNaN, flagNV)
    else (signed n f.infPattern, 0)
  | .fin n m e s =>
    if m = 0 then (signed n 0, 0)
    else match roundMag f rm n m e s with
      | (some p, fl) => (signed n p, fl)
      | (none, fl) =>
        if sat then (signed n f.maxFinite, fl)
        else if f.e4m3 then (f.canonicalNaN, fl)
        else (signed n (if overflowsToInf rm n then f.infPattern else f.maxFinite), fl)

/-- Conversion into an integer of width `w` (Table 3.4, R405): from a float source a value outside the range clamps with
NV alone; any other value wraps, or clamps where the destination saturates. (DEDUCED, log 16.) -/
def toInteger (w : Nat) (sgn sat : Bool) (rm : RMode) (v : Val) : Nat × Flags :=
  let lo : Int := if sgn then -(2 ^ (w - 1) : Nat) else 0
  let hi : Int := if sgn then (2 ^ (w - 1) : Nat) - 1 else (2 ^ w : Nat) - 1
  let pat (i : Int) : Nat := (i % (2 ^ w : Nat)).toNat
  match v.x with
  | .nan _ => (0, flagNV)
  | .inf n => (pat (if n then lo else hi), flagNV)
  | .fin n m e s =>
    let (r, inexact) := roundQuanta rm n m e s 0
    let i : Int := if n then -(r : Int) else r
    let nx : Flags := if inexact then flagNX else 0
    if i < lo || hi < i then
      if v.isFloat then (pat (if i < lo then lo else hi), flagNV)
      else (pat (if sat then (if i < lo then lo else hi) else i), nx)
    else (pat i, nx)

/-- The q4 code of meaning `t` nearest to the magnitude m·2^e among the eight magnitudes (R218), as its low three bits:
`k` codes below `c` are still to try, and the magnitude is at or above code `c`'s when reached from above. -/
def q4Search (t : Nat) (m : Nat) (e : Int) : Nat → Nat
  | 0 => 0
  | k + 1 =>
    if 0 ≤ cmpE (.fin false m e false) (.fin false (q4Eighths t (k + 1)) (-3) false) then k + 1
    else q4Search t m e k

/-- Conversion into a q4 tag of meaning `t` (Table 3.4, R218); ∞ is a magnitude beyond the table. (DEDUCED, log 16.) -/
def toQ4 (t : Nat) (rm : RMode) (x : Exact) : Nat × Flags :=
  match x with
  | .nan _ => (0, flagNV)
  | .inf n => (if t = 0 then (if n then 8 else 7) else (if n then 15 else 7), flagNX)
  | .fin n m e s =>
    if t = 0 then
      let (r, inexact) := roundQuanta rm n m e s 0
      let i : Int := if n then -(r : Int) else r
      if i < -8 then (8, flagNX) else if 7 < i then (7, flagNX)
      else ((i % 16).toNat, if inexact then flagNX else 0)
    else
      let c := q4Search t m e 7
      let below : Exact := .fin false (q4Eighths t c) (-3) false
      let exact := cmpE (.fin false m e false) below == 0 && !s
      let sign := if n then 8 else 0
      if exact then (sign + c, 0)
      else if c = 7 then (sign + 7, flagNX)
      else
        -- twice the magnitude against the sum of its two neighbours
        let half := cmpE (.fin false m (e + 1) false) (.fin false (q4Eighths t c + q4Eighths t (c + 1)) (-3) false)
        let half := if half = 0 && s then 1 else half
        (sign + c + (roundsUp rm n (c % 2 == 1) true half).toNat, flagNX)

/-- Conversion of an exact result into a tag with a saturation bit, rounding once (R53, Table 3.4). -/
def convert (t : BitVec 5) (sat : Bool) (rm : RMode) (v : Val) : Nat × Flags :=
  if tagIsQ4 t then toQ4 (t.toNat - 0x10) rm v.x
  else if tagIsFloat t then toFloat (fmtOf t) sat rm v.x
  else toInteger (tagWidth t) (tagIsSigned t) sat rm v

/-- Round to a float format and read the rounded value again: one step in an accumulator or a node (R58, R61). -/
def roundIn (t : BitVec 5) (rm : RMode) (x : Exact) : Exact × Flags :=
  let (p, f) := toFloat (fmtOf t) false rm x
  (decodeFloat (fmtOf t) p, f)

/-! ### Reductions (R61, R62) -/

/-- Operations of a reduction by X[2:0] (R212). -/
inductive RedOp where
  | add | min | max | and | or | xor
  deriving DecidableEq, Repr

/-- The operation of a code; 6 and 7 are reserved. -/
def RedOp.ofCode (c : Nat) : RedOp := match c with
  | 0 => .add | 1 => .min | 2 => .max | 3 => .and | 4 => .or | _ => .xor

/-- The node format for sources of tag `t` (R61): f32 for floats of 16 bits or narrower and for q4 codes, else the source
format. (DEDUCED, log 16.) -/
def nodeTag (t : BitVec 5) : BitVec 5 := if tagIsQ4 t || (tagIsFloat t && tagWidth t ≤ 16) then 0x0C else t

/-- The identity of an operation in node format `t`, as a pattern (Table 3.8). -/
def identityOf (op : RedOp) (t : BitVec 5) : Nat :=
  if tagIsFloat t then
    match op with
    | .add => (fmtOf t).signBit
    | .min => (fmtOf t).infPattern
    | .max => (fmtOf t).infPattern + (fmtOf t).signBit
    | _ => 0
  else
    let w := tagWidth t
    match op with
    | .min => if tagIsSigned t then 2 ^ (w - 1) - 1 else 2 ^ w - 1
    | .max => if tagIsSigned t then 2 ^ (w - 1) else 0
    | .and => 2 ^ w - 1
    | _ => 0

/-- One node on patterns of the node format: rounded there when it is a float, wrapping when it is an integer. -/
def nodeOp (op : RedOp) (t : BitVec 5) (rm : RMode) (x y : Nat) : Nat × Flags :=
  if tagIsFloat t then
    let a := decodeFloat (fmtOf t) x
    let b := decodeFloat (fmtOf t) y
    let (r, f) := match op with
      | .min => minMaxE false a b
      | .max => minMaxE true a b
      | _ => addE rm a b
    let (p, g) := toFloat (fmtOf t) false rm r
    (p, f ||| g)
  else
    let w := tagWidth t
    let a := (readAs t x).x
    let b := (readAs t y).x
    match op with
    | .add => ((x + y) % 2 ^ w, 0)
    | .min => (if beforeE b a then y else x, 0)
    | .max => (if beforeE a b then y else x, 0)
    | .and => (x &&& y, 0)
    | .or => (x ||| y, 0)
    | .xor => (x ^^^ y, 0)

/-- One level of the tree: neighbours joined. -/
def treeLevel (node : Nat → Nat → Nat × Flags) : List Nat → Flags → List Nat × Flags
  | x :: y :: rest, fl =>
    let (z, f) := node x y
    let (zs, g) := treeLevel node rest (fl ||| f)
    (z :: zs, g)
  | xs, fl => (xs, fl)

/-- The tree over `2^levels` leaves (R61). -/
def treeReduce (node : Nat → Nat → Nat × Flags) : Nat → List Nat → Flags → Nat × Flags
  | 0, xs, fl => (xs.headD 0, fl)
  | k + 1, xs, fl => let (ys, f) := treeLevel node xs fl; treeReduce node k ys f

/-! ### Dot products (R58) -/

/-- The two chains over the list of products, each with its position k; none for a position that is skipped. `even` and
`odd` are the chains so far, in format `t`. -/
def twoChain (t : BitVec 5) (rm : RMode) : Nat → List (Option (Exact × Exact)) → Exact → Exact → Flags → Exact × Exact × Flags
  | _, [], ev, od, fl => (ev, od, fl)
  | k, none :: rest, ev, od, fl => twoChain t rm (k + 1) rest ev od fl
  | k, some (a, b) :: rest, ev, od, fl =>
    if k % 2 = 0 then
      let (r, f) := fmaE rm a b ev
      let (r', g) := roundIn t rm r
      twoChain t rm (k + 1) rest r' od (fl ||| f ||| g)
    else
      let (r, f) := fmaE rm a b od
      let (r', g) := roundIn t rm r
      twoChain t rm (k + 1) rest ev r' (fl ||| f ||| g)

/-- R58 for a float accumulator of format `t`. -/
def dotFloat (t : BitVec 5) (rm : RMode) (acc : Exact) (ps : List (Option (Exact × Exact))) : Exact × Flags :=
  let (ev, od, fl) := twoChain t rm 0 ps acc (.fin true 0 0 false) 0
  let (r, f) := addE rm ev od
  let (r', g) := roundIn t rm r
  (r', fl ||| f ||| g)

/-- R58 for an integer accumulator: exact modulo 2^32. -/
def dotInt (acc : Int) (ps : List (Option (Exact × Exact))) : Int :=
  ps.foldl (fun s p => match p with | none => s | some (a, b) => s + truncE a * truncE b) acc

/-! ### vexp2 and vlog2 (R63-R65) -/

/-- Round to f64 under RNE: an intermediate of the reference algorithms. -/
def f64 (x : Exact) : Exact := (roundIn 0x0D .rne x).1
/-- A separate f64 sum. -/
def addD (x y : Exact) : Exact := f64 (addE .rne x y).1
/-- A separate f64 product. -/
def mulD (x y : Exact) : Exact := f64 (mulE x y).1
/-- The f64 of a pattern. -/
def ofD (p : Nat) : Exact := decodeFloat (fmtOf 0x0D) p

end Sys2Proof.Machine
end

