-- ==== Sys2Proof/Machine/State.lean ====
section
/-! DEFINITION. The state of the module: its dies, cores, harts, queues, ports and service die, as plain data.

Units are numbered: core `c` of die `d` is `32 d + c` (physical, R9); slot `h` of core `n` is hart `2 n + h` (R21).
Teams, launches and groups are numbered as they arise. Addresses of memory are physical (48 bits, R68); the Casks of the
cores lie above them, core `n`'s at `2^48 + n 2^20` (R67, R82). A table holds its default where a key is not listed. -/

namespace Sys2Proof.Machine

/-- Why the machine stops with a fault. -/
inductive Fault where
  /-- Raised by the page walk: a pointer entry names a node at a physical address that lies in no window of Table 4.2, or
  in a register window. The spec gives the walk no memory there. Safe: the machine stops where the device does something. -/
  | nodeOutsideMemory (pa : Nat)
  deriving DecidableEq, Repr

/-- Why an instruction has no meaning. -/
inductive Refusal where
  /-- Raised by an arm of exec that has no meaning yet, by name. Safe. -/
  | notModelled (mnemonic : String)
  deriving DecidableEq, Repr

/-- The causes of `sr.cause` (Table 21.2), and RESTORE_UE (R363). -/
inductive Cause where
  | illegal | pairBank | priv | segAbsent | sigMismatch | misalign | pageFault | prot | migrationTimeout | fpTrap
  | intDiv0 | tagMismatch | vlIllegal | poisonConsumed | memUe | integrity | checkMismatch | clockWide | stampRegion
  | stampTooOld | rpTimeout | barTimeout | restoreUe | trap | brk
  deriving DecidableEq, Repr

/-- A byte of memory with its poison bit (R378). -/
structure PByte where
  val : Byte
  poi : Bool
  deriving DecidableEq, Repr

/-- The key of a write of a DET launch (R104): the launch, the tile run, the fence count, the logical core, the hart slot. -/
structure DetKey where
  launch : Nat
  run : Nat
  count : Nat
  lcore : Nat
  slot : Nat
  deriving DecidableEq, Repr

/-- Bytes and their poison, as one observer sees them. A byte is listed by how it differs from the contents that its region
has had since the region's contents last became undefined: the use of a free value that `base` names for the region, or 0. -/
structure View where
  bytes : List Host.Cell := []
  poison : Tbl Bool := []
  base : Tbl Nat := []
  /-- The key that the last write to a 4-byte word carried (R104). -/
  keys : Tbl (Option DetKey) := []
  deriving DecidableEq, Repr

/-- A vector register (R30, R35): tag, saturation bit, dirty bit, high-water count, progress index, 512 bytes, poison of its elements. -/
structure VReg where
  tag : BitVec 5 := 2
  sat : Bool := false
  dirty : Bool := false
  hw : BitVec 7 := 0
  /-- Progress index: elements of a producer under way that are written, in whole beat groups (R32). -/
  prog : BitVec 7 := 0
  data : VData := 0
  poison : Mask := 0
  /-- Made dead by `vdead` and not written since (R132). -/
  dead : Bool := false
  /-- Its image in the team's save area is valid (Table 6.4). -/
  imaged : Bool := false
  deriving DecidableEq, Repr

/-- An entry of a load-data queue (R26). -/
structure QEntry where
  mt : BitVec 5
  data : VData
  poison : Mask
  deriving DecidableEq, Repr

/-- A latched slot descriptor (R133): its 64 bytes, and whether the latch found it bad. -/
structure SlotDesc where
  raw : BitVec 512 := 0
  bad : Bool := false
  deriving DecidableEq, Repr

/-- An error in a protected unit of memory that nothing has found yet (R377, R387): uncorrectable, or with a tag that fails where
the ECC is clean or corrected; the ECC syndrome, and the tag difference. -/
structure Latent where
  tagFails : Bool := false
  corrected : Bool := false
  syndrome : BitVec 32 := 0
  tagDiff : BitVec 32 := 0
  deriving DecidableEq, Repr

/-- A store that its hart has issued and its die's L2 (or its core's Cask) has not yet applied (R90, R93, R103). -/
structure BufStore where
  pa : Nat
  bytes : List PByte
  /-- Persist epoch of the hart at the store (R112). -/
  epoch : Nat
  /-- DET fence count at the store (R104). -/
  fcount : Nat
  deriving DecidableEq, Repr

/-- A load that has performed ahead of its instruction, which no rule of order forbids (Table 5.1, R85): the a-register that its
address comes from, where it read, and the bytes. -/
structure Early where
  base : Nat
  pa : Nat
  bytes : List PByte
  deriving DecidableEq, Repr

/-- A copy's failure that its hart has not raised yet (R263): the cause, the address, and UNIT of its record. -/
structure CopyFail where
  cause : BitVec 8
  va : Word
  unit : Nat
  deriving DecidableEq, Repr

/-- What a hart waits or stalls for (Table 2.6, R25, R28, R84, R95), with the fields of the waiting instruction where its end
needs them, and the time of issue where it has a time-out. -/
inductive Wait where
  | epFull
  | resync
  | fence (scope : Nat) (snap : List Nat)
  | fencePath (before : BitVec 6)
  | fenceDur
  /-- `vwait`: time of issue, flags that have met their condition, the instruction's fields. -/
  | vwait (start : Nat) (met : Mask) (o : FM)
  /-- `bar.wait`, or `bar.sync` after its arrival: the generation that must change, time of issue. -/
  | bar (sync : Bool) (gen : BitVec 32) (start : Nat) (o : FC)
  | bb (o : FC)
  | cwait (all : Bool) (o : FC)
  | cfwait (o : FC)
  | clk (o : FC)
  | rpSend (o : FM)
  | rpRecv (start : Nat) (o : FM)
  | ldAsof (o : FC)
  | dig (o : FC)
  /-- An access to a cell with a stamped store of the hart that is not visible yet. -/
  | commit (cell : Nat)
  | lnch (o : FC)
  /-- The removed pages, as first physical byte and bytes. -/
  | tlbinv (pages : List (Nat × Nat))
  /-- The frame of the page that moves. -/
  | pgmig (frame : Nat)
  /-- A write to a page with duplicates: the page's frame, since when, the virtual address written. -/
  | dup (pa : Nat) (start : Nat) (va : Word)
  | migrating (va : Nat)
  | copyTag (tag : Nat)
  /-- A trap that waits for the supervisor segment: what it will save, and UNIT of its record. -/
  | trapEntry (cause : BitVec 8) (tval epc evstart : Word) (unit : Nat)
  deriving DecidableEq, Repr

/-- Where a hart stands (R22, R43, R128). -/
inductive HStatus where
  | unused | ready | running | halted | stopped
  deriving DecidableEq, Repr

/-- A slot of the code store (R87): empty, fetching (false) or landed (true), with the segment and its bytes. -/
structure CodeSlot where
  landed : Option Bool := none
  va : Word := 0
  pa : Nat := 0
  bytes : List Host.Cell := []
  poison : List Nat := []
  deriving DecidableEq, Repr

/-- A hart slot of a core and the hart that occupies it (Tables 2.5, 6.4, 12.12). -/
structure Hart where
  status : HStatus := .unused
  wait : Option Wait := none
  /-- The stall of a releasing or fencing instruction has ended; the instruction runs again and completes (R95). -/
  released : Bool := false
  /-- What held the instruction is over, and the instruction completes before a pre-emption stops the hart (Table 2.6, R134). -/
  finishing : Bool := false
  team : Nat := 0
  rank : Nat := 0
  size : Nat := 0
  teamIx : Nat := 0
  lcore : Nat := 0
  pc : Word := 0
  /-- First address of the segment that control is in (R88). -/
  seg : Word := 0
  a : Tbl Word := []
  v : Tbl VReg := []
  m : Tbl Mask := []
  q : Tbl (List QEntry) := []
  /-- The partly filled entry of a load stopped at an element (R230). -/
  partQ : Option QEntry := none
  vl : Word := 0
  vstart : Word := 0
  fcsr : Word := 0
  supv : Bool := false
  det : Bool := false
  cause : Word := 0
  tval : Word := 0
  epc : Word := 0
  evstart : Word := 0
  ftab : Word := 0
  slots : Word := 0
  lc : Word := 0
  ec : Word := 0
  rrb : Word := 0
  kid : Word := 0
  clkw : Word := 0x3E8
  pcount : Word := 0
  mshape : Word := 0x0000008000800002
  sva : Word := 0
  lastStamp : Word := 0
  fcount : Nat := 0
  tilePos : Nat := 0
  desc : List SlotDesc := []
  /-- Entries of the EP queue and of the matrix engine's queue that have not retired (R25, R28). -/
  epq : Nat := 0
  meq : Nat := 0
  sbuf : List BufStore := []
  wcb : List BufStore := []
  /-- Stores of path M that have not been applied (R98, R261). -/
  mbuf : List BufStore := []
  /-- Loads that have performed ahead of their instructions (R93). -/
  early : List Early := []
  epoch : Nat := 0
  /-- Epochs closed by `pbar` instructions that have not completed (R112). -/
  pbars : List Nat := []
  /-- Copy failures not yet raised (R263). -/
  copyFails : List CopyFail := []
  /-- A lane error that meets the next vector arithmetic instruction: pipe, lane, and whether re-execution corrects it (R384). -/
  laneErr : Option (Nat × Nat × Bool) := none
  /-- Where the next instruction that comes to this element or row, with an earlier one performed, stops, as for a pre-emption (R33). -/
  cut : Option Nat := none
  /-- The iteration vector of the element that `vldm` or `vstm` performs, for a record's ITER (R346). -/
  elemIter : Option (List Nat) := none
  /-- ECCST and TAGST of the unit at whose merge the store stops, for the trap's record (R340, R360). -/
  memErr : Option (Nat × Nat) := none
  /-- Those two of the trap whose routine runs, for the record of a `halt` in it (R346, R354). -/
  trapIter : Option (List Nat) := none
  trapErr : Option (Nat × Nat) := none
  /-- The supervisor segment that the hart's routine goes on in, once `tlbinv` has named its page (R364). -/
  routine : Option CodeSlot := none
  /-- The stack region: lowest address and bytes (R122). -/
  stackLo : Nat := 0
  stackLen : Nat := 0
  deriving DecidableEq, Repr

/-- A tile register (R256): 32 KiB, poison of its half bytes (R378), shape stamp (laid out as Table 12.1), live bit (R131). -/
structure Tile where
  data : BitVec 262144 := 0
  poison : BitVec 65536 := 0
  stamp : Word := 0x0000008000800002
  live : Bool := false
  deriving DecidableEq, Repr

/-- A Vat row (R83): 128 words, poison of each, live bit (R131). -/
structure VatRow where
  data : VData := 0
  poison : Mask := 0
  live : Bool := false
  deriving DecidableEq, Repr

/-- An outstanding copy (R262; the copy entry of R130): the next byte to land at source and destination, the bytes left in its
row, the rows left with that one, the row's bytes and strides, and the rows as issued. Lines beyond that position that have landed
are coded as rows left × 2^32 + bytes left at the line. -/
structure Copy where
  hart : Nat
  src : Word
  dst : Word
  rowLeft : Nat
  rowsLeft : Nat
  rowBytes : Nat
  srcStride : Word
  dstStride : Word
  dur : Bool
  bar : Option Nat
  twoD : Bool
  rows : Nat := 1
  landed : List Nat := []
  /-- The frame whose duplicates a line of the copy waits for, and since when (R79). -/
  held : Option (Nat × Nat) := none
  deriving DecidableEq, Repr

/-- A translation held by a TLB (R75). -/
structure TlbEntry where
  part : Nat
  va : Nat
  size : Nat
  leaf : Word
  leafPa : Nat
  deriving DecidableEq, Repr

/-- A vector pipe of a core (R383-R385): the taster's LFSR, spare lane in use, failing lanes, times of corrected events of a lane. Lanes
are numbered as physical ones, so that a switch renumbers no mark and no event. -/
structure Pipe where
  lfsr : BitVec 16 := 1
  spareFor : Option Nat := none
  failing : List Nat := []
  events : List (Nat × Nat) := []
  deriving DecidableEq, Repr

/-- A core (Table 1.3). -/
structure Core where
  team : Option Nat := none
  tiles : Tbl Tile := []
  vat : Tbl VatRow := []
  /-- Bytes of the team's Cask share (R82). -/
  share : Nat := 0
  cdone : Word := 0
  copies : Tbl (Option Copy) := []
  code : Tbl CodeSlot := []
  sup : CodeSlot := {}
  tlb : List TlbEntry := []
  pipes : Tbl Pipe := []
  degraded : Bool := false
  deriving DecidableEq, Repr

/-- A Trellis barrier (R265). In a DET launch an arrival carries its hart's key (R104): the greatest of the phase now open, and of the
phases that have completed. -/
structure Barrier where
  expected : Nat := 0
  arrived : Nat := 0
  gen : BitVec 32 := 0
  mark : Option DetKey := none
  passed : Option DetKey := none
  deriving DecidableEq, Repr

/-- What the first packet of a round fixes (R240): N, op, MT, tree shape, vl. -/
structure RpFixed where
  n : Nat
  op : Nat
  mt : Nat
  tree : Nat
  vl : Nat
  deriving DecidableEq, Repr

/-- A reduction group on a die (R240-R242, R397): its launch, whether a hart of it has sent (R398), the round now open, packets
sent by each rank, what the first packet fixed (N, op, MT, tree, vl), and the packets of the open round, each a list of element
patterns. -/
structure RGroup where
  launch : Nat
  owned : Bool := false
  round : Nat := 0
  sent : Tbl Nat := []
  fixed : Option RpFixed := none
  packets : Tbl (List Word) := []
  deriving DecidableEq, Repr

/-- A die's clock: its bounds at its last beat and the time of that beat, in ticks of 1/47 ns (R16). -/
structure Clock where
  lo : Nat := 0
  hi : Nat := 0
  beat : Nat := 0
  deriving DecidableEq, Repr

/-- A compute die (Table 1.2). -/
structure Die where
  view : View := {}
  /-- Highest home sequence number received for each byte (R92). -/
  settled : Tbl Nat := []
  /-- Seen[d][j] (R91). -/
  seen : Tbl Nat := []
  vlcap : BitVec 8 := 0x80
  clock : Clock := {}
  /-- The die's copies of the settled marks of the package and of the fabric group, in ns (R105). -/
  mark : Nat := 0
  fmark : Nat := 0
  tlb : List TlbEntry := []
  /-- Die-wide Trellis groups of RESIDENT launches: launch × 16 + b (R265). -/
  bars : Tbl Barrier := []
  groups : Tbl (Option RGroup) := []
  deriving DecidableEq, Repr

/-- A write between its application at the die that made it and its application everywhere (R91, R92). -/
structure NetWrite where
  origin : Nat
  seq : Nat
  vc : List Nat
  pa : Nat
  bytes : List PByte
  /-- The key it carries, and whether the home compares it: not for an atomic (R104, R185). -/
  key : Option DetKey
  compared : Bool
  homeSeq : Option Nat
  /-- The bytes that the home discarded (R104). -/
  lost : List Nat
  pend : List Nat
  deriving DecidableEq, Repr

/-- A Cellar store that the write-pending queue has not accepted (R111, R112, R400); `hart` is none for other agents. `origin` and
`seq` name its write, and `place` is that write's place in home order, none until the home has applied it (R92). -/
structure CellarStore where
  hart : Option Nat
  epoch : Nat
  pa : Nat
  bytes : List PByte
  origin : Nat
  seq : Nat
  place : Option Nat
  deriving DecidableEq, Repr

/-- A stamped store in its home's stamp queue (R106-R108). -/
structure Stamped where
  pa : Nat
  val : Word
  stamp : Nat
  die : Nat
  lhart : Nat
  hart : Nat
  fabric : Bool
  epoch : Nat
  /-- The key of the hart that stored it (R104). -/
  key : Option DetKey := none
  deriving DecidableEq, Repr

/-- A page on its way to another frame (R80): the issuing hart, the new frame, the leaf's address, the page's bytes, the partition. -/
structure Move where
  hart : Nat
  frame : Nat
  leafPa : Nat
  size : Nat
  part : Nat
  deriving DecidableEq, Repr

/-- Status of a launch (R123, R124). -/
inductive LStatus where
  | queued | running | ok | faulted | cancelled
  deriving DecidableEq, Repr

/-- A launch (R116-R126): its record as it was read, and the slot table as the Blender reads it. -/
structure Launch where
  part : Nat
  addr : Word
  raw : BitVec 1024
  status : LStatus := .queued
  nextTeam : Nat := 0
  endedTeams : Nat := 0
  faulted : Bool := false
  /-- When it last became ready with a team unadmitted, and whole milliseconds since then (R125). -/
  readyAt : Option Nat := none
  age : Nat := 0
  /-- What the dies of its ended teams had applied, as a vector clock (R101). -/
  clock : List Nat := []
  /-- The Blender has decided on it as a consumer (R141). -/
  decided : Bool := false
  /-- The producer that its arrival gave it, while the Blender has put the decision off (R141). -/
  producer : Option Nat := none
  /-- Stages of the splice this launch heads, this launch first; or the launch that heads the splice it joined (R140). -/
  chain : List Nat := []
  head : Option Nat := none
  /-- Tile runs of this stage that have ended, in a splice (R148). -/
  runs : Nat := 0
  /-- The stage whose fault ended the splice this launch heads (R148). -/
  faultStage : Nat := 0
  /-- To the next stage of the splice (R139, R144): pairs (a, b) of dimensions with G[a][b] = 1, the window's Cask offset and
  bytes, the TRANSIENT slot of this stage, and the slot of the next stage that reads it. -/
  perm : List (Nat × Nat) := []
  window : Nat := 0
  windowLen : Nat := 0
  slotOut : Nat := 0
  slotIn : Nat := 0
  /-- The launches that its PRED fields named at its arrival, queued or running then (R394). -/
  waits : List Nat := []
  /-- The frame whose duplicates its completion write waits for, and since when (R79). -/
  held : Option (Nat × Nat) := none
  /-- A machine check ended it while it ran (R348). -/
  checked : Bool := false
  /-- Of a later stage, once the launch that heads its splice has completed: `sr.pcount`, last stamp and flags of its logical
  harts (R330). -/
  last : List (Nat × Nat × Nat) := []
  deriving DecidableEq, Repr

/-- Where a team stands (R121, R128, R132, R135). -/
inductive TStatus where
  | fetching | running | switching | stopping | saved | restoring | ended
  deriving DecidableEq, Repr

/-- What the device keeps of a hart besides its save area (R132, R252, R263): a partly filled queue entry, copy failures not yet
raised, the registers that are dead, and which copies are the hart's. -/
structure Kept where
  partQ : Option QEntry := none
  copyFails : List CopyFail := []
  dead : List Nat := []
  /-- Tags of the copies that the hart issued and that were saved. -/
  tags : List Nat := []
  trapIter : Option (List Nat) := none
  trapErr : Option (Nat × Nat) := none
  deriving DecidableEq, Repr

/-- A hart's final values for the Recovery Page (R330): `sr.pcount`, last stamp, halted, and the epochs closed by `pbar`
instructions that have not completed (R112). -/
structure Final where
  pcount : Word
  lastStamp : Word
  halted : Bool
  pbars : List Nat := []
  deriving DecidableEq, Repr

/-- A team (R20-R22). -/
structure Team where
  launch : Nat
  part : Nat
  ix : Nat
  die : Nat
  cores : List Nat
  size : Nat
  status : TStatus
  /-- Tile linear index of the run in progress, in the last stage's space for a splice (R135, R142). -/
  tile : Nat := 0
  stage : Nat := 0
  /-- The tile of the run in progress in its stage's own space (R143). -/
  stageTile : Nat := 0
  /-- That run has begun. -/
  begun : Bool := false
  bars : Tbl Barrier := []
  save : Option Nat := none
  caskLeft : Bool := false
  between : Bool := false
  stackBase : Nat := 0
  yielding : Bool := false
  admitSeq : Nat := 0
  saveSeq : Nat := 0
  faulted : Bool := false
  /-- Per rank, while the team is saved. -/
  kept : List Kept := []
  /-- Per rank, once the team has ended. -/
  final : List Final := []
  deriving DecidableEq, Repr

/-- A partition slot (Tables 15.10 and 21.1, R318). -/
structure Part where
  level : Nat := 0
  state : Nat := 0
  w2 : Word := 0
  w3 : Word := 0
  w4 : Word := 0
  w5 : Word := 0
  w6 : Word := 0
  supvec : Word := 0
  /-- Launches completed by each queue (R124). -/
  completed : Tbl Nat := []
  /-- Round-robin pointer of each priority (R125). -/
  rr : Tbl Nat := []
  /-- What the lead slice's die had applied at its last completion write, as a vector clock (R101). -/
  ended : List Nat := []
  deriving DecidableEq, Repr

/-- A message that the module sends to the master of a port: the completion of a slot's record with its response (R326), or an
event with EVHEAD (R327). -/
inductive PortMsg where
  | completion (slot : Nat) (response : BitVec 128)
  | event (head : Word)
  deriving DecidableEq, Repr

/-- A port (R325, R326): the master it is bound to, response fields, data buffers, slots whose record awaits a response, and messages
on their way to the master. -/
structure Port where
  bound : Option Nat := none
  resp : Tbl (BitVec 128) := []
  data : List Host.Cell := []
  busy : List Nat := []
  msgs : List PortMsg := []
  deriving DecidableEq, Repr

/-- The error log (Table 20.3); `pending` holds records the logging engine has not written, without their SEQ (R343). -/
structure Log where
  base : Word := 0
  len : Word := 0x40
  head : Word := 0
  tail : Word := 0
  drops : Tbl Word := []
  pending : List (BitVec 512) := []
  /-- The vector clock of the record whose bytes are written and that HEAD does not count yet. -/
  written : Option (List Nat) := none
  deriving DecidableEq, Repr

/-- The event queue (Table 15.7); `pending` holds events not yet written (R327). -/
structure Events where
  head : Word := 0
  tail : Word := 0
  drop : Word := 0
  ring : Tbl (BitVec 512) := []
  pending : List (BitVec 512) := []
  /-- MACHINE_CHECK events that wait for the SEQ of their record: the records up to it that the log has yet to write or drop. -/
  held : List (Nat × BitVec 512) := []
  deriving DecidableEq, Repr

/-- The spare map (R382): physical cores in logical order by die, spare lanes in use as core, pipe and lane, remapped rows. -/
structure SpareMap where
  cores : Tbl (Option (List Nat)) := []
  lanes : List (Nat × Nat × Nat) := []
  rows : List Nat := []
  deriving DecidableEq, Repr

/-- The service die and its flash (Table 1.6, R15, R315, R321, R382, R404). -/
structure Service where
  owner : Option Nat := none
  term : BitVec 32 := 0
  lastTerm : BitVec 32 := 0
  frozen : BitVec 16 := 0
  booted : Bool := false
  golden : Bool := false
  powered : Bool := true
  /-- The generation of a drain whose event is still to be written at the next boot (R327). -/
  drained : Option Nat := none
  /-- Physical cores in logical order, per die (R10); unlisted dies use cores 0 to 27. -/
  coreMap : Tbl (Option (List Nat)) := []
  /-- Updates of the spare map since the module was made (R382). -/
  mapVersion : Nat := 0
  /-- The last copy of the spare map before the one in use (R382). -/
  lastMap : SpareMap := {}
  /-- The image in the firmware partition; none for the one that the module was made with (R321). -/
  firmware : Option (List Byte) := none
  /-- Owner key slots, and partition defaults, of the configuration record (Table 1.6). -/
  ownerKeys : List (BitVec 512) := []
  defaults : List Byte := []
  /-- Self-tests under way: the partition slot and the record to answer (R390). -/
  selftests : List (Nat × CmdRec) := []
  /-- WRITE records whose bytes in the Cellar are not durable yet (R400). -/
  writes : List CmdRec := []
  /-- The frame whose duplicates the WRITE at the head of its port's records waits for, and since when (R79). -/
  held : Option (Nat × Nat) := none
  /-- What was written into the service firmware controls (Table 15.3). -/
  controls : Tbl Byte := []
  deriving DecidableEq, Repr

/-- Reliability state of the sixteen HBM stacks (R380, R381). -/
structure Spare where
  filter : Tbl (BitVec 65536) := []
  repeats : Tbl (List (Nat × Nat)) := []
  /-- Rows remapped to spare rows, as stack × 2^40 + bank × 2^24 + row. -/
  remapped : List Nat := []
  copying : List (Nat × Nat) := []
  deriving DecidableEq, Repr

/-- A protected word of the arrays of SRAM (Table 23.1): of a die's view in L2, a core's Cask, a slot of its code store, a vector
register, an entry of a load-data queue, a tile register, a Vat row, and the a-registers and special registers of a hart. -/
inductive Sram where
  | l2 (die pa : Nat)
  | cask (core off : Nat)
  | code (core slot off : Nat)
  | vreg (hart n word : Nat)
  | queue (hart q k word : Nat)
  | tile (core t word : Nat)
  | vat (core row word : Nat)
  | scalar (hart : Nat)
  deriving DecidableEq, Repr

/-- What the agenda asks for next. A hart runs an instruction; an event of the module happens; the service die takes its
oldest command record; a load performs ahead of its instruction (R93). The rest comes from outside the module: a record or data
written into a port's window, or a message taken from it (R326), a signed configuration record (R321), a peer's store to its own
memory (R92), an upset of a memory unit, of a word of SRAM or of a vector lane (R377, R384). A cut says at which element the hart's
instruction stops to be resumed (R33), and a TLB may let an entry go (R75). -/
inductive Action where
  | run (hart : Nat)
  | event (i : Instr) (ev : Ev)
  | takeCommand
  | record (port slot : Nat) (raw : BitVec 512)
  | portData (port slot offset : Nat) (bytes : List Byte)
  | takeMessage (port : Nat)
  | configRecord (keys : List (BitVec 512)) (defaults : List Byte) (signed : Bool)
  | peerStore (pa : Nat) (bytes : List Byte)
  | loadEarly (hart base pa len : Nat)
  | upset (unit : Nat) (e : Latent)
  | sramUpset (u : Sram) (syndrome : BitVec 32) (uncorrectable : Bool)
  | laneUpset (hart pipe lane : Nat) (corrects : Bool)
  | cut (hart k : Nat)
  | tlbEvict (die : Nat) (core : Option Nat) (k : Nat)
  deriving DecidableEq, Repr

/-- The module. -/
structure State where
  /-- The hart that runs next, and whose instruction `exec` gives a meaning to. -/
  cur : Nat := 0
  /-- Which agent moves next: the model's own schedule. When it is empty the step chooses by a fixed rule. -/
  agenda : List Action := []
  /-- What the event that happens now concerns. -/
  ev : Ev := {}
  /-- The command record that is executed now. -/
  cmd : CmdRec := ⟨0, 0, 0, 0, 0, 0, 0, 0, 0, 0, 0, 0, 0, 0, false⟩
  /-- Command records in the order in which the service die received them (R313). -/
  cmdq : List CmdRec := []
  /-- The class of the word that was fetched and does not decode (R167). -/
  badClass : Word := 0
  /-- Uses of free values so far: the model's own counter. -/
  fresh : Nat := 0
  /-- Time since reset in ticks of 1/47 ns; a cycle is 50 ticks (R2). -/
  now : Nat := 0
  harts : Tbl Hart := []
  cores : Tbl Core := []
  dies : Tbl Die := []
  /-- Memory of the fabric peers as the fabric applies it (R68, R92): keys are physical addresses of the fabric window. -/
  peers : View := {}
  /-- The Casks of all cores (R90). -/
  casks : View := {}
  /-- What is durable in the Cellar (R111). -/
  media : View := {}
  net : List NetWrite := []
  homeSeq : Nat := 0
  /-- Kept keys of DET launches by 4-byte word (R104). -/
  detKeys : Tbl (Option DetKey) := []
  cellarPend : List CellarStore := []
  stampq : List Stamped := []
  /-- The package and fabric marks at the time reference (R105). -/
  packageMark : Nat := 0
  fabricMark : Nat := 0
  /-- Holders of duplicates of a page frame: dies 0 to 7, fabric peer p as 8 + p (R79). -/
  dups : Tbl (List Nat) := []
  /-- Bytes of the page whose duplicates are held, by its frame. -/
  dupSizes : Tbl Nat := []
  /-- Since when a peer's write waits for the duplicates of a page frame (R79). -/
  peerHeld : Tbl (Option Nat) := []
  /-- Pages being moved by `pgmig`, by their old frame (R80). -/
  moving : Tbl (Option Move) := []
  /-- Units of memory with an error that nothing has found yet, by first byte (R360, R387). -/
  latent : Tbl (Option Latent) := []
  /-- Of units of SRAM, by UNIT: when their last corrected error was recorded, and those since then (R379). -/
  sramLog : Tbl (Option (Nat × Nat)) := []
  launches : Tbl (Option Launch) := []
  nextLaunch : Nat := 0
  teams : Tbl (Option Team) := []
  nextTeam : Nat := 0
  seq : Nat := 0
  parts : Tbl Part := []
  ports : Tbl Port := []
  log : Log := {}
  events : Events := {}
  svc : Service := {}
  spare : Spare := {}
  deriving DecidableEq, Repr

/-- The module right after reset: no owner, no partition, no launch; memory lists nothing; every register at the reset
value the field maps give (Tables 2.2, 11.8, 12.1, 20.3) and 0 where they give none. (DESIGN CHOICE, log 1.) -/
def State.reset : State := {}

end Sys2Proof.Machine
end

