-- ==== Sys2Proof/Machine/Access.lean ====
section
/-! DEFINITION. Reading and writing the parts of the state: units, registers, masks, elements, launch records, clocks.

Every register has one home and is reached through one accessor here (R154 for a0, Table 2.5 for m0, R38 for v192-v255,
R31 for 64-bit pairs). -/

namespace Sys2Proof.Machine

/-! ### Units -/

/-- Hart slot `n` (R21). -/
def State.hart (s : State) (n : Nat) : Hart := Tbl.get {} s.harts n
/-- Hart slot `n` replaced. -/
def State.setHart (s : State) (n : Nat) (h : Hart) : State := { s with harts := Tbl.set {} s.harts n h }
/-- Core `n`. -/
def State.core (s : State) (n : Nat) : Core := Tbl.get {} s.cores n
/-- Core `n` replaced. -/
def State.setCore (s : State) (n : Nat) (c : Core) : State := { s with cores := Tbl.set {} s.cores n c }
/-- Die `n`. -/
def State.die (s : State) (n : Nat) : Die := Tbl.get {} s.dies n
/-- Die `n` replaced. -/
def State.setDie (s : State) (n : Nat) (d : Die) : State := { s with dies := Tbl.set {} s.dies n d }
/-- Team `n`, none once it has ended. -/
def State.team (s : State) (n : Nat) : Option Team := Tbl.get none s.teams n
/-- Team `n` replaced. -/
def State.setTeam (s : State) (n : Nat) (t : Team) : State := { s with teams := Tbl.set none s.teams n (some t) }
/-- Launch `n`. -/
def State.launch (s : State) (n : Nat) : Option Launch := Tbl.get none s.launches n
/-- Launch `n` replaced. -/
def State.setLaunch (s : State) (n : Nat) (l : Launch) : State := { s with launches := Tbl.set none s.launches n (some l) }
/-- Partition slot `p`. -/
def State.part (s : State) (p : Nat) : Part := Tbl.get {} s.parts p
/-- Partition slot `p` replaced. -/
def State.setPart (s : State) (p : Nat) (q : Part) : State := { s with parts := Tbl.set {} s.parts p q }
/-- Port `p`. -/
def State.port (s : State) (p : Nat) : Port := Tbl.get {} s.ports p
/-- Port `p` replaced. -/
def State.setPort (s : State) (p : Nat) (q : Port) : State := { s with ports := Tbl.set {} s.ports p q }

/-- The core of a hart (R21). -/
def coreOf (hart : Nat) : Nat := hart / 2
/-- The die of a core. -/
def dieOfCore (core : Nat) : Nat := core / 32
/-- The die of a hart. -/
def dieOf (hart : Nat) : Nat := hart / 64

/-- The team of a hart. -/
def State.teamOf (s : State) (n : Nat) : Option Team := s.team (s.hart n).team

/-- The dies of the partition in slot `p` (R318). -/
def State.diesOf (s : State) (p : Nat) : List Nat :=
  match (s.part p).level with
  | 0 => List.range 8
  | 1 => (List.range 4).map (p / 4 * 4 + ·)
  | 2 => [p / 2 * 2, p / 2 * 2 + 1]
  | _ => [p]

/-- The cores of a partition. -/
def State.coresIn (s : State) (p : Nat) : List Nat := (s.diesOf p).flatMap fun d => (List.range 32).map (32 * d + ·)

/-- The launch whose code a team runs now: its launch, or the stage of the splice it heads (R142). -/
def State.stageLaunchIx (s : State) (t : Team) : Nat :=
  match s.launch t.launch with
  | some l => l.chain.getD t.stage t.launch
  | none => t.launch

/-- The launch whose die-wide groups hart `n` names (R265): that of the stage its team runs. -/
def State.groupLaunch (s : State) (n : Nat) : Nat := match s.teamOf n with
  | some t => s.stageLaunchIx t
  | none => 0

/-- The launch whose code hart `n` runs now. -/
def State.launchOf (s : State) (n : Nat) : Option Launch :=
  match s.teamOf n with
  | some t => s.launch (s.stageLaunchIx t)
  | none => none

/-! ### The stop monad of an instruction -/

/-- Why an instruction does not complete: a cause with its `sr.tval` and stop element (R33, R354), a wait or stall (Table 2.6,
R41), a stop at an element to be resumed there (R33), an uncorrectable error in a page-table node (R345), or a stop of the model. -/
inductive Stop where
  | trap (c : Cause) (tval : Word) (k : Nat)
  | wait (w : Wait)
  | cut (k : Nat)
  | machineCheck (part : Nat) (pa : Nat)
  | fault (f : Fault)
  | refuse (r : Refusal)
  deriving DecidableEq, Repr

/-- What an instruction does to the state until it completes or stops; the state at a stop keeps what was performed. -/
abbrev M := EStateM Stop State

/-- Raise a cause of an instruction that does not stop between elements, or at element 0. -/
def raise {α : Type} (c : Cause) (tval : Word) : M α := throw (.trap c tval 0)

/-- Raise ILLEGAL with the given `sr.tval`. -/
def illegal {α : Type} (tval : Word) : M α := raise .illegal tval

/-- Raise a cause when a condition holds. -/
def raiseIf (b : Bool) (c : Cause) (tval : Word) : M Unit := if b then raise c tval else pure ()

/-- Perform an action for every element of a list, in order. -/
def forEach {α : Type} : List α → (α → M Unit) → M Unit
  | [], _ => pure ()
  | x :: xs, f => do f x; forEach xs f

/-- The numbers from `lo` up to but not including `hi`, in order. -/
def span (lo hi : Nat) : List Nat := (List.range (hi - lo)).map (· + lo)

/-- The hart whose instruction runs. -/
def me : M Nat := do return (← get).cur
/-- The state of that hart. -/
def myHart : M Hart := do let s ← get; return s.hart s.cur
/-- Change that hart. -/
def modifyHart (f : Hart → Hart) : M Unit := modify fun s => s.setHart s.cur (f (s.hart s.cur))
/-- The core of that hart. -/
def myCore : M Core := do let s ← get; return s.core (coreOf s.cur)
/-- Change that core. -/
def modifyCore (f : Core → Core) : M Unit :=
  modify fun s => s.setCore (coreOf s.cur) (f (s.core (coreOf s.cur)))

/-- A fresh 64-bit value that nothing constrains (R5). (DESIGN CHOICE, log 3.) -/
def freshWord : M Word := do
  let s ← get
  set { s with fresh := s.fresh + 1 }
  return Config.freeWord s.fresh

/-- Fresh contents of a vector register (R5). (DESIGN CHOICE, log 3.) -/
def freshReg : M VData := do
  let s ← get
  set { s with fresh := s.fresh + 1 }
  return Config.freeReg s.fresh

/-! ### a-registers and masks -/

/-- An a-register; a0 reads as 0 (R154). -/
def Hart.aReg (h : Hart) (i : Nat) : Word := if i = 0 then 0 else Tbl.get 0 h.a i
/-- Write an a-register; a write to a0 is discarded (R154, R170). A load whose address comes from the register has not performed
ahead of the write (Table 5.1). -/
def Hart.setA (h : Hart) (i : Nat) (v : Word) : Hart :=
  if i = 0 then h else { h with a := Tbl.set 0 h.a i v, early := h.early.filter fun e => e.base != i }
/-- A mask register; m0 is all ones (Table 2.5). -/
def Hart.mReg (h : Hart) (i : Nat) : Mask := if i = 0 then BitVec.allOnes 128 else Tbl.get 0 h.m i
/-- Write a mask register; no instruction names m0 as a destination (R372). -/
def Hart.setM (h : Hart) (i : Nat) (v : Mask) : Hart := if i = 0 then h else { h with m := Tbl.set 0 h.m i v }

/-- Read an a-register. -/
def rdA (i : BitVec 6) : M Word := do return (← myHart).aReg i.toNat
/-- Write an a-register. -/
def wrA (i : BitVec 6) (v : Word) : M Unit := modifyHart (·.setA i.toNat v)

/-- The current vector length, 0 to 128 (R36). -/
def Hart.vlen (h : Hart) : Nat := h.vl.toNat
/-- The resumable element index. -/
def Hart.start (h : Hart) : Nat := h.vstart.toNat
/-- RM of `sr.fcsr` (Table 3.3). -/
def Hart.rm (h : Hart) : RMode := RMode.ofCode (h.fcsr.extractLsb' 16 3).toNat
/-- EN of `sr.fcsr`. -/
def Hart.en (h : Hart) : Flags := h.fcsr.extractLsb' 8 5
/-- FLAGS gain (R51). -/
def Hart.addFlags (h : Hart) (f : Flags) : Hart := { h with fcsr := h.fcsr ||| f.setWidth 64 }
/-- PAIR of `sr.rrb` (Table 2.3). -/
def Hart.rrbPair (h : Hart) : Bool := h.rrb.getLsbD 6
/-- BASE of `sr.rrb`; bit 0 reads as 0 while PAIR is set (Table 2.3). -/
def Hart.rrbBase (h : Hart) : Nat :=
  let b := (h.rrb.extractLsb' 0 6).toNat
  if h.rrbPair then b / 2 * 2 else b
/-- `sr.rrb` with another BASE. -/
def Hart.setBase (h : Hart) (b : Nat) : Hart :=
  { h with rrb := (if h.rrbPair then 64 else 0) ||| BitVec.ofNat 64 (b % 64) }

/-- The architectural register that the name v`n` refers to (R38). -/
def Hart.rot (h : Hart) (n : Nat) : Nat := if n < 192 then n else 192 + (n - 192 + h.rrbBase) % 64

/-! ### Vector registers and elements -/

/-- Architectural vector register `n`. -/
def Hart.vreg (h : Hart) (n : Nat) : VReg := Tbl.get {} h.v n
/-- Architectural vector register `n` replaced. -/
def Hart.setV (h : Hart) (n : Nat) (r : VReg) : Hart := { h with v := Tbl.set {} h.v n r }

/-- Whether v`n` is the upper register of a 64-bit pair (R31). -/
def Hart.isPairHigh (h : Hart) (n : Nat) : Bool := n % 2 == 1 && tagWidth (h.vreg (n - 1)).tag == 64

/-- The bits of element `e` at width `w` of 512 bytes of data: 4-bit codes and 8- to 32-bit elements lie at bit e·w (R46). -/
def elemBits (data : VData) (w e : Nat) : Nat := (data.toNat >>> (e * w)) % 2 ^ w

/-- 512 bytes of data with element `e` at width `w` replaced. -/
def putBits (data : VData) (w e x : Nat) : VData :=
  let hole : VData := (BitVec.ofNat 4096 (2 ^ w - 1)) <<< (e * w)
  (data &&& ~~~hole) ||| ((BitVec.ofNat 4096 (x % 2 ^ w)) <<< (e * w))

/-- The pattern of element `e` of register `n` under its tag; a 64-bit pair gives its low word from v`n` and its high word
from v`n+1` (R31). -/
def Hart.elem (h : Hart) (n e : Nat) : Nat :=
  let r := h.vreg n
  if tagWidth r.tag = 64 then elemBits r.data 32 e + 2 ^ 32 * elemBits (h.vreg (n + 1)).data 32 e
  else elemBits r.data (tagWidth r.tag) e

/-- The poison of element `e` of register `n`: of either register of a 64-bit pair (R378). -/
def Hart.elemPoison (h : Hart) (n e : Nat) : Bool :=
  let r := h.vreg n
  r.poison.getLsbD e || (tagWidth r.tag == 64 && (h.vreg (n + 1)).poison.getLsbD e)

/-- A mask with bit `e` set to `b`. -/
def putMask (m : Mask) (e : Nat) (b : Bool) : Mask :=
  if b then m ||| (1#128 <<< e) else m &&& ~~~(1#128 <<< e)

/-- A register after element `e` of its 512 bytes at width `w` was written: data, poison, dirty bit, h (R35), and the progress index,
which counts whole beat groups of 32 elements and stands at 0 when no producer is under way (R32). (DEDUCED, log 69.) -/
def VReg.putElem (r : VReg) (w e x : Nat) (poison : Bool) : VReg :=
  { r with
    data := putBits r.data w e x
    poison := putMask r.poison e poison
    dirty := true
    dead := false
    prog := BitVec.ofNat 7 ((e + 1) / 32 * 32)
    hw := if r.hw.toNat < e then BitVec.ofNat 7 e else r.hw }

/-- Write element `e` of register `n` under its tag (R31, R35). -/
def Hart.setElem (h : Hart) (n e x : Nat) (poison : Bool := false) : Hart :=
  let r := h.vreg n
  if tagWidth r.tag = 64 then
    let h' := h.setV n (r.putElem 32 e (x % 2 ^ 32) poison)
    h'.setV (n + 1) ((h'.vreg (n + 1)).putElem 32 e (x / 2 ^ 32) poison)
  else h.setV n (r.putElem (tagWidth r.tag) e x poison)

/-! ### Launch records and slot descriptors (Tables 6.1 and 6.2) -/

/-- Bits of a launch record. -/
def Launch.bits (l : Launch) (lo n : Nat) : Nat := (l.raw.extractLsb' lo n).toNat
/-- KID. -/
def Launch.kid (l : Launch) : Nat := l.bits 0 32
def Launch.spliceOk (l : Launch) : Bool := l.raw.getLsbD 32
def Launch.resident (l : Launch) : Bool := l.raw.getLsbD 33
def Launch.det (l : Launch) : Bool := l.raw.getLsbD 34
def Launch.slotOnly (l : Launch) : Bool := l.raw.getLsbD 35
def Launch.dynamic (l : Launch) : Bool := l.raw.getLsbD 36
def Launch.entry (l : Launch) : Nat := l.bits 64 64
/-- E_d. -/
def Launch.extent (l : Launch) (d : Nat) : Nat := l.bits (128 + 32 * d) 32
/-- D_d. -/
def Launch.shape (l : Launch) (d : Nat) : Nat := l.bits (256 + 16 * d) 16
/-- S: harts per team. -/
def Launch.teamSize (l : Launch) : Nat := l.bits 320 16
/-- L: logical cores. -/
def Launch.lcores (l : Launch) : Nat := l.bits 336 16
def Launch.prio (l : Launch) : Nat := l.bits 352 8
def Launch.queue (l : Launch) : Nat := l.bits 360 8
/-- Stack per hart in KiB. -/
def Launch.stackKib (l : Launch) : Nat := l.bits 368 16
def Launch.pred (l : Launch) (i : Nat) : Nat := l.bits (384 + 32 * i) 32
def Launch.cflag (l : Launch) : Nat := l.bits 512 64
def Launch.cval (l : Launch) : Nat := l.bits 576 64
/-- CASKB: Cask bytes per team. -/
def Launch.caskb (l : Launch) : Nat := l.bits 640 32
def Launch.nseg (l : Launch) : Nat := l.bits 672 32
def Launch.slottab (l : Launch) : Nat := l.bits 704 64

/-- c = ⌈S/2⌉: cores of a team (R118). -/
def Launch.coresPerTeam (l : Launch) : Nat := (l.teamSize + 1) / 2

/-- ⌈a/b⌉, 0 for b = 0. -/
def ceilDiv (a b : Nat) : Nat := (a + b - 1) / b

/-- T_d (R120). -/
def Launch.tilesAlong (l : Launch) (d : Nat) : Nat := ceilDiv (l.extent d) (l.shape d)
/-- NTILE (R120). -/
def Launch.ntile (l : Launch) : Nat := l.tilesAlong 0 * l.tilesAlong 1 * l.tilesAlong 2 * l.tilesAlong 3
/-- NT (R120). -/
def Launch.nteams (l : Launch) : Nat :=
  if l.dynamic then l.lcores / l.coresPerTeam else min (l.lcores / l.coresPerTeam) l.ntile
/-- Coordinate `d` of the tile of linear index `t` (R120). -/
def Launch.tileCoord (l : Launch) (t d : Nat) : Nat :=
  (t / ((List.range d).foldl (fun p i => p * l.tilesAlong i) 1)) % l.tilesAlong d
/-- A tile-body launch (R135). -/
def Launch.tileBody (l : Launch) : Bool := l.spliceOk && !l.dynamic

/-- Bits of a slot descriptor. -/
def SlotDesc.bits (d : SlotDesc) (lo n : Nat) : Nat := (d.raw.extractLsb' lo n).toNat
/-- BASE. -/
def SlotDesc.base (d : SlotDesc) : Nat := d.bits 0 64
/-- S_d, signed. -/
def SlotDesc.stride (d : SlotDesc) (i : Nat) : Int := signedOf 64 (d.bits (64 + 64 * i) 64)
/-- M[a][b], signed. -/
def SlotDesc.map (d : SlotDesc) (a b : Nat) : Int := signedOf 4 (d.bits (320 + 16 * a + 4 * b) 4)
/-- O_d, signed. -/
def SlotDesc.offset (d : SlotDesc) (i : Nat) : Int := signedOf 16 (d.bits (384 + 16 * i) 16)
def SlotDesc.type (d : SlotDesc) : Nat := d.bits 448 8
def SlotDesc.acc (d : SlotDesc) : Nat := d.bits 456 8
def SlotDesc.reader (d : SlotDesc) : Nat := d.bits 464 32

/-! ### Time (R2, R16, R105) -/

/-- Ticks of 1/47 ns in a cycle of 940 MHz, which is 50/47 ns. -/
def cycleTicks : Nat := 50
/-- Ticks in a nanosecond. -/
def nsTicks : Nat := 47

/-- Earliest and latest values of a die's clock, in ns: its bounds at its last beat, moved away from its reading at 2 ppm of
the time since then (R16). (DESIGN CHOICE, log 4.) -/
def State.interval (s : State) (d : Nat) : Nat × Nat :=
  let c := (s.die d).clock
  let dt := s.now - c.beat
  let den := nsTicks * 1000000
  (c.lo + dt * (1000000 - 2) / den, c.hi + ceilDiv (dt * (1000000 + 2)) den)

/-! ### Coding of causes -/

/-- Codes of `sr.cause` (Table 21.2, R363). -/
def Cause.code : Cause → BitVec 8
  | .illegal => 0x01 | .pairBank => 0x02 | .priv => 0x03 | .segAbsent => 0x04 | .sigMismatch => 0x05 | .misalign => 0x06
  | .pageFault => 0x08 | .prot => 0x09 | .migrationTimeout => 0x0A | .fpTrap => 0x10 | .intDiv0 => 0x11
  | .tagMismatch => 0x12 | .vlIllegal => 0x13 | .poisonConsumed => 0x18 | .memUe => 0x19 | .integrity => 0x1A
  | .checkMismatch => 0x1B | .clockWide => 0x20 | .stampRegion => 0x21 | .stampTooOld => 0x22 | .rpTimeout => 0x28
  | .barTimeout => 0x29 | .restoreUe => 0x30 | .trap => 0x38 | .brk => 0x39

end Sys2Proof.Machine
end

