-- ==== Sys2Proof/Machine/Memory.lean ====
section
/-! DEFINITION. Physical memory: windows and homes, what each die has applied, store buffers, the order of writes, the Cellar
(04_memory_hierarchy R68, R69; 05_ordering R90-R92, R103, R104, R111, R112; 23_integrity R377, R378, R387).

Each die sees the bytes its L2 has applied. A write is applied first at the die that made it, and travels in `State.net`
until every other die has applied it; the list's order is causal, because a write is appended when it is applied at its
origin. -/

namespace Sys2Proof.Machine

/-! ### The physical address map (Table 4.2) -/

/-- First address of core `c`'s Cask among the addresses of this model: beyond the 48 bits of R68. (DESIGN CHOICE, log 13.) -/
def caskBase (core : Nat) : Nat := 2 ^ 48 + core * 2 ^ 20

/-- The windows of Table 4.2, the Casks above them, and the holes. -/
inductive Window where
  | interleaved | local_ (die : Nat) | cellar | register | fabric | cask | hole
  deriving DecidableEq, Repr

/-- The window of an address. -/
def windowOf (pa : Nat) : Window :=
  if 2 ^ 48 ≤ pa then .cask
  else if pa < 0x008000000000 then .interleaved
  else if pa < 0x00C000000000 then .local_ ((pa - 0x008000000000) / 0x0800000000)
  else if 0x400000000000 ≤ pa && pa < 0x420000000000 then .cellar
  else if 0x700000000000 ≤ pa && pa < 0x800000000000 then .register
  else if 0x800000000000 ≤ pa then .fabric
  else .hole

/-- First byte of the Recovery Pages. -/
def recoveryBase : Nat := 0x41FFFFF80000

/-- An address of the Recovery Pages (R68). -/
def inRecovery (pa : Nat) : Bool := recoveryBase ≤ pa && pa < 0x420000000000

/-- An address of HBM. -/
def inHbm (pa : Nat) : Bool := pa < 0x00C000000000
/-- An address of the Cellar. -/
def inCellar (pa : Nat) : Bool := windowOf pa = .cellar

/-- The HBM stack, or the Cellar stack, of an address (R69). -/
def stackOf (pa : Nat) : Nat := match windowOf pa with
  | .interleaved => pa / 4096 % 16
  | .local_ d => 2 * d + pa / 4096 % 2
  | .cellar => pa / 4096 % 4
  | _ => 0

/-- The agent of the fabric peers among the agents that apply writes: dies are 0 to 7. -/
def fabricAgent : Nat := 8

/-- The home of a location (R92). -/
def homeOf (pa : Nat) : Nat := match windowOf pa with
  | .interleaved | .local_ _ => stackOf pa / 2
  | .cellar => 2 * stackOf pa
  | .fabric => fabricAgent
  | _ => 0

/-! ### Views -/

/-- The region of an address whose contents become undefined together: the HBM of a die (0 to 7), or a Cask (16 and up). -/
def baseRegion (pa : Nat) : Option Nat :=
  if 2 ^ 48 ≤ pa then some (16 + (pa - 2 ^ 48) / 2 ^ 20) else if inHbm pa then some (homeOf pa) else none

/-- What an unlisted byte of memory reads as: 0, until a self-test leaves its region undefined (R390). (DESIGN CHOICE, log 2.) -/
def View.baseAt (m : View) (a : Nat) : Byte :=
  match m.base with
  | [] => 0
  | b => match baseRegion a with
    | none => 0
    | some r => match Tbl.get 0 b r with
      | 0 => 0
      | g => Config.freeCell g a

/-- The byte at `a`. (DESIGN CHOICE, log 2.) -/
def View.get (m : View) (a : Nat) : PByte := ⟨Tbl.get 0 m.bytes a ^^^ m.baseAt a, Tbl.get false m.poison a⟩

/-- The view with the byte at `a` replaced, by a write that carries no key. -/
def View.set (m : View) (a : Nat) (b : PByte) : View :=
  { m with bytes := Tbl.set 0 m.bytes a (b.val ^^^ m.baseAt a), poison := Tbl.set false m.poison a b.poi,
           keys := Tbl.erase m.keys (a / 4) }

/-- The last write to byte `a` carried this key (R104). -/
def View.mark (m : View) (a : Nat) (k : Option DetKey) : View := { m with keys := Tbl.set none m.keys (a / 4) k }

/-- The last write to the word of byte `a` carried this key. -/
def View.keyAt (m : View) (a : Nat) : Option DetKey := Tbl.get none m.keys (a / 4)

/-- The canonical form of a view: addresses rise, no entry holds what an unlisted address reads as. -/
def View.wf (m : View) : Bool := Tbl.wf 0 m.bytes && Tbl.wf false m.poison

/-- What agent `d` has applied. -/
def State.viewOf (s : State) (d : Nat) : View := if d = fabricAgent then s.peers else (s.die d).view

/-- Agent `d`'s view replaced. -/
def State.setView (s : State) (d : Nat) (v : View) : State :=
  if d = fabricAgent then { s with peers := v } else s.setDie d { s.die d with view := v }

/-- The view of every die and of the fabric changed alike. -/
def State.mapViews (s : State) (f : View → View) : State := (List.range 9).foldl (fun s d => s.setView d (f (s.viewOf d))) s

/-- Successive bytes put into a view from address `a` upwards. -/
def View.poke (v : View) : Nat → List PByte → View
  | _, [] => v
  | a, b :: bs => (v.set a b).poke (a + 1) bs

/-- Successive bytes put into a view by a write that carries a key. -/
def View.pokeKeyed (v : View) (k : Option DetKey) : Nat → List PByte → View
  | _, [] => v
  | a, b :: bs => ((v.set a b).mark a k).pokeKeyed k (a + 1) bs

/-- Bytes of the Cellar that are durable from now on. -/
def State.pokeMedia (s : State) (a : Nat) (bs : List PByte) : State := { s with media := s.media.poke a bs }

/-- Successive bytes of a view. -/
def View.peek (v : View) (a n : Nat) : List PByte := (List.range n).map fun i => v.get (a + i)

/-- The byte at `pa` as agent `d`'s L2, or the Cask, holds it. -/
def State.byteAt (s : State) (d pa : Nat) : PByte := if 2 ^ 48 ≤ pa then s.casks.get pa else (s.viewOf d).get pa

/-- Clean bytes. -/
def cleanBytes (bs : List Byte) : List PByte := bs.map fun b => ⟨b, false⟩

/-- The little-endian bytes of a value (R3). -/
def bytesOf (n v : Nat) : List Byte := (List.range n).map fun i => BitVec.ofNat 8 (v >>> (8 * i))

/-- The little-endian value of bytes. -/
def valueOf : List PByte → Nat
  | [] => 0
  | b :: bs => b.val.toNat + 256 * valueOf bs

/-- Whether any byte carries poison. -/
def anyPoison (bs : List PByte) : Bool := bs.any (·.poi)

/-! ### Units with errors that nothing has found yet (R377, R387) -/

/-- First byte and size of the protected unit of an address: an HBM ECC word or a Cellar sector; none elsewhere. -/
def unitOf (pa : Nat) : Option (Nat × Nat) :=
  if inHbm pa then some (pa / 32 * 32, 32) else if inCellar pa then some (pa / 256 * 256, 256) else none

/-- The latent error of the unit of `pa`. -/
def State.latentAt (s : State) (pa : Nat) : Option Latent :=
  match unitOf pa with
  | some (u, _) => Tbl.get none s.latent u
  | none => none

/-- The latent errors of the units for which `gone` holds, by first byte and size, are no more. -/
def State.forgetErrors (s : State) (gone : Nat → Nat → Bool) : State :=
  { s with latent := s.latent.filter fun e => match unitOf e.1 with
      | some (u, n) => !gone u n
      | none => true }

/-- Every byte of a range poisoned in a view. -/
def View.poisonRange (v : View) : Nat → Nat → View
  | _, 0 => v
  | a, n + 1 => (v.set a { v.get a with poi := true }).poisonRange (a + 1) n

/-- The unit poisoned for every agent, and its latent error gone (R377, R378, R387). -/
def State.poisonUnit (s : State) (u n : Nat) : State :=
  let s := { s with latent := Tbl.erase s.latent u, media := if inCellar u then s.media.poisonRange u n else s.media }
  s.mapViews (·.poisonRange u n)

/-! ### Writes between dies -/

/-- Numbers of the compute dies. -/
def allDies : List Nat := List.range 8

/-- Seen[d][j] (R91). -/
def State.seenBy (s : State) (d j : Nat) : Nat := Tbl.get 0 (s.die d).seen j

/-- Seen[d] as a vector clock. -/
def State.clockOf (s : State) (d : Nat) : List Nat := allDies.map (s.seenBy d)

/-- Whether two byte ranges share a byte. -/
def rangesMeet (a n b m : Nat) : Bool := a < b + m && b < a + n

/-- Key comparison of R104: tile run, fence count, logical core, hart slot. -/
def DetKey.lt (a b : DetKey) : Bool :=
  a.run < b.run || (a.run == b.run && (a.count < b.count || (a.count == b.count &&
    (a.lcore < b.lcore || (a.lcore == b.lcore && a.slot < b.slot)))))

/-- Where the key of launch `l` for the 4-byte word of `pa` is kept (R104). -/
def detIx (pa l : Nat) : Nat := pa / 4 * 2 ^ 32 + l

/-- Whether the home applies a byte of a write with this key (R104): not where the kept key of its launch exceeds it. Two writes
of one key are one hart's, in one fence interval, and the younger stands for both, as the write-combining buffer makes one
write of them (R93, R103). (DEDUCED, log 67.) -/
def State.keyWins (s : State) (key : Option DetKey) (pa : Nat) : Bool :=
  match key with
  | none => true
  | some k => match Tbl.get none s.detKeys (detIx pa k.launch) with
    | none => true
    | some k' => !k.lt k'

/-- The address under which the key of a word is kept: a Cask's words are those of the team that holds the core, by the core's place in
the team, so that they go where the team goes. (DEDUCED, log 67.) -/
def State.keyAddr (s : State) (pa : Nat) : Nat :=
  let core := (pa - 2 ^ 48) / 2 ^ 20
  if pa < 2 ^ 48 then pa
  else match (s.core core).team with
    | some ti => 2 ^ 49 + (64 * ti + ((s.team ti).map (·.cores.idxOf core)).getD 0) * 2 ^ 20 + pa % 2 ^ 20
    | none => pa

/-- The later of the keys of two writes of a launch, for an acquire that reads both (R104). (DEDUCED, log 67.) -/
def laterKey (new old : Option DetKey) : Option DetKey :=
  match new, old with
  | some k, some k' => if k.launch = k'.launch && k.lt k' then old else new
  | none, _ => old
  | _, none => new

/-- The highest home sequence number that agent `d` has received for a byte (R92). The peers are the home of their memory. -/
def State.settledAt (s : State) (d pa : Nat) : Nat := if d = fabricAgent then 0 else Tbl.get 0 (s.die d).settled pa

/-- Agent `d` has received home sequence number `n` for a byte (R92). -/
def State.settle (s : State) (d pa n : Nat) : State :=
  if d = fabricAgent then s else s.setDie d { s.die d with settled := Tbl.set 0 (s.die d).settled pa n }

/-- The bytes of a write that come after address `pa`, put into agent `d`'s view where `ok` holds, with the key that the write
carries and the settled number `n` where one is given (R92, R104). -/
def State.pokeWhere (s : State) (d : Nat) (ok : Nat → Bool) (k : Option DetKey) (n : Option Nat) : Nat → List PByte → State
  | _, [] => s
  | pa, b :: bs =>
    let s' :=
      if ok pa then
        let s1 := s.setView d (((s.viewOf d).set pa b).mark pa k)
        match n with
        | some q => s1.settle d pa q
        | none => s1
      else s
    s'.pokeWhere d ok k n (pa + 1) bs

/-- Keys of the 4-byte words of a range set to `k`. -/
def State.keepKeys (s : State) (k : DetKey) (pa n : Nat) : State :=
  (List.range n).foldl (fun (s : State) i =>
    { s with detKeys := Tbl.set none s.detKeys (detIx (pa + i) k.launch) (some k) }) s

/-- Whether agent `e` has applied a write: it is not among those the write is still pending at. -/
def NetWrite.appliedAt (w : NetWrite) (e : Nat) : Bool := !w.pend.contains e

/-- Whether agent `e` holds a write to byte `pa`, other than write `seq` of die `origin`, that has no place in home order yet. -/
def State.heldOpen (s : State) (e origin seq pa : Nat) : Bool :=
  s.net.any fun v => v.homeSeq.isNone && (v.origin != origin || v.seq != seq) && v.appliedAt e &&
    rangesMeet v.pa v.bytes.length pa 1

/-- Agent `e`, which had applied a byte that the home discarded, holds what the home holds (R92, R104). -/
def State.takeBack (s : State) (e home pa : Nat) : State :=
  let v := s.viewOf home
  (s.setView e (((s.viewOf e).set pa (v.get pa)).mark pa (v.keyAt pa))).settle e pa (s.settledAt home pa)

/-- Bytes from address `pa` cut at the multiples of `k`. -/
def cutAt (k pa : Nat) (bs : List PByte) : List (Nat × List PByte) :=
  if bs = [] then []
  else (List.range ((pa + bs.length - 1) / k - pa / k + 1)).map fun i =>
    let lo := max pa ((pa / k + i) * k)
    let hi := min (pa + bs.length) ((pa / k + i + 1) * k)
    (lo, (bs.drop (lo - pa)).take (hi - lo))

/-- What is left of a pending Cellar store whose write takes place `n` in home order: all of it, or the 4-byte words that the home
has not discarded (R104). -/
def CellarStore.placed (c : CellarStore) (n : Nat) (lost : List Nat) : List CellarStore :=
  if (List.range c.bytes.length).any fun i => lost.contains (c.pa + i) then
    ((cutAt 4 c.pa c.bytes).filter fun w => !lost.contains w.1).map fun w => { c with pa := w.1, bytes := w.2, place := some n }
  else [{ c with place := some n }]

/-- The home applies a write: it takes the next place in home order, the bytes whose key loses are discarded, and every die
that holds the write already settles on it, unless the die also holds a write to the byte that has no place yet (R92, R104). -/
def State.applyAtHome (s : State) (w : NetWrite) : State × NetWrite :=
  let home := homeOf w.pa
  let n := s.homeSeq + 1
  let at_ := (List.range w.bytes.length).map (w.pa + ·)
  let lost := if w.compared then at_.filter fun pa => !s.keyWins w.key pa else []
  let wins := fun pa => !lost.contains pa
  let s := { s with homeSeq := n, cellarPend := s.cellarPend.flatMap fun c =>
      if c.origin = w.origin && c.seq = w.seq then c.placed n lost else [c] }
  let s := match w.key with
    | some k => if w.compared then (at_.filter wins).foldl (fun (s : State) pa => s.keepKeys k pa 1) s else s
    | none => s
  let s := s.pokeWhere home wins w.key (some n) w.pa w.bytes
  let holders := allDies.filter fun e => e != home && w.appliedAt e
  let s := holders.foldl (fun (s : State) e =>
    let free := fun pa => !s.heldOpen e w.origin w.seq pa
    let s := s.pokeWhere e (fun pa => wins pa && free pa) w.key (some n) w.pa w.bytes
    (lost.filter free).foldl (fun s pa => s.takeBack e home pa) s) s
  (s, { w with homeSeq := some n, pend := w.pend.filter (· != home), lost := lost })

/-- A die other than the home applies a write (R91, R92): a byte is skipped where the die already holds a write that is later
in home order, or will be, or where the home discarded it. -/
def State.applyAtDie (s : State) (w : NetWrite) (e : Nat) : State × NetWrite :=
  let ok := fun pa => match w.homeSeq with
    | some n => s.settledAt e pa < n && !s.heldOpen e w.origin w.seq pa && !w.lost.contains pa
    | none => true
  (s.pokeWhere e ok w.key w.homeSeq w.pa w.bytes, { w with pend := w.pend.filter (· != e) })

/-- Agent `e` applies write `i` of the net; a write applied everywhere leaves the net. (DESIGN CHOICE, log 7.) -/
def State.deliver (s : State) (i e : Nat) : State :=
  match s.net[i]? with
  | none => s
  | some w =>
    if w.appliedAt e then s
    else
      let (s, w') := if e = homeOf w.pa then s.applyAtHome w else s.applyAtDie w e
      let s := if e = fabricAgent then s
        else s.setDie e { s.die e with seen := Tbl.set 0 (s.die e).seen w.origin (max (s.seenBy e w.origin) w.seq) }
      { s with net := if w'.pend = [] then s.net.eraseIdx i else s.net.set i w' }

/-- Whether R91 lets agent `e` apply write `w`; at the fabric peers, writes of one die are applied in its order. -/
def State.mayApply (s : State) (w : NetWrite) (e : Nat) : Bool :=
  !w.appliedAt e &&
  if e = fabricAgent then
    !(s.net.any fun v => v.origin == w.origin && v.seq < w.seq && !v.appliedAt e)
  else
    s.seenBy e w.origin + 1 == w.seq &&
    allDies.all fun i => i == w.origin || w.vc.getD i 0 ≤ s.seenBy e i

/-- Write `seq` of die `d` to the Cellar on its way to the write-pending queue, one aligned 8-byte word at a time (R111, R400). -/
def State.cellarSend (s : State) (hart : Option Nat) (epoch d seq pa : Nat) (bytes : List PByte) : State :=
  if inCellar pa then
    { s with cellarPend := s.cellarPend ++ (cutAt 8 pa bytes).map fun w => ⟨hart, epoch, w.1, w.2, d, seq, none⟩ }
  else s

/-- Latent errors of the units that a write covers whole are gone (R360). -/
def State.coverUnits (s : State) (pa n : Nat) : State := s.forgetErrors fun u m => pa ≤ u && u + m ≤ pa + n

/-- `n` bytes of a Cask from address `a` that nothing constrains. -/
def State.spoilCask (s : State) (a : Nat) : Nat → State
  | 0 => s
  | n + 1 => ({ s with casks := s.casks.set a ⟨Config.freeByte s.fresh, false⟩, fresh := s.fresh + 1 }).spoilCask (a + 1) n

/-- An ordinary store of `n` bytes at `pa` into a Cask leaves undefined the 16 bytes of each byte barrier that it meets and an
outstanding copy of the core counts in (R86). -/
def State.spoilBarriers (s : State) (pa n : Nat) : State :=
  let core := (pa - 2 ^ 48) / 2 ^ 20
  (Tbl.get {} s.cores core).copies.foldl (fun s e => match e.2 with
    | some c => match c.bar with
      | some off => if rangesMeet (caskBase core + off) 16 pa n then s.spoilCask (caskBase core + off) 16 else s
      | none => s
    | none => s) s

/-- A write applied to a Cask. The Cask is the home of its words: where `compared` holds, each takes the write whose key is greatest
(R104). -/
def State.caskWrite (s : State) (key : Option DetKey) (compared : Bool) : Nat → List PByte → State
  | _, [] => s
  | pa, b :: bs =>
    let s' : State :=
      if compared && !s.keyWins key (s.keyAddr pa) then s
      else
        let s : State := { s with casks := (s.casks.set pa b).mark (s.keyAddr pa) key }
        match key with
        | some k => if compared then s.keepKeys k (s.keyAddr pa) 1 else s
        | none => s
    s'.caskWrite key compared (pa + 1) bs

/-- Bytes put into the Casks, at once for every agent, by a write that carries no key. -/
def State.pokeCasks (s : State) (a : Nat) (bs : List PByte) : State := s.caskWrite none false a bs

/-- Die `d` makes a write and its L2 applies it (R90, R91): it takes `d`'s next sequence number and `d`'s clock, and is
pending at every other die, and at the fabric peers when they are its home. The home compares its key where `compared` holds.
A write to a Cask is applied to the Cask alone. (DESIGN CHOICE, log 7.) -/
def State.originate (s : State) (d : Nat) (hart : Option Nat) (epoch : Nat) (key : Option DetKey) (compared : Bool) (pa : Nat)
    (bytes : List PByte) : State :=
  if 2 ^ 48 ≤ pa then (s.caskWrite key compared pa bytes).spoilBarriers pa bytes.length
  else
    let n := s.seenBy d d + 1
    let s := (s.coverUnits pa bytes.length).cellarSend hart epoch d n pa bytes
    let s := s.setDie d { s.die d with seen := Tbl.set 0 (s.die d).seen d n }
    let s := if homeOf pa = d then s else s.setView d ((s.viewOf d).pokeKeyed key pa bytes)
    let others := (allDies.filter (· != d)) ++ (if homeOf pa = fabricAgent then [fabricAgent] else [])
    let w : NetWrite := ⟨d, n, s.clockOf d, pa, bytes, key, compared, none, [], others⟩
    let (s, w) := if homeOf pa = d then s.applyAtHome w else (s, w)
    { s with net := s.net ++ [w] }

/-- Agent `e` applies every write of the net, oldest first: each entry that it has applied everywhere else leaves. `k` bounds
the entries still to visit from index `i`. -/
def State.catchUpFrom (s : State) (e : Nat) : Nat → Nat → State
  | 0, _ => s
  | k + 1, i =>
    let before := s.net.length
    let s := s.deliver i e
    s.catchUpFrom e k (if s.net.length < before then i else i + 1)

/-- Agent `e` applies everything that is on its way to it. (DEDUCED, log 14.) -/
def State.catchUp (s : State) (e : Nat) : State := s.catchUpFrom e s.net.length 0

/-- A write made at die `d` and applied at its home in the same moment, after both have caught up: an update at the home
(R92, R74). The home does not compare the key that it carries (R185). -/
def State.updateAtHome (s : State) (d : Nat) (hart : Option Nat) (epoch : Nat) (key : Option DetKey) (pa : Nat)
    (bytes : List PByte) : State :=
  if 2 ^ 48 ≤ pa then s.caskWrite key false pa bytes
  else
    let s := (s.catchUp (homeOf pa)).catchUp d
    (s.originate d hart epoch key false pa bytes).catchUp (homeOf pa)

/-- A write of any length made at die `d`, cut where the home may change (R69). -/
def State.originateAll (s : State) (d pa : Nat) (bytes : List PByte) : State :=
  (cutAt 4096 pa bytes).foldl (fun (s : State) w => s.originate d none 0 none false w.1 w.2) s

/-- A write of any length made and applied at its homes. -/
def State.updateAtHomes (s : State) (pa : Nat) (bytes : List PByte) : State :=
  (cutAt 4096 pa bytes).foldl (fun (s : State) w =>
    let h := homeOf w.1
    s.updateAtHome (if h = fabricAgent then 0 else h) none 0 none w.1 w.2) s

/-! ### A hart's stores (R90, R93, R103) -/

/-- The key that the hart's drained writes carry (R104); none outside a DET launch. -/
def Hart.detKey (h : Hart) (launch slot : Nat) (count : Nat) : Option DetKey :=
  if h.det then some ⟨launch, h.tilePos, count, h.lcore, slot⟩ else none

/-- The launch that hart `n`'s keys name. -/
def State.keyLaunch (s : State) (n : Nat) : Nat :=
  match s.teamOf n with
  | some t => s.stageLaunchIx t
  | none => 0

/-- Two buffered stores share a byte. -/
def BufStore.meets (f e : BufStore) : Bool := rangesMeet f.pa f.bytes.length e.pa e.bytes.length

/-- One store that stands for `e` and for an older one that it meets: the bytes of both, where both have one the younger's. -/
def BufStore.over (e f : BufStore) : BufStore :=
  { e with pa := min f.pa e.pa,
           bytes := f.bytes.take (e.pa - f.pa) ++ e.bytes ++ f.bytes.drop (e.pa + e.bytes.length - f.pa) }

/-- Older stores, youngest first, and the store that they may become one with; `kept` are the younger ones that have not. -/
def absorb (e : BufStore) (kept : List BufStore) : List BufStore → List BufStore
  | [] => kept ++ [e]
  | f :: fs =>
    if f.epoch = e.epoch && f.fcount = e.fcount && f.meets e && !kept.any (·.meets f) then absorb (e.over f) kept fs
    else absorb e (f :: kept) fs

/-- A store combined into a write-combining buffer: it becomes one store with those of its fence interval and persist epoch that it
meets, so that each of them is applied whole (R90, R103, R112). -/
def combine (wcb : List BufStore) (e : BufStore) : List BufStore := absorb e [] wcb.reverse

/-- The oldest stamped store of hart `n` that is not visible yet and whose cell meets a range (R107). -/
def State.stampOver (s : State) (n pa len : Nat) : Option Stamped :=
  s.stampq.find? fun e => decide (e.hart = n) && rangesMeet (e.pa / 32 * 32) 32 pa len

/-- No load that has performed early stands for a later one of the `n` bytes at `pa` (R93). -/
def Hart.dropEarly (h : Hart) (pa n : Nat) : Hart :=
  { h with early := h.early.filter fun e => !rangesMeet e.pa e.bytes.length pa n }

/-- Hart `n` issues a store: it enters the hart's store buffer, or in deterministic mode its write-combining buffer.
(DEDUCED, log 35.) -/
def State.bufferStore (s : State) (n pa : Nat) (bytes : List PByte) : State :=
  let h := (s.hart n).dropEarly pa bytes.length
  let e : BufStore := ⟨pa, bytes, h.epoch, h.fcount⟩
  s.setHart n (if h.det then { h with wcb := combine h.wcb e } else { h with sbuf := h.sbuf ++ [e] })

/-- The write-combining buffer drains into the store buffer (R103). (DEDUCED, log 54.) -/
def Hart.drainWcb (h : Hart) : Hart := { h with sbuf := h.sbuf ++ h.wcb, wcb := [] }

/-- Buffered store `e` of hart `n` is applied to its die's L2, or to its core's Cask, at one moment (R90). -/
def State.applyStore (s : State) (n : Nat) (e : BufStore) : State :=
  s.originate (dieOf n) (some n) e.epoch ((s.hart n).detKey (s.keyLaunch n) (n % 2) e.fcount) true e.pa e.bytes

/-- Whether a buffered store may be applied before those ahead of it: stores to one location keep their order (Table 5.1). -/
def mayApplyStore (buf : List BufStore) (i : Nat) : Bool :=
  match buf[i]? with
  | none => false
  | some e => !(buf.take i).any (·.meets e)

/-- The frame of a page with duplicates that meets a range (R79). -/
def State.dupAt (s : State) (pa n : Nat) : Option Nat :=
  (s.dups.find? fun e => e.2 != [] && rangesMeet e.1 (Tbl.get 0 s.dupSizes e.1) pa n).map (·.1)

/-- The hart's buffered stores that meet a range are applied, oldest first, and leave their buffers (R185). -/
def State.flushRange (s : State) (n pa len : Nat) : State :=
  let h := s.hart n
  let hit := fun (e : BufStore) => rangesMeet e.pa e.bytes.length pa len
  let es := (h.sbuf ++ h.wcb).filter hit
  let s := s.setHart n { h with sbuf := h.sbuf.filter (!hit ·), wcb := h.wcb.filter (!hit ·) }
  es.foldl (fun s e => s.applyStore n e) s

/-- The drained stores and the stores of path M that meet a range are applied, each hart's oldest first: those have retired, and none
waits for a release (R90, R103). -/
def State.performDrained (s : State) (pa len : Nat) : State :=
  let hit := fun (e : BufStore) => rangesMeet e.pa e.bytes.length pa len
  s.harts.foldl (fun (s : State) x =>
    let h := s.hart x.1
    ((h.sbuf ++ h.mbuf).filter hit).foldl (fun s e => s.applyStore x.1 e)
      (s.setHart x.1 { h with sbuf := h.sbuf.filter (!hit ·), mbuf := h.mbuf.filter (!hit ·) })) s

/-- The hart's own youngest buffered byte at `pa` (R93, R103). -/
def bufByte (pa : Nat) : List BufStore → Option PByte → Option PByte
  | [], r => r
  | e :: es, r =>
    bufByte pa es (if e.pa ≤ pa && pa < e.pa + e.bytes.length then e.bytes[pa - e.pa]? else r)

/-- The byte at `pa` as hart `n` reads it: its own store, or what its die has applied. (DESIGN CHOICE, log 7.) -/
def State.hartByte (s : State) (n pa : Nat) : PByte :=
  let h := s.hart n
  match bufByte pa (h.sbuf ++ h.wcb) none with
  | some b => b
  | none => s.byteAt (dieOf n) pa

/-- The `len` bytes from `pa` as hart `n` reads them. -/
def State.hartBytes (s : State) (n pa len : Nat) : List PByte := (List.range len).map fun i => s.hartByte n (pa + i)

/-- Memory is in canonical form: every view of it is. -/
def Memory.wf (s : State) : Bool :=
  s.dies.all (fun d => d.2.view.wf) && s.peers.wf && s.casks.wf && s.media.wf

end Sys2Proof.Machine
end

