-- ==== Sys2Proof/Machine/Walk.lean ====
section
/-! DEFINITION. Translation (04_memory_hierarchy, R66-R75; 07_splicing, R136).

The walk is a path-L load made on the die of the access (R358). TLBs are part of the state: a translation that one of them
holds is used until `tlbinv` removes it (R75). -/

namespace Sys2Proof.Machine

/-- First address of the Cask window (Table 4.1). -/
def caskWindow : Nat := 0x000FFFFFFFF00000

/-- What an access does to a location (R73). -/
inductive Access where
  | load | store | atomic | fetch | stampStore | stampLoad
  deriving DecidableEq, Repr

/-- Fields of a page table entry (Table 4.4). -/
def pteAddr (e : Word) : Nat := (e.extractLsb' 9 39).toNat * 512
def ptePres (e : Word) : Bool := e.getLsbD 0
def pteLeaf (e : Word) : Bool := e.getLsbD 1
def pteRdp (e : Word) : Bool := e.getLsbD 2
def pteWrt (e : Word) : Bool := e.getLsbD 48
def pteExe (e : Word) : Bool := e.getLsbD 49
def pteSup (e : Word) : Bool := e.getLsbD 50
def pteLocal (e : Word) : Bool := e.getLsbD 51
def pteDup (e : Word) : Bool := e.getLsbD 52
def pteStamped (e : Word) : Bool := e.getLsbD 53
def pteStampFabric (e : Word) : Bool := e.getLsbD 54
def pteEnc (e : Word) : Bool := e.getLsbD 55
def pteAcc (e : Word) : Bool := e.getLsbD 56
def pteDty (e : Word) : Bool := e.getLsbD 57

/-- Bytes of the page of a leaf at a level (Table 4.3). -/
def pageSize (lvl : Nat) : Nat := 2 ^ (16 + 6 * lvl)

/-- Whether a present leaf at a level is one that the walk accepts (R68, R69, R72). -/
def leafOk (lvl : Nat) (e : Word) : Bool :=
  let pa := pteAddr e
  lvl ≤ 3 && pa % pageSize lvl == 0 &&
  match windowOf pa with
  | .interleaved => !pteLocal e
  | .local_ _ => pteLocal e
  | .cellar => !pteLocal e && pteEnc e
  | .register => !pteLocal e && pteSup e
  | .fabric => !pteLocal e
  | .cask | .hole => false

/-- Whether a page-table node can lie at an address: in memory, not in the register window or a hole. -/
def nodeOk (pa : Nat) : Bool := inHbm pa || inCellar pa || windowOf pa = .fabric

/-- The 8 bytes at `pa` as die `d` holds them. -/
def State.wordAt (s : State) (d pa : Nat) : List PByte := (List.range 8).map fun i => s.byteAt d (pa + i)

/-- The page-table entry at `pa`, as die `d` holds it, is poisoned or lies in a unit in error (R345). -/
def State.badNode (s : State) (d pa : Nat) : Bool := anyPoison (s.wordAt d pa) || (s.latentAt pa).isSome

/-- The walk from the node at `node` of level `lvl` (R70-R72): the leaf, its address and its level. (DEDUCED, log 46.) -/
def walkFrom (part d va : Nat) : Nat → Nat → M (Word × Nat × Nat)
  | lvl, node => do
    let pa := node + 8 * (va >>> (16 + 6 * lvl) % 64)
    if !nodeOk node then throw (.fault (.nodeOutsideMemory node))
    let s ← get
    let bs := s.wordAt d pa
    if s.badNode d pa then throw (.machineCheck part pa)
    let e : Word := BitVec.ofNat 64 (valueOf bs)
    if !ptePres e || e.extractLsb' 3 6 != 0 then raise .pageFault (BitVec.ofNat 64 va)
    if pteLeaf e then
      if leafOk lvl e then return (e, pa, lvl) else raise .pageFault (BitVec.ofNat 64 va)
    match lvl with
    | 0 => raise .pageFault (BitVec.ofNat 64 va)
    | l + 1 => walkFrom part d va l (pteAddr e)

/-- The entry of a TLB that translates `va` in a partition. -/
def tlbHit (tlb : List TlbEntry) (part va : Nat) : Option TlbEntry :=
  tlb.find? fun e => e.part = part && e.va ≤ va && va < e.va + e.size

/-- A TLB with a new entry, the oldest entry of its size gone when there were `cap` of them. (DEDUCED, log 46.) -/
def tlbInsert (tlb : List TlbEntry) (e : TlbEntry) (cap : Nat) (perSize : Bool) : List TlbEntry :=
  let same := fun (x : TlbEntry) => !perSize || x.size = e.size
  let kept := if cap ≤ (tlb.filter same).length then
      match tlb.find? same with
      | some old => tlb.erase old
      | none => tlb
    else tlb
  kept ++ [e]

/-- The translation of `va` for an agent on die `d` (and core, where it runs on one): from the core's TLB, the die's TLB, or
the walk, whose leaf both TLBs then hold (R75). -/
def findLeaf (part d : Nat) (core : Option Nat) (va : Nat) : M TlbEntry := do
  let s ← get
  let l1 := match core with
    | some c => tlbHit (s.core c).tlb part va
    | none => none
  match l1 with
  | some e => return e
  | none =>
    let e ← match tlbHit (s.die d).tlb part va with
      | some e => pure e
      | none => do
        let (leaf, pa, lvl) ← walkFrom part d va 5 (s.part part).w2.toNat
        let e : TlbEntry := ⟨part, va / pageSize lvl * pageSize lvl, pageSize lvl, leaf, pa⟩
        modify fun s => s.setDie d { s.die d with tlb := tlbInsert (s.die d).tlb e 4096 false }
        pure e
    match core with
    | some c => modify fun s => s.setCore c { s.core c with tlb := tlbInsert (s.core c).tlb e 64 true }
    | none => pure ()
    return e

/-- Set ACC, and DTY for a write, by an atomic update of the entry at its home, unless the held leaf shows them set (R74). Both are
set when the access translates, also where the access then does not perform; a node in error is a machine check (R345).
(DESIGN CHOICE, log 68.) -/
def touchLeaf (d : Nat) (core : Option Nat) (e : TlbEntry) (write : Bool) : M Unit := do
  if pteAcc e.leaf && (!write || pteDty e.leaf) then return ()
  if (← get).badNode d e.leafPa then throw (.machineCheck e.part e.leafPa)
  modify fun s =>
    let s := (s.catchUp (homeOf e.leafPa)).catchUp d
    let old := valueOf (s.wordAt d e.leafPa)
    let bits := 2 ^ 56 + (if write then 2 ^ 57 else 0)
    let s := s.updateAtHome d none 0 none e.leafPa (cleanBytes (bytesOf 8 (old ||| bits)))
    let e' := { e with leaf := e.leaf ||| BitVec.ofNat 64 bits }
    let fix := List.map fun (x : TlbEntry) => if x = e then e' else x
    let s := s.setDie d { s.die d with tlb := fix (s.die d).tlb }
    match core with
    | some c => s.setCore c { s.core c with tlb := fix (s.core c).tlb }
    | none => s

/-- Whether a leaf permits an access (R73). -/
def permits (leaf : Word) (supv : Bool) : Access → Bool
  | .load | .stampLoad => pteRdp leaf && (supv || !pteSup leaf)
  | .store | .atomic | .stampStore => pteRdp leaf && pteWrt leaf && (supv || !pteSup leaf)
  | .fetch => pteExe leaf && (supv || !pteSup leaf)

/-- Whether an access writes. -/
def Access.writes : Access → Bool
  | .store | .atomic | .stampStore => true
  | _ => false

/-- What limits an access besides the page tables: the supervisor's rights, R136, the Cask bound, and SLOT_ONLY with the
stack region. -/
structure Rights where
  supv : Bool
  spliceOk : Bool
  /-- Where only slots and the stack may be reached: the stack's first byte and its length. -/
  stackOnly : Option (Nat × Nat)
  caskBound : Nat
  deriving DecidableEq, Repr

/-- The rights of hart `n`'s accesses by raw address (R82, R136, R145). -/
def State.rightsOf (s : State) (n : Nat) : Rights :=
  let h := s.hart n
  match s.launchOf n with
  | some l =>
    { supv := h.supv, spliceOk := l.spliceOk,
      stackOnly := if l.spliceOk && l.slotOnly then some (h.stackLo, h.stackLen) else none,
      caskBound := (s.core (coreOf n)).share }
  | none => { supv := h.supv, spliceOk := false, stackOnly := none, caskBound := (s.core (coreOf n)).share }

/-- The physical address of an access at `va`, every check made in the order of R179 and R365 (PAGE_FAULT, PROT, then
STAMP_REGION), ACC and DTY set. A page that `pgmig` is moving holds the access (R80). (DEDUCED, log 46.) -/
def translate (part d : Nat) (core : Option Nat) (r : Rights) (va : Word) (acc : Access) : M (Nat × Word) := do
  let a := va.toNat
  if 2 ^ 52 ≤ a then raise .pageFault va
  if caskWindow ≤ a then
    raiseIf (r.caskBound ≤ a - caskWindow || core.isNone || acc = .fetch) .prot va
    raiseIf (acc = .stampStore || acc = .stampLoad) .stampRegion va
    return (caskBase (core.getD 0) + (a - caskWindow), 0)
  let e ← findLeaf part d core a
  let pa := pteAddr e.leaf + (a - e.va)
  if (Tbl.get none (← get).moving (pteAddr e.leaf)).isSome then throw (.wait (.migrating a))
  raiseIf (!permits e.leaf r.supv acc) .prot va
  raiseIf (acc.writes && inRecovery pa) .prot va
  raiseIf (r.spliceOk && inCellar pa) .prot va
  match r.stackOnly with
  | some (lo, len) => raiseIf (acc != .fetch && !(lo ≤ a && a < lo + len)) .prot va
  | none => pure ()
  match acc with
  | .store | .atomic => raiseIf (pteStamped e.leaf) .stampRegion va
  | .stampStore | .stampLoad => raiseIf (!pteStamped e.leaf) .stampRegion va
  | _ => pure ()
  touchLeaf d core e acc.writes
  return (pa, e.leaf)

/-- The partition of hart `n`. -/
def State.partOf (s : State) (n : Nat) : Nat := match s.teamOf n with
  | some t => t.part
  | none => 0

/-- Translation of an access of the running hart under given rights. -/
def translateWith (r : Rights) (va : Word) (acc : Access) : M (Nat × Word) := do
  let s ← get
  translate (s.partOf s.cur) (dieOf s.cur) (some (coreOf s.cur)) r va acc

/-- Translation of an access of the running hart by raw address. -/
def translateMe (va : Word) (acc : Access) : M (Nat × Word) := do
  let s ← get
  translateWith (s.rightsOf s.cur) va acc

/-- An action tried: its result, or why it stopped, with the state as the attempt left it. -/
def attempt {α : Type} (m : M α) : M (Except Stop α) := fun s =>
  match m s with
  | .ok a s' => .ok (.ok a) s'
  | .error e s' => .ok (.error e) s'

end Sys2Proof.Machine
end

