-- ==== Sys2Proof/Machine/Record.lean ====
section
/-! DEFINITION. Error records and module events (20_when_things_fail R340-R344; 15_host_and_fabric R327).

A record waits in `Log.pending` until the logging engine writes it (LOG_WRITE), an event in `Events.pending` until
EVENT_WRITE: no hart waits for either (R344). -/

namespace Sys2Proof.Machine

/-- UNIT of a unit path (R341). -/
def unitPath (die dunit cunit lane : Nat) : Nat := die * 2 ^ 28 + dunit * 2 ^ 21 + cunit * 2 ^ 17 + lane * 2 ^ 10

/-- UNIT of a unit of a core; `cunit` 1 ap, 2 ep, 3 me, 4 copy (R341). -/
def coreUnit (core cunit : Nat) : Nat := unitPath (core / 32) (core % 32) cunit 127

/-- UNIT of the memory that holds a physical address: an HBM stack of its die, or a Cellar stack under its home die. -/
def memoryUnit (pa : Nat) : Nat :=
  if inCellar pa then unitPath (homeOf pa) (40 + stackOf pa) 0 127
  else if inHbm pa then unitPath (homeOf pa) (37 + stackOf pa % 2) 0 127
  else unitPath 15 127 0 127

/-- The fields of an error record (Table 20.1) other than SEQ and the clock reading. -/
structure RecordFields where
  cause : Nat := 0
  cls : Nat := 0
  sev : Nat := 0
  elem : Nat := 0xFF
  tagst : Nat := 0
  eccst : Nat := 0
  trapped : Bool := false
  phys : Bool := false
  unit : Nat := unitPath 15 127 0 127
  kid : Nat := 0
  iter : List Nat := []
  syndrome : Nat := 0
  addr : Nat := 0
  deriving DecidableEq, Repr

/-- CLASS of a cause (Table 20.2). -/
def classOf (code : Nat) : Nat :=
  if code = 0x18 || code = 0x19 then 1
  else if code = 0x1A then 2
  else if code = 0x1B then 3
  else if code = 0x0A || code = 0x28 || code = 0x29 || code = 0x30 then 4
  else 0

/-- The 512 bits of a record with SEQ 0 (Table 20.1); coordinates that do not apply are all ones. -/
def RecordFields.bits (f : RecordFields) (earliest latest : Nat) : BitVec 512 :=
  let hdr := f.cause * 2 ^ 56 + f.elem * 2 ^ 48 + f.tagst * 2 ^ 45 + f.eccst * 2 ^ 42 + f.trapped.toNat * 2 ^ 41 +
    f.phys.toNat * 2 ^ 40 + f.sev * 2 ^ 36 + f.cls * 2 ^ 32
  let co := fun i => (f.iter.getD i 0xFFFFFFFF) % 2 ^ 32
  let iter := co 0 + co 1 * 2 ^ 32 + co 2 * 2 ^ 64 + co 3 * 2 ^ 96
  BitVec.ofNat 512 (hdr + f.unit % 2 ^ 32 * 2 ^ 64 + f.kid % 2 ^ 32 * 2 ^ 96 + iter * 2 ^ 128 + f.syndrome % 2 ^ 64 * 2 ^ 256 +
    f.addr % 2 ^ 64 * 2 ^ 320 + earliest % 2 ^ 64 * 2 ^ 384 + latest % 2 ^ 64 * 2 ^ 448)

/-- The device makes a record, detected on die `d` (R340, R344). -/
def State.record (s : State) (d : Nat) (f : RecordFields) : State :=
  let (lo, hi) := s.interval d
  { s with log := { s.log with pending := s.log.pending ++ [f.bits lo hi] } }

/-- Event codes (Table 15.8). -/
def evDigestMismatch : Nat := 1
def evMachineCheck : Nat := 2
def evPowerCap : Nat := 3
def evDrainDone : Nat := 4

/-- An event entry (Table 15.8), detected on die `d`: code, partition slot (0xFF for the whole module), earliest clock value, payload. -/
def State.eventBits (s : State) (d code slot payload : Nat) : BitVec 512 :=
  BitVec.ofNat 512 (code + slot * 2 ^ 16 + (s.interval d).1 % 2 ^ 64 * 2 ^ 64 + payload * 2 ^ 128)

/-- A module event, detected on die `d`. -/
def State.raiseEvent (s : State) (d code slot payload : Nat) : State :=
  { s with events := { s.events with pending := s.events.pending ++ [s.eventBits d code slot payload] } }

/-- The MACHINE_CHECK event of the newest record: it goes to the queue when the log has given that record its SEQ (R327, R348).
(DEDUCED, log 65.) -/
def State.raiseCheck (s : State) (d slot unit : Nat) : State :=
  let e := s.eventBits d evMachineCheck slot (unit % 2 ^ 32 * 2 ^ 32)
  { s with events := { s.events with held := s.events.held ++ [(s.log.pending.length, e)] } }

/-- The log has written its oldest record as number `seq`, or dropped it, when `seq` is 0: the event of that record goes to the queue. -/
def Events.counted (q : Events) (seq : Nat) : Events :=
  let due := q.held.filter (·.1 = 1)
  { q with held := (q.held.filter (·.1 ≠ 1)).map fun e => (e.1 - 1, e.2)
           pending := q.pending ++ due.map fun e => e.2 ||| BitVec.ofNat 512 (seq % 2 ^ 32 * 2 ^ 128) }

/-- UNIT of the scheduler slice of a die (R341). -/
def schedUnit (d : Nat) : Nat := unitPath d 34 0 127

/-! ### The iteration coordinates of a record (R346) -/

/-- Coordinates of the tile of linear index `t`. -/
def Launch.coords (l : Launch) (t : Nat) : List Nat := (List.range 4).map (l.tileCoord t)

/-- ITER of a fault of hart `n`: the iteration vector of `vldm` or `vstm`; the tile of a tile-body run; else the team's first
tile under static distribution; all ones under dynamic distribution. -/
def State.iterOf (s : State) (n : Nat) : List Nat :=
  match (s.hart n).elemIter, s.teamOf n, s.launchOf n with
  | some v, _, _ => v
  | none, some t, some l =>
    if l.dynamic then [] else l.coords (if l.tileBody then t.stageTile else t.ix)
  | none, _, _ => []

/-! ### Latent errors that an access finds (R377, R378, R387) -/

/-- The error of the page-table node at `pa` that a walk met (R345): what its unit holds, or poison, which stands for an
uncorrectable error. -/
def State.nodeError (s : State) (pa : Nat) : Latent := (s.latentAt pa).getD {}

/-- ECCST of a latent error (Table 20.2). -/
def Latent.eccst (e : Latent) : Nat := if e.tagFails then (if e.corrected then 2 else 1) else 3

/-- TAGST of a latent error of the unit of `pa`: not evaluated after an uncorrectable error of a sector (R387). -/
def Latent.tagst (e : Latent) (pa : Nat) : Nat := if e.tagFails then 2 else if inCellar pa then 3 else 0

/-- SYNDROME of a latent error (Table 20.1): the ECC syndrome where the ECC found an error, the tag difference where the tag failed. -/
def Latent.field (e : Latent) : Nat :=
  (if e.tagFails && !e.corrected then 0 else e.syndrome.toNat) + (if e.tagFails then e.tagDiff.toNat * 2 ^ 32 else 0)

/-- CAUSE of a latent error: MEM_UE, or INTEGRITY for a failed tag. -/
def Latent.cause (e : Latent) : Cause := if e.tagFails then .integrity else .memUe

/-- Who reads, for a record: KID, ITER, and the element index, 0xFF for none. -/
structure Reader where
  kid : Nat := 0
  iter : List Nat := []
  elem : Nat := 0xFF
  deriving DecidableEq, Repr

/-- Hart `n` as a reader, at the element that it performs. -/
def State.readerOf (s : State) (n : Nat) : Reader := ⟨(s.hart n).kid.toNat, s.iterOf n, (s.hart n).start % 128⟩

/-- An engine that reads for hart `n`: a copy or a fetch has no element. -/
def State.engineFor (s : State) (n : Nat) : Reader := ⟨(s.hart n).kid.toNat, s.iterOf n, 0xFF⟩

/-- The record of a latent error: MEM_UE or INTEGRITY, contained, not trapped (R340, R387). -/
def errorRecord (e : Latent) (pa : Nat) (r : Reader) : RecordFields :=
  { cause := e.cause.code.toNat, cls := classOf e.cause.code.toNat, sev := 1, elem := r.elem, eccst := e.eccst,
    tagst := e.tagst pa, phys := true, unit := memoryUnit pa, kid := r.kid, iter := r.iter, syndrome := e.field, addr := pa }

/-- A read that reaches the unit of `pa` finds its latent error: the unit turns poisoned, and a record is made (R344). -/
def State.findError (s : State) (d pa : Nat) (r : Reader) : State :=
  match unitOf pa, s.latentAt pa with
  | some (u, n), some e => (s.poisonUnit u n).record d (errorRecord e pa r)
  | _, _ => s

/-- A read of `len` bytes from `pa` finds the latent errors in its range. -/
def State.findErrors (s : State) (d pa len : Nat) (r : Reader) : State :=
  (List.range len).foldl (fun s i => s.findError d (pa + i) r) s

/-- A write finds the latent errors of the units that it covers in part: the rest of such a unit turns poisoned (R360, R378). -/
def State.mergeErrors (s : State) (d pa n : Nat) (r : Reader) : State :=
  (s.latent.filter fun e => match unitOf e.1 with
    | some (u, m) => rangesMeet u m pa n && !(pa ≤ u && u + m ≤ pa + n)
    | none => false).foldl (fun (s : State) e => s.findError d e.1 r) s

end Sys2Proof.Machine
end

