-- ==== Sys2Proof/Machine/Escalate.lean ====
section
/-! DEFINITION. Team faults, launch faults and machine checks (20_when_things_fail R345-R348; 07_splicing R148).

A team that ends here leaves its cores at once; the completion of its launch is written later, by LAUNCH_COMPLETE. -/

namespace Sys2Proof.Machine

/-- The hart of rank `r` of a team (R21). -/
def Team.hartOf (t : Team) (r : Nat) : Nat := 2 * t.cores.getD (r / 2) 0 + r % 2

/-- The harts of a team, by rank. -/
def Team.harts (t : Team) : List Nat := (List.range t.size).map t.hartOf

/-- The buffered stores of hart `n` are applied, oldest first. -/
def State.applyAll (s : State) (n : Nat) : State :=
  let h := s.hart n
  (h.sbuf ++ h.wcb ++ h.mbuf).foldl (fun s e => s.applyStore n e) (s.setHart n { h with sbuf := [], wcb := [], mbuf := [] })

/-- A core that no team occupies: no tile, Vat row, share, copy or segment of the last team remains (R40). The supervisor
slot, the TLB and the pipes belong to the core itself. -/
def Core.release (c : Core) : Core :=
  { c with team := none, tiles := [], vat := [], share := 0, cdone := 0, copies := [], code := [] }

/-- The number that stands for rank `r` of team `ti` while it has no hart slot: it lies beyond the hart slots. -/
def orphan (ti r : Nat) : Nat := 512 + 32 * ti + r

/-- Cellar stores and stamped stores of hart `n` that are still under way follow it to another number. -/
def State.renumber (s : State) (n m : Nat) : State :=
  { s with
    cellarPend := s.cellarPend.map fun c => if c.hart = some n then { c with hart := some m } else c
    stampq := s.stampq.map fun e => if e.hart = n then { e with hart := m } else e }

/-- A hart's values for the Recovery Page. -/
def Hart.final (h : Hart) : Final := ⟨h.pcount, h.lastStamp, h.status == .halted, h.pbars⟩

/-- The cores of team `ti` are freed and its hart slots emptied; what is under way keeps the team's own numbers. -/
def State.freeCores (s : State) (ti : Nat) (t : Team) : State :=
  let s := (List.range t.size).foldl (fun (s : State) r => (s.renumber (t.hartOf r) (orphan ti r)).setHart (t.hartOf r) {}) s
  t.cores.foldl (fun s c => s.setCore c (s.core c).release) s

/-- The greater of two vector clocks, die by die. -/
def joinClock (a b : List Nat) : List Nat := allDies.map fun i => max (a.getD i 0) (b.getD i 0)

/-- Every hart of a team has halted. -/
def State.allHalted (s : State) (t : Team) : Bool := t.harts.all fun n => (s.hart n).status = .halted

/-- A run of the stage that a team runs has ended (R148). -/
def State.countRun (s : State) (t : Team) : State :=
  let li := s.stageLaunchIx t
  match s.launch li with
  | some l => s.setLaunch li { l with runs := l.runs + 1 }
  | none => s

/-- A team stops for good: stores already performed stay, its copies are discarded, and its Cask share, tiles and Vat are
given up without a save (R346). -/
def State.killTeam (s : State) (ti : Nat) : State :=
  match s.team ti with
  | none => s
  | some t =>
    if t.status = .ended then s
    else
      let final := if t.status = .saved || t.status = .restoring || t.status = .fetching then t.final
        else t.harts.map fun n => (s.hart n).final
      let s := if (t.status = .running || t.status = .stopping) && s.allHalted t then s.countRun t else s
      let s := if t.status = .saved then s else (t.harts.foldl State.applyAll s).freeCores ti t
      let s := s.setTeam ti { t with status := .ended, final := final, kept := [], caskLeft := false }
      match s.launch t.launch with
      | some l => s.setLaunch t.launch
          { l with endedTeams := l.endedTeams + 1, clock := joinClock l.clock (s.clockOf t.die) }
      | none => s

/-- The numbers of the teams of launch `li` that have not ended. -/
def State.liveTeams (s : State) (li : Nat) : List Nat :=
  (s.teams.filter fun e => match e.2 with
    | some t => t.launch = li && t.status ≠ .ended
    | none => false).map (·.1)

/-- A team faults (R345-R347): the first team fault of its launch carries SEV 3 and makes the launch FAULTED; a later one carries
SEV 2. The record is the one given, at that severity. The launch's other teams stop by `State.stopFaulted`, so that a second one
may still fault in the same cycle (R351). (DEDUCED, log 70.) -/
def State.teamFault (s : State) (ti d : Nat) (f : RecordFields) : State :=
  match s.team ti with
  | none => s
  | some t =>
    if t.status = .ended then s
    else match s.launch t.launch with
      | none => s.killTeam ti
      | some l =>
        let s := s.record d { f with sev := if l.faulted then 2 else 3 }
        let s := s.setTeam ti { t with faulted := true }
        let s := if l.faulted then s else s.setLaunch t.launch { l with faulted := true, faultStage := t.stage }
        s.killTeam ti

/-- The other teams of launch `li` stop, once it is FAULTED (R347). -/
def State.stopFaulted (s : State) (li : Nat) : State :=
  match s.launch li with
  | some l => if l.faulted then (s.liveTeams li).foldl State.killTeam s else s
  | none => s

/-- Whether a launch belongs to a partition. -/
def launchesOf (s : State) (p : Nat) : List (Nat × Launch) :=
  s.launches.filterMap fun e => match e.2 with
    | some l => if l.part = p then some (e.1, l) else none
    | none => none

/-- A machine check of a partition (R348): every team stops, running launches become FAULTED, queued ones CANCELLED, the
partition is stopped, and a record of SEV 4 and a MACHINE_CHECK event are made. `pa` is the physical address concerned, 0 for
none. -/
def State.machineCheck (s : State) (p : Nat) (e : Latent) (unit pa : Nat) : State :=
  if (s.part p).state ≠ 1 then s
  else
    let d := if unit / 2 ^ 28 < 8 then unit / 2 ^ 28 else p
    let s := s.record d
      { cause := e.cause.code.toNat, cls := classOf e.cause.code.toNat, sev := 4, eccst := e.eccst, tagst := e.tagst pa,
        unit := unit, syndrome := e.field, addr := pa, phys := pa ≠ 0 }
    let s := s.raiseCheck d p unit
    let s := s.setPart p { s.part p with state := 2 }
    let s := (launchesOf s p).foldl (fun (s : State) e =>
      let li := e.1
      match s.launch li with
      | none => s
      | some l =>
        if l.nextTeam = 0 then
          (if l.status = .queued then s.setLaunch li { l with status := .cancelled } else s)
        else
          let stage := match s.liveTeams li with
            | ti :: _ => ((s.team ti).map (·.stage)).getD 0
            | [] => 0
          let s := s.setLaunch li
            { l with faulted := true, faultStage := if l.faulted then l.faultStage else stage, checked := true }
          (s.liveTeams li).foldl State.killTeam s) s
    s

/-- The partitions that a bad page-table node at `pa`, met by a walk of partition `p`, checks: `p`, and with a Cellar stack every
partition that has a die of the stack's pair (R348). -/
def State.checkedBy (s : State) (p pa : Nat) : List Nat :=
  let pair := [homeOf pa, homeOf pa + 1]
  p :: (List.range 8).filter fun q => q != p && inCellar pa && (s.part q).state == 1 && (s.diesOf q).any pair.contains

/-- A walk of partition `p` met an uncorrectable error or a failed tag in the page-table node at `pa` (R345, R348). -/
def State.nodeCheck (s : State) (p pa : Nat) : State :=
  (s.checkedBy p pa).foldl (fun (s : State) q => s.machineCheck q (s.nodeError pa) (memoryUnit pa) pa) s

end Sys2Proof.Machine
end

