-- ==== Sys2Proof/Machine/Sm3.lean ====
section
/-! DEFINITION. The SM3 digest that `dig.post` computes (12_matrix R270). The spec names SM3 and no more: the algorithm is
taken from the standard GB/T 32905-2016 (PRESUMED). -/

namespace Sys2Proof.Machine

/-- A 32-bit word of SM3. -/
abbrev W32 := BitVec 32

/-- The eight registers of the compression function. -/
structure Sm3 where
  a : W32
  b : W32
  c : W32
  d : W32
  e : W32
  f : W32
  g : W32
  h : W32
  deriving DecidableEq, Repr

/-- Initial value. -/
def Sm3.init : Sm3 :=
  ⟨0x7380166f, 0x4914b2b9, 0x172442d7, 0xda8a0600, 0xa96f30bc, 0x163138aa, 0xe38dee4d, 0xb0fb0e4e⟩

/-- The permutations P0 and P1. -/
def sm3P0 (x : W32) : W32 := x ^^^ x.rotateLeft 9 ^^^ x.rotateLeft 17
def sm3P1 (x : W32) : W32 := x ^^^ x.rotateLeft 15 ^^^ x.rotateLeft 23

/-- The expanded words after `w`, the newest sixteen held newest first: `k` more are made. -/
def sm3Expand : Nat → List W32 → List W32
  | 0, w => w
  | k + 1, w =>
    let x := sm3P1 (w.getD 15 0 ^^^ w.getD 8 0 ^^^ (w.getD 2 0).rotateLeft 15) ^^^ (w.getD 12 0).rotateLeft 7 ^^^ w.getD 5 0
    sm3Expand k (x :: w)

/-- One round `j` with words W_j and W'_j. -/
def sm3Round (v : Sm3) (j : Nat) (w w' : W32) : Sm3 :=
  let t : W32 := if j < 16 then 0x79cc4519 else 0x7a879d8a
  let ss1 := (v.a.rotateLeft 12 + v.e + t.rotateLeft (j % 32)).rotateLeft 7
  let ss2 := ss1 ^^^ v.a.rotateLeft 12
  let ff := if j < 16 then v.a ^^^ v.b ^^^ v.c else (v.a &&& v.b) ||| (v.a &&& v.c) ||| (v.b &&& v.c)
  let gg := if j < 16 then v.e ^^^ v.f ^^^ v.g else (v.e &&& v.f) ||| (~~~v.e &&& v.g)
  ⟨ff + v.d + ss2 + w', v.a, v.b.rotateLeft 9, v.c, sm3P0 (gg + v.h + ss1 + w), v.e, v.f.rotateLeft 19, v.g⟩

/-- The rounds from `j` on over the expanded words, oldest first. -/
def sm3Rounds : Nat → Nat → List W32 → Sm3 → Sm3
  | 0, _, _, v => v
  | k + 1, j, ws, v => sm3Rounds k (j + 1) ws.tail (sm3Round v j (ws.getD 0 0) (ws.getD 0 0 ^^^ ws.getD 4 0))

/-- One block of sixteen words. -/
def sm3Block (v : Sm3) (block : List W32) : Sm3 :=
  let r := sm3Rounds 64 0 (sm3Expand 52 block.reverse).reverse v
  ⟨r.a ^^^ v.a, r.b ^^^ v.b, r.c ^^^ v.c, r.d ^^^ v.d, r.e ^^^ v.e, r.f ^^^ v.f, r.g ^^^ v.g, r.h ^^^ v.h⟩

/-- The big-endian word of four bytes. -/
def word32BE (bs : List Byte) : W32 := bs.foldl (fun x b => x <<< 8 ||| b.setWidth 32) 0

/-- The message padded to whole blocks: a one bit, zeros, and its length in bits as 64 bits. -/
def sm3Pad (m : List Byte) : List Byte :=
  let n := m.length
  m ++ [(0x80 : Byte)] ++ List.replicate ((119 - n % 64) % 64) (0 : Byte) ++
    (List.range 8).map fun i => (BitVec.ofNat 8 ((8 * n) >>> (8 * (7 - i))) : Byte)

/-- The blocks of a padded message, `k` of them. -/
def sm3Blocks : Nat → List Byte → Sm3 → Sm3
  | 0, _, v => v
  | k + 1, bs, v =>
    sm3Blocks k (bs.drop 64) (sm3Block v ((List.range 16).map fun i => word32BE ((bs.drop (4 * i)).take 4)))

/-- The digest as its eight words. (PRESUMED, log 44.) -/
def sm3 (m : List Byte) : Sm3 := let p := sm3Pad m; sm3Blocks (p.length / 64) p Sm3.init

/-- The 32 bytes of the digest: its words in order, each with its highest byte first. -/
def sm3Bytes (m : List Byte) : List Byte :=
  let v := sm3 m
  [v.a, v.b, v.c, v.d, v.e, v.f, v.g, v.h].flatMap fun x => (List.range 4).map fun i => x.extractLsb' (8 * (3 - i)) 8

/-- The first 8 bytes of the digest as a little-endian value (R270): the output is big-endian word by word. -/
def sm3Low (m : List Byte) : Word :=
  let v := sm3 m
  let bytes := fun (x : W32) => (List.range 4).map fun i => x.extractLsb' (8 * (3 - i)) 8
  (bytes v.a ++ bytes v.b).foldr (fun b x => x <<< 8 ||| b.setWidth 64) 0

end Sys2Proof.Machine
end

