-- ==== Sys2Proof/Machine/ExpLog.lean ====
section
/-! DEFINITION. The reference algorithms of `vexp2` and `vlog2` (03_numbers, R63-R65).

The tables and coefficients are the real numbers that R63 names, correctly rounded to f64 under RNE, as patterns. -/

namespace Sys2Proof.Machine

/-- Table T: Tb[j] = 2^(j/64) (entries 0 to 15). -/
def tableT0 : List Nat :=
  [0x3FF0000000000000, 0x3FF02C9A3E778061, 0x3FF059B0D3158574, 0x3FF0874518759BC8,
   0x3FF0B5586CF9890F, 0x3FF0E3EC32D3D1A2, 0x3FF11301D0125B51, 0x3FF1429AAEA92DE0,
   0x3FF172B83C7D517B, 0x3FF1A35BEB6FCB75, 0x3FF1D4873168B9AA, 0x3FF2063B88628CD6,
   0x3FF2387A6E756238, 0x3FF26B4565E27CDD, 0x3FF29E9DF51FDEE1, 0x3FF2D285A6E4030B]

/-- Table T: Tb[j] = 2^(j/64) (entries 16 to 31). -/
def tableT1 : List Nat :=
  [0x3FF306FE0A31B715, 0x3FF33C08B26416FF, 0x3FF371A7373AA9CB, 0x3FF3A7DB34E59FF7,
   0x3FF3DEA64C123422, 0x3FF4160A21F72E2A, 0x3FF44E086061892D, 0x3FF486A2B5C13CD0,
   0x3FF4BFDAD5362A27, 0x3FF4F9B2769D2CA7, 0x3FF5342B569D4F82, 0x3FF56F4736B527DA,
   0x3FF5AB07DD485429, 0x3FF5E76F15AD2148, 0x3FF6247EB03A5585, 0x3FF6623882552225]

/-- Table T: Tb[j] = 2^(j/64) (entries 32 to 47). -/
def tableT2 : List Nat :=
  [0x3FF6A09E667F3BCD, 0x3FF6DFB23C651A2F, 0x3FF71F75E8EC5F74, 0x3FF75FEB564267C9,
   0x3FF7A11473EB0187, 0x3FF7E2F336CF4E62, 0x3FF82589994CCE13, 0x3FF868D99B4492ED,
   0x3FF8ACE5422AA0DB, 0x3FF8F1AE99157736, 0x3FF93737B0CDC5E5, 0x3FF97D829FDE4E50,
   0x3FF9C49182A3F090, 0x3FFA0C667B5DE565, 0x3FFA5503B23E255D, 0x3FFA9E6B5579FDBF]

/-- Table T: Tb[j] = 2^(j/64) (entries 48 to 63). -/
def tableT3 : List Nat :=
  [0x3FFAE89F995AD3AD, 0x3FFB33A2B84F15FB, 0x3FFB7F76F2FB5E47, 0x3FFBCC1E904BC1D2,
   0x3FFC199BDD85529C, 0x3FFC67F12E57D14B, 0x3FFCB720DCEF9069, 0x3FFD072D4A07897C,
   0x3FFD5818DCFBA487, 0x3FFDA9E603DB3285, 0x3FFDFC97337B9B5F, 0x3FFE502EE78B3FF6,
   0x3FFEA4AFA2A490DA, 0x3FFEFA1BEE615A27, 0x3FFF50765B6E4540, 0x3FFFA7C1819E90D8]

/-- Table T: Tb[j] = 2^(j/64). -/
def tableT : List Nat := tableT0 ++ tableT1 ++ tableT2 ++ tableT3

/-- Table L: Lg[j] = log2(1 + j/64) (entries 0 to 15). -/
def tableL0 : List Nat :=
  [0x0000000000000000, 0x3F96E79685C2D22A, 0x3FA6BAD3758EFD87, 0x3FB0EB389FA29F9B,
   0x3FB663F6FAC91316, 0x3FBBC84240ADABBA, 0x3FC08C588CDA79E4, 0x3FC32AE9E278AE1A,
   0x3FC5C01A39FBD688, 0x3FC84C2BD02F03B3, 0x3FCACF5E2DB4EC94, 0x3FCD49EE4C325970,
   0x3FCFBC16B902680A, 0x3FD11307DAD30B76, 0x3FD24407AB0E073A, 0x3FD37124CEA4CDED]

/-- Table L: Lg[j] = log2(1 + j/64) (entries 16 to 31). -/
def tableL1 : List Nat :=
  [0x3FD49A784BCD1B8B, 0x3FD5C01A39FBD688, 0x3FD6E221CD9D0CDE, 0x3FD800A563161C54,
   0x3FD91BBA891F1709, 0x3FDA33760A7F6051, 0x3FDB47EBF73882A1, 0x3FDC592FAD295B56,
   0x3FDD6753E032EA0F, 0x3FDE726AA1E754D2, 0x3FDF7A8568CB06CF, 0x3FE03FDA8B97997F,
   0x3FE0C10500D63AA6, 0x3FE140C9FAA1E544, 0x3FE1BF311E95D00E, 0x3FE23C41D42727C8]

/-- Table L: Lg[j] = log2(1 + j/64) (entries 32 to 47). -/
def tableL2 : List Nat :=
  [0x3FE2B803473F7AD1, 0x3FE3327C6AB49CA7, 0x3FE3ABB3FAA02167, 0x3FE423B07E986AA9,
   0x3FE49A784BCD1B8B, 0x3FE510118708A8F9, 0x3FE5848226989D34, 0x3FE5F7CFF41E09AF,
   0x3FE66A008E4788CC, 0x3FE6DB196A76194A, 0x3FE74B1FD64E0754, 0x3FE7BA18F93502E4,
   0x3FE82809D5BE7073, 0x3FE894F74B06EF8B, 0x3FE900E6160002CD, 0x3FE96BDAD2ACB5F6]

/-- Table L: Lg[j] = log2(1 + j/64) (entries 48 to 63). -/
def tableL3 : List Nat :=
  [0x3FE9D5D9FD5010B3, 0x3FEA3EE7F38E181F, 0x3FEAA708F58014D3, 0x3FEB0E4126BCC86C,
   0x3FEB74948F5532DA, 0x3FEBDA071CC67E6E, 0x3FEC3E9CA2E1A055, 0x3FECA258DCA93316,
   0x3FED053F6D260896, 0x3FED6753E032EA0F, 0x3FEDC899AB3FF56C, 0x3FEE29142E0E0140,
   0x3FEE88C6B3626A73, 0x3FEEE7B471B3A950, 0x3FEF45E08BCF0655, 0x3FEFA34E1177C233]

/-- Table L: Lg[j] = log2(1 + j/64). -/
def tableL : List Nat := tableL0 ++ tableL1 ++ tableL2 ++ tableL3

/-- Table V: Rc[j] = 1/(1 + j/64) (entries 0 to 15). -/
def tableV0 : List Nat :=
  [0x3FF0000000000000, 0x3FEF81F81F81F820, 0x3FEF07C1F07C1F08, 0x3FEE9131ABF0B767,
   0x3FEE1E1E1E1E1E1E, 0x3FEDAE6076B981DB, 0x3FED41D41D41D41D, 0x3FECD85689039B0B,
   0x3FEC71C71C71C71C, 0x3FEC0E070381C0E0, 0x3FEBACF914C1BAD0, 0x3FEB4E81B4E81B4F,
   0x3FEAF286BCA1AF28, 0x3FEA98EF606A63BE, 0x3FEA41A41A41A41A, 0x3FE9EC8E951033D9]

/-- Table V: Rc[j] = 1/(1 + j/64) (entries 16 to 31). -/
def tableV1 : List Nat :=
  [0x3FE999999999999A, 0x3FE948B0FCD6E9E0, 0x3FE8F9C18F9C18FA, 0x3FE8ACB90F6BF3AA,
   0x3FE8618618618618, 0x3FE8181818181818, 0x3FE7D05F417D05F4, 0x3FE78A4C8178A4C8,
   0x3FE745D1745D1746, 0x3FE702E05C0B8170, 0x3FE6C16C16C16C17, 0x3FE6816816816817,
   0x3FE642C8590B2164, 0x3FE6058160581606, 0x3FE5C9882B931057, 0x3FE58ED2308158ED]

/-- Table V: Rc[j] = 1/(1 + j/64) (entries 32 to 47). -/
def tableV2 : List Nat :=
  [0x3FE5555555555555, 0x3FE51D07EAE2F815, 0x3FE4E5E0A72F0539, 0x3FE4AFD6A052BF5B,
   0x3FE47AE147AE147B, 0x3FE446F86562D9FB, 0x3FE4141414141414, 0x3FE3E22CBCE4A902,
   0x3FE3B13B13B13B14, 0x3FE3813813813814, 0x3FE3521CFB2B78C1, 0x3FE323E34A2B10BF,
   0x3FE2F684BDA12F68, 0x3FE2C9FB4D812CA0, 0x3FE29E4129E4129E, 0x3FE27350B8812735]

/-- Table V: Rc[j] = 1/(1 + j/64) (entries 48 to 63). -/
def tableV3 : List Nat :=
  [0x3FE2492492492492, 0x3FE21FB78121FB78, 0x3FE1F7047DC11F70, 0x3FE1CF06ADA2811D,
   0x3FE1A7B9611A7B96, 0x3FE1811811811812, 0x3FE15B1E5F75270D, 0x3FE135C81135C811,
   0x3FE1111111111111, 0x3FE0ECF56BE69C90, 0x3FE0C9714FBCDA3B, 0x3FE0A6810A6810A7,
   0x3FE0842108421084, 0x3FE0624DD2F1A9FC, 0x3FE0410410410410, 0x3FE0204081020408]

/-- Table V: Rc[j] = 1/(1 + j/64). -/
def tableV : List Nat := tableV0 ++ tableV1 ++ tableV2 ++ tableV3

/-- The coefficients ce_i = (ln 2)^i / i!, for i in 1 to 4. -/
def coeffE : List Nat :=
  [0x3FE62E42FEFA39EF, 0x3FCEBFBDFF82C58F, 0x3FAC6B08D704A0C0, 0x3F83B2AB6FBA4E77]

/-- The coefficients cl_i = (−1)^(i+1) / (i · ln 2), for i in 1 to 7. -/
def coeffL : List Nat :=
  [0x3FF71547652B82FE, 0xBFE71547652B82FE, 0x3FDEC709DC3A03FD, 0xBFD71547652B82FE,
   0x3FD2776C50EF9BFE, 0xBFCEC709DC3A03FD, 0x3FCA61762A7ADED9]

/-- A polynomial without constant term: r · (c1 + r · (c2 + …)), evaluated from the innermost term outwards (R64, R65). -/
def polyD (r : Exact) : List Nat → Exact
  | [] => .fin false 0 0 false
  | [c] => mulD r (ofD c)
  | c :: cs => mulD r (addD (ofD c) (polyD r cs))

/-- `vexp2` of x (R64): the value to round, the flags of its source, and whether NX is raised before rounding. -/
def exp2E (x : Exact) : Exact × Flags × Bool :=
  match x with
  | .nan s => (.nan false, (Exact.nan s).snan, false)
  | .inf n => (if n then .fin false 0 0 false else .inf false, 0, false)
  | x =>
    let x := if cmpE x (.ofInt (-200)) < 0 then .ofInt (-200) else if 0 < cmpE x (.ofInt 200) then .ofInt 200 else x
    let k : Int := match x.scale 6 with
      | .fin n m e s => let r := (roundQuanta .rne n m e s 0).1; if n then -(r : Int) else r
      | _ => 0
    let rr := (addE .rne x ((Exact.ofInt (-k)).scale (-6))).1
    let j := (k % 64).toNat
    let n := (k - j) / 64
    let tb := ofD (tableT.getD j 0)
    let y := addD tb (mulD tb (polyD rr coeffE))
    (y.scale n, 0, j != 0 || !rr.isZero)

/-- Whether a finite value is an exact power of two. -/
def isPowerOfTwo : Exact → Bool
  | .fin _ m _ _ => m != 0 && m == 2 ^ (bitLength m - 1)
  | _ => false

/-- `vlog2` of x (R65). -/
def log2E (x : Exact) : Exact × Flags × Bool :=
  match x with
  | .nan s => (.nan false, (Exact.nan s).snan, false)
  | .inf n => if n then (.nan false, flagNV, false) else (.inf false, 0, false)
  | .fin n m e s =>
    if m = 0 then (.inf true, flagDZ, false)
    else if n then (.nan false, flagNV, false)
    else
      let one := Exact.ofInt 1
      let band (k : Int) := (addE .rne one ((Exact.ofInt k).scale (-6))).1
      let nx := !isPowerOfTwo (.fin n m e s)
      if 0 < cmpE x (band (-1)) && cmpE x (band 1) < 0 then
        (polyD ((addE .rne x (.ofInt (-1))).1) coeffL, 0, nx)
      else
        let l := bitLength m - 1
        let ex : Int := l + e
        let j := (m <<< 6) / 2 ^ l - 64
        let frac := (addE .rne (.fin false m (-(l : Int)) false) ((Exact.ofInt (-(64 + j : Nat))).scale (-6))).1
        let u := mulD frac (ofD (tableV.getD j 0))
        (addD (addD (.ofInt ex) (ofD (tableL.getD j 0))) (polyD u coeffL), 0, nx)

end Sys2Proof.Machine
end

