-- ==== Sys2Proof/Machine/Registers.lean ====
section
/-! DEFINITION. The register window: the module's registers, the service firmware controls, and what a WRITE and a store of the
supervisor routine do there (00_scope R4; 04 R68, R72; 15 R327, R404, Tables 15.3 and 15.9; 20 R343; 21 R352; 23 Table 23.2). -/

namespace Sys2Proof.Machine

/-! ### Statuses of responses (R314) -/

def stOk : Nat := 0
def stNotOwner : Nat := 0x10
def stFrozen : Nat := 0x11
def stStaleTerm : Nat := 0x12
def stBadCommand : Nat := 0x13
def stBusy : Nat := 0x14

/-! ### Reading (Tables 15.9, 20.3, 15.7, 23.2) -/

/-- Logical cores of a die in order: the configured map, or physical cores 0 to 27 (R10). -/
def State.coresOfDie (s : State) (d : Nat) : List Nat :=
  (Tbl.get none s.svc.coreMap d).getD (List.range 28)

/-- Spare rows left in a bank: 64 less those in use (R381). -/
def State.spareRowsLeft (s : State) (d : Nat) : Nat :=
  let used := fun (b : Nat) =>
    (s.spare.remapped.filter fun r => r / 2 ^ 40 / 2 == d && r / 2 ^ 24 == b).length
  (s.spare.remapped.filter fun r => r / 2 ^ 40 / 2 == d).foldl (fun m r => min m (64 - used (r / 2 ^ 24))) 64

/-- Spare status of a die (Table 23.2). -/
def State.spareStatus (s : State) (d : Nat) : Nat :=
  if !s.svc.booted then 0
  else
    let cs := s.coresOfDie d
    let all := (List.range 32).map (32 * d + ·)
    let lanes := cs.foldl (fun n c => n + ((s.core (32 * d + c)).pipes.filter fun p => p.2.spareFor.isSome).length) 0
    let degr := (all.filter fun c => (s.core c).degraded).length
    let spares := (List.range 32).filter fun c => !cs.contains c && !(s.core (32 * d + c)).degraded
    s.spareRowsLeft d * 2 ^ 40 + degr * 2 ^ 32 + lanes * 2 ^ 24 + min 4 spares.length * 2 ^ 16 + cs.length * 2 ^ 8

/-- One of the 8-byte registers of the published windows; offsets that the tables do not list read as 0. -/
def State.regWord (s : State) (off : Nat) : Nat :=
  if off < 0x10000 then
    if off = 0 then
      (match s.svc.owner with
        | some m => m
        | none => 0xFF) + s.svc.term.toNat * 2 ^ 32
    else if off = 8 then s.svc.frozen.toNat
    else if off = 0x10 then s.svc.lastTerm.toNat
    else if 0x100 ≤ off && off < 0x300 then
      let q := s.part ((off - 0x100) / 64)
      match (off - 0x100) % 64 with
      | 0 => q.level + q.state * 256
      | 8 => q.w2.toNat
      | 0x10 => q.w3.toNat
      | 0x18 => q.w4.toNat
      | 0x20 => q.w5.toNat
      | 0x28 => q.w6.toNat
      | _ => 0
    else if 0x800 ≤ off && off < 0x840 then (s.part ((off - 0x800) / 8)).supvec.toNat
    else if 0x1000 ≤ off && off < 0x1040 then s.spareStatus ((off - 0x1000) / 8)
    else 0
  else if off < 0x20000 then
    match off - 0x10000 with
    | 0x00 => s.log.base.toNat
    | 0x08 => s.log.len.toNat
    | 0x10 => s.log.head.toNat
    | 0x18 => s.log.tail.toNat
    | o => if 0x20 ≤ o && o < 0x48 then (Tbl.get 0 s.log.drops ((o - 0x20) / 8)).toNat else 0
  else
    match off - 0x20000 with
    | 0x00 => s.events.head.toNat
    | 0x08 => s.events.tail.toNat
    | 0x10 => s.events.drop.toNat
    | o =>
      if 0x1000 ≤ o && o < 0x5000 then
        ((Tbl.get 0 s.events.ring ((o - 0x1000) / 64)).extractLsb' (o % 64 / 8 * 64) 64).toNat
      else 0

/-- A byte of the published windows. -/
def State.regByte (s : State) (pa : Nat) : Byte :=
  let off := pa - 0x700000000000
  BitVec.ofNat 8 (s.regWord (off / 8 * 8) >>> (8 * (off % 8)))

/-- Whether an address lies in a published window (Table 15.3). (DEDUCED, log 48.) -/
def published (pa : Nat) : Bool := 0x700000000000 ≤ pa && pa < 0x700000030000

/-! ### Registers that a WRITE changes (R327, R343, R352) -/

/-- SUPVEC of slot `p`: BUSY while its partition holds a launch; only SEG is written. -/
def State.writeSupvec (s : State) (p : Nat) (v : Word) : Nat × State :=
  if launchesOf s p ≠ [] then (stBusy, s)
  else
    let s := s.setPart p { s.part p with supvec := v &&& 0x000FFFFFFFFFF000 }
    if (s.part p).state = 0 then (stOk, s)
    else (stOk, (s.coresIn p).foldl (fun (s : State) c => s.setCore c { s.core c with sup := {} }) s)

/-- LOGBASE: an HBM address of 64-byte alignment at which the whole ring is HBM, or 0. (DEDUCED, log 65.) -/
def State.writeLogbase (s : State) (v : Word) : Nat × State :=
  let a := v.toNat
  if a % 64 = 0 && (a = 0 || (inHbm a && inHbm (a + 64 * s.log.len.toNat - 1))) then
    (stOk, { s with log := { s.log with base := v, written := none } })
  else (stBadCommand, s)

/-- LOGLEN: a power of two from 64 to 2^20; HEAD and TAIL become 0. (DEDUCED, log 65.) -/
def State.writeLoglen (s : State) (v : Word) : Nat × State :=
  if (List.range 15).any fun k => v.toNat == 2 ^ (6 + k) then
    (stOk, { s with log := { s.log with len := v, head := 0, tail := 0, written := none } })
  else (stBadCommand, s)

/-- TAIL: a value above HEAD is ignored. -/
def State.writeTail (s : State) (v : Word) : Nat × State :=
  (stOk, if v.toNat ≤ s.log.head.toNat then { s with log := { s.log with tail := v } } else s)

/-- DROP counter of severity `k`: ones clear. -/
def State.clearDrop (s : State) (k : Nat) (v : Word) : Nat × State :=
  (stOk, { s with log := { s.log with drops := Tbl.set 0 s.log.drops k (Tbl.get 0 s.log.drops k &&& ~~~v) } })

/-- EVTAIL: a value above EVHEAD is ignored. -/
def State.writeEvtail (s : State) (v : Word) : Nat × State :=
  (stOk, if v.toNat ≤ s.events.head.toNat then { s with events := { s.events with tail := v } } else s)

/-- EVDROP: ones clear. -/
def State.clearEvdrop (s : State) (v : Word) : Nat × State :=
  (stOk, { s with events := { s.events with drop := s.events.drop &&& ~~~v } })

/-- One word written at an offset of the published windows: a read-only register ignores it (R4), and so does an offset that no
table lists, which the spec does not speak of. (DEDUCED, log 58.) -/
def State.writeReg (s : State) (off : Nat) (v : Word) : Nat × State :=
  if 0x800 ≤ off && off < 0x840 then s.writeSupvec ((off - 0x800) / 8) v
  else if off = 0x10000 then s.writeLogbase v
  else if off = 0x10008 then s.writeLoglen v
  else if off = 0x10018 then s.writeTail v
  else if 0x10020 ≤ off && off < 0x10048 then s.clearDrop ((off - 0x10020) / 8) v
  else if off = 0x20008 then s.writeEvtail v
  else if off = 0x20010 then s.clearEvdrop v
  else (stOk, s)

/-! ### Accesses of the supervisor routine (R4, R68, R72) -/

/-- Whether an address lies in the service firmware controls (Table 15.3). -/
def inControls (pa : Nat) : Bool := 0x700000100000 ≤ pa && pa < 0x700000200000

/-- Bytes that the register window gives a hart or a copy: registers of the published windows; elsewhere bytes that nothing
constrains, since the spec gives the firmware controls no contents and lets no one but a port into its window. (DEDUCED, log 48.) -/
def windowBytes (pa : Nat) : Nat → State → List PByte × State
  | 0, s => ([], s)
  | n + 1, s =>
    let (b, s) := if published pa then (s.regByte pa, s) else (Config.freeByte s.fresh, { s with fresh := s.fresh + 1 })
    let (bs, s) := windowBytes (pa + 1) n s
    (⟨b, false⟩ :: bs, s)

/-- Part of the register at an offset stored, the bytes from its byte `i` on. EVDROP clears the ones that they carry; SUPVEC, the log's
registers and EVTAIL the owner alone writes, by WRITE (R327, R343, R404), and the others are read-only (R4). A poisoned byte counts
with the bits that it has: the registers hold no poison. (DEDUCED, log 48.) -/
def State.storeReg (s : State) (off i : Nat) (bs : List PByte) : State :=
  if off = 0x20010 then (s.clearEvdrop (BitVec.ofNat 64 (valueOf bs * 256 ^ i))).2 else s

/-- A store into the register window: the published registers by their access codes, the firmware controls, which hold what is
written into them, and nothing else (R4, Table 15.3). (DEDUCED, log 48.) -/
def State.storeWindow (s : State) (pa : Nat) (bs : List PByte) : State :=
  (cutAt 8 pa bs).foldl (fun (s : State) w =>
    if published w.1 then s.storeReg ((w.1 - 0x700000000000) / 8 * 8) (w.1 % 8) w.2
    else if inControls w.1 then
      { s with svc := { s.svc with controls := w.2.zipIdx.foldl (fun t b => Tbl.set 0 t (w.1 + b.2 - 0x700000100000) b.1.val)
                                                s.svc.controls } }
    else s) s

end Sys2Proof.Machine
end

