-- ==== Sys2Proof/Machine/Ops.lean ====
section
/-! DEFINITION. The operations that the meanings share: taking an exception and returning from one, fetching, loads, stores and
atomics of the running hart, acquire and release, and running an instruction to its end.

Rules: 21_faults R352-R356; 22 R365; 09 R170, R179-R183, R185; 05 R95, R96, R103, R104; 11 R252. -/

namespace Sys2Proof.Machine

/-! ### Trap entry and return (R352-R356) -/

/-- SEG of a partition's SUPVEC, as an address; 0 means no routine (Table 21.1). -/
def Part.supSeg (p : Part) : Nat := (p.supvec.extractLsb' 12 40).toNat * 4096

/-- The trap entry of R354 on hart `n`, in one step: every other register keeps its value. -/
def State.enterTrap (s : State) (n : Nat) (cause : BitVec 8) (tval epc evstart : Word) : State :=
  let h := s.hart n
  let va : Word := BitVec.ofNat 64 (s.part (s.partOf n)).supSeg
  s.setHart n
    { h with epc := epc, evstart := evstart, cause := cause.setWidth 64, tval := tval, vstart := 0, supv := true, pc := va,
             seg := va, wait := none, released := false, finishing := false, elemIter := none, memErr := none, early := [],
             trapIter := h.elemIter, trapErr := h.memErr, routine := none }

/-- The return of `eret` (R271, R356, R374): the target's own causes then arise with SUPV = 0. -/
def Hart.eret (h : Hart) : Hart :=
  { h with pc := h.epc, seg := h.epc &&& ~~~0xFFF, vstart := h.evstart, supv := false }

/-- Causes whose `sr.tval` is an address, for ADDR of a record (R340). (DEDUCED, log 54.) -/
def tvalIsAddress (code : Nat) (tval : Word) : Bool :=
  match code with
  | 0x04 | 0x06 | 0x08 | 0x0A | 0x19 | 0x1A | 0x21 => true
  | 0x09 => 0x1000 ≤ tval.toNat
  | 0x18 => 0x20000 ≤ tval.toNat
  | _ => false

/-- Causes that belong to an element, for ELEM of a record (R340). (DEDUCED, log 54.) -/
def hasElement (code : Nat) : Bool :=
  [0x06, 0x08, 0x09, 0x0A, 0x10, 0x11, 0x12, 0x18, 0x19, 0x1A, 0x1B, 0x21].contains code

/-- Causes that are logged at every trap (R344). -/
def loggedCause (code : Nat) : Bool := [0x0A, 0x18, 0x19, 0x1A, 0x1B, 0x30].contains code

/-- The record of a trap of hart `n` in the unit `cunit` of its core (R340, R344). (DEDUCED, log 54.) -/
def State.trapRecord (s : State) (n cunit : Nat) (cause : BitVec 8) (tval : Word) (k : Nat) : RecordFields :=
  let code := cause.toNat % 128
  let h := s.hart n
  let err := if code = 0x19 || code = 0x1A then h.memErr else none
  { cause := cause.toNat, cls := classOf code, sev := 1, trapped := true,
    elem := if hasElement code then k % 128 else 0xFF,
    eccst := if code = 0x18 then 4 else (err.getD (if code = 0x19 then 3 else 0, 0)).1,
    tagst := (err.getD (0, if code = 0x1A then 2 else 0)).2,
    unit := coreUnit (coreOf n) cunit, kid := h.kid.toNat, iter := s.iterOf n, syndrome := tval.toNat,
    addr := if cause.toNat < 128 && tvalIsAddress code tval then tval.toNat else 0 }

/-- The supervisor slot of a core holds the routine of partition `p`: landed (some true), on its way (some false), or not. -/
def State.supState (s : State) (core p : Nat) : Option Bool :=
  let c := s.core core
  match c.sup.landed with
  | some b => if c.sup.va.toNat = (s.part p).supSeg then some b else none
  | none => none

/-- The supervisor's rights for the fetch of its segment (R353). -/
def supRights : Rights := ⟨true, false, none, 0⟩

/-- What comes of the fetch of the supervisor segment: it is under way; it must wait, for a page that moves (R80); it fails; or the
walk met a bad page-table node, which is a machine check (R345). -/
inductive SupFetch where
  | coming (s : State)
  | later (s : State)
  | failed
  | checked (s : State)
  deriving DecidableEq, Repr

/-- Start the fetch of the supervisor segment of partition `p` into a core's supervisor slot; it fails without a translation, or
on a page without EXE and SUP (R353). -/
def State.fetchSup (s : State) (core p : Nat) : SupFetch :=
  let va := (s.part p).supSeg
  match translate p (dieOfCore core) (some core) supRights (BitVec.ofNat 64 va) .fetch s with
  | .ok (pa, leaf) s' =>
    if pteSup leaf then
      .coming (s'.setCore core { s'.core core with sup := { landed := some false, va := BitVec.ofNat 64 va, pa := pa } })
    else .failed
  | .error (.machineCheck p pa) s' => .checked (s'.nodeCheck p pa)
  | .error (.wait _) s' => .later s'
  | .error _ _ => .failed

/-- A hart takes an exception (R354) whose record is `f`: a cause with bit 7 set inside a microcoded expansion, its `sr.tval`,
the address that `sr.epc` is to hold, and the stop element. A trap while SUPV = 1, with no routine, or whose routine cannot be
fetched is a team fault (R345, R353); a trap while the team's own fault is being taken only stops the hart (R364). Entry waits
until the supervisor slot has landed. -/
def State.takeTrapWith (s : State) (n : Nat) (f : RecordFields) (cause : BitVec 8) (tval epc : Word) (k : Nat) : State :=
  let h := s.hart n
  let fault := s.teamFault h.team (dieOf n) f
  let s' := if loggedCause (cause.toNat % 128) then s.record (dieOf n) f else s
  let waiting := fun (s : State) =>
    s.setHart n { s.hart n with wait := some (.trapEntry cause tval epc (BitVec.ofNat 64 k) f.unit), released := false }
  match s.teamOf n with
  | none => s.setHart n { h with status := .stopped }
  | some t =>
    if t.status = .ended then s.setHart n { h with status := .stopped }
    else if h.supv || (s.part t.part).supSeg = 0 then fault
    else match s.supState (coreOf n) t.part with
      | some true => s'.enterTrap n cause tval epc (BitVec.ofNat 64 k)
      | some false => waiting s'
      | none => match s'.fetchSup (coreOf n) t.part with
        | .coming s'' | .later s'' => waiting s''
        | .checked s'' => s''
        | .failed => fault

/-- The exception of an instruction in the unit `cunit` of its core. -/
def State.takeTrap (s : State) (n cunit : Nat) (cause : BitVec 8) (tval epc : Word) (k : Nat) : State :=
  s.takeTrapWith n (s.trapRecord n cunit cause tval k) cause tval epc k

/-! ### Running an instruction -/

/-- Units of a core for records (R341). -/
def unitAp : Nat := 1
def unitEp : Nat := 2
def unitMe : Nat := 3
def unitCopy : Nat := 4

/-- A stall, which ends through the hart's own pipeline or memory system (R41), or a wait that completes before a pre-emption stops the
hart (Table 2.6). -/
def Wait.endsItself : Wait → Bool
  | .epFull | .resync | .fencePath _ | .commit _ | .dup .. | .copyTag _ => true
  | .fence scope _ => scope < 5
  | _ => false

/-- Hart `n` waits or stalls where it stands (R41): the same instruction runs again when the wait has ended. One that was to complete
before a pre-emption stops the hart no longer does where it now waits restartably (Table 2.6). -/
def State.setWait (s : State) (n : Nat) (w : Wait) : State :=
  s.setHart n { s.hart n with wait := some w, finishing := (s.hart n).finishing && w.endsItself }

/-- An instruction run on the current hart: a next state, or what its stop leads to. `micro` marks an expansion (R250). -/
def runIn (cunit : Nat) (micro : Bool) (m : M Unit) (s : State) : Host.Outcome State Fault Refusal :=
  match m s with
  | .ok _ s' => .next s'
  | .error (.trap c tval k) s' =>
    let code := if micro then c.code ||| 0x80 else c.code
    let pc := (s'.hart s.cur).pc
    .next (s'.takeTrap s.cur cunit code tval (if c = .trap then pc + 8 else pc) k)
  | .error (.wait w) s' => .next (s'.setWait s.cur w)
  | .error (.cut k) s' => .next (s'.setHart s.cur { s'.hart s.cur with vstart := BitVec.ofNat 64 k, cut := none })
  | .error (.machineCheck p pa) s' => .next (s'.nodeCheck p pa)
  | .error (.fault f) _ => .fault f
  | .error (.refuse r) _ => .refused r

/-- A hart whose instruction has completed: pc moves to `pc'`, and `sr.vstart` is 0 (R170, R195). -/
def Hart.at (h : Hart) (pc' : Word) : Hart :=
  { h with pc := pc', vstart := 0, released := false, finishing := false, elemIter := none }

/-- The instruction completes. -/
def completeAt (pc' : Word) : M Unit := modifyHart (·.at pc')

/-- The instruction completes and the next word follows. -/
def advance : M Unit := do completeAt ((← myHart).pc + 8)

/-- An access-processor instruction. -/
def ap (m : M Unit) : State → Host.Outcome State Fault Refusal := runIn unitAp false (do m; advance)

/-! ### Loads and stores (R179, R180, R230, R231, R360) -/

/-- A read of the register window. -/
def registerAccess (pa len : Nat) : M (List PByte) := modifyGet (windowBytes pa len)

/-- A stamped store of the running hart to a 32-byte cell of the `len` bytes at `pa` that is not visible yet holds the access
(R107). -/
def holdForCell (pa len : Nat) : M Unit := do
  let s ← get
  match s.stampOver s.cur pa len with
  | some e => throw (.wait (.commit (e.pa / 32 * 32)))
  | none => pure ()

/-- Read `len` bytes at a physical address for the running hart: latent errors are found and delivered as poison (R230). A load
that performed ahead of this one no longer stands for a later one of the same bytes (Table 5.1). -/
def readPhys (pa len : Nat) : M (List PByte) := do
  if windowOf pa = .register then registerAccess pa len
  else
    holdForCell pa len
    modifyHart (·.dropEarly pa len)
    modify fun s => s.findErrors (dieOf s.cur) pa len (s.readerOf s.cur)
    let s ← get
    return s.hartBytes s.cur pa len

/-- Read bytes for a load whose address comes from a-register `base`: what the load read if it performed early, else what stands
there now (R85, R93). (DESIGN CHOICE, log 7.) -/
def readAhead (base : BitVec 6) (pa len : Nat) : M (List PByte) := do
  let h ← myHart
  match h.early.find? fun e => e.base == base.toNat && e.pa == pa && e.bytes.length == len with
  | some e => do
    holdForCell pa len
    modifyHart (·.dropEarly pa len)
    return e.bytes
  | none => readPhys pa len

/-- Load `len` bytes at a virtual address under given rights. -/
def loadWith (r : Rights) (va : Word) (len : Nat) : M (List PByte) := do
  let (pa, _) ← translateWith r va .load
  readPhys pa len

/-- Load `len` bytes at a raw virtual address. -/
def loadBytes (va : Word) (len : Nat) : M (List PByte) := do
  let s ← get
  loadWith (s.rightsOf s.cur) va len

/-- A write to a page with duplicates waits for their invalidation (R79). -/
def holdForDup (va leaf : Word) : M Unit := do
  let s ← get
  if pteDup leaf && Tbl.get [] s.dups (pteAddr leaf) != [] then throw (.wait (.dup (pteAddr leaf) s.now va))

/-- A store that writes part of the unit of `pa`, whose old contents are bad, raises MEM_UE or INTEGRITY (R360); `whole u n` says that
the store covers the unit of `n` bytes at `u`, whose error then goes when the bytes do. -/
def mergeUnit (va : Word) (pa : Nat) (whole : Nat → Nat → Bool) : M Unit := do
  let s ← get
  match unitOf pa, s.latentAt pa with
  | some (u, n), some e =>
    if whole u n then pure ()
    else
      set (s.record (dieOf s.cur) (errorRecord e pa (s.readerOf s.cur)))
      modifyHart fun h => { h with memErr := some (e.eccst, e.tagst pa) }
      raise e.cause va
  | _, _ => pure ()

/-- Every unit that a store of `len` bytes at `pa` meets is merged (R360); no unit is smaller than 32 bytes. -/
def checkMerge (va : Word) (pa len : Nat) (whole : Nat → Nat → Bool) : M Unit :=
  forEach (span (pa / 32) ((pa + len - 1) / 32 + 1)) fun w => mergeUnit va (max pa (32 * w)) whole

/-- The checks of a performing store of `len` bytes, before they move: a stamped store to their cell, duplicates, and a unit to
merge. The register window has none of them. -/
def readyToWrite (va : Word) (pa len : Nat) (leaf : Word) (whole : Nat → Nat → Bool) : M Unit := do
  if windowOf pa = .register then pure ()
  else
    holdForCell pa len
    holdForDup va leaf
    checkMerge va pa len whole

/-- Hart `n` issues a store: into its buffer, or to the module's registers, which take it at once. -/
def State.issueStore (s : State) (n pa : Nat) (bytes : List PByte) : State :=
  if windowOf pa = .register then s.storeWindow pa bytes else s.bufferStore n pa bytes

/-- Put bytes into the running hart's buffer for a physical address, after the checks of a performing store. -/
def writePhys (va : Word) (pa : Nat) (leaf : Word) (bytes : List PByte) (whole : Nat → Nat → Bool) : M Unit := do
  readyToWrite va pa bytes.length leaf whole
  modify fun s => s.issueStore s.cur pa bytes

/-- Store clean bytes at a raw virtual address. -/
def storeBytes (va : Word) (bytes : List Byte) : M Unit := do
  let (pa, leaf) ← translateMe va .store
  writePhys va pa leaf (cleanBytes bytes) (fun _ _ => false)

/-- What happens before an atomic of the running hart reads `len` bytes at `pa`: the hart's own buffered bytes of the 8-byte
words go first, and the home and the hart's die apply what is on its way to them (R92, R185). (DEDUCED, log 14.) -/
def State.settleFor (s : State) (pa len : Nat) : State :=
  let s := s.flushRange s.cur (pa / 8 * 8) (max len 8)
  if 2 ^ 48 ≤ pa then s else (s.catchUp (homeOf pa)).catchUp (dieOf s.cur)

/-- The key that a write of the running hart carries now (R104). -/
def State.myKey (s : State) : Option DetKey := (s.hart s.cur).detKey (s.keyLaunch s.cur) (s.cur % 2) (s.hart s.cur).fcount

/-- The running hart updates bytes at their home (R92). What it writes carries the hart's count, for an acquire that reads it, and
the home does not compare it (R104, R185). (DEDUCED, log 14.) -/
def State.putAtHome (s : State) (pa : Nat) (bytes : List Byte) : State :=
  s.updateAtHome (dieOf s.cur) (some s.cur) (s.hart s.cur).epoch s.myKey pa (cleanBytes bytes)

/-- The bytes that an atomic of the running hart reads (R92); the register window's own where it lies there. -/
def State.oldBytes (s : State) (pa len : Nat) : List PByte :=
  if windowOf pa = .register then (windowBytes pa len s).1 else (List.range len).map fun i => s.byteAt (dieOf s.cur) (pa + i)

/-- The key that the last write to the word of `pa` carried, as the running hart reads that write (R104). -/
def State.keyRead (s : State) (pa : Nat) : Option DetKey :=
  if 2 ^ 48 ≤ pa then s.casks.keyAt (s.keyAddr pa) else (s.viewOf (dieOf s.cur)).keyAt pa

/-- The keys of the writes that an access of the running hart to `len` bytes at `pa` reads, one for each 4-byte word that has one. -/
def State.keysRead (s : State) (pa len : Nat) : List DetKey :=
  (span (pa / 4) ((pa + len - 1) / 4 + 1)).filterMap fun w => s.keyRead (4 * w)

/-- What an atomic read: the old value, where, and the keys that the writes carried. -/
structure AtomRead where
  old : Nat
  pa : Nat
  keys : List DetKey
  deriving DecidableEq, Repr

/-- The checks of an atomic before it has any effect: alignment is its caller's. Poison in the value that it would read raises
POISON_CONSUMED (R181, R183, R194). -/
def probeAtomic (va : Word) (len : Nat) : M (Nat × Word) := do
  let (pa, leaf) ← translateMe va .atomic
  readyToWrite va pa len leaf (fun _ _ => false)
  let s ← get
  raiseIf (anyPoison ((s.settleFor pa len).oldBytes pa len)) .poisonConsumed va
  return (pa, leaf)

/-- A read-modify-write at the location's home (R92, R181, R183, R185): poison in the old value raises POISON_CONSUMED and writes
nothing. (DEDUCED, log 14.) -/
def atomicAt (va : Word) (len : Nat) (op : Nat → Option Nat) : M AtomRead := do
  let (pa, _) ← probeAtomic va len
  modifyHart (·.dropEarly pa len)
  modify fun s => s.settleFor pa len
  let s ← get
  let old := valueOf (s.oldBytes pa len)
  match op old with
  | some new =>
    if windowOf pa = .register then modify fun s => s.storeWindow pa (cleanBytes (bytesOf len new))
    else modify fun s => s.putAtHome pa (bytesOf len new)
  | none => pure ()
  return ⟨old, pa, s.keysRead pa len⟩

/-! ### Order (R95, R96, R103, R104) -/

/-- A draining instruction or an acquire counts in the fence count of a DET hart (R104). -/
def Hart.countFence (h : Hart) : Hart := if h.det then { h with fcount := h.fcount + 1 } else h

/-- An acquire that read writes which carry `keys`: the count rises past that of each that belongs to the same launch and tile run
(R104). No later load has performed before it (R96). -/
def acquiredKeys (keys : List DetKey) : M Unit := do
  let s ← get
  let h := s.hart s.cur
  let own := keys.filter fun k => k.launch = s.keyLaunch s.cur && k.run = h.tilePos
  let c := own.foldl (fun f k => max f (k.count + 1)) (h.fcount + 1)
  modifyHart fun h => { h with early := [], fcount := if h.det then c else h.fcount }

/-- An acquire that read the `len` bytes at `pa`. -/
def acquired (pa len : Nat) : M Unit := do acquiredKeys ((← get).keysRead pa len)

/-- A hart's stores and stamped stores have all been applied or become visible (R95, R107). -/
def State.storesDone (s : State) (n : Nat) : Bool :=
  (s.hart n).sbuf.isEmpty && (s.hart n).wcb.isEmpty && !(s.stampq.any fun e => e.hart = n)

/-- Every write counted in a vector clock has been applied on every die (R95); with `fabric`, those to the fabric window at the peers
too, who are observers at .f. -/
def State.countedApplied (s : State) (snap : List Nat) (fabric : Bool) : Bool :=
  s.net.all fun w => snap.getD w.origin 0 < w.seq || w.pend.all fun e => e == fabricAgent && !fabric

/-- Every earlier Cellar store of a hart, on every path, is durable (R111, R113). -/
def State.hartDurable (s : State) (n : Nat) : Bool :=
  let h := s.hart n
  !((h.sbuf ++ h.wcb ++ h.mbuf).any fun e => inCellar e.pa) && !(s.cellarPend.any fun c => c.hart = some n) &&
  !(s.stampq.any fun e => e.hart = n && inCellar e.pa)

/-- A scope that this model adds to Table 5.2: fabric and durable at once. -/
def scopeBoth : Nat := 6

/-- Whether the promises of a release or fence at a scope hold for hart `n` now (R95). -/
def State.scopeDone (s : State) (n scope : Nat) : Bool :=
  scope = 0 || (s.storesDone n &&
    (scope ≤ 2 || s.countedApplied (s.clockOf (dieOf n)) (scope = 4 || scope = scopeBoth)) &&
    (scope < 5 || s.hartDurable n))

/-- Drain the write-combining buffer and wait for the promises of a scope; a DET hart counts the draining instruction once,
when the wait has ended. (DEDUCED, log 33.) -/
def releaseAt (scope : Nat) : M Unit := do
  modifyHart Hart.drainWcb
  let h ← myHart
  let s ← get
  if h.released || s.scopeDone s.cur scope then modifyHart fun h => { h.countFence with released := false, early := [] }
  else throw (.wait (.fence scope []))

/-- Wait until the EP and the matrix engine have finished the hart's earlier instructions (R28, R50). (DESIGN CHOICE, log 8.) -/
def resync : M Unit := do
  let h ← myHart
  if h.epq = 0 && h.meq = 0 then pure () else throw (.wait .resync)

/-- Restrictions of a SPLICE_OK launch on an instruction (R136). -/
def notInSplice : M Unit := do
  let s ← get
  match s.launchOf s.cur with
  | some l => if l.spliceOk then illegal 0x500 else pure ()
  | none => pure ()

/-- Instructions that only the supervisor routine may execute (R271). -/
def supervisorOnly : M Unit := do
  if (← myHart).supv then pure () else raise .priv 0

/-! ### Transfers of control (R88, R186-R190) -/

/-- Whether an address lies in the 4 KiB segment that control is in. -/
def Hart.inSeg (h : Hart) (va : Word) : Bool := va &&& ~~~0xFFF == h.seg

/-- The landed slot that holds a segment (R87). -/
def Core.slotOf (c : Core) (va : Word) : Option (Nat × CodeSlot) :=
  c.code.find? fun e => e.2.landed.isSome && e.2.va == va &&& ~~~0xFFF

/-- Whether the segment of an address has landed in the code store. -/
def Core.segLanded (c : Core) (va : Word) : Bool :=
  match c.slotOf va with
  | some (_, sl) => sl.landed == some true
  | none => false

/-- The landed supervisor segment at an address for hart `n`: the copy that its routine goes on in, or its core's slot (R353, R364). -/
def State.supFor (s : State) (n : Nat) (seg : Word) : Option CodeSlot :=
  (some ((s.hart n).routine.getD (s.core (coreOf n)).sup)).filter fun sl => sl.landed == some true && sl.va == seg

/-- Whether the segment of an address has landed for hart `n`: in the code store or, for the supervisor routine, in the supervisor
slot (R188, R353). (DEDUCED, log 53.) -/
def State.landedFor (s : State) (n : Nat) (va : Word) : Bool :=
  let c := s.core (coreOf n)
  c.segLanded va || ((s.hart n).supv && (s.supFor n (va &&& ~~~0xFFF)).isSome)

/-- A transfer inside the current segment, or SEG_ABSENT (R187). -/
def requireInSeg (va : Word) : M Unit := do
  raiseIf (!(← myHart).inSeg va) .segAbsent va

/-- A transfer to any landed segment: alignment first, then the segment (R188). -/
def requireLanded (va : Word) : M Unit := do
  raiseIf (va &&& 7 != 0) .misalign va
  let s ← get
  raiseIf (!s.landedFor s.cur va) .segAbsent va

/-- Control passes to an address whose checks have been made. -/
def jumpTo (va : Word) : M Unit := do
  completeAt va
  modifyHart fun h => { h with seg := va &&& ~~~0xFFF }

/-! ### Fetch (R87, R88, R267, R353) -/

/-- What a fetch finds: the word, a cause, or a wait. -/
def State.fetchWord (s : State) (n : Nat) : Except Stop Word :=
  let h := s.hart n
  let c := s.core (coreOf n)
  if h.pc &&& 7 != 0 then .error (.trap .misalign h.pc 0)
  else if !h.inSeg h.pc then .error (.trap .segAbsent h.pc 0)
  else
    let slot :=
      match (if h.supv then s.supFor n h.seg else none), c.slotOf h.pc with
      | some sl, _ => some sl
      | none, some (_, sl) => if sl.landed == some true then some sl else none
      | none, none => none
    match slot with
    | none => .error (.trap .segAbsent h.pc 0)
    | some sl =>
      let off := h.pc.toNat % 4096
      if sl.poison.any (fun p => p / 8 == off / 8) then .error (.trap .poisonConsumed h.pc 0)
      else .ok (wordOfBytes ((List.range 8).map fun i => Tbl.get 0 sl.bytes (off + i)))

end Sys2Proof.Machine
end

