-- ==== Sys2Proof/Machine/Operands.lean ====
section
/-! DEFINITION. Operand forms of vector instructions: sources, destinations, classes and the element loop
(02 R25-R31, R38; 10 R195-R200; 21 R355; 23 R383, R384).

A vector instruction here is performed whole when the access processor sends it; the 64-entry queue of R25 is the count
`epq`, which AP_DECODE_RESUME and AP_RESYNC lower. -/

namespace Sys2Proof.Machine

/-- A vector source: register by the name in the instruction, or the head of a queue (R155, R196). -/
inductive VSrc where
  | reg (name : Nat)
  | queue (q : Nat)
  deriving DecidableEq, Repr

/-- The source that an 8-bit field and its queue bit name. -/
def srcOf (f : BitVec 8) (q : Bool) : VSrc := if q then .queue (f.toNat % 8) else .reg f.toNat

/-- Entries of queue `q`. -/
def Hart.queue (h : Hart) (q : Nat) : List QEntry := Tbl.get [] h.q q

/-- The head entry of a queue; reading an empty queue is refused before (R27). -/
def Hart.head (h : Hart) (q : Nat) : QEntry := (h.queue q).headD ⟨2, 0, 0⟩

/-- The type a source is read as: a register's tag, or an entry's memory element type (R196). -/
def VSrc.tag (h : Hart) : VSrc → BitVec 5
  | .reg n => (h.vreg (h.rot n)).tag
  | .queue q => (h.head q).mt

/-- The pattern of element `e` of a source. -/
def VSrc.elem (h : Hart) (e : Nat) : VSrc → Nat
  | .reg n => h.elem (h.rot n) e
  | .queue q => elemBits (h.head q).data (tagWidth (h.head q).mt) e

/-- The value of element `e` of a source (R196). -/
def VSrc.val (h : Hart) (e : Nat) (s : VSrc) : Val := readAs (s.tag h) (s.elem h e)

/-- Whether element `e` of a source carries poison. -/
def VSrc.poison (h : Hart) (e : Nat) : VSrc → Bool
  | .reg n => h.elemPoison (h.rot n) e
  | .queue q => (h.head q).poison.getLsbD e

/-- `sr.tval` of POISON_CONSUMED for element `e` of a source (R199). (DEDUCED, log 24.) -/
def VSrc.poisonTval (e : Nat) : VSrc → Word
  | .reg n => BitVec.ofNat 64 (n * 256 + e)
  | .queue q => BitVec.ofNat 64 (0x10000 + q * 256 + e)

/-- `sr.tval` of TAG_MISMATCH for a source (R197). (DEDUCED, log 24.) -/
def VSrc.tagTval : VSrc → Word
  | .reg n => BitVec.ofNat 64 n
  | .queue q => BitVec.ofNat 64 (0x100 + q)

/-- The source names the upper register of a 64-bit pair (R31). -/
def VSrc.pairHigh (h : Hart) : VSrc → Bool
  | .reg n => h.isPairHigh (h.rot n)
  | .queue _ => false

/-- Queues among sources, each once. (DEDUCED, log 23.) -/
def queuesOf (ss : List VSrc) : List Nat :=
  (ss.filterMap fun s => match s with
    | .queue q => some q
    | .reg _ => none).eraseDups

/-- Poison in element `e` of the first source that carries it. (DEDUCED, log 19.) -/
def firstPoison (h : Hart) (ss : List VSrc) (e : Nat) : Option Word :=
  (ss.find? fun s => s.poison h e).map (·.poisonTval e)

/-! ### Sending an instruction to the EP -/

/-- With 64 entries in the EP queue the AP stops decoding (R25). (DESIGN CHOICE, log 8.) -/
def epRoom : M Unit := do
  if 64 ≤ (← myHart).epq then throw (.wait .epFull) else pure ()

/-- An instruction enters the EP queue (R25). (DESIGN CHOICE, log 8.) -/
def epSent : M Unit := modifyHart fun h => { h with epq := h.epq + 1 }

/-- A queue source whose count is 0 is refused at decode (R27); inside the supervisor routine any queue source is (R355).
(DEDUCED, log 23.) -/
def checkQueues (ss : List VSrc) : M Unit := do
  let h ← myHart
  match (queuesOf ss).find? fun q => (h.queue q).isEmpty with
  | some q => illegal (BitVec.ofNat 64 (0x100 + q))
  | none => if h.supv && queuesOf ss != [] then illegal 0x900 else pure ()

/-- The head entries of the queue sources are lost when the instruction completes (R195). (DEDUCED, log 23.) -/
def consume (ss : List VSrc) : M Unit :=
  modifyHart fun h => (queuesOf ss).foldl (fun h q => { h with q := Tbl.set [] h.q q (h.queue q).tail }) h

/-- Raise TAG_MISMATCH for the first offending operand, at element `k`; the checks raise nothing when no element is left (R367). -/
def tagCheckAt (k : Hart → Nat) (bad : Hart → List (Bool × Word)) : M Unit := do
  let h ← myHart
  if h.start < h.vlen then
    match (bad h).find? (·.1) with
    | some (_, t) => throw (.trap .tagMismatch t (k h))
    | none => pure ()

/-- The tag checks of most instructions are made at element `sr.vstart` (R197). -/
def tagCheck (bad : Hart → List (Bool × Word)) : M Unit := tagCheckAt Hart.start bad

/-- What a register destination and its sources offend by naming the upper half of a pair (R31), in the order D, A, B. -/
def pairFaults (h : Hart) (d : Option Nat) (ss : List VSrc) : List (Bool × Word) :=
  (match d with
    | some n => [(h.isPairHigh (h.rot n), BitVec.ofNat 64 n)]
    | none => []) ++ ss.map fun s => (s.pairHigh h, s.tagTval)

/-- The operand classes of Table 10.1; `h` is class I with one width, as `vmulh` asks (Table 10.2). -/
inductive OpClass where
  | n | f | i | h | w | s | e
  deriving DecidableEq, Repr

/-- Whether a source breaks a class; `k` is its place, 0 for A; `w` the width the class asks for. -/
def OpClass.badSrc (c : OpClass) (h : Hart) (k w : Nat) (s : VSrc) : Bool :=
  let t := s.tag h
  match c with
  | .n => false
  | .f => !tagIsFloat t
  | .i => !tagIsInt t
  | .h => !tagIsInt t || tagWidth t != w
  | .w => tagIsQ4 t || tagWidth t != w
  | .s => !tagIsInt t || (k == 0 && tagWidth t != w)
  | .e => !(tagIsFloat t && t != 0x0D)

/-- Whether a destination tag breaks a class. -/
def OpClass.badDest (c : OpClass) (t : BitVec 5) (w : Nat) : Bool :=
  match c with
  | .n => false
  | .f | .e => !tagIsFloat t
  | .i => !tagIsInt t
  | .w => tagIsQ4 t || tagWidth t != w
  | .s | .h => !tagIsInt t || tagWidth t != w

/-- The offending operands of an instruction of class `c`, D first. The width of classes W and S is that of A. -/
def OpClass.faults (c : OpClass) (h : Hart) (d : Nat) (ss : List VSrc) : List (Bool × Word) :=
  let w := match ss with
    | a :: _ => tagWidth (a.tag h)
    | [] => 0
  (h.isPairHigh (h.rot d) || c.badDest (h.vreg (h.rot d)).tag w, BitVec.ofNat 64 d) ::
    ss.zipIdx.map fun x => (x.1.pairHigh h || c.badSrc h x.2 w x.1, x.1.tagTval)

/-! ### The taster (R200, R383, R384) -/

/-- Physical lane of logical lane `l` of a pipe: moved up by one at and above a lane that the spare replaced (R385). -/
def physLane (p : Pipe) (l : Nat) : Nat := match p.spareFor with
  | some f => if f ≤ l then l + 1 else l
  | none => l

/-- UNIT of a lane of a pipe (Table 1.4). -/
def laneUnit (core pipe lane : Nat) : Nat := unitPath (core / 32) (core % 32) 2 (33 * pipe + lane)

/-- The hart's waiting lane error is met at element `e`, with stop element `k`. A mismatch that re-execution corrects leaves a
record and counts against the lane; another marks the lane failing and raises CHECK_MISMATCH (R384). (DESIGN CHOICE, log 11.) -/
def laneMismatch (e k pipe lane : Nat) (corrects : Bool) : M Unit := do
  modify fun s =>
    let c := coreOf s.cur
    let p := Tbl.get {} (s.core c).pipes pipe
    let at_ := physLane p lane
    let p' := if corrects then { p with events := p.events ++ [(at_, s.now)] } else { p with failing := (p.failing.erase at_) ++ [at_] }
    let s := s.setCore c { s.core c with pipes := Tbl.set {} (s.core c).pipes pipe p' }
    let s := s.record (dieOf s.cur)
      { cause := 0x1B, cls := 3, sev := if corrects then 0 else 1, elem := e, unit := laneUnit c pipe at_,
        kid := (s.hart s.cur).kid.toNat, iter := s.iterOf s.cur }
    s.setHart s.cur { s.hart s.cur with laneErr := none }
  if corrects then pure () else throw (.trap .checkMismatch (BitVec.ofNat 64 e) k)

/-- One step of a taster's LFSR, with taps for x^16 + x^14 + x^13 + x^11 + 1 (R383). (DESIGN CHOICE, log 11.) -/
def lfsrNext (x : BitVec 16) : BitVec 16 := (x <<< 1) ||| (((x >>> 15) ^^^ (x >>> 13) ^^^ (x >>> 12) ^^^ (x >>> 10)) &&& 1)

/-- The LFSRs of pipes `ps` of a core step. -/
def Core.tasted (c : Core) (ps : List Nat) : Core :=
  { c with pipes := ps.foldl (fun t k => let p := Tbl.get {} t k; Tbl.set {} t k { p with lfsr := lfsrNext p.lfsr }) c.pipes }

/-- An instruction that the taster checks retires on pipes `ps` of the running hart's core. -/
def State.tasted (s : State) (ps : List Nat) : State := s.setCore (coreOf s.cur) ((s.core (coreOf s.cur)).tasted ps)

/-- The pipe of an instruction that is not an EP+EP word. (DESIGN CHOICE, log 11.) -/
def ownPipe (n : Nat) : Nat := n % 2

/-- An instruction on its own pipe retires. (DESIGN CHOICE, log 11.) -/
def tasterSteps : M Unit := modify fun s => s.tasted [ownPipe s.cur]

/-- The taster finds the lane error that waits for the hart: the element that it chooses, among the active elements `es k` of the
instruction on pipe `k`, was computed by that lane (R383). (DESIGN CHOICE, log 11.) -/
def found (es : Nat → List Nat) : M Bool := do
  match (← myHart).laneErr with
  | some (pipe, lane, _) => do
    let l := es pipe
    return !l.isEmpty && l.getD (Config.tasterPick (Tbl.get {} (← myCore).pipes pipe).lfsr l.length % l.length) 0 % 32 == lane
  | none => pure false

/-- The elements of an instruction on its own pipe. -/
def onOwnPipe (n : Nat) (es : List Nat) (k : Nat) : List Nat := if k = ownPipe n then es else []

/-- The lane error that waits for this instruction is met at the lowest element that its lane computes. (DESIGN CHOICE, log 11.) -/
def taste (lowest : Bool) (e : Nat) : M Unit := do
  match (← myHart).laneErr with
  | some (pipe, lane, corrects) => if e % 32 = lane && lowest then laneMismatch e e pipe lane corrects else pure ()
  | none => pure ()

/-- For an instruction that joins many elements into one: a lane takes part when one of the elements does.
(DESIGN CHOICE, log 11.) -/
def tasteWhole (es : List Nat) : M Unit := do
  let hit ← found (onOwnPipe (← me) es)
  match (← myHart).laneErr with
  | some (pipe, lane, corrects) =>
    match es.find? fun e => hit && e % 32 == lane with
    | some e => laneMismatch e 0 pipe lane corrects
    | none => pure ()
  | none => pure ()

/-! ### The element loop (R195) -/

/-- The hart's instruction stops before element or row `e`, with an earlier one performed. (DESIGN CHOICE, log 9.) -/
def Hart.cutsAt (h : Hart) (e : Nat) : Bool := match h.cut with
  | some k => h.start < k && k ≤ e
  | none => false

/-- An instruction stops between elements where its hart's is cut: (pc, e) is its position, and it resumes there (R33).
(DESIGN CHOICE, log 9.) -/
def mayCut (e : Nat) : M Unit := do
  if (← myHart).cutsAt e then throw (.cut e) else pure ()

/-- A vector instruction of the EP stops between beat groups of 32 elements, where its progress index stands (R32).
(DESIGN CHOICE, log 9.) -/
def mayCutGroup (e : Nat) : M Unit := if e % 32 = 0 then mayCut e else pure ()

/-- What an instruction gives for one element: its pattern and flags, or the cause that the element raises. -/
abbrev ElemResult := Except (Cause × Word) (Nat × Flags)

/-- Perform one active element: its cause, then the taster's, then its flags; only then is it written. `low` says whether
this element is the lowest of the instruction in its lane. -/
def performElem (low tasted : Bool) (e : Nat) (r : ElemResult) (write : Nat → Hart → Hart) : M Unit := do
  match r with
  | .error (.poisonConsumed, t) => throw (.trap .poisonConsumed t e)
  | .error (c, t) => do
    if tasted then taste low e
    throw (.trap c t e)
  | .ok (x, f) => do
    if tasted then taste low e
    let h ← myHart
    if f &&& h.en != 0 then throw (.trap .fpTrap (f.setWidth 64) e)
    modifyHart fun h => (write x h).addFlags f

/-- The loop of R195 over elements `lo` to `hi − 1`: an active element takes its result, another is 0 when MU is 1 and
undisturbed otherwise. The taster may choose among the active elements of `tm`. -/
def elemLoop (tm mk : Mask) (mu : Bool) (lo hi : Nat) (res : Hart → Nat → ElemResult)
    (write : Nat → Nat → Hart → Hart) : M Unit := do
  let tested := fun e => mk.getLsbD e && tm.getLsbD e
  let hit ← found (onOwnPipe (← me) ((span lo hi).filter tested))
  forEach (span lo hi) fun e => do
    mayCutGroup e
    let h ← myHart
    if mk.getLsbD e then
      let low := hit && !((span lo e).any fun i => i % 32 == e % 32 && tested i)
      performElem low (tested e) e (res h e) (write e)
    else if mu then modifyHart (write e 0)
    else pure ()

/-- A register destination written under its tag (R31, R35). -/
def writeReg (d : Nat) (e x : Nat) (h : Hart) : Hart := h.setElem (h.rot d) e x
/-- A mask destination. -/
def writeMask (d : Nat) (e x : Nat) (h : Hart) : Hart := h.setM d (putMask (h.mReg d) e (x % 2 == 1))

/-- A result converted into the tag of destination `d` (R53). -/
def intoReg (h : Hart) (d : Nat) (v : Val) (f : Flags) : ElemResult :=
  let r := h.vreg (h.rot d)
  let (x, g) := convert r.tag r.sat h.rm v
  .ok (x, f ||| g)

/-- An element that reads its sources at `e`: poison first (R199), then the instruction's own result. -/
def withSources (ss : List VSrc) (f : Hart → Nat → ElemResult) (h : Hart) (e : Nat) : ElemResult :=
  match firstPoison h ss e with
  | some t => .error (.poisonConsumed, t)
  | none => f h e

/-- A vector instruction of the EP whose tag checks are made at element `k`: queue and tag checks, the loop, and completion
(R195, R197, R201). -/
def vectorOpAt (k : Hart → Nat) (ss : List VSrc) (faults : Hart → List (Bool × Word)) (loop : Hart → M Unit) : M Unit := do
  checkQueues ss
  epRoom
  tagCheckAt k faults
  loop (← myHart)
  consume ss
  epSent
  tasterSteps
  advance

/-- A vector instruction of the EP. -/
def vectorOp (ss : List VSrc) (faults : Hart → List (Bool × Word)) (loop : Hart → M Unit) : M Unit :=
  vectorOpAt Hart.start ss faults loop

/-- An instruction performed by the EP. -/
def ep (m : M Unit) : State → Host.Outcome State Fault Refusal := runIn unitEp false m

/-- The mask that field MK names. -/
def Hart.maskOf (h : Hart) (m : BitVec 4) : Mask := h.mReg m.toNat

/-- A cross-element instruction whose D shares a 64-bit pair with A or B, by the tags, is refused when it executes (R198). -/
def checkPairOverlap (d : Nat) (ss : List VSrc) : M Unit := do
  let h ← myHart
  let dn := h.rot d
  let pairOf := fun (n : Nat) => if tagWidth (h.vreg (n / 2 * 2)).tag = 64 then n / 2 * 2 else n
  let bad := ss.any fun s => match s with
    | .reg a => pairOf (h.rot a) == pairOf dn
    | .queue _ => false
  if bad then illegal 0x402 else pure ()

/-- A cross-element instruction into register `d` (R198). -/
def crossOp (d : Nat) (ss : List VSrc) (faults : Hart → List (Bool × Word)) (loop : Hart → M Unit) : M Unit := do
  checkQueues ss
  epRoom
  checkPairOverlap d ss
  tagCheck faults
  loop (← myHart)
  consume ss
  epSent
  tasterSteps
  advance

/-! ### Elementwise instructions -/

/-- Bytes 64 to 511 of a register that was written under a q4 tag are undefined (R46). (DEDUCED, log 17.) -/
def spoilQ4 (d : Nat) : M Unit := do
  let h ← myHart
  let r := h.vreg (h.rot d)
  if tagIsQ4 r.tag then
    let x ← freshReg
    modifyHart fun h => h.setV (h.rot d) { r with data := (r.data &&& BitVec.ofNat 4096 (2 ^ 512 - 1)) ||| (x <<< 512) }
  else pure ()

/-- The element at which an instruction stops; it has performed those below it (R33). A wait holds it at the element that `sr.vstart`
names. -/
def Stop.elem (start : Nat) : Stop → Nat
  | .trap _ _ k | .cut k => k
  | _ => start

/-- Perform a loop over elements `lo` to `hi − 1` that writes register `d` at the elements that `writes` names; what R46 says of a
register written under a q4 tag holds also where the loop stops after a write. (DEDUCED, log 17.) -/
def spoiling (d lo hi : Nat) (writes : Nat → Bool) (loop : M Unit) : M Unit := do
  match ← attempt loop with
  | .ok _ => if (span lo hi).any writes then spoilQ4 d else pure ()
  | .error e => do
    if (span lo (e.elem (← myHart).start)).any writes then spoilQ4 d
    throw e

/-- The loop of R195 into register `d`. -/
def regLoop (d : Nat) (mk : Mask) (mu : Bool) (res : Hart → Nat → ElemResult) (h : Hart) : M Unit :=
  spoiling d h.start h.vlen (fun e => mu || mk.getLsbD e)
    (elemLoop (BitVec.allOnes 128) mk mu h.start h.vlen res (writeReg d))

/-- Where the tag checks of a class are made: those of `vexp2` and `vlog2` at element 0 (R63). -/
def OpClass.checkedAt (c : OpClass) (x : Hart) : Nat := if c = .e then 0 else x.start

/-- An elementwise instruction into register `d`, whose sources are read at element e; `extra` are registers read besides A and
B (R195, R197, R199). -/
def elementwise (c : OpClass) (d : BitVec 8) (mk : BitVec 4) (mu : Bool) (ss extra : List VSrc)
    (res : Hart → Nat → ElemResult) : M Unit :=
  vectorOpAt c.checkedAt ss (fun h => c.faults h d.toNat ss) fun h =>
    regLoop d.toNat (h.maskOf mk) mu (withSources (ss ++ extra) res) h

/-- Integers have no signed zero: an exact zero of sources that are all read as integers is +0 (R53). (DEDUCED, log 15.) -/
def unsignedZero (isFloat : Bool) (x : Exact) : Exact :=
  match x with
  | .fin _ 0 e false => if isFloat then x else .fin false 0 e false
  | x => x

/-- A result from exact values, from a float source when any value is read as a float (R53, R405). (DEDUCED, log 15.) -/
def valueResult (d : Nat) (vs : List Val) (x : Exact × Flags) (h : Hart) : ElemResult :=
  let fl := vs.any (·.isFloat)
  intoReg h d ⟨unsignedZero fl x.1, fl⟩ x.2

/-- The values of sources at element `e`. -/
def valsOf (h : Hart) (e : Nat) (ss : List VSrc) : List Val := ss.map (·.val h e)

end Sys2Proof.Machine
end

