-- ==== Sys2Proof/Machine/Scalar.lean ====
section
/-! DEFINITION. Scalar operations of majors 0x01 and 0x02 (09_access_instructions, R174-R177). -/

namespace Sys2Proof.Machine

/-- D := f(a, b). -/
def frOp (f : Word → Word → Word) (o : FR) : State → Host.Outcome State Fault Refusal :=
  ap do wrA o.d (f (← rdA o.a) (← rdA o.b))

/-- A division: b = 0 raises INT_DIV0 (R175). -/
def frDiv (f : Word → Word → Word) (o : FR) : State → Host.Outcome State Fault Refusal :=
  ap do
    let b ← rdA o.b
    raiseIf (b == 0) .intDiv0 0
    wrA o.d (f (← rdA o.a) b)

/-- 1 or 0. -/
def ofBool (b : Bool) : Word := if b then 1 else 0

/-- Number of leading zeros, 64 for 0 (Table 9.2). -/
def leadingZeros (w : Word) : Nat := 64 - bitLength w.toNat

/-- Number of trailing zeros from bit `64 − k` upwards. -/
def trailingZerosFrom (w : Word) : Nat → Nat
  | 0 => 64
  | k + 1 => if w.getLsbD (63 - k) then 63 - k else trailingZerosFrom w k

/-- Number of trailing zeros, 64 for 0 (Table 9.2). -/
def trailingZeros (w : Word) : Nat := trailingZerosFrom w 64

/-- Number of ones among the low `k` bits. -/
def onesBelow (n : Nat) : Nat → Nat
  | 0 => 0
  | k + 1 => (n / 2 ^ k) % 2 + onesBelow n k

/-- Signed quotient rounded toward zero; −2^63 ÷ −1 gives −2^63 (R175). -/
def signedDiv (a b : Word) : Word := BitVec.ofInt 64 (a.toInt.tdiv b.toInt)
/-- a − b × (a ÷ b), signed (R175). -/
def signedRem (a b : Word) : Word := BitVec.ofInt 64 (a.toInt.tmod b.toInt)

def execAdd (o : FR) (s : State) : Host.Outcome State Fault Refusal := frOp (· + ·) o s
def execSub (o : FR) (s : State) : Host.Outcome State Fault Refusal := frOp (· - ·) o s
def execMul (o : FR) (s : State) : Host.Outcome State Fault Refusal := frOp (· * ·) o s
def execMulh (o : FR) (s : State) : Host.Outcome State Fault Refusal :=
  frOp (fun a b => BitVec.ofInt 64 (a.toInt * b.toInt / 2 ^ 64)) o s
def execMulhu (o : FR) (s : State) : Host.Outcome State Fault Refusal :=
  frOp (fun a b => BitVec.ofNat 64 (a.toNat * b.toNat / 2 ^ 64)) o s
def execDiv (o : FR) (s : State) : Host.Outcome State Fault Refusal := frDiv signedDiv o s
def execDivu (o : FR) (s : State) : Host.Outcome State Fault Refusal := frDiv (fun a b => a / b) o s
def execRem (o : FR) (s : State) : Host.Outcome State Fault Refusal := frDiv signedRem o s
def execRemu (o : FR) (s : State) : Host.Outcome State Fault Refusal := frDiv (fun a b => a % b) o s
def execAnd (o : FR) (s : State) : Host.Outcome State Fault Refusal := frOp (· &&& ·) o s
def execOr (o : FR) (s : State) : Host.Outcome State Fault Refusal := frOp (· ||| ·) o s
def execXor (o : FR) (s : State) : Host.Outcome State Fault Refusal := frOp (· ^^^ ·) o s
def execAndn (o : FR) (s : State) : Host.Outcome State Fault Refusal := frOp (fun a b => a &&& ~~~b) o s
/-- The shift count is b[5:0] (R174). -/
def execSll (o : FR) (s : State) : Host.Outcome State Fault Refusal := frOp (fun a b => a <<< (b.toNat % 64)) o s
def execSrl (o : FR) (s : State) : Host.Outcome State Fault Refusal := frOp (fun a b => a >>> (b.toNat % 64)) o s
def execSra (o : FR) (s : State) : Host.Outcome State Fault Refusal := frOp (fun a b => a.sshiftRight (b.toNat % 64)) o s
def execSlt (o : FR) (s : State) : Host.Outcome State Fault Refusal := frOp (fun a b => ofBool (a.slt b)) o s
def execSltu (o : FR) (s : State) : Host.Outcome State Fault Refusal := frOp (fun a b => ofBool (a.ult b)) o s
def execMin (o : FR) (s : State) : Host.Outcome State Fault Refusal := frOp (fun a b => if b.slt a then b else a) o s
def execMax (o : FR) (s : State) : Host.Outcome State Fault Refusal := frOp (fun a b => if a.slt b then b else a) o s
def execMinu (o : FR) (s : State) : Host.Outcome State Fault Refusal := frOp (fun a b => if b.ult a then b else a) o s
def execMaxu (o : FR) (s : State) : Host.Outcome State Fault Refusal := frOp (fun a b => if a.ult b then b else a) o s
def execCmov (o : FR) (s : State) : Host.Outcome State Fault Refusal :=
  ap (do
    let a ← rdA o.a
    let b ← rdA o.b
    let c ← rdA o.c
    wrA o.d (if c != 0 then a else b)) s
def execClz (o : FR) (s : State) : Host.Outcome State Fault Refusal :=
  frOp (fun a _ => BitVec.ofNat 64 (leadingZeros a)) o s
def execCtz (o : FR) (s : State) : Host.Outcome State Fault Refusal :=
  frOp (fun a _ => BitVec.ofNat 64 (trailingZeros a)) o s
def execPopc (o : FR) (s : State) : Host.Outcome State Fault Refusal :=
  frOp (fun a _ => BitVec.ofNat 64 (onesBelow a.toNat 64)) o s

/-- pos and len of `bext` and `bins` (R176). -/
def bitPos (o : FR) : Nat := (o.imm.extractLsb' 0 6).toNat
def bitLen (o : FR) : Nat := (o.imm.extractLsb' 6 7).toNat

/-- Bits [pos+len−1 : pos] of a, zero-extended, or sign-extended when IMM[13] = 1. -/
def bitExtract (o : FR) (a : Word) : Word :=
  let x := a.toNat >>> bitPos o % 2 ^ bitLen o
  if o.imm.getLsbD 13 && 2 ^ (bitLen o - 1) ≤ x then BitVec.ofInt 64 ((x : Int) - 2 ^ bitLen o) else BitVec.ofNat 64 x

/-- d with bits [pos+len−1 : pos] replaced by the low bits of a. -/
def bitInsert (o : FR) (d a : Word) : Word :=
  let m : Word := BitVec.ofNat 64 (2 ^ bitLen o - 1)
  (d &&& ~~~(m <<< bitPos o)) ||| ((a &&& m) <<< bitPos o)

def execBext (o : FR) (s : State) : Host.Outcome State Fault Refusal := frOp (fun a _ => bitExtract o a) o s
def execBins (o : FR) (s : State) : Host.Outcome State Fault Refusal :=
  ap (do wrA o.d (bitInsert o (← rdA o.d) (← rdA o.a))) s

/-! ### Major 0x02 (Table 9.4) -/

/-- simm: the 36-bit IMM sign-extended (R177). -/
def simm (o : FI) : Word := o.imm.signExtend 64

/-- D := f(a, imm). -/
def fiOp (f : Word → FI → Word) (o : FI) : State → Host.Outcome State Fault Refusal :=
  ap do wrA o.d (f (← rdA o.a) o)

/-- The shift count IMM[5:0]. -/
def shamt (o : FI) : Nat := (o.imm.extractLsb' 0 6).toNat

def execAddi (o : FI) (s : State) : Host.Outcome State Fault Refusal := fiOp (fun a o => a + simm o) o s
def execAndi (o : FI) (s : State) : Host.Outcome State Fault Refusal := fiOp (fun a o => a &&& simm o) o s
def execOri (o : FI) (s : State) : Host.Outcome State Fault Refusal := fiOp (fun a o => a ||| simm o) o s
def execXori (o : FI) (s : State) : Host.Outcome State Fault Refusal := fiOp (fun a o => a ^^^ simm o) o s
def execSlli (o : FI) (s : State) : Host.Outcome State Fault Refusal := fiOp (fun a o => a <<< shamt o) o s
def execSrli (o : FI) (s : State) : Host.Outcome State Fault Refusal := fiOp (fun a o => a >>> shamt o) o s
def execSrai (o : FI) (s : State) : Host.Outcome State Fault Refusal := fiOp (fun a o => a.sshiftRight (shamt o)) o s
def execSlti (o : FI) (s : State) : Host.Outcome State Fault Refusal := fiOp (fun a o => ofBool (a.slt (simm o))) o s
def execSltiu (o : FI) (s : State) : Host.Outcome State Fault Refusal := fiOp (fun a o => ofBool (a.ult (simm o))) o s
def execLdi (o : FI) (s : State) : Host.Outcome State Fault Refusal := fiOp (fun _ o => simm o) o s
def execLdhi (o : FI) (s : State) : Host.Outcome State Fault Refusal :=
  fiOp (fun a o => (a &&& 0x0FFFFFFF) ||| (o.imm.setWidth 64 <<< 28)) o s
/-- pc is the address of the instruction itself. -/
def execAdpc (o : FI) (s : State) : Host.Outcome State Fault Refusal :=
  ap (do wrA o.d ((← myHart).pc + simm o)) s

end Sys2Proof.Machine
end

