-- ==== Sys2Proof/Machine/VectorArith.lean ====
section
/-! DEFINITION. Elementwise vector arithmetic of major 0x18 (10_vector R202-R207; 03 R63-R65). -/

namespace Sys2Proof.Machine

/-- The sources of a two-source word. -/
def twoSrc (o : F3) : List VSrc := [srcOf o.a o.qa, srcOf o.b o.qb]
/-- The source of a one-source word. -/
def oneSrc (o : F3) : List VSrc := [srcOf o.a o.qa]

/-- An exact operation of one value. -/
def op1 (f : Exact → Exact × Flags) (d : Nat) (ss : List VSrc) (h : Hart) (e : Nat) : ElemResult :=
  match valsOf h e ss with
  | [a] => valueResult d [a] (f a.x) h
  | vs => valueResult d vs (.nan false, 0) h

/-- An exact operation of two values under the rounding mode. -/
def op2 (f : RMode → Exact → Exact → Exact × Flags) (d : Nat) (ss : List VSrc) (h : Hart) (e : Nat) : ElemResult :=
  match valsOf h e ss with
  | [a, b] => valueResult d [a, b] (f h.rm a.x b.x) h
  | vs => valueResult d vs (.nan false, 0) h

/-- An exact operation of a, b and the old d. -/
def op3 (f : RMode → Exact → Exact → Exact → Exact × Flags) (d : Nat) (ss : List VSrc) (h : Hart) (e : Nat) : ElemResult :=
  match valsOf h e (ss ++ [.reg d]) with
  | [a, b, c] => valueResult d [a, b, c] (f h.rm a.x b.x c.x) h
  | vs => valueResult d vs (.nan false, 0) h

/-- A bitwise operation of patterns of A's width, written without rounding (R206). -/
def opBits (f : Nat → Nat → Nat → Nat) (ss : List VSrc) (h : Hart) (e : Nat) : ElemResult :=
  match ss with
  | [a] => let w := tagWidth (a.tag h); .ok (f w (a.elem h e) 0 % 2 ^ w, 0)
  | [a, b] => let w := tagWidth (a.tag h); .ok (f w (a.elem h e) (b.elem h e) % 2 ^ w, 0)
  | _ => .ok (0, 0)

/-- A count of a pattern's bits, converted into d (R206). -/
def opCount (f : Nat → Nat → Nat) (d : Nat) (ss : List VSrc) (h : Hart) (e : Nat) : ElemResult :=
  match ss with
  | a :: _ => intoReg h d ⟨Exact.ofInt (f (tagWidth (a.tag h)) (a.elem h e) : Nat), false⟩ 0
  | [] => .ok (0, 0)

/-! ### Exact operations (Table 10.2) -/

/-- a + b. -/
def addOp (rm : RMode) (a b : Exact) : Exact × Flags := addE rm a b
/-- a − b. -/
def subOp (rm : RMode) (a b : Exact) : Exact × Flags := addE rm a b.negate
/-- a × b. -/
def mulOp (_ : RMode) (a b : Exact) : Exact × Flags := mulE a b
/-- The lesser or the greater (R203). -/
def minOp (_ : RMode) (a b : Exact) : Exact × Flags := minMaxE false a b
def maxOp (_ : RMode) (a b : Exact) : Exact × Flags := minMaxE true a b
/-- A value as it is: a conversion (R48, R53). -/
def sameOp (a : Exact) : Exact × Flags := (a, a.snan)
/-- |a| and −a (R203). -/
def absOp (a : Exact) : Exact × Flags := (a.abs, a.snan)
def negOp (a : Exact) : Exact × Flags := (a.negate, a.snan)
/-- a × b + d, a × b − d, d − a × b. -/
def fmaOp (rm : RMode) (a b d : Exact) : Exact × Flags := fmaE rm a b d
def fmsOp (rm : RMode) (a b d : Exact) : Exact × Flags := fmaE rm a b d.negate
def fnmaOp (rm : RMode) (a b d : Exact) : Exact × Flags := fmaE rm a.negate b d

/-- Division and remainder (R204): integer division where both sources have integer tags. -/
def divOp (rem : Bool) (d : Nat) (ss : List VSrc) (h : Hart) (e : Nat) : ElemResult :=
  match ss with
  | [sa, sb] =>
    let a := sa.val h e
    let b := sb.val h e
    if tagIsInt (sa.tag h) && tagIsInt (sb.tag h) then
      let x := truncE a.x
      let y := truncE b.x
      if y = 0 then .error (.intDiv0, BitVec.ofNat 64 e)
      else valueResult d [a, b] (Exact.ofInt (if rem then x.tmod y else x.tdiv y), 0) h
    else valueResult d [a, b] (if rem then remE a.x b.x else divE a.x b.x) h
  | _ => .ok (0, 0)

/-- ⌊a × b / 2^w⌋ (Table 10.2). -/
def mulhOp (d : Nat) (ss : List VSrc) (h : Hart) (e : Nat) : ElemResult :=
  match ss with
  | [sa, sb] =>
    let p := truncE (sa.val h e).x * truncE (sb.val h e).x
    intoReg h d ⟨Exact.ofInt (p / (2 ^ tagWidth (sa.tag h) : Nat)), false⟩ 0
  | _ => .ok (0, 0)

/-- `vexp2` and `vlog2`: the reference result, rounded once, with NX where the algorithm says so (R64, R65). (DEDUCED, log 79.) -/
def expLogOp (f : Exact → Exact × Flags × Bool) (d : Nat) (ss : List VSrc) (h : Hart) (e : Nat) : ElemResult :=
  match valsOf h e ss with
  | [a] =>
    let (x, fl, nx) := f a.x
    match intoReg h d ⟨x, true⟩ fl with
    | .ok (p, g) => .ok (p, if nx then g ||| flagNX else g)
    | r => r
  | _ => .ok (0, 0)

/-! ### Bit operations (R206) -/

/-- A pattern shifted right with copies of its top bit. -/
def sraBits (w a c : Nat) : Nat := ((signedOf w a) / (2 ^ c : Nat) % (2 ^ w : Nat)).toNat
/-- The shift count of an unsigned element. -/
def sllOp (w a b : Nat) : Nat := a <<< (b % w)
def srlOp (w a b : Nat) : Nat := a >>> (b % w)
def sraOp (w a b : Nat) : Nat := sraBits w a (b % w)
def andOp (_ a b : Nat) : Nat := a &&& b
def orOp (_ a b : Nat) : Nat := a ||| b
def xorOp (_ a b : Nat) : Nat := a ^^^ b
def andnOp (w a b : Nat) : Nat := a &&& (2 ^ w - 1 - b % 2 ^ w)
def notOp (w a _b : Nat) : Nat := 2 ^ w - 1 - a % 2 ^ w
def movOp (_ a _b : Nat) : Nat := a
def clzOp (w a : Nat) : Nat := w - bitLength a
def popcOp (w a : Nat) : Nat := onesBelow a w

/-! ### The instructions -/

/-- A word of two sources. -/
def ew2 (c : OpClass) (o : F3) (res : Nat → List VSrc → Hart → Nat → ElemResult) : State → Host.Outcome State Fault Refusal :=
  ep (elementwise c o.d o.msk o.mu (twoSrc o) [] (res o.d.toNat (twoSrc o)))

/-- A word of one source. -/
def ew1 (c : OpClass) (o : F3) (res : Nat → List VSrc → Hart → Nat → ElemResult) : State → Host.Outcome State Fault Refusal :=
  ep (elementwise c o.d o.msk o.mu (oneSrc o) [] (res o.d.toNat (oneSrc o)))

/-- A multiply-add, which reads d too. -/
def ewFma (o : F3) (f : RMode → Exact → Exact → Exact → Exact × Flags) : State → Host.Outcome State Fault Refusal :=
  ep (elementwise .n o.d o.msk o.mu (twoSrc o) [.reg o.d.toNat] (op3 f o.d.toNat (twoSrc o)))

def execVadd (o : F3) (s : State) : Host.Outcome State Fault Refusal := ew2 .n o (op2 addOp) s
def execVsub (o : F3) (s : State) : Host.Outcome State Fault Refusal := ew2 .n o (op2 subOp) s
def execVmul (o : F3) (s : State) : Host.Outcome State Fault Refusal := ew2 .n o (op2 mulOp) s
def execVmulh (o : F3) (s : State) : Host.Outcome State Fault Refusal := ew2 .h o mulhOp s
def execVfma (o : F3) (s : State) : Host.Outcome State Fault Refusal := ewFma o fmaOp s
def execVfms (o : F3) (s : State) : Host.Outcome State Fault Refusal := ewFma o fmsOp s
def execVfnma (o : F3) (s : State) : Host.Outcome State Fault Refusal := ewFma o fnmaOp s
def execVdiv (o : F3) (s : State) : Host.Outcome State Fault Refusal := ew2 .n o (divOp false) s
def execVrem (o : F3) (s : State) : Host.Outcome State Fault Refusal := ew2 .n o (divOp true) s
def execVsqrt (o : F3) (s : State) : Host.Outcome State Fault Refusal := ew1 .f o (op1 sqrtE) s
def execVrcp (o : F3) (s : State) : Host.Outcome State Fault Refusal := ew1 .f o (op1 rcpE) s
def execVrsqrt (o : F3) (s : State) : Host.Outcome State Fault Refusal := ew1 .f o (op1 rsqrtE) s
def execVmin (o : F3) (s : State) : Host.Outcome State Fault Refusal := ew2 .n o (op2 minOp) s
def execVmax (o : F3) (s : State) : Host.Outcome State Fault Refusal := ew2 .n o (op2 maxOp) s
def execVabs (o : F3) (s : State) : Host.Outcome State Fault Refusal := ew1 .n o (op1 absOp) s
def execVneg (o : F3) (s : State) : Host.Outcome State Fault Refusal := ew1 .n o (op1 negOp) s
def execVand (o : F3) (s : State) : Host.Outcome State Fault Refusal := ew2 .w o (fun _ => opBits andOp) s
def execVor (o : F3) (s : State) : Host.Outcome State Fault Refusal := ew2 .w o (fun _ => opBits orOp) s
def execVxor (o : F3) (s : State) : Host.Outcome State Fault Refusal := ew2 .w o (fun _ => opBits xorOp) s
def execVandn (o : F3) (s : State) : Host.Outcome State Fault Refusal := ew2 .w o (fun _ => opBits andnOp) s
def execVnot (o : F3) (s : State) : Host.Outcome State Fault Refusal := ew1 .w o (fun _ => opBits notOp) s
def execVsll (o : F3) (s : State) : Host.Outcome State Fault Refusal := ew2 .s o (fun _ => opBits sllOp) s
def execVsrl (o : F3) (s : State) : Host.Outcome State Fault Refusal := ew2 .s o (fun _ => opBits srlOp) s
def execVsra (o : F3) (s : State) : Host.Outcome State Fault Refusal := ew2 .s o (fun _ => opBits sraOp) s
def execVclz (o : F3) (s : State) : Host.Outcome State Fault Refusal := ew1 .i o (opCount clzOp) s
def execVpopc (o : F3) (s : State) : Host.Outcome State Fault Refusal := ew1 .i o (opCount popcOp) s
def execVcvt (o : F3) (s : State) : Host.Outcome State Fault Refusal := ew1 .n o (op1 sameOp) s
def execVmov (o : F3) (s : State) : Host.Outcome State Fault Refusal := ew1 .w o (fun _ => opBits movOp) s
/-- (DEDUCED, log 24.) -/
def execVexp2 (o : F3) (s : State) : Host.Outcome State Fault Refusal := ew1 .e o (expLogOp exp2E) s
/-- (DEDUCED, log 24.) -/
def execVlog2 (o : F3) (s : State) : Host.Outcome State Fault Refusal := ew1 .e o (expLogOp log2E) s

/-- `vsel`: MK selects the source of every element, and only the selected source is read (R207, R199). (DEDUCED, log 18.) -/
def execVsel (o : F3) (s : State) : Host.Outcome State Fault Refusal :=
  ep (vectorOp (twoSrc o) (fun h => OpClass.n.faults h o.d.toNat (twoSrc o)) fun h =>
    let pick := fun e => if (h.maskOf o.msk).getLsbD e then [srcOf o.a o.qa] else [srcOf o.b o.qb]
    regLoop o.d.toNat (BitVec.allOnes 128) false
      (fun h e => withSources (pick e) (op1 sameOp o.d.toNat (pick e)) h e) h) s

end Sys2Proof.Machine
end

