-- ==== Sys2Proof/Machine/VectorMask.lean ====
section
/-! DEFINITION. Compare, classify and mask instructions of majors 0x19 and 0x1A (10_vector R208-R211). -/

namespace Sys2Proof.Machine

/-- An elementwise instruction into mask register `d`. -/
def maskLoop (d : BitVec 8) (mk : BitVec 4) (mu : Bool) (ss : List VSrc) (res : Hart → Nat → ElemResult) : M Unit :=
  vectorOp ss (fun h => pairFaults h none ss) fun h =>
    elemLoop (BitVec.allOnes 128) (h.maskOf mk) mu h.start h.vlen (withSources ss res) (writeMask (d.toNat % 16))

/-- The condition of X[2:0] between two values, with the flags of a NaN source (Table 10.4). -/
def compareVals (cc : Nat) (a b : Exact) : Bool × Flags :=
  let q := a.snan ||| b.snan
  let un := a.isNaN || b.isNaN
  let c := cmpE a b
  let anyNaN : Flags := if un then flagNV else 0
  match cc with
  | 0 => (!un && c == 0, q)
  | 1 => (un || c != 0, q)
  | 2 => (!un && c < 0, anyNaN)
  | 3 => (!un && c ≤ 0, anyNaN)
  | 4 => (!un && c > 0, anyNaN)
  | 5 => (!un && c ≥ 0, anyNaN)
  | 6 => (un, q)
  | _ => (!un, q)

/-- `vcmp` (R208). -/
def execVcmp (o : F3) (s : State) : Host.Outcome State Fault Refusal :=
  ep (maskLoop o.d o.msk o.mu (twoSrc o) fun h e =>
    match valsOf h e (twoSrc o) with
    | [a, b] =>
      let (r, f) := compareVals (o.x.extractLsb' 0 3).toNat a.x b.x
      .ok (r.toNat, f)
    | _ => .ok (0, 0)) s

/-- The class bit of an element pattern of tag `t` (Table 10.5). (DESIGN CHOICE, log 81.) -/
def classBit (t : BitVec 5) (bits : Nat) : Nat :=
  match (readAs t bits).x with
  | .inf n => if n then 0 else 7
  | .nan s => if s then 8 else 9
  | .fin n m _ _ =>
    if m = 0 then (if n then 3 else 4)
    else
      let sub := tagIsFloat t && m < 2 ^ (fmtOf t).fbits
      match n, sub with
      | true, false => 1
      | true, true => 2
      | false, true => 5
      | false, false => 6

/-- `vclass`: the destination is an integer tag of 16 bits or wider (R209). -/
def execVclass (o : F3) (s : State) : Host.Outcome State Fault Refusal :=
  let ss := oneSrc o
  let d := o.d.toNat
  ep (vectorOp ss
    (fun h =>
      let t := (h.vreg (h.rot d)).tag
      (h.isPairHigh (h.rot d) || !tagIsInt t || tagWidth t < 16, BitVec.ofNat 64 d) :: ss.map fun x => (x.pairHigh h, x.tagTval))
    fun h => regLoop d (h.maskOf o.msk) o.mu (withSources ss fun h e =>
      match ss with
      | a :: _ => .ok (2 ^ classBit (a.tag h) (a.elem h e), 0)
      | [] => .ok (0, 0)) h) s

/-! ### Mask logic (R210) -/

/-- A mask with the low `n` bits set. -/
def lowMask (n : Nat) : Mask := BitVec.ofNat 128 (2 ^ n - 1)

/-- A mask instruction performed whole over the bits below vl. (DEDUCED, log 22.) -/
def maskWhole (d : BitVec 8) (f : Hart → Mask) : M Unit := do
  epRoom
  modifyHart fun h =>
    let i := d.toNat % 16
    let lo := lowMask h.vlen
    h.setM i ((h.mReg i &&& ~~~lo) ||| (f h &&& lo))
  epSent
  advance

/-- A mask that an 8-bit field names. -/
def Hart.maskField (h : Hart) (f : BitVec 8) : Mask := h.mReg (f.toNat % 16)

def execMand (o : F3) (s : State) : Host.Outcome State Fault Refusal :=
  ep (maskWhole o.d fun h => h.maskField o.a &&& h.maskField o.b) s
def execMor (o : F3) (s : State) : Host.Outcome State Fault Refusal :=
  ep (maskWhole o.d fun h => h.maskField o.a ||| h.maskField o.b) s
def execMxor (o : F3) (s : State) : Host.Outcome State Fault Refusal :=
  ep (maskWhole o.d fun h => h.maskField o.a ^^^ h.maskField o.b) s
def execMandn (o : F3) (s : State) : Host.Outcome State Fault Refusal :=
  ep (maskWhole o.d fun h => h.maskField o.a &&& ~~~h.maskField o.b) s
def execMnot (o : F3) (s : State) : Host.Outcome State Fault Refusal :=
  ep (maskWhole o.d fun h => ~~~h.maskField o.a) s
/-- `mset` (R211): nothing is written where `sr.vstart` is at or above vl (R195, R367). (DEDUCED, log 22.) -/
def execMset (o : F3) (s : State) : Host.Outcome State Fault Refusal :=
  ep (maskWhole o.d fun h => if h.start < h.vlen then lowMask (o.x.extractLsb' 0 8).toNat else h.maskField o.d) s

/-! ### Counts and tests (R211) -/

/-- Elements below vl active in mask field `a` and in MK. -/
def Hart.bothActive (h : Hart) (a : BitVec 8) (mk : BitVec 4) : List Nat :=
  (List.range h.vlen).filter fun e => (h.maskField a).getLsbD e && (h.maskOf mk).getLsbD e

/-- A number computed from masks and written to every element that the loop writes. -/
def maskCount (o : F3) (f : List Nat → Int) : State → Host.Outcome State Fault Refusal :=
  ep (elementwise .n o.d o.msk o.mu [] [] fun h _ =>
    intoReg h o.d.toNat ⟨Exact.ofInt (f (h.bothActive o.a o.msk)), false⟩ 0)

def execMpopc (o : F3) (s : State) : Host.Outcome State Fault Refusal := maskCount o (fun es => es.length) s
def execMfirst (o : F3) (s : State) : Host.Outcome State Fault Refusal :=
  maskCount o (fun es => match es with
    | e :: _ => e
    | [] => -1) s

/-- `vmsk`: a NaN counts as non-zero, ±0.0 as zero. -/
def execVmsk (o : F3) (s : State) : Host.Outcome State Fault Refusal :=
  ep (maskLoop o.d o.msk o.mu (oneSrc o) fun h e =>
    match valsOf h e (oneSrc o) with
    | [a] => .ok ((!a.x.isZero).toNat, 0)
    | _ => .ok (0, 0)) s

end Sys2Proof.Machine
end

