-- ==== Sys2Proof/Machine/VectorReduce.lean ====
section
/-! DEFINITION. Reductions, scans and dot products of major 0x1B (10_vector R212-R216; 03 R58, R61, R62). -/

namespace Sys2Proof.Machine

/-! ### Nodes (R61) -/

/-- The pattern in the node format of an element of tag `t`: exact, and a signalling NaN stays signalling. -/
def leafPattern (t : BitVec 5) (bits : Nat) : Nat :=
  let nt := nodeTag t
  if nt = t then bits
  else match (readAs t bits).x with
    | .nan true => (fmtOf nt).infPattern + 1
    | x => (toFloat (fmtOf nt) false .rne x).1

/-- The value of a node pattern, as a result from sources of tag `t` (R405). -/
def nodeVal (t : BitVec 5) (p : Nat) : Val := ⟨(readAs (nodeTag t) p).x, (readAs t 0).isFloat⟩

/-- Class N for add, min and max, class I for the bitwise operations (R212). -/
def redClass (op : RedOp) : OpClass := match op with
  | .and | .or | .xor => .i
  | _ => .n

/-- The source, its tag and the operation of a reduction or scan. -/
def redSrc (o : F3) : VSrc := srcOf o.a o.qa
def redOp (o : F3) : RedOp := RedOp.ofCode (o.x.extractLsb' 0 3).toNat

/-- The first active element below `hi` that carries poison. -/
def poisonIn (h : Hart) (s : VSrc) (mk : Mask) (lo hi : Nat) : Bool := (span lo hi).any fun e => mk.getLsbD e && s.poison h e

/-- The result of R61 over the active elements of a source below vl, in node format. -/
def treeOver (h : Hart) (op : RedOp) (a : VSrc) (mk : Mask) : Nat × Flags :=
  let t := a.tag h
  let nt := nodeTag t
  let leaves := (List.range 128).map fun p =>
    if p < h.vlen && mk.getLsbD p then leafPattern t (a.elem h p) else identityOf op nt
  treeReduce (nodeOp op nt h.rm) 7 leaves 0

/-- An instruction whose only result is element 0 of `d`, from the elements of `ss` that take part: the record, trap and flags
are those of element 0 (R199, R212). (DEDUCED, log 19.) -/
def intoZero (d : Nat) (active : Hart → List Nat) (res : Hart → ElemResult) (h : Hart) : M Unit := do
  match res h with
  | .error (.poisonConsumed, t) => throw (.trap .poisonConsumed t 0)
  | _ => tasteWhole (active h)
  performElem false false 0 (res h) (writeReg d 0)
  spoilQ4 d

/-- Elements below vl that MK makes active. -/
def Hart.masked (h : Hart) (mk : BitVec 4) : List Nat := (List.range h.vlen).filter (h.maskOf mk).getLsbD

/-- Poison in any active element of a source, reported at element 0 (R199). (DEDUCED, log 19.) -/
def wholePoison (h : Hart) (ss : List VSrc) (mk : Mask) : Option Word :=
  (ss.find? fun s => poisonIn h s mk 0 h.vlen).map (·.poisonTval 0)

/-- `vred` (R212). -/
def execVred (o : F3) (s : State) : Host.Outcome State Fault Refusal :=
  let a := redSrc o
  let d := o.d.toNat
  ep (crossOp d [a] (fun h => (redClass (redOp o)).faults h d [a]) fun h =>
    if h.start < h.vlen then
      intoZero d (·.masked o.msk) (fun h =>
        match wholePoison h [a] (h.maskOf o.msk) with
        | some t => .error (.poisonConsumed, t)
        | none =>
          let (p, fl) := treeOver h (redOp o) a (h.maskOf o.msk)
          intoReg h d (nodeVal (a.tag h) p) fl) h
    else pure ()) s

/-- The running value of a scan after element `e`, with the flags of the last step (R62). -/
def scanAt (h : Hart) (op : RedOp) (a : VSrc) (mk : Mask) (e : Nat) : Nat × Flags :=
  let t := a.tag h
  let nt := nodeTag t
  (List.range (e + 1)).foldl (fun r i => if mk.getLsbD i then nodeOp op nt h.rm r.1 (leafPattern t (a.elem h i)) else r)
    (identityOf op nt, 0)

/-- Result `e` of a scan: it reads every active element up to `e`, so poison in any of them is consumed at `e` (R199, R213).
(DEDUCED, log 19.) -/
def scanResult (h : Hart) (d : Nat) (op : RedOp) (a : VSrc) (mk : Mask) (e : Nat) : ElemResult :=
  if poisonIn h a mk 0 (e + 1) then .error (.poisonConsumed, a.poisonTval e)
  else
    let (p, fl) := scanAt h op a mk e
    intoReg h d (nodeVal (a.tag h) p) fl

/-- `vscan` (R213). -/
def execVscan (o : F3) (s : State) : Host.Outcome State Fault Refusal :=
  let a := redSrc o
  let d := o.d.toNat
  ep (crossOp d [a] (fun h => (redClass (redOp o)).faults h d [a]) fun h =>
    regLoop d (h.maskOf o.msk) o.mu (fun h e => scanResult h d (redOp o) a (h.maskOf o.msk) e) h) s

/-! ### Dot products (R58, R214, Table 3.7) -/

/-- The row of Table 3.7 of an input tag, as its accumulator tag, with f32 inputs apart from narrower ones; none for a tag that
no row holds. -/
def dotRow (t : BitVec 5) : Option (BitVec 5 × Bool) :=
  if tagIsQ4 t || (0x08 ≤ t.toNat && t.toNat ≤ 0x0B) then some (0x0C, false)
  else if t = 0x0C then some (0x0C, true)
  else if t = 0x0D then some (0x0D, false)
  else if t = 0 || t = 4 then some (6, false)
  else none

/-- Operands of a dot product that do not come from one row, in the order D, A, B. -/
def dotFaults (h : Hart) (d : Nat) (a b : VSrc) : List (Bool × Word) :=
  [(h.isPairHigh (h.rot d), BitVec.ofNat 64 d),
   (a.pairHigh h || (dotRow (a.tag h)).isNone, a.tagTval),
   (b.pairHigh h || dotRow (b.tag h) != dotRow (a.tag h), b.tagTval)]

/-- The accumulator of a result element, rounded into the accumulator format (R214). -/
def accOld (acc : BitVec 5) (rm : RMode) (v : Val) : Nat × Flags :=
  let (p, f) := convert acc false rm v
  (p, f ||| v.x.snan)

/-- R58 over a list of products from an accumulator pattern: the new accumulator and its flags. -/
def twoChainFrom (acc : BitVec 5) (rm : RMode) (old : Nat) (ps : List (Option (Exact × Exact))) : Exact × Flags :=
  if tagIsFloat acc then dotFloat acc rm (decodeFloat (fmtOf acc) old) ps
  else
    let v := dotInt (signedOf 32 old) ps
    (Exact.ofInt (signedOf 32 (v % (2 ^ 32 : Nat)).toNat), 0)

/-- Result `j` of a dot product over elements `lo` to `hi − 1`. (DEDUCED, log 16; DEDUCED, log 19.) -/
def dotResult (h : Hart) (d : Nat) (a b : VSrc) (mk : Mask) (j lo hi : Nat) : ElemResult :=
  let used := fun k => k < h.vlen && mk.getLsbD k
  let ks := (span lo hi).filter used
  let dv : VSrc := .reg d
  match ks.find? fun k => a.poison h k || b.poison h k with
  | some k => .error (.poisonConsumed, if a.poison h k then a.poisonTval j else b.poisonTval j)
  | none =>
    if dv.poison h j then .error (.poisonConsumed, dv.poisonTval j)
    else
      let acc := ((dotRow (a.tag h)).getD (0x0C, false)).1
      let (old, f0) := accOld acc h.rm (dv.val h j)
      let ps := (span lo hi).map fun k => if used k then some ((a.val h k).x, (b.val h k).x) else none
      let (r, f1) := twoChainFrom acc h.rm old ps
      intoReg h d ⟨r, (readAs (a.tag h) 0).isFloat || (readAs (b.tag h) 0).isFloat || (dv.val h j).isFloat⟩ (f0 ||| f1)

/-- `vdot`: one group of 128 (R214). -/
def execVdot (o : F3) (s : State) : Host.Outcome State Fault Refusal :=
  let ss := twoSrc o
  let d := o.d.toNat
  ep (crossOp d ss (fun h => dotFaults h d (srcOf o.a o.qa) (srcOf o.b o.qb)) fun h =>
    if h.start < h.vlen then
      intoZero d (·.masked o.msk) (fun h => dotResult h d (srcOf o.a o.qa) (srcOf o.b o.qb) (h.maskOf o.msk) 0 0 128) h
    else pure ()) s

/-- Results of `vdotg` whose group of `g` elements has an active one below vl: those that the taster may choose (R383). -/
def Hart.groupsWithWork (h : Hart) (mk : BitVec 4) (g : Nat) : Mask :=
  (h.masked mk).foldl (fun m k => putMask m (k / g) true) 0

/-- `vdotg`: groups of G = 2^X[2:0]; `sr.vstart` counts results (R214). -/
def execVdotg (o : F3) (s : State) : Host.Outcome State Fault Refusal :=
  let ss := twoSrc o
  let d := o.d.toNat
  let g := 2 ^ (o.x.extractLsb' 0 3).toNat
  ep (crossOp d ss (fun h => dotFaults h d (srcOf o.a o.qa) (srcOf o.b o.qb)) fun h =>
    if h.start < h.vlen then
      spoiling d h.start (ceilDiv h.vlen g) (fun _ => true)
        (elemLoop (h.groupsWithWork o.msk g) (BitVec.allOnes 128) false h.start (ceilDiv h.vlen g)
          (fun h j => dotResult h d (srcOf o.a o.qa) (srcOf o.b o.qb) (h.maskOf o.msk) j (j * g) (j * g + g)) (writeReg d))
    else pure ()) s

/-! ### Block scales (R55, R56, R215, R216) -/

/-- Ea + Eb − 64 of a pair of scale bytes, none where either E is 63. -/
def scalePair (s : Nat) : Option Int :=
  let ea := s % 64
  let eb := s / 256 % 64
  if ea = 63 || eb = 63 then none else some ((ea : Int) + eb - 64)

/-- Tag rules of `vsac` and `vsacb`: vd a float, va f32 or f64, vb n16 (R215). -/
def scaleFaults (h : Hart) (d : Nat) (a b : VSrc) : List (Bool × Word) :=
  let t := (h.vreg (h.rot d)).tag
  [(h.isPairHigh (h.rot d) || !tagIsFloat t, BitVec.ofNat 64 d),
   (a.pairHigh h || !(a.tag h = 0x0C || a.tag h = 0x0D), a.tagTval),
   (b.pairHigh h || b.tag h ≠ 1, b.tagTval)]

/-- `vsac` (R215). -/
def execVsac (o : F3) (s : State) : Host.Outcome State Fault Refusal :=
  let a := srcOf o.a o.qa
  let b := srcOf o.b o.qb
  let d := o.d.toNat
  ep (vectorOp [a, b] (fun h => scaleFaults h d a b) fun h =>
    regLoop d (h.maskOf o.msk) o.mu (withSources [a, b, .reg d] fun h e =>
      match scalePair (b.elem h e) with
      | none => .ok ((fmtOf (h.vreg (h.rot d)).tag).canonicalNaN, 0)
      | some k =>
        valueResult d [a.val h e] (fmaE h.rm (a.val h e).x (.fin false 1 k false) (VSrc.val h e (.reg d)).x) h) h) s

/-- The result of `vsacb`: R58 with products Elem(va, k) × 2^(Ea+Eb−64) (R216). (DEDUCED, log 19.) -/
def sacbResult (h : Hart) (d : Nat) (a b : VSrc) (mk : Mask) : ElemResult :=
  let used := fun k => k < h.vlen && mk.getLsbD k
  let dv : VSrc := .reg d
  match ((List.range 128).filter used).find? fun k => a.poison h k || b.poison h k with
  | some k => .error (.poisonConsumed, if a.poison h k then a.poisonTval 0 else b.poisonTval 0)
  | none =>
    if dv.poison h 0 then .error (.poisonConsumed, dv.poisonTval 0)
    else
      let t := (h.vreg (h.rot d)).tag
      if ((List.range 128).filter used).any fun k => (scalePair (b.elem h k)).isNone then .ok ((fmtOf t).canonicalNaN, 0)
      else
        let acc : BitVec 5 := if t = 0x0D then 0x0D else 0x0C
        let (old, f0) := accOld acc h.rm (dv.val h 0)
        let ps := (List.range 128).map fun k =>
          if used k then some ((a.val h k).x, Exact.fin false 1 ((scalePair (b.elem h k)).getD 0) false) else none
        let (r, f1) := twoChainFrom acc h.rm old ps
        intoReg h d ⟨r, true⟩ (f0 ||| f1)

/-- `vsacb` (R216). -/
def execVsacb (o : F3) (s : State) : Host.Outcome State Fault Refusal :=
  let a := srcOf o.a o.qa
  let b := srcOf o.b o.qb
  let d := o.d.toNat
  ep (crossOp d [a, b] (fun h => scaleFaults h d a b) fun h =>
    if h.start < h.vlen then
      intoZero d (·.masked o.msk) (fun h => sacbResult h d a b (h.maskOf o.msk)) h
    else pure ()) s

end Sys2Proof.Machine
end

