-- ==== Sys2Proof/Machine/VectorPermute.lean ====
section
/-! DEFINITION. Permutes of major 0x1C and the q4 instructions of major 0x1D (10_vector R217-R220; 03 R48, R54, R55). -/

namespace Sys2Proof.Machine

/-- A whole element moved into `d`: a bit copy when the tags agree, else a conversion (R217, R48). The element is `i` of source
`a`, and poison in it belongs to result `k`; at or above vl it raises nothing (R199). (DEDUCED, log 18; DESIGN CHOICE, log 80.) -/
def moveElem (d : Nat) (h : Hart) (a : VSrc) (i k : Nat) : ElemResult :=
  if i < h.vlen && a.poison h i then .error (.poisonConsumed, a.poisonTval k)
  else if a.tag h = (h.vreg (h.rot d)).tag then .ok (a.elem h i, 0)
  else
    let v := a.val h i
    intoReg h d v v.x.snan

/-- A permute whose result `e` is an element of a source, or 0. (DESIGN CHOICE, log 80.) -/
def permute (o : F3) (ss : List VSrc) (faults : Hart → List (Bool × Word)) (lo : Hart → Nat)
    (pick : Hart → Nat → Except Word (Option (VSrc × Nat))) : State → Host.Outcome State Fault Refusal :=
  let d := o.d.toNat
  ep (crossOp d ss faults fun h =>
    let first := max h.start (lo h)
    spoiling d first h.vlen (fun e => o.mu || (h.maskOf o.msk).getLsbD e)
      (elemLoop (BitVec.allOnes 128) (h.maskOf o.msk) o.mu first h.vlen (fun h e =>
        match pick h e with
        | .error t => .error (.poisonConsumed, t)
        | .ok (some (a, i)) => moveElem d h a i e
        | .ok none => .ok (0, 0)) (writeReg d)))

/-- Class N over D and sources. -/
def nFaults (o : F3) (ss : List VSrc) (h : Hart) : List (Bool × Word) := OpClass.n.faults h o.d.toNat ss

/-- The slide distance X[6:0]. -/
def slide (o : F3) : Nat := (o.x.extractLsb' 0 7).toNat

/-- `vslup`: elements below s are undisturbed whatever MU is. -/
def execVslup (o : F3) (s : State) : Host.Outcome State Fault Refusal :=
  permute o (oneSrc o) (nFaults o (oneSrc o)) (fun _ => slide o) (fun _ e => .ok (some (srcOf o.a o.qa, e - slide o))) s

def execVsldn (o : F3) (s : State) : Host.Outcome State Fault Refusal :=
  permute o (oneSrc o) (nFaults o (oneSrc o)) (fun _ => 0) (fun h e =>
    .ok (if e + slide o < h.vlen then some (srcOf o.a o.qa, e + slide o) else none)) s

/-- `vperm`: vb is of class I, and an index of 128 or more gives 0. -/
def execVperm (o : F3) (s : State) : Host.Outcome State Fault Refusal :=
  let a := srcOf o.a o.qa
  let b := srcOf o.b o.qb
  permute o [a, b]
    (fun h => [(h.isPairHigh (h.rot o.d.toNat), BitVec.ofNat 64 o.d.toNat), (a.pairHigh h, a.tagTval),
      (b.pairHigh h || !tagIsInt (b.tag h), b.tagTval)])
    (fun _ => 0) (fun h e =>
      if b.poison h e then .error (b.poisonTval e)
      else .ok (if b.elem h e < 128 then some (a, b.elem h e) else none)) s

def execVzip (o : F3) (s : State) : Host.Outcome State Fault Refusal :=
  permute o (twoSrc o) (nFaults o (twoSrc o)) (fun _ => 0) (fun _ e =>
    .ok (some (if e % 2 = 0 then srcOf o.a o.qa else srcOf o.b o.qb, e / 2))) s

def execVunzip (o : F3) (s : State) : Host.Outcome State Fault Refusal :=
  permute o (twoSrc o) (nFaults o (twoSrc o)) (fun _ => 0) (fun _ e =>
    let j := 2 * e + (o.x.getLsbD 0).toNat
    .ok (some (if j < 128 then (srcOf o.a o.qa, j) else (srcOf o.b o.qb, j - 128)))) s

def execVrev (o : F3) (s : State) : Host.Outcome State Fault Refusal :=
  permute o (oneSrc o) (nFaults o (oneSrc o)) (fun _ => 0) (fun h e => .ok (some (srcOf o.a o.qa, h.vlen - 1 - e))) s

/-- `vcompress`: MK selects the elements that move down; with MU the rest below vl becomes 0. -/
def execVcompress (o : F3) (s : State) : Host.Outcome State Fault Refusal :=
  let a := srcOf o.a o.qa
  let d := o.d.toNat
  ep (crossOp d [a] (nFaults o [a]) fun h => do
    let act := h.masked o.msk
    let moved := lowMask act.length
    spoiling d h.start h.vlen (fun e => o.mu || moved.getLsbD e)
      (elemLoop (BitVec.allOnes 128) moved o.mu h.start h.vlen (fun h e => moveElem d h a (act.getD e 0) e) (writeReg d))) s

/-- `vexpand`: the low elements spread to the active positions. -/
def execVexpand (o : F3) (s : State) : Host.Outcome State Fault Refusal :=
  let a := srcOf o.a o.qa
  let d := o.d.toNat
  ep (crossOp d [a] (nFaults o [a]) fun h =>
    regLoop d (h.maskOf o.msk) o.mu (fun h e =>
      moveElem d h a ((List.range e).filter (h.maskOf o.msk).getLsbD).length e) h) s

/-! ### q4 (R218-R220) -/

/-- `vpack4`: vd carries a q4 tag. -/
def execVpack4 (o : F3) (s : State) : Host.Outcome State Fault Refusal :=
  let a := srcOf o.a o.qa
  let d := o.d.toNat
  ep (vectorOp [a]
    (fun h => [(h.isPairHigh (h.rot d) || !tagIsQ4 (h.vreg (h.rot d)).tag, BitVec.ofNat 64 d), (a.pairHigh h, a.tagTval)])
    fun h => regLoop d (h.maskOf o.msk) o.mu (withSources [a] (op1 sameOp d [a])) h) s

/-- A result that the scale byte of element 0 of vb governs: E = 63 gives NaN and no flag (R219, R220). The byte is read again at
every element, so that a vd that is vb changes it for later ones, and poison in it raises at every active element, whatever MK
says of element 0. (DEDUCED, log 16; DESIGN CHOICE, log 71.) -/
def scaledResult (d : Nat) (a b : VSrc) (f : Hart → Nat → Nat → Exact × Flags) (h : Hart) (e : Nat) : ElemResult :=
  if a.poison h e then .error (.poisonConsumed, a.poisonTval e)
  else if b.poison h 0 then .error (.poisonConsumed, b.poisonTval e)
  else
    let s := b.elem h 0
    if s % 64 = 63 then
      match intoReg h d ⟨.nan false, true⟩ 0 with
      | .ok (p, _) => .ok (p, 0)
      | r => r
    else
      let (x, fl) := f h e s
      intoReg h d ⟨x, (a.val h e).isFloat⟩ fl

/-- `vunpk4`: va carries a q4 tag, vb is n8, vd is not q4 (R219). -/
def execVunpk4 (o : F3) (s : State) : Host.Outcome State Fault Refusal :=
  let a := srcOf o.a o.qa
  let b := srcOf o.b o.qb
  let d := o.d.toNat
  ep (vectorOp [a, b]
    (fun h => [(h.isPairHigh (h.rot d) || tagIsQ4 (h.vreg (h.rot d)).tag, BitVec.ofNat 64 d),
      (a.pairHigh h || !tagIsQ4 (a.tag h), a.tagTval), (b.pairHigh h || b.tag h ≠ 0, b.tagTval)])
    fun h => regLoop d (h.maskOf o.msk) o.mu (scaledResult d a b fun h e s =>
      ((decodeQ4 (s / 64 % 4) (a.elem h e)).scale ((s % 64 : Nat) - 32), 0)) h) s

/-- `vbscale`: vb is n8 (R220). -/
def execVbscale (o : F3) (s : State) : Host.Outcome State Fault Refusal :=
  let a := srcOf o.a o.qa
  let b := srcOf o.b o.qb
  let d := o.d.toNat
  ep (vectorOp [a, b]
    (fun h => [(h.isPairHigh (h.rot d), BitVec.ofNat 64 d), (a.pairHigh h, a.tagTval), (b.pairHigh h || b.tag h ≠ 0, b.tagTval)])
    fun h => regLoop d (h.maskOf o.msk) o.mu (scaledResult d a b fun h e s =>
      let x := (a.val h e).x
      (x.scale (32 - (s % 64 : Nat)), x.snan)) h) s

end Sys2Proof.Machine
end

