-- ==== Sys2Proof/Machine/VectorConfig.lean ====
section
/-! DEFINITION. Configuration and moves of major 0x1E (10_vector R221-R226; 02 R31, R35, R36). -/

namespace Sys2Proof.Machine

/-! ### Tags (R30, R31, R221, R222) -/

/-- The width of the elements that architectural register `p` itself holds: 32 for each register of a 64-bit pair (R131). -/
def Hart.ownWidth (h : Hart) (p : Nat) : Nat :=
  if tagWidth (h.vreg p).tag = 64 || h.isPairHigh p then 32 else tagWidth (h.vreg p).tag

/-- A dirty register whose element width changed keeps every byte at the next save (R221). (DEDUCED, log 21.) -/
def Hart.keepWidth (h : Hart) (p before : Nat) : Hart :=
  let r := h.vreg p
  if r.dirty && h.ownWidth p ≠ before then h.setV p { r with hw := 127 } else h

/-- Architectural register `p` takes a tag and a saturation bit. A register that held a 64-bit tag and takes a narrower one
releases its partner, whose tag becomes n32 and whose contents become `x` (R31). (DEDUCED, log 21.) -/
def Hart.setTag (h : Hart) (p : Nat) (tag : BitVec 5) (sat : Bool) (x : VData) : Hart :=
  let w0 := h.ownWidth p
  let w1 := h.ownWidth (p + 1)
  let old := h.vreg p
  let h := h.setV p { old with tag := tag, sat := sat }
  let h := if tagWidth old.tag = 64 && tagWidth tag ≠ 64 then
      h.setV (p + 1) { h.vreg (p + 1) with tag := 2, sat := false, data := x, poison := 0 }
    else h
  let h := h.keepWidth p w0
  if tagWidth tag = 64 then h.keepWidth (p + 1) w1 else h

/-- The architectural registers of names, lowest first, so that a pair is released before its partner is named. -/
def Hart.archOf (h : Hart) (names : List Nat) : List Nat :=
  let ps := names.map h.rot
  (List.range 256).filter ps.contains

/-- The first name of a `vcfg` or `vtag` that R31 refuses: an odd register for a 64-bit tag, or the partner of a pair that the
instruction leaves standing (R221). -/
def Hart.badTagName (h : Hart) (names : List Nat) (tag : BitVec 5) : Option Nat :=
  let ps := names.map h.rot
  names.find? fun v =>
    let p := h.rot v
    p % 2 == 1 && (tagWidth tag == 64 || (!ps.contains (p - 1) && tagWidth (h.vreg (p - 1)).tag == 64))

/-- Give registers a tag. (DEDUCED, log 21.) -/
def setTags (names : List Nat) (tag : BitVec 5) (sat : Bool) : M Unit := do
  let h ← myHart
  match h.badTagName names tag with
  | some v => raise .tagMismatch (BitVec.ofNat 64 v)
  | none =>
    forEach (h.archOf names) fun p => do
      let x ← freshReg
      modifyHart (·.setTag p tag sat x)

/-- Names that a `vcfg` gives a tag: every second register for a 64-bit tag. -/
def cfgNames (o : F3) : List Nat :=
  let step := if tagWidth (o.x.extractLsb' 0 5) = 64 then 2 else 1
  (List.range ((o.x.extractLsb' 6 6).toNat + 1)).map fun i => o.d.toNat + step * i

/-- An EP instruction that acts whatever vl is. -/
def epWhole (m : M Unit) : State → Host.Outcome State Fault Refusal :=
  ep do
    epRoom
    m
    epSent
    advance

def execVcfg (o : F3) (s : State) : Host.Outcome State Fault Refusal :=
  epWhole (setTags (cfgNames o) (o.x.extractLsb' 0 5) (o.x.getLsbD 5)) s

/-- The a-register that an 8-bit field names. -/
def aField (f : BitVec 8) : BitVec 6 := f.extractLsb' 0 6

def execVtag (o : F3) (s : State) : Host.Outcome State Fault Refusal :=
  epWhole (do
    let v ← rdA (aField o.a)
    let tag := v.extractLsb' 0 5
    if tagListed tag then setTags [o.d.toNat] tag (v.getLsbD 5) else illegal (tag.setWidth 64)) s

/-! ### Length and rotation, executed by the AP at decode (R36, R223, R224) -/

/-- The grant of R36. -/
def grantOf (n : Word) (cap : BitVec 8) : Word := if n.toNat < cap.toNat then n else cap.setWidth 64

def execVsetl (o : F3) (s : State) : Host.Outcome State Fault Refusal :=
  ap (do
    let n ← rdA (aField o.a)
    let s ← get
    let g := grantOf n (s.die (dieOf s.cur)).vlcap
    modifyHart fun h => { h with vl := g }
    wrA (aField o.d) g) s

def execVlq (o : F3) (s : State) : Host.Outcome State Fault Refusal :=
  ap (do
    let n ← rdA (aField o.a)
    wrA (aField o.d) (n * 64 * BitVec.ofNat 64 (ceilDiv (← myHart).vlen 8))) s

/-- BASE moved by k steps, k signed (R224). -/
def Hart.rotate (h : Hart) (k : Int) : Hart :=
  h.setBase (((h.rrbBase : Int) + k * (if h.rrbPair then 2 else 1 : Nat)) % 64).toNat

def execVrotb (o : F3) (s : State) : Host.Outcome State Fault Refusal :=
  ap (modifyHart (·.rotate (o.x.extractLsb' 0 7).toInt)) s

/-! ### Dead registers (R225) -/

/-- Registers made dead: clean, h = 0, contents undefined. (DEDUCED, log 21.) -/
def execVdead (o : F3) (s : State) : Host.Outcome State Fault Refusal :=
  epWhole (forEach (span o.d.toNat (o.d.toNat + (o.x.extractLsb' 0 8).toNat + 1)) fun v => do
    let x ← freshReg
    modifyHart fun h =>
      h.setV (h.rot v) { h.vreg (h.rot v) with dirty := false, hw := 0, data := x, poison := 0, dead := true }) s

/-! ### Scalar moves (R226) -/

/-- The mode X[8:7]: the scalar as i64, as n64, or as the element's bit pattern. -/
def moveMode (o : F3) : Nat := (o.x.extractLsb' 7 2).toNat

/-- A scalar converted into `d`. -/
def scalarInto (o : F3) (v : Word) (h : Hart) : ElemResult :=
  let d := o.d.toNat
  match moveMode o with
  | 0 => intoReg h d ⟨Exact.ofInt v.toInt, false⟩ 0
  | 1 => intoReg h d ⟨Exact.ofInt v.toNat, false⟩ 0
  | _ => .ok (v.toNat % 2 ^ tagWidth (h.vreg (h.rot d)).tag, 0)

/-- The element index X[6:0]. -/
def moveIndex (o : F3) : Nat := (o.x.extractLsb' 0 7).toNat

/-- `vmv.ae` writes one element below vl; a trap stops it at element 0. (DEDUCED, log 22.) -/
def execVmvAe (o : F3) (s : State) : Host.Outcome State Fault Refusal :=
  ep (do
    let v ← rdA (aField o.a)
    let i := moveIndex o
    let d := o.d.toNat
    vectorOp [] (fun h => if i < h.vlen then OpClass.n.faults h d [] else []) fun h =>
      if h.start < h.vlen && i < h.vlen then do
        tasteWhole [i]
        performElem false false 0 (scalarInto o v h) (writeReg d i)
        spoilQ4 d
      else pure ()) s

/-- An element read by `vmv.ea`: converted to i64 or n64, or its bit pattern. -/
def elementOut (o : F3) (a : VSrc) (h : Hart) : Nat × Flags :=
  let i := moveIndex o
  let v := a.val h i
  match moveMode o with
  | 0 => let (p, f) := convert 7 false h.rm v; (p, f ||| v.x.snan)
  | 1 => let (p, f) := convert 3 false h.rm v; (p, f ||| v.x.snan)
  | _ => (a.elem h i, 0)

/-- `vmv.ea` waits for the EP and reads an element whatever vl is. (DEDUCED, log 22.) -/
def execVmvEa (o : F3) (s : State) : Host.Outcome State Fault Refusal :=
  ep (do
    let a := srcOf o.a o.qa
    checkQueues [a]
    resync
    let h ← myHart
    raiseIf (a.pairHigh h) .tagMismatch a.tagTval
    raiseIf (a.poison h (moveIndex o)) .poisonConsumed (a.poisonTval (moveIndex o))
    let (p, f) := elementOut o a h
    raiseIf (f &&& h.en != 0) .fpTrap (f.setWidth 64)
    modifyHart (·.addFlags f)
    wrA (aField o.d) (BitVec.ofNat 64 p)
    consume [a]
    advance) s

/-- `vbcast`: every element the scalar value. -/
def execVbcast (o : F3) (s : State) : Host.Outcome State Fault Refusal :=
  ep (do
    let v ← rdA (aField o.a)
    elementwise .n o.d o.msk o.mu [] [] fun h _ => scalarInto o v h) s

/-- `vid`: every element its index. -/
def execVid (o : F3) (s : State) : Host.Outcome State Fault Refusal :=
  ep (elementwise .n o.d o.msk o.mu [] [] fun h e => intoReg h o.d.toNat ⟨Exact.ofInt e, false⟩ 0) s

end Sys2Proof.Machine
end

