-- ==== Sys2Proof/Machine/Upsets.lean ====
section
/-! DEFINITION. Upsets of memory, of SRAM and of vector lanes (23_integrity R377-R379, R384, R386, R387). -/

namespace Sys2Proof.Machine

/-! ### Units that nothing has read yet (R377, R387) -/

/-- An upset leaves an error in a memory unit that nothing has found yet. Only a Cellar sector has a tag that can fail (Table 23.1).
(DESIGN CHOICE, log 10.) -/
def State.upset (s : State) (unit : Nat) (e : Latent) : State :=
  match unitOf unit with
  | some (u, _) => { s with latent := Tbl.set none s.latent u (some (if inCellar u then e else { e with tagFails := false })) }
  | none => s

/-- An upset of a lane of one of a core's two pipes, met by the hart's next vector arithmetic instruction (R384).
(DESIGN CHOICE, log 10.) -/
def State.laneUpset (s : State) (hart pipe lane : Nat) (corrects : Bool) : State :=
  if pipe < 2 && lane < 32 then s.setHart hart { s.hart hart with laneErr := some (pipe, lane, corrects) } else s

/-! ### SRAM (R377-R379) -/

/-- UNIT of a word of SRAM (R341): the vector registers and queues are the EP's, the other registers of a hart the AP's.
(DESIGN CHOICE, log 10.) -/
def Sram.unit : Sram → Nat
  | .l2 d _ => unitPath d 32 0 127
  | .cask c _ => coreUnit c 5
  | .code c _ _ => coreUnit c 7
  | .vreg h _ _ | .queue h _ _ _ => coreUnit (coreOf h) 2
  | .tile c _ _ => coreUnit c 8
  | .vat c _ _ => coreUnit c 6
  | .scalar h => coreUnit (coreOf h) 1

/-- The die of a word of SRAM. -/
def Sram.die (u : Sram) : Nat := u.unit / 2 ^ 28

/-- The word exists: its numbers lie within its array, and an a-register or special register has no poison to take. -/
def Sram.ok : Sram → Bool
  | .l2 d pa => d < 8 && (inHbm pa || inCellar pa || windowOf pa = .fabric)
  | .cask c off => c < 256 && off < 2 ^ 20
  | .code c k off => c < 256 && k < 64 && off < 4096
  | .vreg h n w => h < 512 && n < 256 && w < 128
  | .queue h q _ w => h < 512 && q < 8 && w < 128
  | .tile c t w => c < 256 && t < 8 && w < 8192
  | .vat c r w => c < 256 && r < 256 && w < 128
  | .scalar h => h < 512

/-- The elements at width `w` that 4-byte word `k` holds, set in a mask of poison (R378). -/
def poisonElems (m : Mask) (w k : Nat) : Mask := (List.range 128).foldl (fun m e => if e * w / 32 = k then putMask m e true else m) m

/-- An uncorrectable error poisons every byte or element that the word holds (R378). -/
def State.poisonWord (s : State) : Sram → State
  | .l2 d pa => s.setView d ((s.viewOf d).poisonRange (pa / 8 * 8) 8)
  | .cask c off => { s with casks := s.casks.poisonRange (caskBase c + off / 8 * 8) 8 }
  | .code c k off =>
    let x := s.core c
    let sl := Tbl.get {} x.code k
    if sl.landed = some true then
      s.setCore c { x with code := Tbl.set {} x.code k { sl with poison := sl.poison ++ (List.range 8).map (off / 8 * 8 + ·) } }
    else s
  | .vreg n p k =>
    let h := s.hart n
    s.setHart n (h.setV p { h.vreg p with poison := poisonElems (h.vreg p).poison (h.ownWidth p) k })
  | .queue n q i k =>
    let h := s.hart n
    let es := (Tbl.get [] h.q q).mapIdx fun j e => if j = i then { e with poison := poisonElems e.poison (tagWidth e.mt) k } else e
    s.setHart n { h with q := Tbl.set [] h.q q es }
  | .tile c t k =>
    let x := s.core c
    let r := Tbl.get {} x.tiles t
    s.setCore c { x with tiles := Tbl.set {} x.tiles t { r with poison := r.poison ||| (BitVec.ofNat 65536 0xFF <<< (8 * k)) } }
  | .vat c r k =>
    let x := s.core c
    let y := Tbl.get {} x.vat r
    s.setCore c { x with vat := Tbl.set {} x.vat r { y with poison := putMask y.poison k true } }
  | .scalar _ => s

/-- The physical address of a word of SRAM: the L2's alone have one. -/
def Sram.addr : Sram → Option Nat
  | .l2 _ pa => some (pa / 8 * 8)
  | _ => none

/-- The record of an error in SRAM: corrected, with `excess` earlier ones that the limit kept from the log, or uncorrectable. -/
def Sram.record (u : Sram) (syndrome : BitVec 32) (bad : Bool) (excess : Nat) : RecordFields :=
  { cause := 0x19, cls := 1, sev := if bad then 1 else 0, eccst := if bad then 3 else 2, unit := u.unit,
    syndrome := syndrome.toNat + excess % 2 ^ 32 * 2 ^ 32, addr := u.addr.getD 0, phys := u.addr.isSome }

/-- A millisecond in ticks. -/
def milliTicks : Nat := 1000000 * nsTicks

/-- An error of a word of SRAM is met (R377-R379): an uncorrectable one poisons the word, with a record; a corrected one changes no
value, and its unit writes at most one record in a millisecond and counts the rest for its next record. (DESIGN CHOICE, log 10.) -/
def State.sramUpset (s : State) (u : Sram) (syndrome : BitVec 32) (bad : Bool) : State :=
  if !u.ok then s
  else
    let (last, n) := match Tbl.get none s.sramLog u.unit with
      | some (t, n) => (some t, n)
      | none => (none, 0)
    let say := fun (s : State) =>
      ({ s with sramLog := Tbl.set none s.sramLog u.unit (some (s.now, 0)) } : State).record u.die (u.record syndrome bad n)
    if bad then say (s.poisonWord u)
    else if last.any fun t => s.now < t + milliTicks then
      { s with sramLog := Tbl.set none s.sramLog u.unit ((last.map fun t => (t, n + 1))) }
    else say s

/-! ### The Cellar at rest (R386) -/

/-- HMAC-SM3 (R386), with a key of at most one block, as bytes. (PRESUMED, log 44.) -/
def hmacSm3 (key m : List Byte) : List Byte :=
  let k := key ++ List.replicate (64 - key.length) (0 : Byte)
  sm3Bytes ((k.map (· ^^^ 0x5C)) ++ sm3Bytes ((k.map (· ^^^ 0x36)) ++ m))

/-- The ciphertext in which the Cellar sector of `pa` is stored (R386). -/
def State.sectorStored (s : State) (pa : Nat) : List Byte :=
  Config.sm4Xts Config.dataKey Config.tweakKey (pa / 256) ((s.media.peek (pa / 256 * 256) 256).map (·.val))

/-- The tag of the Cellar sector of `pa`: the first 8 bytes of HMAC-SM3 over its address and its ciphertext, as a little-endian
value (R386). The address is 8 bytes, lowest first (R3). (DESIGN CHOICE, log 61.) -/
def State.sectorTag (s : State) (pa : Nat) : Word :=
  BitVec.ofNat 64 (valueOf (cleanBytes ((hmacSm3 Config.tagKey (bytesOf 8 (pa / 256 * 256) ++ s.sectorStored pa)).take 8)))

end Sys2Proof.Machine
end

