-- ==== Sys2Proof/Machine/Inputs.lean ====
section
/-! DEFINITION. What comes from outside the module, and the model's own schedule (00_scope R6; 15 R313, R326; 02 R42).

The spec leaves the interleaving of harts and units open. `State.agenda` says what moves next; a statement about every state
therefore holds for every schedule. Where the agenda is empty the order below is used. -/

namespace Sys2Proof.Machine

/-- The events of the module: constructors that an agenda may name. (DESIGN CHOICE, log 5.) -/
def isEvent : Instr → Bool
  | .selftestComplete | .boot | .powerFailDrain | .portNoActiveLane | .syncBeat | .packageMarkUpdate | .fabricMarkExchange
  | .vlcapChange | .admitTeam | .ageTick | .saveComplete | .hartStart | .tileRunStart | .stageSwitch | .teamEnd
  | .launchComplete | .supervisorSlotLanded | .machineCheck | .copyFailure | .copyLineLand | .copyComplete
  | .copyIssueResume | .cfetchLand | .apDecodeResume | .apResync | .vwaitMet | .vwaitTimeout | .barWake | .barTimeout
  | .bbWake | .cwaitWake | .cfwaitWake | .clkWaitWake | .clockWide | .rpAccept | .rpResult | .rpTimeout | .ldAsofRead
  | .digWaitWake | .fenceDone | .fenceDurDone | .pbarComplete | .commitWait | .lnchAnswer | .tlbinvComplete
  | .pgmigComplete | .writeApply | .dupWritePerform | .migrationTimeout | .cellarAccept | .scrubBurst | .filterClear
  | .rowSpareBurst | .rowSpareRemap | .wearLevelMove | .laneSpareSwitch | .logWrite | .eventWrite | .storeAppliedToL2
  | .fabricWindowAccess => true
  | _ => false

/-- Whether hart `n` can run an instruction: it is running, does not wait, and its team is neither gone nor stopping, where a hart
still finishes an instruction whose wait has ended (Table 2.6). -/
def State.runnable (s : State) (n : Nat) : Bool :=
  let h := s.hart n
  h.status = .running && h.wait.isNone &&
  match s.teamOf n with
  | some t => t.status = .running || (t.status = .stopping && h.finishing)
  | none => true

/-- The response of a record: sequence, status, value (R313, Table 15.6). -/
def responseBits (seq : BitVec 8) (status : Nat) (value : Word) : BitVec 128 :=
  BitVec.ofNat 128 (seq.toNat + status * 256 + value.toNat * 2 ^ 64)

/-- A response stands in its slot's field, and a completion message that carries it goes to the master (R326). -/
def Port.put (p : Port) (slot : Nat) (x : BitVec 128) : Port :=
  { p with resp := Tbl.set 0 p.resp slot x, msgs := p.msgs ++ [.completion slot x] }

/-- The service die answers the record of slot `slot` of a port; the slot may then take another record (R326). -/
def State.respond (s : State) (r : CmdRec) (status : Nat) (value : Word) : State :=
  let p := (s.port r.port).put r.slot (responseBits r.seq status value)
  s.setPort r.port { p with busy := p.busy.filter (· != r.slot) }

/-- A page that moves has a frame that meets a range of physical memory (R80). -/
def State.movesAt (s : State) (pa n : Nat) : Bool := s.moving.any fun e => match e.2 with
  | some m => rangesMeet e.1 m.size pa n
  | none => false

/-- The service die can take a record: it has booted, no earlier record of the port is under way (R313), no page moves that a READ or
WRITE names (R80), and a CLAIM's cycle is over, so that every CLAIM of that cycle is there (R315, R324). (DEDUCED, log 58.) -/
def State.commandReady (s : State) (r : CmdRec) : Bool :=
  s.svc.booted && !s.svc.writes.any (·.port == r.port) && !s.svc.selftests.any (·.2.port == r.port) &&
    !((r.code = 2 || r.code = 3) && s.movesAt r.w0.toNat r.w1.toNat) && !(r.code = 4 && s.now ≤ r.since)

/-- WRITE records are answered whose bytes have all become durable (R400). -/
def State.settleWrites (s : State) : State :=
  s.svc.writes.foldl (fun (s : State) r =>
    if s.cellarPend.any fun c => c.hart.isNone && rangesMeet c.pa c.bytes.length r.w0.toNat r.w1.toNat then s
    else ({ s with svc := { s.svc with writes := s.svc.writes.filter (· != r) } }).respond r 0 0) s

/-- The records of a queue that keep their place before CLAIM `r`, and those that go behind it: CLAIMs that a higher port carried in the
same cycle, with what has arrived behind them on their `ports`. (DEDUCED, log 58.) -/
def splitClaim (r : CmdRec) (ports : List Nat) : List CmdRec → List CmdRec × List CmdRec
  | [] => ([], [])
  | x :: xs =>
    let ports := if x.code = 4 && x.since = r.since && r.port < x.port then x.port :: ports else ports
    let q := splitClaim r ports xs
    if ports.contains x.port then (q.1, x :: q.2) else (x :: q.1, q.2)

/-- A CLAIM goes before those that a higher port carried in the same cycle, and every port keeps the order of its records (R313, R315,
R324). (DEDUCED, log 58.) -/
def queueClaim (r : CmdRec) (q : List CmdRec) : List CmdRec := (splitClaim r [] q).1 ++ r :: (splitClaim r [] q).2

/-- The queue with a record that has arrived. -/
def queueRecord (q : List CmdRec) (r : CmdRec) : List CmdRec := if r.code = 4 then queueClaim r q else q ++ [r]

/-- A record fills slot `slot` of a port's window, a part that exists: an unbound port is bound to its master; it is taken in order, or
answered BUSY where the slot's earlier record has no response yet (R313, R325, R326). -/
def State.arrive (s : State) (port slot : Nat) (raw : BitVec 512) : State :=
  if 24 ≤ port || 8 ≤ slot then s
  else
    let r := CmdRec.ofRaw port slot raw
    let m := r.master.toNat
    let p := s.port port
    let r := { r with since := s.now, alien := p.bound.any (· != m) }
    let p := if p.bound.isNone && m < 16 then { p with bound := some m } else p
    if p.busy.contains slot then s.setPort port (p.put slot (responseBits r.seq 0x14 0))
    else { s.setPort port { p with busy := p.busy ++ [slot] } with cmdq := queueRecord s.cmdq r }

/-- The master of a port takes the oldest message that the module has sent it (R326, R327). -/
def State.takeMessage (s : State) (port : Nat) : State := s.setPort port { s.port port with msgs := (s.port port).msgs.tail }

/-- A configuration record arrives: one that the vendor key or an enrolled owner key signs sets the owner key slots and the partition
defaults (R321, R382). Whether a signature verifies comes from outside the model. (DESIGN CHOICE, log 61.) -/
def State.configRecord (s : State) (keys : List (BitVec 512)) (defaults : List Byte) (signed : Bool) : State :=
  if signed then { s with svc := { s.svc with ownerKeys := keys, defaults := defaults } } else s

/-- Bytes that a master writes into the data buffer of a slot (R326). -/
def State.fillData (s : State) (port slot off : Nat) (bytes : List Byte) : State :=
  let p := s.port port
  if 24 ≤ port || 8 ≤ slot then s else
  let cells := (bytes.zipIdx.filter fun b => off + b.2 < 4096).foldl
    (fun t b => Tbl.set 0 t (4096 * slot + off + b.2) b.1) p.data
  s.setPort port { p with data := cells }

/-- A fabric peer stores into its own memory: the peer is the home, so the write takes the next place in home order and every die has
it at once, except where the die holds a write that the peer has yet to apply (R92). -/
def State.peerStore (s : State) (pa : Nat) (bytes : List Byte) : State :=
  if windowOf pa = .fabric && windowOf (pa + bytes.length - 1) = .fabric then
    let bs := cleanBytes bytes
    let n := s.homeSeq + 1
    let s := ({ s with homeSeq := n } : State).pokeWhere fabricAgent (fun _ => true) none none pa bs
    allDies.foldl (fun (s : State) e => s.pokeWhere e (fun a => !s.heldOpen e fabricAgent 0 a) none (some n) pa bs) s
  else s

/-- A load of hart `n` from `len` bytes at `pa`, an address that a-register `base` will give it, performs ahead of its instruction (R93,
Table 5.1): it reads what stands there now, and the errors it meets are found. It waits for a stamped store of the hart to the
cell that is not visible yet (R107). (DESIGN CHOICE, log 7.) -/
def State.loadEarly (s : State) (n base pa len : Nat) : State :=
  if windowOf pa = .register || len = 0 || (s.stampOver n pa len).isSome then s
  else
    let s := s.findErrors (dieOf n) pa len (s.readerOf n)
    let h := s.hart n
    s.setHart n { h with early := h.early ++ [⟨base, pa, s.hartBytes n pa len⟩] }

/-- A pre-emption or interruption that meets the hart's instruction at element `k` (R33). (DESIGN CHOICE, log 9.) -/
def State.cutHart (s : State) (hart k : Nat) : State := s.setHart hart { s.hart hart with cut := some k }

/-- A TLB, a die's or a core's, lets its entry `k` go (R75 bounds how many it keeps, not which). (DEDUCED, log 46.) -/
def State.evict (s : State) (die : Nat) (core : Option Nat) (k : Nat) : State :=
  match core with
  | none => s.setDie die { s.die die with tlb := (s.die die).tlb.eraseIdx k }
  | some c => s.setCore c { s.core c with tlb := (s.core c).tlb.eraseIdx k }

/-- Numbers of the harts that have state. -/
def State.hartNumbers (s : State) : List Nat := s.harts.map (·.1)

/-- The hart that runs next when nothing else decides: the first runnable one after the current hart, cyclically (R42).
(DESIGN CHOICE, log 5.) -/
def State.nextHart (s : State) : Option Nat :=
  let after := s.hartNumbers.filter (s.cur < ·)
  let upto := s.hartNumbers.filter (· ≤ s.cur)
  (after ++ upto).find? s.runnable

/-- Events that may end the wait of hart `n`. -/
def wakesOf (n : Nat) : Wait → List (Instr × Ev)
  | .epFull => [(.apDecodeResume, { hart := n })]
  | .resync => [(.apResync, { hart := n })]
  | .fence _ _ => [(.fenceDone, { hart := n }), (.fenceDurDone, { hart := n })]
  | .fencePath _ => [(.fenceDone, { hart := n })]
  | .fenceDur => [(.fenceDurDone, { hart := n })]
  | .vwait .. => [(.vwaitMet, { hart := n }), (.vwaitTimeout, { hart := n })]
  | .bar .. => [(.barWake, { hart := n }), (.barTimeout, { hart := n })]
  | .bb .. => [(.bbWake, { hart := n })]
  | .cwait .. => [(.cwaitWake, { hart := n })]
  | .cfwait .. => [(.cfwaitWake, { hart := n })]
  | .clk .. => [(.clkWaitWake, { hart := n }), (.clockWide, { hart := n })]
  | .rpSend .. => [(.rpAccept, { hart := n })]
  | .rpRecv .. => [(.rpResult, { hart := n }), (.rpTimeout, { hart := n })]
  | .ldAsof .. => [(.ldAsofRead, { hart := n })]
  | .dig .. => [(.digWaitWake, { hart := n })]
  | .commit _ => [(.commitWait, {})]
  | .lnch .. => [(.lnchAnswer, { hart := n })]
  | .tlbinv _ => [(.tlbinvComplete, { hart := n })]
  | .pgmig _ => []
  | .dup .. => [(.dupWritePerform, { hart := n }), (.migrationTimeout, { hart := n })]
  | .migrating _ => []
  | .copyTag _ => [(.copyIssueResume, { hart := n })]
  | .trapEntry .. => []

/-- A microsecond in ticks. -/
def microTicks : Nat := 1000 * nsTicks

/-- The beats that are due: the reference sends each die one in a microsecond, and tells it fabric time to 4 ns (R16).
(DESIGN CHOICE, log 5.) -/
def State.beatsDue (s : State) : List (Instr × Ev) :=
  (allDies.filter fun d => (s.die d).clock.beat + microTicks ≤ s.now).map fun d =>
    (Instr.syncBeat, ({ die := d, lo := s.now / nsTicks - 4, hi := ceilDiv s.now nsTicks + 4 } : Ev))

/-- The launches whose age is due to rise (R125). -/
def State.agesDue (s : State) : List (Instr × Ev) := s.launches.filterMap fun e => match e.2 with
  | some l => match l.readyAt with
    | some r => if r + (l.age + 1) * milliTicks ≤ s.now then some (Instr.ageTick, ({ launch := e.1 } : Ev)) else none
    | none => none
  | none => none

/-- A supervisor segment is on its way to a core, or a trap waits for one whose fetch could not begin (R353). -/
def State.supDue (s : State) (c : Nat) : Bool :=
  (s.core c).sup.landed == some false ||
  ((s.core c).sup.landed.isNone && [2 * c, 2 * c + 1].any fun n => match (s.hart n).wait with
    | some (.trapEntry ..) => true
    | _ => false)

/-- The frames whose duplicates the service die, a completion, a peer, a buffered store or a stamped store waits for (R79). -/
def State.framesHeld (s : State) : List Nat :=
  let stores := (s.harts.flatMap fun e => (e.2.sbuf ++ e.2.mbuf).map fun x => (x.pa, x.bytes.length)) ++
    s.stampq.map fun e => (e.pa, 32)
  ((s.svc.held :: s.launches.map fun e => e.2.bind (·.held)).filterMap id).map (·.1) ++
    ((s.peerHeld.filter (·.2.isSome)).map (·.1)) ++
    stores.filterMap fun w => s.dupAt w.1 w.2

/-- What the module may do by itself, in the order in which the default schedule tries it. (DESIGN CHOICE, log 5.) -/
def State.pendingEvents (s : State) : List (Instr × Ev) :=
  let harts := s.hartNumbers
  let cores := s.cores.map (·.1)
  let teams := s.teams.map (·.1)
  let stores := (harts.filter fun n => !(s.hart n).sbuf.isEmpty || !(s.hart n).mbuf.isEmpty).map fun n =>
    (Instr.storeAppliedToL2, ({ hart := n } : Ev))
  let applies := match s.net with
    | [] => []
    | w :: _ => w.pend.map fun e => (Instr.writeApply, ({ die := e } : Ev))
  let cellar := (List.range s.cellarPend.length).map fun i => (Instr.cellarAccept, ({ idx := i } : Ev))
  let stamps := if s.stampq.isEmpty then [] else [(Instr.commitWait, ({} : Ev))]
  let pbars := (harts.filter fun n => !(s.hart n).pbars.isEmpty).map fun n => (Instr.pbarComplete, ({ hart := n } : Ev))
  let copies := cores.flatMap fun c => (s.core c).copies.flatMap fun p =>
    [(Instr.copyLineLand, ({ core := c, tag := p.1 } : Ev)), (Instr.copyComplete, { core := c, tag := p.1 }),
     (Instr.copyFailure, { core := c, tag := p.1 }), (Instr.dupWritePerform, { core := c, tag := p.1, good := true })]
  let dups := s.framesHeld.map fun f => (Instr.dupWritePerform, ({ idx := 1, pa := f } : Ev))
  let fetches := cores.flatMap fun c =>
    ((s.core c).code.filter fun e => e.2.landed == some false).map fun e => (Instr.cfetchLand, ({ core := c, slot := e.1 } : Ev))
  let sups := (cores.filter s.supDue).map fun c => (Instr.supervisorSlotLanded, ({ core := c } : Ev))
  let wakes := harts.flatMap fun n => match (s.hart n).wait with
    | some w => wakesOf n w
    | none => []
  let stops := (harts.filter fun n => ((s.hart n).epq != 0 || (s.hart n).meq != 0) && (s.teamOf n).any (·.status == .stopping)).map
    fun n => (Instr.apResync, ({ hart := n } : Ev))
  let pages := s.moving.flatMap fun e => match e.2 with
    | some m => [(Instr.pgmigComplete, ({ hart := m.hart } : Ev))]
    | none => []
  let moves := teams.flatMap fun t =>
    [(Instr.hartStart, ({ team := t } : Ev)), (Instr.tileRunStart, { team := t }), (Instr.stageSwitch, { team := t }),
     (Instr.teamEnd, { team := t }), (Instr.saveComplete, { team := t })]
  let ends := (s.launches.map (·.1)).map fun l => (Instr.launchComplete, ({ launch := l } : Ev))
  let admits := (List.range 8).map fun p => (Instr.admitTeam, ({ idx := p } : Ev))
  let boot := if s.svc.booted then [] else [(Instr.boot, ({ good := true } : Ev))]
  let logs := if s.log.pending.isEmpty && s.log.written.isNone then [] else [(Instr.logWrite, ({} : Ev))]
  let evs := if s.events.pending.isEmpty then [] else [(Instr.eventWrite, ({} : Ev))]
  let tests := s.svc.selftests.map fun t => (Instr.selftestComplete, ({ idx := t.1 } : Ev))
  s.beatsDue ++ s.agesDue ++ boot ++ stores ++ applies ++ cellar ++ stamps ++ pbars ++ copies ++ dups ++ fetches ++ sups ++ pages ++
    logs ++ evs ++ wakes ++ stops ++ moves ++ ends ++ admits ++ tests

end Sys2Proof.Machine
end

