-- ==== Sys2Proof/Machine/LoadStore.lean ====
section
/-! DEFINITION. Scalar loads and stores of major 0x08 and atomics of major 0x09 (09_access_instructions, R178-R185). -/

namespace Sys2Proof.Machine

/-- The address a + sext(IMM) of a load or store (Table 9.6). -/
def frAddr (o : FR) : M Word := do return (← rdA o.a) + o.imm.signExtend 64

/-- Alignment comes before translation (R179). -/
def aligned (va : Word) (n : Nat) : M Unit := raiseIf (va.toNat % n != 0) .misalign va

/-- The value of `n` loaded bytes, extended to 64 bits. -/
def extendTo (sgn : Bool) (n : Nat) (bs : List PByte) : Word :=
  if sgn then BitVec.ofInt 64 (signedOf (8 * n) (valueOf bs)) else BitVec.ofNat 64 (valueOf bs)

/-- A scalar load of 2^sz bytes: poisoned bytes raise POISON_CONSUMED, and D keeps its value (R179, R180). A relaxed load may have
performed early; an acquire performs where it stands (R93, R96). Returns the physical address. -/
def scalarLoad (sgn : Bool) (sz : BitVec 2) (acq : Bool) (o : FR) (va : Word) : M Nat := do
  let n := 2 ^ sz.toNat
  aligned va n
  let (pa, _) ← translateMe va .load
  let bs ← if acq then readPhys pa n else readAhead o.a pa n
  raiseIf (anyPoison bs) .poisonConsumed va
  wrA o.d (extendTo sgn n bs)
  return pa

def execLd (sz : BitVec 2) (o : FR) (s : State) : Host.Outcome State Fault Refusal :=
  ap (do let _ ← scalarLoad true sz false o (← frAddr o)) s
def execLdz (sz : BitVec 2) (o : FR) (s : State) : Host.Outcome State Fault Refusal :=
  ap (do let _ ← scalarLoad false sz false o (← frAddr o)) s

/-- A scalar store of the low 2^sz bytes of b (R179). -/
def scalarStore (sz : BitVec 2) (o : FR) (va : Word) : M Unit := do
  let n := 2 ^ sz.toNat
  aligned va n
  storeBytes va (bytesOf n (← rdA o.b).toNat)

def execSt (sz : BitVec 2) (o : FR) (s : State) : Host.Outcome State Fault Refusal :=
  ap (do scalarStore sz o (← frAddr o)) s

/-- `ld.acq`: the address is a, and the load is an acquire at its scope (R96, R178). -/
def execLdAcq (sz : BitVec 2) (o : FR) (s : State) : Host.Outcome State Fault Refusal :=
  ap (do
    let va ← rdA o.a
    acquired (← scalarLoad true sz true o va) (2 ^ sz.toNat)) s

/-- The checks of a store, without a store: they come before the store's release waits, so that a release that faults has no effect
(R96, R170, R194). -/
def probeStore (va : Word) (n : Nat) : M Unit := do
  aligned va n
  let (pa, leaf) ← translateMe va .store
  readyToWrite va pa n leaf (fun _ _ => false)

/-- `st.rel`: a release at its scope; the write-combining buffer drains first, and the store follows once every earlier access
is performed within the scope (R96, R103). In deterministic mode the store itself then leaves the buffer. -/
def execStRel (sz : BitVec 2) (o : FR) (s : State) : Host.Outcome State Fault Refusal :=
  ap (do
    let va ← rdA o.a
    probeStore va (2 ^ sz.toNat)
    releaseAt (o.imm.extractLsb' 0 3).toNat
    scalarStore sz o va
    modifyHart Hart.drainWcb) s

/-! ### Atomics (Table 9.8) -/

/-- Scope, acquire bit and release bit of an atomic (R181). -/
def amoScope (o : FR) : Nat := (o.imm.extractLsb' 0 3).toNat
def amoAcq (o : FR) : Bool := o.imm.getLsbD 3
def amoRel (o : FR) : Bool := o.imm.getLsbD 4

/-- An atomic: every check, the release wait where it has one, the read-modify-write at the home, D, and the acquire where it has
one (R181, R183, R185, R194). `f w old b c` gives the new value of `w` bytes, or none. -/
def amo (d64 : Bool) (o : FR) (f : Nat → Nat → Nat → Nat → Option Nat) : State → Host.Outcome State Fault Refusal :=
  ap do
    let w := if d64 then 8 else 4
    let va ← rdA o.a
    aligned va w
    let _ ← probeAtomic va w
    if amoRel o then releaseAt (amoScope o)
    let b := (← rdA o.b).toNat % 2 ^ (8 * w)
    let c := (← rdA o.c).toNat % 2 ^ (8 * w)
    let r ← atomicAt va w fun old => f w old b c
    wrA o.d (BitVec.ofInt 64 (signedOf (8 * w) r.old))
    if amoAcq o then acquiredKeys r.keys

/-- Signed comparison of two values of `w` bytes. -/
def sltBytes (w x y : Nat) : Bool := signedOf (8 * w) x < signedOf (8 * w) y

/-- old + b as f32 or f64 under RNE, with no flag and the canonical NaN (R182). -/
def faddBytes (w x y : Nat) : Nat :=
  let f := fmtOf (if w = 4 then 0x0C else 0x0D)
  (toFloat f false .rne (addE .rne (decodeFloat f x) (decodeFloat f y)).1).1

def execAmoAdd (d64 : Bool) (o : FR) (s : State) : Host.Outcome State Fault Refusal :=
  amo d64 o (fun w old b _ => some ((old + b) % 2 ^ (8 * w))) s
def execAmoAnd (d64 : Bool) (o : FR) (s : State) : Host.Outcome State Fault Refusal :=
  amo d64 o (fun _ old b _ => some (old &&& b)) s
def execAmoOr (d64 : Bool) (o : FR) (s : State) : Host.Outcome State Fault Refusal :=
  amo d64 o (fun _ old b _ => some (old ||| b)) s
def execAmoXor (d64 : Bool) (o : FR) (s : State) : Host.Outcome State Fault Refusal :=
  amo d64 o (fun _ old b _ => some (old ^^^ b)) s
def execAmoMin (d64 : Bool) (o : FR) (s : State) : Host.Outcome State Fault Refusal :=
  amo d64 o (fun w old b _ => some (if sltBytes w b old then b else old)) s
def execAmoMax (d64 : Bool) (o : FR) (s : State) : Host.Outcome State Fault Refusal :=
  amo d64 o (fun w old b _ => some (if sltBytes w old b then b else old)) s
def execAmoMinu (d64 : Bool) (o : FR) (s : State) : Host.Outcome State Fault Refusal :=
  amo d64 o (fun _ old b _ => some (min old b)) s
def execAmoMaxu (d64 : Bool) (o : FR) (s : State) : Host.Outcome State Fault Refusal :=
  amo d64 o (fun _ old b _ => some (max old b)) s
def execAmoSwap (d64 : Bool) (o : FR) (s : State) : Host.Outcome State Fault Refusal :=
  amo d64 o (fun _ _ b _ => some b) s
def execAmoCas (d64 : Bool) (o : FR) (s : State) : Host.Outcome State Fault Refusal :=
  amo d64 o (fun _ old b c => if old = c then some b else none) s
def execAmoFadd (d64 : Bool) (o : FR) (s : State) : Host.Outcome State Fault Refusal :=
  amo d64 o (fun w old b _ => some (faddBytes w old b)) s

end Sys2Proof.Machine
end

