-- ==== Sys2Proof/Machine/Slots.lean ====
section
/-! DEFINITION. Reading through page tables for a unit other than the pipeline, and slot descriptors (06_launch R117, R133;
07_splicing R144, R145; 15_host R318). -/

namespace Sys2Proof.Machine

/-- Smallest page: a span of virtual addresses that one leaf maps. -/
def pageBytes : Nat := 65536

/-- A range of virtual addresses cut at page boundaries. -/
def pieces (va len : Nat) : List (Nat × Nat) :=
  if len = 0 then []
  else
    let first := va / pageBytes
    let last := (va + len - 1) / pageBytes
    (span first (last + 1)).map fun p =>
      let lo := max va (p * pageBytes)
      let hi := min (va + len) ((p + 1) * pageBytes)
      (lo, hi - lo)

/-- Perform an action for every element of a list and collect the results. -/
def collect {α β : Type} : List α → (α → M β) → M (List β)
  | [], _ => pure []
  | x :: xs, f => do
    let y ← f x
    let ys ← collect xs f
    return y :: ys

/-- The bytes of a virtual range as an agent on die `d` reads them; with a hart, its own buffered stores are seen. -/
def readVirtual (part d : Nat) (core hart : Option Nat) (r : Rights) (va : Word) (len : Nat) : M (List PByte) := do
  let parts ← collect (pieces va.toNat len) fun p => do
    let (pa, _) ← translate part d core r (BitVec.ofNat 64 p.1) .load
    if windowOf pa = .register then registerAccess pa p.2
    else
      modify fun s => s.findErrors d pa p.2 (match hart with
        | some n => s.engineFor n
        | none => {})
      let s ← get
      return match hart with
        | some n => s.hartBytes n pa p.2
        | none => (List.range p.2).map fun i => s.byteAt d (pa + i)
  return parts.flatten

/-! ### Slot descriptors -/

/-- The bytes of a value as one number. -/
def packed (bs : List PByte) : Nat := valueOf bs

/-- Whether the reserved bits, ACC and TYPE of a descriptor make it bad (R133). -/
def SlotDesc.malformed (d : SlotDesc) : Bool :=
  4 < d.acc || (d.acc != 0 && (d.bits 496 16 != 0 || d.type ≥ 32 || !tagListed (BitVec.ofNat 5 d.type)))

/-- A descriptor read from 64 bytes of memory, poisoned bytes making it bad (R133). -/
def slotDescOf (bs : List PByte) : SlotDesc :=
  let d : SlotDesc := { raw := BitVec.ofNat 512 (packed bs) }
  { d with bad := anyPoison bs || d.malformed }

/-- Read descriptor `i` of the table at `tab`; a read that fails gives a bad one, and the latch never traps (R133).
(DEDUCED, log 26.) -/
def readSlot (part d : Nat) (core hart : Option Nat) (r : Rights) (tab : Word) (i : Nat) : M SlotDesc := do
  match ← attempt (readVirtual part d core hart r (tab + BitVec.ofNat 64 (64 * i)) 64) with
  | .ok bs => return slotDescOf bs
  | .error (.trap _ _ _) => return { bad := true }
  | .error e => throw e

/-- Bits `[lo+n−1 : lo]` of a descriptor replaced. -/
def SlotDesc.put (d : SlotDesc) (lo n : Nat) (v : Int) : SlotDesc :=
  let m : BitVec 512 := BitVec.ofNat 512 (2 ^ n - 1) <<< lo
  { d with raw := (d.raw &&& ~~~m) ||| (BitVec.ofNat 512 (v % (2 ^ n : Nat)).toNat <<< lo) }

/-- Used iteration dimensions of a launch (R137). -/
def Launch.used (l : Launch) : List Nat := (List.range 4).filter fun d => 1 < l.extent d

/-- Bytes of an element of a tag, in half bytes. -/
def nibblesOf (tag : Nat) : Nat := tagWidth (BitVec.ofNat 5 tag) / 4

/-- s'(b) of R144 in half bytes, for the producer `p` and elements of `nib` half bytes. -/
def Launch.windowStride (p : Launch) (nib b : Nat) : Nat :=
  ((p.used.filter (· < b)).foldl (fun a d => a * p.shape d) nib)

/-- Bytes of the window of a producer whose elements have `nib` half bytes (R144). -/
def Launch.windowBytes (p : Launch) (nib : Nat) : Nat :=
  let n := p.used.foldl (fun a d => a * p.shape d) nib
  (ceilDiv n 2 + 63) / 64 * 64

/-- BASE' of R144: the window less what the matched producer tile's coordinates add. -/
def Launch.windowBase (p : Launch) (nib tile : Nat) : Int :=
  let sum := p.used.foldl (fun (a : Nat) b => a + p.windowStride nib b * p.shape b * p.tileCoord tile b) 0
  (caskWindow + p.window : Nat) - (sum / 2 : Nat)

/-- A descriptor with no map, no offset and no stride, based on a window. -/
def SlotDesc.cleared (d : SlotDesc) (base : Int) : SlotDesc :=
  let z := d.put 64 256 0
  let z := (z.put 320 64 0).put 384 64 0
  z.put 0 64 base

/-- The producer's redirected descriptor (R144). -/
def SlotDesc.asProducer (d : SlotDesc) (p : Launch) (tile : Nat) : SlotDesc :=
  p.used.foldl (fun (z : SlotDesc) b =>
    (z.put (320 + 16 * b + 4 * b) 4 1).put (64 + 64 * b) 64 (p.windowStride (nibblesOf d.type) b / 2 : Nat))
    (d.cleared (p.windowBase (nibblesOf d.type) tile))

/-- The consumer's redirected descriptor: its map is G (R144). -/
def SlotDesc.asConsumer (d : SlotDesc) (p : Launch) (tile : Nat) : SlotDesc :=
  let z := p.perm.foldl (fun (z : SlotDesc) ab => z.put (320 + 16 * ab.1 + 4 * ab.2) 4 1)
    (d.cleared (p.windowBase (nibblesOf d.type) tile))
  p.used.foldl (fun (z : SlotDesc) b => z.put (64 + 64 * b) 64 (p.windowStride (nibblesOf d.type) b / 2 : Nat)) z

/-- The tile of the producer `p` that matches tile `t` of the consumer `c` (R139). -/
def matchedTile (p c : Launch) (t : Nat) : Nat :=
  let coord := fun a => match p.perm.find? (·.1 == a) with
    | some (_, b) => c.tileCoord t b
    | none => 0
  (List.range 4).foldl (fun sum a => sum + coord a * ((List.range a).foldl (fun q i => q * p.tilesAlong i) 1)) 0

/-- The stages of the splice that a team runs, or its one launch. -/
def State.chainOf (s : State) (t : Team) : List Launch :=
  match s.launch t.launch with
  | some l => if l.chain.length ≤ 1 then [l] else l.chain.filterMap s.launch
  | none => []

/-- The tile of stage `j` that matches last-stage tile `t`: R139 backwards through the chain. -/
def stageTileOf : List Launch → Nat → Nat → Nat
  | p :: c :: rest, j, t =>
    match j with
    | 0 => matchedTile p c (stageTileOf (c :: rest) 0 t)
    | j + 1 => stageTileOf (c :: rest) j t
  | _, _, t => t

/-- The descriptors of a stage after R144: its TRANSIENT slot when a later stage reads it, its reading slot when an earlier
stage wrote it. `prev` is the stage before, with its matched tile. -/
def redirect (x : Launch) (tile : Nat) (isLast : Bool) (prev : Option (Launch × Nat)) (ds : List SlotDesc) : List SlotDesc :=
  let ds := if isLast then ds else ds.modify x.slotOut (·.asProducer x tile)
  match prev with
  | some (p, t) => ds.modify p.slotIn (·.asConsumer p t)
  | none => ds

/-- The slots of hart `n` that R144 redirects to a window. -/
def State.redirected (s : State) (n : Nat) : List Nat :=
  match s.teamOf n with
  | none => []
  | some t =>
    let ch := s.chainOf t
    (match ch[t.stage]? with
      | some x => if t.stage + 1 < ch.length then [x.slotOut] else []
      | none => []) ++
    (if t.stage = 0 then [] else match ch[t.stage - 1]? with
      | some p => [p.slotIn]
      | none => [])

/-- The rights with which a hart's slot table is read (R133): those of its partition, without the limits of R136.
(DEDUCED, log 26.) -/
def State.latchRights (s : State) (n : Nat) : Rights := ⟨false, false, none, (s.core (coreOf n)).share⟩

/-- Hart `n` latches its eight descriptors from the table at its `sr.slots` (R133), redirected in a spliced stage (R144). An
`sr.slots` of 0 names no table: every descriptor is unused. A table that changed since the splice was decided counts as it then stands:
only the window's place and size are the decision's. (DEDUCED, log 26; DESIGN CHOICE, log 73.) -/
def latchSlots (n : Nat) : M Unit := do
  let s ← get
  let h := s.hart n
  let ds ← if h.slots = 0 then pure (List.replicate 8 {}) else
    collect (List.range 8) (readSlot (s.partOf n) (dieOf n) (some (coreOf n)) (some n) (s.latchRights n) h.slots)
  let ds := match s.teamOf n with
    | none => ds
    | some t =>
      let ch := s.chainOf t
      match ch[t.stage]? with
      | some x =>
        let prev := if t.stage = 0 then none else (ch[t.stage - 1]?).map fun p => (p, stageTileOf ch (t.stage - 1) t.tile)
        redirect x t.stageTile (ch.length ≤ t.stage + 1) prev ds
      | none => ds
  modify fun s => s.setHart n { s.hart n with desc := ds }

end Sys2Proof.Machine
end

