-- ==== Sys2Proof/Machine/VectorMemory.lean ====
section
/-! DEFINITION. Vector loads, stores and scatter-adds of major 0x20 (11_memory R228-R235; 04 R76-R78, R81; 05 R102). -/

namespace Sys2Proof.Machine

/-! ### Where the elements lie (Table 11.3) -/

/-- Addresses of the fields of an element, and its iteration vector in a map-addressed access. -/
structure Place where
  vas : List Word
  iter : Option (List Nat) := none
  deriving DecidableEq, Repr

/-- Where element `e` lies: an address cause, out of range (none), or its addresses. -/
abbrev AddrOf := Nat → Except (Cause × Word) (Option Place)

/-- Bytes of an element of a memory type that is not q4. -/
def mtBytes (t : BitVec 5) : Nat := tagWidth t / 8

/-- What OFF is scaled by: s, or 64 for the q4 types (R229). -/
def offScale (t : BitVec 5) : Nat := if tagIsQ4 t then 64 else mtBytes t

/-- b of R229. -/
def fmAddr (o : FM) (scale : Nat) : M Word := do return (← rdA o.base) + o.off.signExtend 64 * BitVec.ofNat 64 scale

/-- Whether an element's address is misaligned; a q4 access asks for a base that is a multiple of 64 (R229). (DEDUCED, log 28.) -/
def misaligned (t : BitVec 5) (b va : Word) : Bool :=
  if tagIsQ4 t then b.toNat % 64 != 0 else va.toNat % mtBytes t != 0

/-- Unit stride; code `e` of a q4 access lies in byte e div 2. -/
def unitAddr (t : BitVec 5) (b : Word) : AddrOf := fun e =>
  .ok (some { vas := [b + BitVec.ofNat 64 (if tagIsQ4 t then e / 2 else e * mtBytes t)] })

/-- A signed stride in bytes. (DEDUCED, log 30.) -/
def strideAddr (b stride : Word) : AddrOf := fun e => .ok (some { vas := [b + BitVec.ofNat 64 e * stride] })

/-- Indexed; poison of an index element is an address cause (R77). -/
def indexAddr (h : Hart) (x : Nat) (s : Nat) (b : Word) : AddrOf := fun e =>
  if (VSrc.reg x).poison h e then .error (.poisonConsumed, (VSrc.reg x).poisonTval e)
  else .ok (some { vas := [b + BitVec.ofInt 64 (truncE (VSrc.val h e (.reg x)).x * s)] })

/-- F fields per element (R81). -/
def segAddr (s f : Nat) (b : Word) : AddrOf := fun e =>
  .ok (some { vas := (List.range f).map fun g => b + BitVec.ofNat 64 ((e * f + g) * s) })

/-- The class of an index register (Table 11.3). -/
def indexFaults (h : Hart) (x : Nat) : List (Bool × Word) :=
  [((VSrc.reg x).pairHigh h || !tagIsInt ((VSrc.reg x).tag h), BitVec.ofNat 64 x)]

/-! ### Map-addressed access (R117, R233) -/

/-- The iteration vector of element `e`: tile `t` of the launch, in-tile offsets `c`. -/
def mapIter (l : Launch) (t : Nat) (c : Word) (e : Nat) : List Nat :=
  (List.range 4).map fun d =>
    l.shape d * l.tileCoord t d + (c.extractLsb' (16 * d) 16).toNat + (if d = 0 then e else 0)

/-- InRange of an iteration vector. -/
def inRange (l : Launch) (it : List Nat) : Bool := (List.range 4).all fun d => it.getD d 0 < l.extent d

/-- The address of element M·i + o (R117). -/
def SlotDesc.address (d : SlotDesc) (it : List Nat) : Word :=
  BitVec.ofInt 64 ((List.range 4).foldl (fun (a : Int) r =>
    a + d.stride r * ((List.range 4).foldl (fun (x : Int) c => x + d.map r c * (it.getD c 0 : Nat)) (d.offset r))) (d.base : Nat))

/-- Addresses through a slot. -/
def mapAddr (l : Launch) (d : SlotDesc) (t : Nat) (c : Word) : AddrOf := fun e =>
  let it := mapIter l t c e
  .ok (if inRange l it then some { vas := [d.address it], iter := some it } else none)

/-- End of the windows of a splice: its Cask need (R144). -/
def State.spliceEnd (s : State) (t : Team) : Nat := (s.chainOf t).foldl (fun m l => max m (l.window + l.windowLen)) 0

/-- The rights of an access through slot `k` (R145, R232): not the raw-address rule, and the windows where the slot is
redirected. An iteration outside the matched tile is bounded by the end of all windows. (DEDUCED, log 27; DESIGN CHOICE, log 74.) -/
def State.slotRights (s : State) (n k : Nat) : Rights :=
  let r := { s.rightsOf n with stackOnly := none }
  match s.teamOf n with
  | some t => if (s.redirected n).contains k then { r with caskBound := s.spliceEnd t } else r
  | none => r

/-! ### Run-ahead translation (R76, R77) -/

/-- An element whose translations succeeded: for each field its virtual address, physical address and leaf. -/
structure Placed where
  e : Nat
  fields : List (Word × Nat × Word)
  iter : Option (List Nat)
  deriving DecidableEq, Repr

/-- The failing element of a plan, with its cause and `sr.tval`. -/
structure PlanFault where
  e : Nat
  cause : Cause
  tval : Word
  iter : Option (List Nat)
  deriving DecidableEq, Repr

/-- Translate the fields of one element. -/
def placeFields (r : Rights) (acc : Access) (bad : Word → Bool) : List Word → M (Except (Cause × Word) (List (Word × Nat × Word)))
  | [] => pure (.ok [])
  | va :: vas => do
    if bad va then return .error (.misalign, va)
    match ← attempt (translateWith r va acc) with
    | .ok (pa, leaf) => match ← placeFields r acc bad vas with
      | .ok fs => return .ok ((va, pa, leaf) :: fs)
      | .error e => return .error e
    | .error (.trap c t _) => return .error (c, t)
    | .error e => throw e

/-- Translate the fields of element `e`; one out of range has none. -/
def placeElem (r : Rights) (acc : Access) (bad : Word → Bool) (addr : AddrOf) (e : Nat) : M (Except PlanFault (Option Placed)) := do
  match addr e with
  | .error (c, t) => return .error ⟨e, c, t, none⟩
  | .ok none => return .ok none
  | .ok (some p) => match ← placeFields r acc bad p.vas with
    | .error (c, t) => return .error ⟨e, c, t, p.iter⟩
    | .ok fs => return .ok (some ⟨e, fs, p.iter⟩)

/-- Translate every element, in order, and report the lowest that fails; elements out of range are passed over (R76, R77). -/
def planElems (r : Rights) (acc : Access) (bad : Word → Bool) (addr : AddrOf) : List Nat → M (List Placed × Option PlanFault)
  | [] => pure ([], none)
  | e :: es => do
    let placed ← placeElem r acc bad addr e
    let (ps, f) ← planElems r acc bad addr es
    match placed with
    | .error x => return ([], some x)
    | .ok none => return (ps, f)
    | .ok (some p) => return (p :: ps, f)

/-- Active elements at or above `sr.vstart` and below vl. -/
def Hart.active (h : Hart) (mk : BitVec 4) : List Nat := (span h.start h.vlen).filter (h.maskOf mk).getLsbD

/-- Raise the cause of a failed element (R77, R78). -/
def PlanFault.raise {α : Type} (f : PlanFault) : M α := do
  modifyHart fun h => { h with elemIter := f.iter }
  throw (.trap f.cause f.tval f.e)

/-! ### Loads (R26, R230) -/

/-- A load deposits nothing while the supervisor runs, and no entry above eight (R27, R355). -/
def queueRoom (q : Nat) : M Unit := do
  let h ← myHart
  if 8 ≤ (h.queue q).length then illegal (BitVec.ofNat 64 (0x100 + q))
  if h.supv then illegal 0x900

/-- The entry that a load fills: a new one, its elements undefined so far, or the one kept at the stop (R26, R230). -/
def openEntry (mt : BitVec 5) : M Unit := do
  let x ← freshReg
  modifyHart fun h => match h.partQ with
    | some _ => if h.start = 0 then { h with partQ := some ⟨mt, x, 0⟩ } else h
    | none => { h with partQ := some ⟨mt, x, 0⟩ }

/-- Element `e` of the open entry. -/
def Hart.deposit (h : Hart) (e x : Nat) (poison : Bool) : Hart :=
  { h with partQ := h.partQ.map fun q =>
      { q with data := putBits q.data (tagWidth q.mt) e x, poison := putMask q.poison e poison } }

/-- The open entry enters its queue. -/
def Hart.closeEntry (h : Hart) (q : Nat) : Hart :=
  match h.partQ with
  | some x => { h with q := Tbl.set [] h.q q (h.queue q ++ [x]), partQ := none }
  | none => h

/-- One element of memory read as `mt`: its pattern, and whether a byte is poisoned. Where its address comes from a-register `base`
alone, the access may have performed early (R93). (DESIGN CHOICE, log 7.) -/
def readElem (base : Option (BitVec 6)) (mt : BitVec 5) (e pa : Nat) : M (Nat × Bool) := do
  let n := if tagIsQ4 mt then 1 else mtBytes mt
  let bs ← match base with
    | some b => readAhead b pa n
    | none => readPhys pa n
  return (if tagIsQ4 mt then valueOf bs / 16 ^ (e % 2) % 16 else valueOf bs, anyPoison bs)

/-- A loaded pattern rounded into register `r`; the conversion of a poisoned one raises no flag (R230). (DEDUCED, log 28.) -/
def loadInto (h : Hart) (mt : BitVec 5) (r : Nat) (x : Nat × Bool) : Nat × Flags :=
  let d := h.vreg (h.rot r)
  if mt = d.tag then (x.1, 0)
  else
    let v := readAs mt x.1
    let (p, f) := convert d.tag d.sat h.rm v
    (p, if x.2 then 0 else f ||| v.x.snan)

/-- The registers of an element written, poison with them. -/
def Hart.putFields (h : Hart) (e : Nat) : List (Nat × Nat × Bool) → Hart
  | [] => h
  | (r, x, p) :: rest => (h.setElem (h.rot r) e x p).putFields e rest

/-- A load's destination: its queue and its registers (Table 11.2); and the a-register that its addresses come from, where they come
from nothing else. -/
structure LoadDest where
  queue : Option Nat
  regs : List Nat
  mu : Bool
  base : Option (BitVec 6) := none
  deriving DecidableEq, Repr

/-- One active element of a load. -/
def loadElem (mt : BitVec 5) (d : LoadDest) (p : Placed) : M Unit := do
  modifyHart fun h => { h with vstart := BitVec.ofNat 64 p.e, elemIter := p.iter }
  let xs ← collect p.fields fun f => readElem d.base mt p.e f.2.1
  match d.queue, xs with
  | some _, (x, poi) :: _ => modifyHart (·.deposit p.e x poi)
  | _, _ => pure ()
  let h ← myHart
  let ys := (d.regs.zip xs).map fun rx => (rx.1, loadInto h mt rx.1 rx.2, rx.2.2)
  let fl := ys.foldl (fun (f : Flags) y => f ||| y.2.1.2) 0
  if fl &&& h.en != 0 then throw (.trap .fpTrap (fl.setWidth 64) p.e)
  modifyHart fun h => (h.putFields p.e (ys.map fun y => (y.1, y.2.1.1, y.2.2))).addFlags fl

/-- An element that does not load: 0 in the entry, and in the registers when MU is 1. (DEDUCED, log 28.) -/
def loadIdle (d : LoadDest) (e : Nat) : M Unit := modifyHart fun h =>
  let h := if d.queue.isSome then h.deposit e 0 false else h
  if d.mu then h.putFields e (d.regs.map fun r => (r, 0, false)) else h

/-- The loop of R230 over the elements below `hi`. (DEDUCED, log 28.) -/
def loadLoop (mt : BitVec 5) (d : LoadDest) (ps : List Placed) : List Nat → M Unit
  | [] => pure ()
  | e :: es => do
    mayCut e
    match ps.find? (·.e == e) with
    | some p => loadElem mt d p
    | none => loadIdle d e
    loadLoop mt d ps es

/-- A vector load (R33, R77, R230): checks, run-ahead translation, the loop over the elements below the failing one, then the
trap where that is the first active one, or the trim and the entry. -/
def vectorLoad (mt : BitVec 5) (d : LoadDest) (mk : BitVec 4) (r : State → Rights) (bad : Word → Bool)
    (faults : Hart → List (Bool × Word)) (addr : Hart → M AddrOf) : M Unit := do
  match d.queue with
  | some q => queueRoom q
  | none => pure ()
  tagCheck faults
  if d.queue.isSome then openEntry mt
  let h ← myHart
  if h.start < h.vlen then
    let a ← addr h
    let (ps, f) ← planElems (r (← get)) .load bad a (h.active mk)
    let hi := match f with
      | some f => f.e
      | none => h.vlen
    let touched := fun e => d.mu || ps.any (·.e == e)
    d.regs.foldl (fun m r => spoiling r h.start hi touched m) (loadLoop mt d ps (span h.start hi))
    match f with
    | some f => if ps.isEmpty then f.raise else modifyHart fun h => { h with vl := BitVec.ofNat 64 f.e }
    | none => pure ()
  match d.queue with
  | some q => modifyHart (·.closeEntry q)
  | none => pure ()

/-- The destinations of Table 11.2. -/
def destOf (o : FM) : LoadDest :=
  { queue := if o.seg.getLsbD 0 then none else some o.q.toNat, regs := if o.wr then [o.v.toNat] else [], mu := o.mu }

/-- A destination register that is the upper one of a pair (R31). -/
def destFaults (regs : List Nat) (h : Hart) : List (Bool × Word) :=
  regs.map fun r => (h.isPairHigh (h.rot r), BitVec.ofNat 64 r)

/-- The rights of a raw-address access. -/
def rawRights (s : State) : Rights := s.rightsOf s.cur

def execVld (o : FM) (s : State) : Host.Outcome State Fault Refusal :=
  ap (do
    let b ← fmAddr o (offScale o.mt)
    vectorLoad o.mt { destOf o with base := some o.base } o.msk rawRights (misaligned o.mt b) (destFaults (destOf o).regs)
      fun _ => pure (unitAddr o.mt b)) s

def execVlds (o : FM) (s : State) : Host.Outcome State Fault Refusal :=
  ap (do
    let b ← fmAddr o (offScale o.mt)
    let st ← rdA (aField o.x)
    vectorLoad o.mt (destOf o) o.msk rawRights (misaligned o.mt b) (destFaults (destOf o).regs)
      fun _ => pure (strideAddr b st)) s

def execVldx (o : FM) (s : State) : Host.Outcome State Fault Refusal :=
  ap (do
    let b ← fmAddr o (offScale o.mt)
    vectorLoad o.mt (destOf o) o.msk rawRights (misaligned o.mt b)
      (fun h => destFaults (destOf o).regs h ++ indexFaults h o.x.toNat)
      fun h => pure (indexAddr h o.x.toNat (mtBytes o.mt) b)) s

/-- Registers of the F fields (R81): every second one for a 64-bit tag, where the tag of the first register stands for all.
(DESIGN CHOICE, log 72.) -/
def segRegs (h : Hart) (v f : Nat) : List Nat :=
  let step := if tagWidth (h.vreg (h.rot v)).tag = 64 then 2 else 1
  (List.range f).map fun g => v + step * g

/-- Every register of a segment access exists, and is even where its tag is 64 bits wide (R81). -/
def checkSegRegs (rs : List Nat) : M Unit := do
  let h ← myHart
  match rs.find? fun r => 255 < r || (tagWidth (h.vreg (h.rot r)).tag == 64 && h.rot r % 2 == 1) with
  | some r => illegal (BitVec.ofNat 64 r)
  | none => pure ()

/-- F of a segment access. (DEDUCED, log 28.) -/
def segFields (o : FM) : Nat := o.seg.toNat + 1

def execVldseg (o : FM) (s : State) : Host.Outcome State Fault Refusal :=
  ap (do
    let b ← fmAddr o (offScale o.mt)
    let rs := segRegs (← myHart) o.v.toNat (segFields o)
    checkSegRegs rs
    vectorLoad o.mt { queue := none, regs := rs, mu := o.mu, base := some o.base } o.msk rawRights (misaligned o.mt b) (destFaults rs)
      fun _ => pure (segAddr (mtBytes o.mt) (segFields o) b)) s

/-- The slot of a map-addressed access. -/
def slotIx (o : FM) : Nat := (o.off.extractLsb' 0 3).toNat

/-- The latched descriptor of a slot. -/
def Hart.slotDesc (h : Hart) (k : Nat) : SlotDesc := h.desc.getD k {}

/-- Element type of a map-addressed access: the slot's TYPE; an unused or bad slot has none, and n32 stands for it. -/
def SlotDesc.elemType (d : SlotDesc) : BitVec 5 := if d.bad || d.acc = 0 then 2 else BitVec.ofNat 5 d.type

/-- A q4 TYPE, and for a queue a TYPE wider than 32 bits, is refused (R229, R233). (DEDUCED, log 27.) -/
def checkSlotType (t : BitVec 5) (queue : Bool) : M Unit := do
  if tagIsQ4 t || (queue && tagWidth t = 64) then illegal 0x402

/-- A bad slot, or one whose ACC does not allow the access, raises PROT with 0x600 + n (R133, R233). (DEDUCED, log 27.) -/
def checkSlotAcc (k : Nat) (d : SlotDesc) (ok : List Nat) : M Unit := do
  let h ← myHart
  if h.start < h.vlen && (d.bad || !ok.contains d.acc) then throw (.trap .prot (BitVec.ofNat 64 (0x600 + k)) h.start)

/-- A map-addressed access stands at element `sr.vstart`: its iteration vector is that of a record (R346). -/
def atFirstElem (o : FM) : M Unit := do
  let s ← get
  let t ← rdA (aField o.x)
  let c ← rdA o.base
  match s.launchOf s.cur with
  | some l => modifyHart fun h => { h with elemIter := some (mapIter l t.toNat c h.start) }
  | none => pure ()

/-- The addresses of a map-addressed access of the running hart. -/
def slotAddr (o : FM) (d : SlotDesc) : M AddrOf := do
  let s ← get
  let t ← rdA (aField o.x)
  let c ← rdA o.base
  match s.launchOf s.cur with
  | some l => return mapAddr l d t.toNat c
  | none => return fun _ => .ok none

/-- (DEDUCED, log 27.) -/
def execVldm (o : FM) (s : State) : Host.Outcome State Fault Refusal :=
  ap (do
    let k := slotIx o
    let d := (← myHart).slotDesc k
    let dest := destOf o
    match dest.queue with
    | some q => queueRoom q
    | none => pure ()
    checkSlotType d.elemType dest.queue.isSome
    atFirstElem o
    tagCheck (destFaults dest.regs)
    checkSlotAcc k d [1, 3, 4]
    vectorLoad d.elemType dest o.msk (fun s => s.slotRights s.cur k) (misaligned d.elemType 0) (destFaults dest.regs)
      fun _ => slotAddr o d) s

/-- `vpref` may be ignored, and is (R234). -/
def execVpref (_o : FM) (s : State) : Host.Outcome State Fault Refusal := ap (pure ()) s

/-! ### Stores (R78, R102, R231) -/

/-- A write that is ready to perform: bytes, or for a q4 code the half of the byte that it takes and whether the other half is
written by the same instruction. -/
structure Staged where
  pa : Nat
  bytes : List PByte
  half : Option (Nat × Bool) := none
  deriving DecidableEq, Repr

/-- The byte at `pa` as hart `n` reads it, in memory or in the register window. -/
def State.hartOld (s : State) (n pa : Nat) : PByte × State :=
  if windowOf pa = .register then
    let r := windowBytes pa 1 s
    (r.1.headD ⟨0, false⟩, r.2)
  else (s.hartByte n pa, s)

/-- Perform a staged write. A q4 code leaves the other half of its byte, and poison of the byte unless both halves are new. -/
def performStaged (w : Staged) : M Unit := modify fun s =>
  match w.half with
  | none => s.issueStore s.cur w.pa w.bytes
  | some (k, both) =>
    let (old, s) := s.hartOld s.cur w.pa
    let x := (w.bytes.headD ⟨0, false⟩).val.toNat
    let v := if k = 0 then old.val.toNat / 16 * 16 + x % 16 else old.val.toNat % 16 + x % 16 * 16
    s.issueStore s.cur w.pa [⟨BitVec.ofNat 8 v, old.poi && !both⟩]

/-- The pattern that a register element is stored as (R48, R231). (DEDUCED, log 18.) -/
def storeFrom (h : Hart) (mt : BitVec 5) (r e : Nat) : Nat × Flags :=
  let d := h.vreg (h.rot r)
  if mt = d.tag then (h.elem (h.rot r) e, 0)
  else
    let v := readAs d.tag (h.elem (h.rot r) e)
    let (p, f) := convert mt d.sat h.rm v
    (p, f ||| v.x.snan)

/-- The bytes of a plan cover the `n` bytes at `u` (R360). (DEDUCED, log 28.) -/
def coversUnit (mt : BitVec 5) (ps : List Placed) (u n : Nat) : Bool :=
  (List.range n).all fun i =>
    if tagIsQ4 mt then 2 ≤ (ps.filter fun p => p.fields.any fun f => f.2.1 == u + i).length
    else ps.any fun p => p.fields.any fun f => f.2.1 ≤ u + i && u + i < f.2.1 + mtBytes mt

/-- Bytes that a store of one element takes at each of its addresses. -/
def storeLen (mt : BitVec 5) : Nat := if tagIsQ4 mt then 1 else mtBytes mt

/-- One element of a store made ready: poison, the conversion's flags, then the checks of a performing store. (DEDUCED, log 28.) -/
def stageElem (mt : BitVec 5) (regs : List Nat) (ps : List Placed) (p : Placed) : M (List Staged) := do
  modifyHart fun h => { h with vstart := BitVec.ofNat 64 p.e, elemIter := p.iter }
  let h ← myHart
  match firstPoison h (regs.map .reg) p.e with
  | some t => throw (.trap .poisonConsumed t p.e)
  | none => pure ()
  let xs := regs.map fun r => storeFrom h mt r p.e
  let fl := xs.foldl (fun (f : Flags) x => f ||| x.2) 0
  if fl &&& h.en != 0 then throw (.trap .fpTrap (fl.setWidth 64) p.e)
  forEach p.fields fun f => readyToWrite f.1 f.2.1 (storeLen mt) f.2.2 (coversUnit mt ps)
  modifyHart (·.addFlags fl)
  return (p.fields.zip xs).map fun fx =>
    if tagIsQ4 mt then
      { pa := fx.1.2.1, bytes := cleanBytes [BitVec.ofNat 8 fx.2.1],
        half := some (p.e % 2, p.e % 2 == 1 && ps.any (·.e == p.e - 1)) }
    else { pa := fx.1.2.1, bytes := cleanBytes (bytesOf (mtBytes mt) fx.2.1) }

/-- A stop of an element is a stop at that element. -/
def Stop.at (e : Nat) : Stop → Stop
  | .trap c t _ => .trap c t e
  | x => x

/-- Make the elements ready in order, until one stops. -/
def stageAll (mt : BitVec 5) (regs : List Nat) (all : List Placed) : List Placed → M (List Staged × Option (Nat × Stop))
  | [] => pure ([], none)
  | p :: ps => do
    match ← attempt (do mayCut p.e; stageElem mt regs all p) with
    | .error x => return ([], some (p.e, x.at p.e))
    | .ok ws => do
      let (rest, f) ← stageAll mt regs all ps
      return (ws ++ rest, f)

/-- Make the elements ready until one stops; the elements of `cover` count for the units that the store replaces whole, and those at
and above a stop do not, since they are not stored (R360). `k` bounds how often the covering elements become fewer. -/
def stageFrom (mt : BitVec 5) (regs : List Nat) (ps : List Placed) (s : State) :
    Nat → List Placed → M (List Staged × Option (Nat × Stop))
  | 0, cover => stageAll mt regs cover ps
  | k + 1, cover => do
    let r ← stageAll mt regs cover ps
    match r.2 with
    | some (e, _) =>
      if cover.any fun p => e ≤ p.e then do
        set s
        stageFrom mt regs ps s k (cover.filter fun p => p.e < e)
      else return r
    | none => return r

/-- Make the elements ready until one stops, and forget the latent errors of the units that those below it replace whole (R360). -/
def stagePlan (mt : BitVec 5) (regs : List Nat) (ps : List Placed) : M (List Staged × Option (Nat × Stop)) := do
  let r ← stageFrom mt regs ps (← get) ps.length ps
  let done := match r.2 with
    | some (e, _) => ps.filter fun p => p.e < e
    | none => ps
  modify (·.forgetErrors (coversUnit mt done))
  return r

/-- A write put among writes by a key. -/
def insertKey (k : Word) (w : Staged) : List (Word × Staged) → List (Word × Staged)
  | [] => [(k, w)]
  | x :: xs => if k.toNat < x.1.toNat then (k, w) :: x :: xs else x :: insertKey k w xs

/-- Writes in an order that nothing fixes (R102): by fresh keys. (DESIGN CHOICE, log 31.) -/
def anyOrder : List Staged → M (List (Word × Staged))
  | [] => pure []
  | w :: ws => do
    let k ← freshWord
    return insertKey k w (← anyOrder ws)

/-- A vector store: translation, the elements below the first that stops, then the stop (R78). `free` asks for any order. -/
def vectorStore (mt : BitVec 5) (regs : List Nat) (mk : BitVec 4) (r : State → Rights) (bad : Word → Bool) (free : Bool)
    (faults : Hart → List (Bool × Word)) (addr : Hart → M AddrOf) : M Unit := do
  tagCheck faults
  let h ← myHart
  if h.start < h.vlen then
    let a ← addr h
    let (ps, f) ← planElems (r (← get)) .store bad a (h.active mk)
    let (ws, st) ← stagePlan mt regs ps
    if free && !h.det then forEach (← anyOrder ws) fun w => performStaged w.2 else forEach ws performStaged
    match st, f with
    | some (e, x), _ => do
      modifyHart fun h => { h with vstart := BitVec.ofNat 64 e }
      throw x
    | none, some f => f.raise
    | none, none => pure ()

def execVst (o : FM) (s : State) : Host.Outcome State Fault Refusal :=
  ap (do
    let b ← fmAddr o (offScale o.mt)
    vectorStore o.mt [o.v.toNat] o.msk rawRights (misaligned o.mt b) false (destFaults [o.v.toNat])
      fun _ => pure (unitAddr o.mt b)) s

def execVsts (o : FM) (s : State) : Host.Outcome State Fault Refusal :=
  ap (do
    let b ← fmAddr o (offScale o.mt)
    let st ← rdA (aField o.x)
    vectorStore o.mt [o.v.toNat] o.msk rawRights (misaligned o.mt b) false (destFaults [o.v.toNat])
      fun _ => pure (strideAddr b st)) s

/-- (DESIGN CHOICE, log 31.) -/
def execVstx (o : FM) (s : State) : Host.Outcome State Fault Refusal :=
  ap (do
    let b ← fmAddr o (offScale o.mt)
    vectorStore o.mt [o.v.toNat] o.msk rawRights (misaligned o.mt b) true
      (fun h => destFaults [o.v.toNat] h ++ indexFaults h o.x.toNat)
      fun h => pure (indexAddr h o.x.toNat (mtBytes o.mt) b)) s

def execVstseg (o : FM) (s : State) : Host.Outcome State Fault Refusal :=
  ap (do
    let b ← fmAddr o (offScale o.mt)
    let rs := segRegs (← myHart) o.v.toNat (segFields o)
    checkSegRegs rs
    vectorStore o.mt rs o.msk rawRights (misaligned o.mt b) false (destFaults rs)
      fun _ => pure (segAddr (mtBytes o.mt) (segFields o) b)) s

/-- (DEDUCED, log 27.) -/
def execVstm (o : FM) (s : State) : Host.Outcome State Fault Refusal :=
  ap (do
    let k := slotIx o
    let d := (← myHart).slotDesc k
    checkSlotType d.elemType false
    atFirstElem o
    tagCheck (destFaults [o.v.toNat])
    checkSlotAcc k d [2, 3, 4]
    vectorStore d.elemType [o.v.toNat] o.msk (fun s => s.slotRights s.cur k) (misaligned d.elemType 0) false
      (destFaults [o.v.toNat]) fun _ => slotAddr o d) s

/-! ### Scatter-add (R235) -/

/-- The new value of one scatter-add. -/
def amoAddValue (mt : BitVec 5) (x old : Nat) : Nat :=
  if tagIsFloat mt then faddBytes (mtBytes mt) old x else (old + x) % 2 ^ tagWidth mt

/-- The atomic adds of the elements in order; `sr.vstart` moves with them, so that none is repeated. -/
def amoAddLoop (mt : BitVec 5) (v : Nat) : List Placed → M Unit
  | [] => pure ()
  | p :: ps => do
    mayCut p.e
    modifyHart fun h => { h with vstart := BitVec.ofNat 64 p.e }
    let h ← myHart
    match firstPoison h [.reg v] p.e with
    | some t => throw (.trap .poisonConsumed t p.e)
    | none => pure ()
    let (x, fl) := storeFrom h mt v p.e
    if fl &&& h.en != 0 then throw (.trap .fpTrap (fl.setWidth 64) p.e)
    forEach p.fields fun f => do
      match ← attempt (atomicAt f.1 (mtBytes mt) fun old => some (amoAddValue mt x old)) with
      | .ok _ => pure ()
      | .error x => throw (x.at p.e)
    modifyHart (·.addFlags fl)
    amoAddLoop mt v ps

def execVamoadd (o : FM) (s : State) : Host.Outcome State Fault Refusal :=
  ap (do
    let b ← fmAddr o (offScale o.mt)
    tagCheck fun h => destFaults [o.v.toNat] h ++ indexFaults h o.x.toNat
    let h ← myHart
    if h.start < h.vlen then
      let (ps, f) ← planElems (rawRights (← get)) .atomic (misaligned o.mt b) (indexAddr h o.x.toNat (mtBytes o.mt) b)
        (h.active o.msk)
      amoAddLoop o.mt o.v.toNat ps
      match f with
      | some f => f.raise
      | none => pure ()) s

end Sys2Proof.Machine
end

