-- ==== Sys2Proof/Machine/Waits.lean ====
section
/-! DEFINITION. How a wait ends (02 R41, Table 2.6). A hart that waits looks again when what it waits for has changed; it then
completes, traps, or goes on waiting as before. -/

namespace Sys2Proof.Machine

/-- Whether a wait of hart `n` may end: its team runs, or stops while the hart is still to complete its instruction (Table 2.6). -/
def State.awake (s : State) (n : Nat) : Bool :=
  (s.hart n).status = .running && match s.teamOf n with
  | some t => t.status = .running || (t.status = .stopping && (s.hart n).finishing)
  | none => true

/-- Hart `n` runs `m` in place of its wait. -/
def State.lookAgain (s : State) (n : Nat) (m : M Unit) : Host.Outcome State Fault Refusal :=
  runIn unitAp false m { s.setHart n { s.hart n with wait := none } with cur := n }

/-- Hart `n`, waiting in `w`, looks again: nothing happens where it would go on waiting as it does. -/
def State.tryAgain (s : State) (n : Nat) (w : Wait) (m : M Unit) : Host.Outcome State Fault Refusal :=
  if s.awake n then
    match s.lookAgain n m with
    | .next s' => if (s'.hart n).wait = some w then .next s else .next s'
    | x => x
  else .next s

/-- The wait of hart `n` is over, and its instruction runs again (R41). -/
def State.endWait (s : State) (n : Nat) : State := s.setHart n { s.hart n with wait := none }

/-- The stall of a releasing or fencing instruction is over, and the instruction runs to its end (R95). -/
def State.endStall (s : State) (n : Nat) : State := s.setHart n { s.hart n with wait := none, released := true }

end Sys2Proof.Machine
end

