-- ==== Sys2Proof/Machine/Ordering.lean ====
section
/-! DEFINITION. Fences, persistence, stamps and clocks of major 0x38, and the events that end their waits (05_ordering R95, R99,
R104-R113; 11_memory R244-R248). -/

namespace Sys2Proof.Machine

/-! ### Fences (R95, R99) -/

/-- `fence`. -/
def execFence (o : FC) (s : State) : Host.Outcome State Fault Refusal :=
  ap (releaseAt (o.x.extractLsb' 0 3).toNat) s

/-- The before and after masks of `fence.path`. -/
def pathBefore (o : FC) : BitVec 6 := o.x.extractLsb' 6 6
def pathAfter (o : FC) : BitVec 6 := o.x.extractLsb' 0 6

/-- Whether the accesses that a before mask counts are complete (R99). Observed copies, landed fetches and accepted packets
are complete already; L is bit 0, M bit 2, P bit 5. -/
def State.pathDone (s : State) (n : Nat) (b : BitVec 6) : Bool :=
  (!b.getLsbD 0 || s.storesDone n) && (!b.getLsbD 2 || (s.hart n).mbuf.isEmpty) && (!b.getLsbD 5 || s.hartDurable n)

/-- `fence.path`: an empty mask makes it a no-op. (DEDUCED, log 33.) -/
def execFencePath (o : FC) (s : State) : Host.Outcome State Fault Refusal :=
  ap (do
    if pathBefore o = 0 || pathAfter o = 0 then pure ()
    else
      modifyHart Hart.drainWcb
      let s ← get
      if (s.hart s.cur).released || s.pathDone s.cur (pathBefore o) then
        modifyHart fun h => { h.countFence with released := false, early := if (pathAfter o).getLsbD 0 then [] else h.early }
      else throw (.wait (.fencePath (pathBefore o)))) s

/-- A waiting fence or release at a scope, looked at: its promises hold, or the moment at which the die's clock is counted has
come. (DEDUCED, log 33.) -/
def State.fenceLook (s : State) (n scope : Nat) (snap : List Nat) : State :=
  if !s.storesDone n then s
  else if scope ≤ 2 then s.endStall n
  else
    let snap' := if snap = [] then s.clockOf (dieOf n) else snap
    if s.countedApplied snap' (scope = 4 || scope = scopeBoth) && (scope < 5 || s.hartDurable n) then s.endStall n
    else s.setWait n (.fence scope snap')

/-- (DEDUCED, log 33.) -/
def execFenceDone (s : State) : Host.Outcome State Fault Refusal :=
  let n := s.ev.hart
  match (s.hart n).wait with
  | some (.fence scope snap) => if s.awake n && scope < 5 then .next (s.fenceLook n scope snap) else .next s
  | some (.fencePath b) => if s.awake n && s.pathDone n b then .next (s.endStall n) else .next s
  | _ => .next s

/-! ### Persistence (R111-R113, R245) -/

/-- `fence.dur`. -/
def execFenceDur (s : State) : Host.Outcome State Fault Refusal :=
  ap (do
    notInSplice
    modifyHart Hart.drainWcb
    let s ← get
    if (s.hart s.cur).released || s.hartDurable s.cur then modifyHart fun h => { h.countFence with released := false, early := [] }
    else throw (.wait .fenceDur)) s

/-- (DEDUCED, log 33.) -/
def execFenceDurDone (s : State) : Host.Outcome State Fault Refusal :=
  let n := s.ev.hart
  match (s.hart n).wait with
  | some .fenceDur => if s.awake n && s.hartDurable n then .next (s.endStall n) else .next s
  | some (.fence scope snap) => if s.awake n && 5 ≤ scope then .next (s.fenceLook n scope snap) else .next s
  | _ => .next s

/-- Whether a Cellar store of hart `n` from an epoch below `e` is not durable yet. -/
def State.epochOpen (s : State) (n e : Nat) : Bool :=
  let h := s.hart n
  ((h.sbuf ++ h.wcb ++ h.mbuf).any fun x => inCellar x.pa && x.epoch < e) ||
  (s.cellarPend.any fun c => c.hart = some n && c.epoch < e) ||
  (s.stampq.any fun x => x.hart = n && inCellar x.pa && x.epoch < e)

/-- The hart's epochs that are durable, oldest first, are counted in `sr.pcount` (R112). -/
def countEpochs (s : State) (n : Nat) : List Nat → Word → List Nat × Word
  | [], c => ([], c)
  | e :: es, c => if s.epochOpen n e then (e :: es, c) else countEpochs s n es (c + 1)

/-- `pbar` instructions of hart `n` whose epochs are durable complete. -/
def State.finishPbars (s : State) (n : Nat) : State :=
  let h := s.hart n
  let (ps, c) := countEpochs s n h.pbars h.pcount
  s.setHart n { h with pbars := ps, pcount := c }

/-- The final values of rank `r` of team `ti`, which has ended, with the `pbar` instructions counted whose epochs are durable by now. -/
def State.settleFinal (s : State) (ti r : Nat) (f : Final) : Final :=
  let (ps, c) := countEpochs s (orphan ti r) f.pbars f.pcount
  { f with pbars := ps, pcount := c }

/-- Every `pbar` completes whose epochs have become durable, of harts that run and of harts whose team has ended: what has become
durable is counted before anything later can (R112, R114). -/
def State.settlePbars (s : State) : State :=
  let s := ((s.harts.filter fun e => e.2.pbars != []).map (·.1)).foldl State.finishPbars s
  { s with teams := s.teams.map fun e => (e.1, match e.2 with
      | some t => if t.final.any (fun f => f.pbars != []) then
          some { t with final := t.final.mapIdx fun r f => s.settleFinal e.1 r f } else some t
      | none => none) }

/-- `pbar` closes the epoch and never stalls; one with no earlier Cellar store completes at once (R245). -/
def execPbar (s : State) : Host.Outcome State Fault Refusal :=
  ap (do
    notInSplice
    modifyHart fun h => { h with epoch := h.epoch + 1, pbars := h.pbars ++ [h.epoch + 1] }
    modify State.settlePbars) s

/-- PBAR_COMPLETE: the epochs that have become durable are counted. (DEDUCED, log 35.) -/
def execPbarComplete (s : State) : Host.Outcome State Fault Refusal := .next s.settlePbars

/-! ### Stamps (R105-R110, R246, R247) -/

/-- Width of the interval of a die's clock, in ns. -/
def State.clockWidth (s : State) (d : Nat) : Nat := (s.interval d).2 - (s.interval d).1

/-- CLOCK_WIDE where the interval is wider than WIDTH of `sr.clkw` (R105). -/
def checkClock : M Unit := do
  let s ← get
  let w := s.clockWidth (dieOf s.cur)
  raiseIf (((s.hart s.cur).clkw.extractLsb' 0 32).toNat < w) .clockWide (BitVec.ofNat 64 w)

/-- The settled mark of a stamp domain as the home of a cell holds it; a peer's cells go by the asking die (R105, R107). -/
def State.markAt (s : State) (fabric : Bool) (pa d : Nat) : Nat :=
  let x := s.die (if homeOf pa = fabricAgent then d else homeOf pa)
  if fabric then x.fmark else x.mark

/-- Translation of a cell, 32-byte aligned: its physical address and whether its domain is the fabric group. A stamped store waits for
the duplicates of its page (R79). -/
def cellAt (va : Word) (acc : Access) : M (Nat × Bool) := do
  aligned va 32
  let (pa, leaf) ← translateMe va acc
  if acc = .stampStore then holdForDup va leaf
  return (pa, pteStampFabric leaf)

/-- The scope of the release of a stamped store: a Cellar store is issued only after the hart's earlier epochs (R106, R112).
(DEDUCED, log 34.) -/
def stampScope (s : State) (pa : Nat) (fabric : Bool) : Nat :=
  if inCellar pa && s.epochOpen s.cur (s.hart s.cur).epoch then (if fabric then scopeBoth else 5) else if fabric then 4 else 3

/-- The logical hart index of a hart within its launch, as its a5 holds it at the start (R120). -/
def Hart.logical (h : Hart) : Nat := h.teamIx * h.size + h.rank

/-- `st.stamp` (R246). -/
def execStStamp (o : FC) (s : State) : Host.Outcome State Fault Refusal :=
  ap (do
    notInSplice
    checkClock
    let (pa, fabric) ← cellAt (← rdA o.a) .stampStore
    let s ← get
    releaseAt (stampScope s pa fabric)
    let v ← rdA o.b
    let s ← get
    let h := s.hart s.cur
    let d := dieOf s.cur
    let st := (s.interval d).2
    let e : Stamped := ⟨pa, v, st, d, h.logical, s.cur, fabric, h.epoch, s.myKey⟩
    set { s with stampq := s.stampq ++ [e] }
    modifyHart fun h => { h with lastStamp := BitVec.ofNat 64 st }
    wrA o.d (BitVec.ofNat 64 st)) s

/-- The order of R106. -/
def Stamped.lt (a b : Stamped) : Bool :=
  a.stamp < b.stamp || (a.stamp == b.stamp && (a.die < b.die || (a.die == b.die && a.lhart < b.lhart)))

/-- The 8-byte words of a cell: CVAL, CSTAMP, PVAL, PSTAMP (Table 5.4). -/
structure Cell4 where
  cval : Nat
  cstamp : Nat
  pval : Nat
  pstamp : Nat
  deriving DecidableEq, Repr

/-- A cell as agent `d` holds it. -/
def State.cell (s : State) (d pa : Nat) : Cell4 :=
  let w := fun i => valueOf (s.wordAt d (pa + 8 * i))
  ⟨w 0, w 1, w 2, w 3⟩

/-- R108: a visible stamped store applied to a cell; none where it lies below both versions. -/
def Cell4.apply (c : Cell4) (stamp v : Nat) : Option Cell4 :=
  if c.cstamp ≤ stamp then some ⟨v, stamp, c.cval, c.cstamp⟩
  else if c.pstamp ≤ stamp then some ⟨c.cval, c.cstamp, v, stamp⟩
  else none

/-- The 32 bytes of a cell. -/
def Cell4.bytes (c : Cell4) : List Byte := bytesOf 8 c.cval ++ bytesOf 8 c.cstamp ++ bytesOf 8 c.pval ++ bytesOf 8 c.pstamp

/-- Pending Cellar stores that their home has placed and that meet a range are accepted, in home order (R92, R111). -/
def State.acceptRange (s : State) (pa n : Nat) : State :=
  let hit := fun (c : CellarStore) => c.place.isSome && rangesMeet c.pa c.bytes.length pa n
  (sortBy (fun a b => a.place.getD 0 ≤ b.place.getD 0) (s.cellarPend.filter hit)).foldl
    (fun (s : State) c => s.pokeMedia c.pa c.bytes) { s with cellarPend := s.cellarPend.filter (!hit ·) }

/-- A stamped store becomes visible: the home applies it to the cell, and a Cellar cell is durable in the same moment (R108,
R111). The cell carries the latest key of the stores that its versions come from, for an `ld.asof` (R104). (DEDUCED, log 34.) -/
def State.applyStamped (s : State) (e : Stamped) : State :=
  let home := homeOf e.pa
  let at_ := if home = fabricAgent then e.die else home
  let s := s.catchUp home
  match (s.cell home e.pa).apply e.stamp e.val.toNat with
  | none => s
  | some c =>
    let s := s.updateAtHome at_ none 0 (laterKey e.key ((s.viewOf home).keyAt e.pa)) e.pa (cleanBytes c.bytes)
    if inCellar e.pa then s.acceptRange e.pa 32 else s

/-- The lesser of two stamped stores in R106's order, the first one found where it is the only one. -/
def Stamped.least (b : Option Stamped) (e : Stamped) : Option Stamped :=
  match b with
  | none => some e
  | some x => if e.lt x then some e else b

/-- The least of the queued stamped stores that the mark of their domain has passed, once no duplicate of the cell's page is held
(R79). -/
def State.dueStamped (s : State) : Option Stamped :=
  match (s.stampq.filter fun e => e.stamp < s.markAt e.fabric e.pa e.die).foldl Stamped.least none with
  | some e => if (s.dupAt e.pa 32).isSome then none else some e
  | none => none

/-- Numbers of the harts that wait in a way that `p` names. -/
def State.waiting (s : State) (p : Wait → Bool) : List Nat :=
  (s.harts.filter fun e => match e.2.wait with
    | some w => p w
    | none => false).map (·.1)

/-- What held hart `n` is over: its instruction runs again, and where its team is stopping it completes first (Table 2.6, R134). -/
def State.resumeHeld (s : State) (n : Nat) : State :=
  let stopping := (s.teamOf n).any (·.status == .stopping)
  s.setHart n { s.hart n with wait := none, finishing := stopping }

/-- Harts that wait for a cell look again: a commit wait completes, also where a pre-emption has stopped the team (Table 2.6). -/
def State.wakeCell (s : State) (cell : Nat) : State := (s.waiting fun w => w == .commit cell).foldl State.resumeHeld s

/-- The settled mark passes the least queued stamped store (R107). -/
def execCommitWait (s : State) : Host.Outcome State Fault Refusal :=
  match s.dueStamped with
  | none => .next s
  | some e =>
    .next ((({ s with stampq := s.stampq.erase e }).applyStamped e).wakeCell (e.pa / 32 * 32)).settlePbars.settleWrites

/-- `ld.asof` as the cell stands: the value as of S, when the mark and the queue allow it (R109). (DEDUCED, log 34.) -/
def asofLook (o : FC) : M Unit := do
  notInSplice
  checkClock
  let (pa, fabric) ← cellAt (← rdA o.a) .stampLoad
  let stamp ← rdA o.b
  let s ← get
  let d := dieOf s.cur
  if s.markAt fabric pa d ≤ stamp.toNat ||
      s.stampq.any (fun e => e.pa = pa && (e.stamp ≤ stamp.toNat || e.hart = s.cur)) then
    throw (.wait (.ldAsof o))
  modify fun s => ((s.catchUp (homeOf pa)).catchUp d).findErrors d pa 32 (s.readerOf s.cur)
  let c := (← get).cell (homeOf pa) pa
  if c.cstamp ≤ stamp.toNat then wrA o.d (BitVec.ofNat 64 c.cval)
  else if c.pstamp ≤ stamp.toNat then wrA o.d (BitVec.ofNat 64 c.pval)
  else raise .stampTooOld stamp
  acquired pa 32
  advance

def execLdAsof (o : FC) (s : State) : Host.Outcome State Fault Refusal := runIn unitAp false (asofLook o) s

def execLdAsofRead (s : State) : Host.Outcome State Fault Refusal :=
  let n := s.ev.hart
  match (s.hart n).wait with
  | some (.ldAsof o) => s.tryAgain n (.ldAsof o) (asofLook o)
  | _ => .next s

/-! ### Clocks (R248) -/

/-- `clk.rd` writes earliest, then latest, of one reading. -/
def execClkRd (o : FC) (s : State) : Host.Outcome State Fault Refusal :=
  ap (do
    let s ← get
    let (lo, hi) := s.interval (dieOf s.cur)
    wrA o.d (BitVec.ofNat 64 lo)
    wrA o.b (BitVec.ofNat 64 hi)) s

/-- `clk.wait` as the clock stands. -/
def clkLook (o : FC) : M Unit := do
  checkClock
  let a ← rdA o.a
  let s ← get
  if (s.interval (dieOf s.cur)).1 ≤ a.toNat then throw (.wait (.clk o))
  advance

def execClkWait (o : FC) (s : State) : Host.Outcome State Fault Refusal := runIn unitAp false (clkLook o) s

def execClkWaitWake (s : State) : Host.Outcome State Fault Refusal :=
  let n := s.ev.hart
  match (s.hart n).wait with
  | some (.clk o) => s.tryAgain n (.clk o) (clkLook o)
  | _ => .next s

/-- The interval has grown wider than `sr.clkw` while a hart waits on the clock (Table 2.6). -/
def execClockWide (s : State) : Host.Outcome State Fault Refusal :=
  let n := s.ev.hart
  if ((s.hart n).clkw.extractLsb' 0 32).toNat < s.clockWidth (dieOf n) then
    match (s.hart n).wait with
    | some (.clk o) => s.tryAgain n (.clk o) (clkLook o)
    | some (.ldAsof o) => s.tryAgain n (.ldAsof o) (asofLook o)
    | _ => .next s
  else .next s

end Sys2Proof.Machine
end

