-- ==== Sys2Proof/Machine/System.lean ====
section
/-! DEFINITION. System instructions and special registers of major 0x10 (12_matrix R271-R273; 03 R49, R50; 04 R75, R79, R80;
21 R352-R357). -/

namespace Sys2Proof.Machine

def execNop (s : State) : Host.Outcome State Fault Refusal := ap (pure ()) s

/-- A code field X[13:0]. -/
def codeOf (o : FC) : Word := o.x.setWidth 64

/-- `trap`: `sr.epc` becomes pc + 8 (Table 12.11). -/
def execTrap (o : FC) (s : State) : Host.Outcome State Fault Refusal := ap (raise .trap (codeOf o)) s
/-- `brk`: `sr.epc` becomes pc. -/
def execBrk (o : FC) (s : State) : Host.Outcome State Fault Refusal := ap (raise .brk (codeOf o)) s

/-- The state of barrier X[4:0] as hart `n` names it: of its team, or of the launch on its die (R265). -/
def State.barrier (s : State) (n x : Nat) : Barrier :=
  if x < 16 then match s.teamOf n with
    | some t => Tbl.get {} t.bars x
    | none => {}
  else Tbl.get {} (s.die (dieOf n)).bars (16 * s.groupLaunch n + x % 16)

/-- Where a hart that waits stands when its wait is cut short: a `bar.sync` whose arrival is counted stands at the instruction
with `sr.vstart` = 1 while its phase is open, and after it once that has completed (R266). -/
def State.stoppedAt (s : State) (n : Nat) : Word × Word :=
  let h := s.hart n
  match h.wait with
  | some (.bar true gen _ o) =>
    if (s.barrier n (o.x.extractLsb' 0 5).toNat).gen = gen then (h.pc, 1) else (h.pc + 8, 0)
  | _ => (h.pc, h.vstart)

/-- The next pending copy failure of a hart is raised at an instruction boundary outside its supervisor routine: `sr.epc` is
the address of the instruction there and `sr.evstart` is 0; a wait ends and leaves the position before it. A hart that has stopped
inside an instruction, to be resumed there, first finishes it (R263). (DEDUCED, log 40.) -/
def State.raiseCopyFail (s : State) (n : Nat) : State :=
  let h := s.hart n
  match h.copyFails with
  | [] => s
  | f :: rest =>
    let entering := match h.wait with
      | some (.trapEntry ..) => true
      | _ => false
    let inside := h.wait.isNone && h.vstart != 0
    if h.supv || entering || inside || h.status ≠ .running then s
    else
      let (pc, start) := s.stoppedAt n
      let s := s.setHart n { h with copyFails := rest, wait := none, released := false }
      s.takeTrapWith n { s.trapRecord n unitCopy f.cause f.va start.toNat with unit := f.unit } f.cause f.va pc start.toNat

/-- `eret` (R271, R356): only the routine may execute it; a copy failure kept back until then is raised at its target. -/
def execEret (s : State) : Host.Outcome State Fault Refusal :=
  match runIn unitAp false (do
    supervisorOnly
    modifyHart fun h => { h.eret with released := false, elemIter := none }) s with
  | .next s' => if (s.hart s.cur).supv then .next (s'.raiseCopyFail s.cur) else .next s'
  | o => o

/-- `halt`: it waits for the hart's earlier vector and matrix instructions, drains the write-combining buffer, and retires the
hart. -/
def halted : M Unit := do
  resync
  modifyHart fun h => h.drainWcb.countFence
  advance
  modifyHart fun h => { h with status := .halted }

/-- `halt`; inside the supervisor routine it is a team fault whose record carries `sr.cause` and `sr.tval`, and what that trap's own
record would (R346, R354). -/
def execHalt (s : State) : Host.Outcome State Fault Refusal :=
  let h := s.hart s.cur
  if h.supv then
    let at_ := s.setHart s.cur { h with elemIter := h.trapIter, memErr := h.trapErr }
    .next (s.teamFault h.team (dieOf s.cur)
      (at_.trapRecord s.cur unitAp (h.cause.setWidth 8) h.tval h.evstart.toNat))
  else runIn unitAp false halted s

def execSyncAe (s : State) : Host.Outcome State Fault Refusal := ap resync s

/-! ### Special registers (R272, Tables 12.12 to 12.16) -/

/-- An index of Table 12.12. -/
def srListed (i : Nat) : Bool :=
  i ≤ 0x008 || i == 0x010 || i == 0x011 || (0x018 ≤ i && i ≤ 0x01A) || (0x020 ≤ i && i ≤ 0x022) ||
    (0x030 ≤ i && i ≤ 0x033) || (0x040 ≤ i && i ≤ 0x044)

/-- A register that Table 12.12 marks read-only in both columns. -/
def srReadOnly (i : Nat) : Bool :=
  i == 0x001 || i == 0x004 || (0x020 ≤ i && i ≤ 0x022) || (0x030 ≤ i && i ≤ 0x033) || (0x041 ≤ i && i ≤ 0x044)

/-- A register that only the supervisor routine reaches. -/
def srSupervisor (i : Nat) : Bool := 0x005 ≤ i && i ≤ 0x008

/-- A register that the program reads and only the supervisor writes. -/
def srSupervisorWrites (i : Nat) : Bool := i == 0x000 || i == 0x002

/-- `sr.mode` (Table 12.13). -/
def Hart.mode (h : Hart) : Word := BitVec.ofNat 64 (h.supv.toNat * 2 + h.det.toNat)

/-- DCORE: the logical core on its die of physical core `core` (R10). -/
def State.dcore (s : State) (core : Nat) : Nat := (s.coresOfDie (dieOfCore core)).idxOf (core % 32)

/-- `sr.id` (Table 12.14). -/
def State.srId (s : State) (n : Nat) : Word :=
  BitVec.ofNat 64 ((s.hart n).lcore % 256 * 2 ^ 32 + dieOf n % 8 * 2 ^ 16 + s.dcore (coreOf n) % 256 * 2 ^ 8 + n % 2)

/-- `sr.team` (Table 12.15). -/
def Hart.srTeam (h : Hart) : Word :=
  BitVec.ofNat 64 (h.teamIx % 2 ^ 32 * 2 ^ 16 + h.size % 64 * 2 ^ 8 + h.rank % 32)

/-- `sr.vdirty0` to `sr.vdirty3`: 64 dirty bits from architectural register `64 k` on (R35). -/
def Hart.vdirty (h : Hart) (k : Nat) : Word :=
  BitVec.ofNat 64 ((List.range 64).foldl (fun a i => a + (h.vreg (64 * k + i)).dirty.toNat * 2 ^ i) 0)

/-- The value of a special register of hart `n`. -/
def State.srValue (s : State) (n i : Nat) : Word :=
  let h := s.hart n
  match i with
  | 0x000 => h.vl
  | 0x001 => (s.die (dieOf n)).vlcap.setWidth 64
  | 0x002 => h.vstart
  | 0x003 => h.fcsr
  | 0x004 => h.mode
  | 0x005 => h.cause
  | 0x006 => h.tval
  | 0x007 => h.epc
  | 0x008 => h.evstart
  | 0x010 => h.ftab
  | 0x011 => h.slots
  | 0x018 => h.lc
  | 0x019 => h.ec
  | 0x01A => h.rrb
  | 0x020 => s.srId n
  | 0x021 => h.srTeam
  | 0x022 => h.kid
  | 0x030 => h.vdirty 0
  | 0x031 => h.vdirty 1
  | 0x032 => h.vdirty 2
  | 0x033 => h.vdirty 3
  | 0x040 => h.clkw
  | 0x041 => (s.core (coreOf n)).cdone
  | 0x042 => h.pcount
  | 0x043 => h.sva
  | 0x044 => h.mshape
  | _ => 0

/-- The index X[11:0]. -/
def srIndex (o : FC) : Nat := (o.x.extractLsb' 0 12).toNat

/-- Access checks of a read: an unlisted index, then the supervisor's registers (R272). (DEDUCED, log 25.) -/
def checkRead (i : Nat) : M Unit := do
  if !srListed i then illegal 0x402
  else raiseIf (srSupervisor i && !(← myHart).supv) .priv (BitVec.ofNat 64 i)

/-- Access checks of a write. (DEDUCED, log 25.) -/
def checkWrite (i : Nat) : M Unit := do
  if !srListed i || srReadOnly i then illegal 0x402
  else raiseIf ((srSupervisor i || srSupervisorWrites i) && !(← myHart).supv) .priv (BitVec.ofNat 64 i)

/-- `srd`: `sr.fcsr` waits by R50 and `sr.vdirty` by R28. -/
def execSrd (o : FC) (s : State) : Host.Outcome State Fault Refusal :=
  ap (do
    let i := srIndex o
    checkRead i
    if i = 0x003 || (0x030 ≤ i && i ≤ 0x033) then resync
    let s ← get
    wrA o.d (s.srValue s.cur i)) s

/-- A register without behaviour of its own, written; RO and RSV bits keep their value (R4). -/
def Hart.setSr (h : Hart) (i : Nat) (v : Word) : Hart :=
  match i with
  | 0x002 => { h with vstart := v }
  | 0x005 => { h with cause := v }
  | 0x006 => { h with tval := v }
  | 0x007 => { h with epc := v }
  | 0x008 => { h with evstart := v }
  | 0x010 => { h with ftab := v &&& ~~~0xF }
  | 0x018 => { h with lc := v }
  | 0x040 => { h with clkw := v &&& 0xFFFFFFFF }
  | _ => h

/-- `swr` of a register without behaviour of its own. A write of `sr.vstart` stands after the instruction has completed.
(DEDUCED, log 25.) -/
def execSwr (o : FC) (s : State) : Host.Outcome State Fault Refusal :=
  runIn unitAp false (do
    checkWrite (srIndex o)
    let v ← rdA o.a
    advance
    modifyHart (·.setSr (srIndex o) v)) s

/-- RM, EN and FLAGS of `sr.fcsr` (Table 3.3). -/
def fcsrMask : Word := 0x71F1F

/-- `swr sr.fcsr` (R49, R50). -/
def execSwrFcsr (o : FC) (s : State) : Host.Outcome State Fault Refusal :=
  ap (do
    let v ← rdA o.a
    if 5 ≤ (v.extractLsb' 16 3).toNat then illegal v
    resync
    modifyHart fun h => { h with fcsr := v &&& fcsrMask }) s

/-- `swr sr.slots`: the hart latches its descriptors afresh (R133); refused in a SLOT_ONLY launch that may be spliced (R136). -/
def execSwrSlots (o : FC) (s : State) : Host.Outcome State Fault Refusal :=
  ap (do
    let s ← get
    match s.launchOf s.cur with
    | some l => if l.spliceOk && l.slotOnly then illegal 0x011
    | none => pure ()
    let v ← rdA o.a
    modifyHart fun h => { h with slots := v }
    latchSlots s.cur) s

/-- `swr sr.vl`: the supervisor grants exactly a[A], up to CAP (R272). -/
def execSwrVl (o : FC) (s : State) : Host.Outcome State Fault Refusal :=
  ap (do
    checkWrite 0x000
    let v ← rdA o.a
    let s ← get
    raiseIf ((s.die (dieOf s.cur)).vlcap.toNat < v.toNat) .vlIllegal v
    modifyHart fun h => { h with vl := v }) s

/-- `sr.rrb` as it reads after a write (Table 2.3): BASE bit 0 is 0 while PAIR is 1. (DEDUCED, log 25.) -/
def rrbOf (v : Word) : Word := if v.getLsbD 6 then v &&& 0x7E else v &&& 0x3F

/-- `swr sr.rrb` (R38). -/
def execSwrRrb (o : FC) (s : State) : Host.Outcome State Fault Refusal :=
  ap (do
    let v ← rdA o.a
    modifyHart fun h => { h with rrb := rrbOf v }) s

/-- `sr.ec` as it reads after a write: SL bits at or above NS are 0 (R273). -/
def ecOf (v : Word) : Word :=
  let ns1 := (v.extractLsb' 8 3).toNat
  BitVec.ofNat 64 (ns1 * 256 + (v.extractLsb' 0 8).toNat % 2 ^ (ns1 + 1))

/-- `swr sr.ec` (R273). -/
def execSwrEc (o : FC) (s : State) : Host.Outcome State Fault Refusal :=
  ap (do
    let v ← rdA o.a
    modifyHart fun h => { h with ec := ecOf v }) s

/-! ### `tlbinv` (R75) -/

/-- Whether `tlbinv` names an entry of partition `p`: the page of `size` bytes that holds `va`, or every entry. -/
def namesEntry (p : Nat) (all : Bool) (va size : Nat) (e : TlbEntry) : Bool :=
  e.part == p && (all || (e.size == size && e.va == va / size * size))

/-- The pages, as first physical byte and bytes, of the entries that `tlbinv` names in the TLBs of a partition. -/
def State.namedPages (s : State) (p : Nat) (all : Bool) (va size : Nat) : List (Nat × Nat) :=
  let tlbs := ((s.diesOf p).map fun d => (s.die d).tlb) ++ (s.coresIn p).map fun c => (s.core c).tlb
  ((tlbs.flatten.filter (namesEntry p all va size)).map fun e => (pteAddr e.leaf, e.size)).eraseDups

/-- Hart `n`, where its supervisor routine runs, goes on in the landed copy of the segment (R364). -/
def State.keepRoutine (s : State) (n : Nat) : State :=
  let h := s.hart n
  let sup := (s.core (coreOf n)).sup
  if h.supv && h.routine.isNone && sup.landed == some true then s.setHart n { h with routine := some sup } else s

/-- Every entry that `tlbinv` names leaves every TLB of the partition. A supervisor slot whose segment lies in the page is fetched again
at the next trap entry, and a routine that runs goes on in the copy that has landed (R75, R353, R364). -/
def State.invalidate (s : State) (p : Nat) (all : Bool) (va size : Nat) : State :=
  let keep := List.filter fun e => !namesEntry p all va size e
  let s := (s.diesOf p).foldl (fun (s : State) d => s.setDie d { s.die d with tlb := keep (s.die d).tlb }) s
  (s.coresIn p).foldl (fun (s : State) c =>
    let k := s.core c
    let k := { k with tlb := keep k.tlb }
    if all || k.sup.va.toNat / size == va / size then
      ((s.keepRoutine (2 * c)).keepRoutine (2 * c + 1)).setCore c { k with sup := {} }
    else s.setCore c k) s

/-- The page that `tlbinv` names: all, address, bytes of the page size X[3:2]. -/
def tlbinvPage (o : FC) (a : Word) : Bool × Nat × Nat :=
  (o.x.getLsbD 0, a.toNat, pageSize (o.x.extractLsb' 2 2).toNat)

/-- `tlbinv` removes the entries when it is issued; it completes by TLBINV_COMPLETE, once no instruction holds a translation
that they gave. -/
def execTlbinv (o : FC) (s : State) : Host.Outcome State Fault Refusal :=
  ap (do
    supervisorOnly
    if (← myHart).released then pure ()
    else
      let a ← rdA o.a
      let (all, va, size) := tlbinvPage o a
      let s ← get
      set (s.invalidate (s.partOf s.cur) all va size)
      throw (.wait (.tlbinv (s.namedPages (s.partOf s.cur) all va size)))) s

/-! ### `pgmig` (R79, R80) -/

/-- Whether a frame of `size` bytes is aligned and lies in one window that a page may lie in (R80, Table 4.2). -/
def frameOk (frame size : Nat) : Bool :=
  frame % size == 0 && frame < 2 ^ 48 && windowOf frame = windowOf (frame + size - 1) &&
  (inHbm frame || windowOf frame = .fabric || (inCellar frame && !inRecovery (frame + size - 1)))

/-- The holder that a frame lies at: a die, or a fabric peer as 8 + p (R79, Table 4.2). -/
def holderOf (frame : Nat) : Nat :=
  if windowOf frame = .fabric then 8 + (frame - 2 ^ 47) / 2 ^ 43 else homeOf frame

/-- A leaf with another frame: LOCAL and ENC follow the frame's window (R271). -/
def moveLeaf (leaf : Word) (frame : Nat) : Word :=
  let keep : Word := leaf &&& ~~~(0x88FFFFFFFFFE00 : Word)
  let attr := (match windowOf frame with
    | .local_ _ => 2 ^ 51
    | .cellar => 2 ^ 55
    | _ => 0)
  keep ||| BitVec.ofNat 64 (frame + attr)

/-- Cells of `[src, src + size)` copied to `dst`, where what stood before is replaced. -/
def copyCells {α : Type} [DecidableEq α] (d : α) (t : Tbl α) (src dst size : Nat) : Tbl α :=
  let moved := (t.filter fun e => src ≤ e.1 && e.1 < src + size)
  moved.foldl (fun t e => Tbl.set d t (e.1 - src + dst) e.2) (t.filter fun e => e.1 < dst || dst + size ≤ e.1)

/-- A page's bytes, their poison, and the keys of its words copied to another frame in a view. -/
def View.copyRange (v : View) (src dst size : Nat) : View :=
  match v.base with
  | [] => { v with bytes := copyCells 0 v.bytes src dst size, poison := copyCells false v.poison src dst size,
                   keys := copyCells none v.keys (src / 4) (dst / 4) (size / 4) }
  | _ => (List.range size).foldl (fun w i => (w.set (dst + i) (v.get (src + i))).mark (dst + i) (v.keyAt (src + i))) v

/-- Cells of a table in a range replaced by those of another. -/
def takeCells {α : Type} [DecidableEq α] (d : α) (t u : Tbl α) (dst size : Nat) : Tbl α :=
  let inside := fun (e : Nat × α) => decide (dst ≤ e.1 ∧ e.1 < dst + size)
  (u.filter inside).foldl (fun t e => Tbl.set d t e.1 e.2) (t.filter (!inside ·))

/-- Bytes of the Cellar made durable as a view of it shows them. -/
def State.mediaFrom (s : State) (v : View) (dst size : Nat) : State :=
  { s with media := { s.media with bytes := takeCells 0 s.media.bytes v.bytes dst size,
                                   poison := takeCells false s.media.poison v.poison dst size } }

/-- A page's bytes copied to another frame for every agent; latent errors of the page are found by the copy. A Cellar frame has its
durable contents from the old frame's, or where that is not in the Cellar, from the bytes that were copied (R80, R112). -/
def State.copyFrame (s : State) (d src dst size : Nat) : State :=
  let bad := (s.latent.filter fun e => src ≤ e.1 && e.1 < src + size).map (·.1)
  let s := bad.foldl (fun s u => s.findError d u {}) s
  let s := s.mapViews (·.copyRange src dst size)
  let s := { s with latent := s.latent.filter fun e => e.1 < dst || dst + size ≤ e.1 }
  if !inCellar dst then s
  else if inCellar src then { s with media := s.media.copyRange src dst size }
  else s.mediaFrom (s.viewOf (homeOf dst)) dst size

/-- The status that `pgmig` writes at once: 3 for a bad frame, 2 for a page without DUP, 1 for a page whose holders are full;
none where there is work to do (R271). (DEDUCED, log 47.) -/
def pgmigStatus (mode : Nat) (leaf : Word) (frame size : Nat) (held : List Nat) : Option Nat :=
  if !frameOk frame size then some 3
  else if mode ≠ 0 && !pteDup leaf then some 2
  else if mode = 1 && 15 ≤ held.length && !held.contains (holderOf frame) then some 1
  else none

/-- A new duplicate of a page, or one dropped (R79). Stores that have retired perform before the duplicate is made.
(DEDUCED, log 47.) -/
def setHolder (mode page frame size : Nat) : M Unit := do
  let s ← get
  let held := Tbl.get [] s.dups page
  if mode = 1 then
    let s := (s.performDrained page size).copyFrame (dieOf s.cur) page frame size
    let all := if held.contains (holderOf frame) then held else held ++ [holderOf frame]
    set { s with dupSizes := Tbl.set 0 s.dupSizes page size, dups := Tbl.set [] s.dups page all }
  else set { s with dups := Tbl.set [] s.dups page (held.filter (· != holderOf frame)) }

/-- `pgmig`: a move holds every access to the page until PGMIG_COMPLETE has switched the leaf; a duplicate is added or dropped
at once. -/
def execPgmig (o : FC) (s : State) : Host.Outcome State Fault Refusal :=
  ap (do
    supervisorOnly
    if (← myHart).released then wrA o.d 0
    else
      let va ← rdA o.a
      let frame := (← rdA o.b).toNat
      let mode := (o.x.extractLsb' 0 2).toNat
      raiseIf (caskWindow ≤ va.toNat) .pageFault va
      let s ← get
      let e ← findLeaf (s.partOf s.cur) (dieOf s.cur) (some (coreOf s.cur)) va.toNat
      let page := pteAddr e.leaf
      let s ← get
      if (Tbl.get none s.moving page).isSome then throw (.wait (.migrating va.toNat))
      match pgmigStatus mode e.leaf frame e.size (Tbl.get [] s.dups page) with
      | some st => wrA o.d (BitVec.ofNat 64 st)
      | none =>
        if mode = 0 then
          set { s with moving := Tbl.set none s.moving page (some ⟨s.cur, frame, e.leafPa, e.size, s.partOf s.cur⟩) }
          throw (.wait (.pgmig page))
        else
          setHolder mode page frame e.size
          wrA o.d 0) s

end Sys2Proof.Machine
end

