-- ==== Sys2Proof/Machine/VectorSave.lean ====
section
/-! DEFINITION. Spill, fill, save, restore and the wait on flags (11_memory R236-R239). -/

namespace Sys2Proof.Machine

/-! ### Areas -/

/-- A piece of an area whose translation succeeded: its address, physical address, leaf and bytes. -/
structure AreaPiece where
  va : Word
  pa : Nat
  leaf : Word
  len : Nat
  deriving DecidableEq, Repr

/-- A range cut at 64-byte lines: rights and pages change nowhere inside one. -/
def linesOf (va len : Nat) : List (Nat × Nat) :=
  if len = 0 then []
  else (span (va / 64) ((va + len - 1) / 64 + 1)).map fun l =>
    let lo := max va (64 * l)
    let hi := min (va + len) (64 * l + 64)
    (lo, hi - lo)

/-- Translate a range by raw address before any of its bytes moves; the first failing line raises its cause. -/
def translateArea (va : Word) (len : Nat) (acc : Access) : M (List AreaPiece) :=
  collect (linesOf va.toNat len) fun p => do
    let a : Word := BitVec.ofNat 64 p.1
    let (pa, leaf) ← translateMe a acc
    return ⟨a, pa, leaf, p.2⟩

/-- The bytes of a translated area. -/
def readArea (ps : List AreaPiece) : M (List PByte) := do
  let bs ← collect ps fun p => readPhys p.pa p.len
  return bs.flatten

/-- Bytes stored from a physical address upwards, no store across an 8-byte word. -/
def bufferWords (pa : Nat) (bytes : List PByte) : M Unit :=
  forEach (cutAt 8 pa bytes) fun w => modify fun s => s.issueStore s.cur w.1 w.2

/-- Whether pieces cover a unit whole. -/
def piecesCover (ps : List AreaPiece) (u n : Nat) : Bool :=
  (List.range n).all fun i => ps.any fun p => p.pa ≤ u + i && u + i < p.pa + p.len

/-- Write bytes over translated pieces: every check of a performing store first, then the bytes. -/
def writeArea (ps : List AreaPiece) (bytes : List PByte) : M Unit := do
  forEach ps fun p => readyToWrite p.va p.pa p.len p.leaf (piecesCover ps)
  modify (·.forgetErrors (piecesCover ps))
  let rec put : List AreaPiece → List PByte → M Unit
    | [], _ => pure ()
    | p :: ps, bs => do
      bufferWords p.pa (bs.take p.len)
      put ps (bs.drop p.len)
  put ps bytes

/-- The area's address: a[BASE] + sext(OFF) × 64, which is 64-byte aligned (R236, R238). -/
def areaBase (o : FM) : M Word := do
  let a ← fmAddr o 64
  raiseIf (a.toNat % 64 != 0) .misalign a
  return a

/-! ### Images of elements -/

/-- Whether byte `i` of an image at element width `w` is poisoned. -/
def imagePoison (p : Mask) (w i : Nat) : Bool :=
  if w = 4 then p.getLsbD (2 * i) || p.getLsbD (2 * i + 1) else p.getLsbD (8 * i / w)

/-- The poison of element `e` at width `w` from the bytes of an image. -/
def elemPoisonOf (bs : List PByte) (w e : Nat) : Bool :=
  (List.range (max 1 (w / 8))).any fun i => (bs.getD (e * w / 8 + i) ⟨0, false⟩).poi

/-- The pattern of element `e` at width `w` of an image. -/
def imageElem (bs : List PByte) (w e : Nat) : Nat := (valueOf bs >>> (e * w)) % 2 ^ w

/-- Bytes of an image of `n` elements at width `w`. -/
def imageLen (w n : Nat) : Nat := (n * w + 7) / 8

/-- The elements of register `p` below `n` as bytes, with poison. A 4-bit code without a partner is stored with the half byte
above it as the register holds it. -/
def Hart.image (h : Hart) (p n : Nat) : List PByte :=
  let r := h.vreg p
  let w := tagWidth r.tag
  (List.range (imageLen w n)).map fun i =>
    if w = 64 then
      ⟨BitVec.ofNat 8 (h.elem p (i / 8) >>> (8 * (i % 8))), h.elemPoison p (i / 8)⟩
    else
      ⟨r.data.extractLsb' (8 * i) 8,
        if w = 4 && n ≤ 2 * i + 1 then r.poison.getLsbD (2 * i) else imagePoison r.poison w i⟩

/-- Bytes of a spill slot at a vector length (R236). -/
def slotBytes (wide : Bool) (vl : Nat) : Nat := (if wide then 2 else 1) * 64 * ceilDiv vl 8

/-- The descriptor of a spill slot. -/
def spillDescriptor (r : VReg) (vl : Nat) : List PByte :=
  cleanBytes (bytesOf 8 (r.tag.toNat + r.sat.toNat * 32 + vl * 256))

/-- The pair rule for a register named by `vspill` or `vfill` (R31, R236). -/
def notPairHigh (v : Nat) : M Unit := do
  let h ← myHart
  raiseIf (h.isPairHigh (h.rot v)) .tagMismatch (BitVec.ofNat 64 v)

/-- `vspill` (R236); nothing where `sr.vstart` is at or above vl (R367). (DEDUCED, log 29.) -/
def execVspill (o : FM) (s : State) : Host.Outcome State Fault Refusal :=
  ap (do
    let h ← myHart
    if h.start < h.vlen then
      notPairHigh o.v.toNat
      let a ← areaBase o
      let p := h.rot o.v.toNat
      let r := h.vreg p
      let n := slotBytes (tagWidth r.tag = 64) h.vlen
      let _ ← translateArea a n .store
      let img := h.image p h.vlen
      let dps ← translateArea a img.length .store
      let eps ← translateArea (a + BitVec.ofNat 64 (n - 8)) 8 .store
      writeArea (dps ++ eps) (img ++ spillDescriptor r h.vlen)) s

/-- Elements below `n` of an image written into register `p`, with their poison. -/
def Hart.fillElems (h : Hart) (p w : Nat) (bs : List PByte) (n : Nat) : Hart :=
  (List.range n).foldl (fun h e => h.setElem p e (imageElem bs w e) (elemPoisonOf bs w e)) h

/-- The register, and its partner under a 64-bit tag, with undefined contents. -/
def Hart.undefine (h : Hart) (p : Nat) (x y : VData) : Hart :=
  let r := h.vreg p
  let h := h.setV p { r with data := x, poison := 0 }
  if tagWidth r.tag = 64 then h.setV (p + 1) { h.vreg (p + 1) with data := y, poison := 0 } else h

/-- `vfill` (R237); nothing where `sr.vstart` is at or above vl (R367). (DEDUCED, log 29.) -/
def execVfill (o : FM) (s : State) : Host.Outcome State Fault Refusal :=
  ap (do
    let h ← myHart
    if h.start < h.vlen then
      notPairHigh o.v.toNat
      let a ← areaBase o
      let p := h.rot o.v.toNat
      let wide : Bool := tagWidth (h.vreg p).tag = 64
      let ps ← translateArea a (slotBytes wide h.vlen) .load
      let bs ← readArea ps
      let desc := valueOf (bs.drop (bs.length - 8))
      let tag : BitVec 5 := BitVec.ofNat 5 desc
      if !tagListed tag then illegal (tag.setWidth 64)
      let w := tagWidth tag
      raiseIf ((w = 64) != wide || (w = 64 && p % 2 == 1)) .tagMismatch (BitVec.ofNat 64 o.v.toNat)
      let n := min (desc / 256 % 256) h.vlen
      let x ← freshReg
      let y ← freshReg
      modifyHart fun h =>
        ((h.setV p { h.vreg p with tag := tag, sat := desc / 32 % 2 == 1 }).undefine p x y).fillElems p w bs n) s

/-! ### Save and restore (R238) -/

/-- Registers of a save or restore, by architectural number. -/
def savedRegs (o : FM) : List Nat := span o.v.toNat (o.v.toNat + o.x.toNat + 1)

/-- Where register `p` lies in the area: its descriptor and its image (Table 11.4). -/
def saveDescAt (a : Word) (p : Nat) : Word := a + BitVec.ofNat 64 (2 * p)
def saveImageAt (a : Word) (p : Nat) : Word := a + BitVec.ofNat 64 (0x200 + 512 * p)

/-- The 2-byte descriptor of a register in a save area (Table 11.4). -/
def saveDescriptor (r : VReg) : Nat := r.tag.toNat + r.sat.toNat * 32 + r.hw.toNat * 256 + r.dirty.toNat * 2 ^ 15

/-- The 512 bytes of a register, poison of its elements at their own width with them. -/
def Hart.wholeImage (h : Hart) (p : Nat) : List PByte :=
  let r := h.vreg p
  let w := h.ownWidth p
  (List.range 512).map fun i => ⟨r.data.extractLsb' (8 * i) 8, i * 8 < 128 * w && imagePoison r.poison w i⟩

/-- `vsave`. (DEDUCED, log 29.) -/
def execVsave (o : FM) (s : State) : Host.Outcome State Fault Refusal :=
  ap (do
    let a ← areaBase o
    let h ← myHart
    let ds ← collect (savedRegs o) fun p => translateArea (saveDescAt a p) 2 .store
    let is ← collect (savedRegs o) fun p => translateArea (saveImageAt a p) 512 .store
    writeArea (ds.flatten ++ is.flatten)
      (((savedRegs o).map fun p => cleanBytes (bytesOf 2 (saveDescriptor (h.vreg p)))).flatten ++
        ((savedRegs o).map h.wholeImage).flatten)) s

/-- A register as its descriptor and image give it, but for its poison. -/
def restoredReg (old : VReg) (desc : Nat) (bs : List PByte) : VReg :=
  { old with
    tag := BitVec.ofNat 5 desc, sat := desc / 32 % 2 == 1, hw := BitVec.ofNat 7 (desc / 256), dirty := desc / 2 ^ 15 % 2 == 1,
    data := BitVec.ofNat 4096 (valueOf bs), poison := 0, dead := false }

/-- Poison of the elements of register `p` from its image, by the width it now has. -/
def Hart.restorePoison (h : Hart) (p : Nat) (bs : List PByte) : Hart :=
  let w := h.ownWidth p
  let mk := (List.range 128).foldl (fun (m : Mask) e => putMask m e (elemPoisonOf bs w e)) 0
  h.setV p { h.vreg p with poison := mk }

/-- Register `p`, even and the last that `vrest` restores, held a 64-bit tag and takes the descriptor's narrower one: its partner is
released, with contents `x` (R31). -/
def Hart.releasePartner (h : Hart) (p desc : Nat) (x : VData) : Hart :=
  if p % 2 = 0 && tagWidth (h.vreg p).tag = 64 && tagWidth (BitVec.ofNat 5 desc) ≠ 64 then
    h.setV (p + 1) { h.vreg (p + 1) with tag := 2, sat := false, data := x, poison := 0 }
  else h

/-- The first odd register to which a descriptor gives a 64-bit tag, which may be set only on an even one (R31).
(DEDUCED, log 29.) -/
def oddPair (rs : List (Nat × Nat)) : Option Nat :=
  (rs.find? fun r => r.1 % 2 == 1 && tagWidth (BitVec.ofNat 5 r.2) == 64).map (·.1)

/-- `vrest`. A descriptor with a 64-bit tag for an odd register raises TAG_MISMATCH, as `vcfg` and `vfill` do (R31).
(DEDUCED, log 29.) -/
def execVrest (o : FM) (s : State) : Host.Outcome State Fault Refusal :=
  ap (do
    let a ← areaBase o
    let ds ← collect (savedRegs o) fun p => translateArea (saveDescAt a p) 2 .load
    let is ← collect (savedRegs o) fun p => translateArea (saveImageAt a p) 512 .load
    let descs ← collect ds fun ps => do return valueOf (← readArea ps)
    match descs.find? fun d => !tagListed (BitVec.ofNat 5 d) with
    | some d => illegal ((BitVec.ofNat 5 d).setWidth 64)
    | none => pure ()
    match oddPair ((savedRegs o).zip descs) with
    | some p => raise .tagMismatch (BitVec.ofNat 64 p)
    | none => pure ()
    let imgs ← collect is readArea
    let rs := (savedRegs o).zip (descs.zip imgs)
    let x ← freshReg
    modifyHart fun h =>
      let h := h.releasePartner (o.v.toNat + o.x.toNat) (descs.getLastD 0) x
      let h := rs.foldl (fun (h : Hart) r => h.setV r.1 (restoredReg (h.vreg r.1) r.2.1 r.2.2)) h
      rs.foldl (fun (h : Hart) r => h.restorePoison r.1 r.2.2) h) s

/-! ### Waiting on flags (R239) -/

/-- The result mask and the condition of a `vwait`. -/
def vwaitMask (o : FM) : Nat := (o.off.extractLsb' 0 4).toNat
def vwaitCond (o : FM) : Nat := (o.seg.extractLsb' 0 2).toNat

/-- Whether a flag's pattern meets its condition: eq and ne by value, geu unsigned at the flag's width. (DEDUCED, log 30.) -/
def flagMet (cc : Nat) (mt : BitVec 5) (x : Nat) (want : Int) : Bool :=
  let got := truncE (readAs mt x).x
  match cc with
  | 0 => got == want
  | 1 => got != want
  | _ => (want % (2 ^ tagWidth mt : Nat)).toNat ≤ x

/-- Translate the flags of the active elements below vl; poison in an address is an address cause (R77, R239). (DEDUCED, log 30.) -/
def vwaitPlan (o : FM) (h : Hart) : M (List Placed) := do
  let a : VSrc := .reg o.x.toNat
  let addr : AddrOf := fun e =>
    if a.poison h e then .error (.poisonConsumed, a.poisonTval e)
    else .ok (some { vas := [BitVec.ofNat 64 (a.elem h e)] })
  let es := (List.range h.vlen).filter (h.maskOf o.msk).getLsbD
  let (ps, f) ← planElems (rawRights (← get)) .load (misaligned o.mt 0) addr es
  match f with
  | some f => throw (.trap f.cause f.tval 0)
  | none => return ps

/-- The checks of a `vwait` before any flag is read. -/
def vwaitChecks (o : FM) (h : Hart) : M (List Placed) := do
  let a : VSrc := .reg o.x.toNat
  let x : VSrc := .reg o.v.toNat
  raiseIf (a.pairHigh h || a.tag h != 3) .tagMismatch a.tagTval
  raiseIf (x.pairHigh h || !tagIsInt (x.tag h)) .tagMismatch x.tagTval
  let ps ← vwaitPlan o h
  match ps.find? fun p => x.poison h p.e with
  | some p => raise .poisonConsumed (x.poisonTval p.e)
  | none => return ps

/-- Read the flags that have not met their condition yet: the mask of those that now have. -/
def readFlags (o : FM) (h : Hart) : List Placed → Mask → M Mask
  | [], met => pure met
  | p :: ps, met => do
    if met.getLsbD p.e then readFlags o h ps met
    else
      let pa := (p.fields.map (·.2.1)).headD 0
      holdForCell pa (mtBytes o.mt)
      modify fun s => s.findErrors (dieOf s.cur) pa (mtBytes o.mt) { s.readerOf s.cur with elem := p.e }
      let bs ← readPhys pa (mtBytes o.mt)
      let ok := !anyPoison bs && flagMet (vwaitCond o) o.mt (valueOf bs) (truncE (VSrc.val h p.e (.reg o.v.toNat)).x)
      readFlags o h ps (putMask met p.e ok)

/-- One look at the flags: complete when every condition has held, or when the time is over; else go on waiting (R239). Nothing is read
or written where `sr.vstart` is at or above a vl that is not 0 (R367). (DEDUCED, log 30.) -/
def vwaitLook (o : FM) (start : Nat) (met : Mask) : M Unit := do
  let h ← myHart
  if h.vlen = 0 then modifyHart (·.setM (vwaitMask o) 0)
  else if h.vlen ≤ h.start then pure ()
  else
    let ps ← vwaitChecks o h
    let met ← readFlags o h ps met
    let t := (← rdA o.base).toNat
    let s ← get
    let unmet := (ps.filter fun p => !met.getLsbD p.e).map (·.e)
    if unmet.isEmpty then
      forEach ps fun p => acquired ((p.fields.map (·.2.1)).headD 0) (mtBytes o.mt)
      modifyHart (·.setM (vwaitMask o) 0)
    else if t ≠ 0 && start + t * nsTicks ≤ s.now then
      modifyHart (·.setM (vwaitMask o) (unmet.foldl (fun (m : Mask) e => putMask m e true) 0))
    else throw (.wait (.vwait start met o))
  advance

/-- `vwait`. -/
def execVwait (o : FM) (s : State) : Host.Outcome State Fault Refusal :=
  runIn unitAp false (vwaitLook o s.now 0) s

/-- A flag of a waiting hart changed: the hart looks again; what it saw is kept. -/
def execVwaitMet (s : State) : Host.Outcome State Fault Refusal :=
  let n := s.ev.hart
  match (s.hart n).wait with
  | some (.vwait start met o) => s.tryAgain n (.vwait start met o) (vwaitLook o start met)
  | _ => .next s

/-- The time of a `vwait` is over on the die's clock. -/
def execVwaitTimeout (s : State) : Host.Outcome State Fault Refusal :=
  let n := s.ev.hart
  match (s.hart n).wait with
  | some (.vwait start met o) =>
    let t := ((s.hart n).aReg o.base.toNat).toNat
    if t ≠ 0 && start + t * nsTicks ≤ s.now then s.tryAgain n (.vwait start met o) (vwaitLook o start met) else .next s
  | _ => .next s

end Sys2Proof.Machine
end

