-- ==== Sys2Proof/Machine/Copies.lean ====
section
/-! DEFINITION. The copy engine (12_matrix R262, R263; 04 R82, R84, R86; 07 R136; 05 R98, R113; 19 R336).

A copy is issued whole; its lines land one event at a time, in any order, and its tag is set by an event of its own. -/

namespace Sys2Proof.Machine

/-! ### Ranges checked at issue (R82, R136, R262) -/

/-- The first address of `len` bytes from `a` that lies in none of the regions given as first address and end. (DEDUCED, log 39.) -/
def outsideOf (regions : List (Nat × Nat)) (a len : Nat) : Option Nat :=
  match regions.find? fun r => r.1 ≤ a && a < r.2 with
  | none => some a
  | some r => if a + len ≤ r.2 then none else some r.2

/-- First address of row `i` of an operand. -/
def rowAt (a stride : Word) (i : Nat) : Word := a + BitVec.ofNat 64 i * stride

/-- The first address of an operand's rows outside regions, rows in order. -/
def rowsOutside (regions : List (Nat × Nat)) (a stride : Word) (rows len : Nat) : Option Nat :=
  (List.range rows).findSome? fun i => outsideOf regions (rowAt a stride i).toNat len

/-- The team's share of the Cask, as virtual addresses. -/
def Core.shareRegion (c : Core) : Nat × Nat := (caskWindow, caskWindow + c.share)

/-- A Cask operand lies wholly within the share (R262); an address of more than 52 bits is none, and fails as the engine reaches it
(R66, R263). (DEDUCED, log 39.) -/
def checkCaskRange (a stride : Word) (rows len : Nat) : M Unit := do
  let c ← myCore
  if caskWindow ≤ a.toNat && a.toNat < 2 ^ 52 then
    match rowsOutside [c.shareRegion] a stride rows len with
    | some x => raise .prot (BitVec.ofNat 64 x)
    | none => pure ()
  else pure ()

/-- In a SLOT_ONLY launch the rows lie within the stack region or the Cask window (R136), or beyond every address (R66). -/
def checkStackRange (a stride : Word) (rows len : Nat) : M Unit := do
  let s ← get
  match (s.rightsOf s.cur).stackOnly with
  | some (lo, n) =>
    match rowsOutside [(lo, lo + n), (caskWindow, 2 ^ 64)] a stride rows len with
    | some x => raise .prot (BitVec.ofNat 64 x)
    | none => pure ()
  | none => pure ()

/-- A byte-barrier operand is 16-byte aligned and lies within the share; its Cask offset (R264, Table 12.5). -/
def barrierOffset (va : Word) : M Nat := do
  let c ← myCore
  raiseIf (va.toNat % 16 != 0) .misalign va
  raiseIf (outsideOf [c.shareRegion] va.toNat 16).isSome .prot va
  return va.toNat - caskWindow

/-! ### Issue (R84, R262, Table 12.5) -/

/-- The most bytes that a copy moves. -/
def maxCopy : Nat := 2 ^ 32 - 1

/-- A copy starts on a free tag; one of no bytes completes at once. On a busy tag the hart stalls (R84). (DEDUCED, log 39.) -/
def startCopy (o : FC) (rows len : Nat) (ss ds : Word) (twoD : Bool) (bar : Option Nat) : M Unit := do
  let dst ← rdA o.a
  let src ← rdA o.b
  checkCaskRange dst ds rows len
  checkCaskRange src ss rows len
  checkStackRange dst ds rows len
  checkStackRange src ss rows len
  let c ← myCore
  let s ← get
  let t := o.tag.toNat
  let bit : Word := BitVec.ofNat 64 (2 ^ t)
  match Tbl.get none c.copies t with
  | some _ => throw (.wait (.copyTag t))
  | none =>
    if rows * len = 0 then modifyCore fun c => { c with cdone := c.cdone ||| bit }
    else modifyCore fun c =>
      { c with cdone := c.cdone &&& ~~~bit,
               copies := Tbl.set none c.copies t (some
                 { hart := s.cur, src := src, dst := dst, rowLeft := len, rowsLeft := rows, rowBytes := len,
                   srcStride := ss, dstStride := ds, dur := o.x.getLsbD 0, bar := bar, twoD := twoD, rows := rows }) }

/-- Rows of a one-dimensional copy: none for length 0. -/
def rowsOfLength (n : Nat) : Nat := if n = 0 then 0 else 1

def execCpy (o : FC) (s : State) : Host.Outcome State Fault Refusal :=
  ap (do
    let n := (← rdA o.c).toNat
    if maxCopy < n then illegal 0x800
    startCopy o (rowsOfLength n) n 0 0 false none) s

def execCpy2d (o : FC) (s : State) : Host.Outcome State Fault Refusal :=
  ap (do
    let g ← rdA o.c
    let st ← rdA o.d
    let rows := (g.extractLsb' 32 32).toNat
    let len := (g.extractLsb' 0 32).toNat
    if maxCopy < rows * len then illegal 0x800
    startCopy o (if len = 0 then 0 else rows) len ((st.extractLsb' 32 32).signExtend 64)
      ((st.extractLsb' 0 32).signExtend 64) true none) s

def execCpyBb (o : FC) (s : State) : Host.Outcome State Fault Refusal :=
  ap (do
    let n := (← rdA o.c).toNat
    if maxCopy < n then illegal 0x800
    let off ← barrierOffset (← rdA o.d)
    startCopy o (rowsOfLength n) n 0 0 false (some off)) s

/-- `cffr`: the lowest completed tag of a mask, or all ones. -/
def execCffr (o : FC) (s : State) : Host.Outcome State Fault Refusal :=
  ap (do
    let x := (← myCore).cdone &&& (← rdA o.a)
    wrA o.d (match (List.range 64).find? x.getLsbD with
      | some t => BitVec.ofNat 64 t
      | none => BitVec.allOnes 64)) s

def execCdone (o : FC) (s : State) : Host.Outcome State Fault Refusal :=
  ap (do wrA o.d (if (← myCore).cdone.getLsbD o.tag.toNat then 1 else 0)) s

def execCclr (o : FC) (s : State) : Host.Outcome State Fault Refusal :=
  ap (do
    let m ← rdA o.a
    modifyCore fun c => { c with cdone := c.cdone &&& ~~~m }) s

/-- A wait on tags looks at `sr.cdone` (Table 12.5). -/
def cwaitLook (all : Bool) (o : FC) : M Unit := do
  let m ← rdA o.a
  let x := (← myCore).cdone &&& m
  if (if all then x == m else m == 0 || x != 0) then do
    wrA o.d x
    advance
  else throw (.wait (.cwait all o))

def execCwaitAny (o : FC) (s : State) : Host.Outcome State Fault Refusal := runIn unitAp false (cwaitLook false o) s
def execCwaitAll (o : FC) (s : State) : Host.Outcome State Fault Refusal := runIn unitAp false (cwaitLook true o) s

/-- CWAIT_WAKE: hart `ev.hart` looks again. -/
def execCwaitWake (s : State) : Host.Outcome State Fault Refusal :=
  match (s.hart s.ev.hart).wait with
  | some (.cwait all o) => s.tryAgain s.ev.hart (.cwait all o) (cwaitLook all o)
  | _ => .next s

/-- COPY_ISSUE_RESUME: the tag that hart `ev.hart` stalls on is free, and its copy instruction runs again (R84). -/
def execCopyIssueResume (s : State) : Host.Outcome State Fault Refusal :=
  let n := s.ev.hart
  match (s.hart n).wait with
  | some (.copyTag t) =>
    if s.awake n && (Tbl.get none (s.core (coreOf n)).copies t).isNone then .next (s.endWait n) else .next s
  | _ => .next s

/-! ### Byte barriers (R86, Table 4.6) -/

/-- The fields of a byte barrier. -/
structure ByteBar where
  gen : Nat
  arrInit : Nat
  arr : Nat
  landed : Nat
  expect : Nat
  deriving DecidableEq, Repr

/-- The object at Cask offset `off` of a core. (DEDUCED, log 41.) -/
def State.byteBar (s : State) (core off : Nat) : ByteBar :=
  let x := valueOf (s.casks.peek (caskBase core + off) 16)
  ⟨x % 2 ^ 32, x / 2 ^ 32 % 2 ^ 16, x / 2 ^ 48 % 2 ^ 16, x / 2 ^ 64 % 2 ^ 32, x / 2 ^ 96⟩

/-- The object written, clean; it carries the latest of the keys of its updates, for a `bb.wait` (R104). (DEDUCED, log 41.) -/
def State.setByteBar (s : State) (core off : Nat) (key : Option DetKey) (b : ByteBar) : State :=
  let x := b.gen + b.arrInit * 2 ^ 32 + b.arr * 2 ^ 48 + b.landed * 2 ^ 64 + b.expect * 2 ^ 96
  let a := caskBase core + off
  s.caskWrite (laterKey key (s.casks.keyAt (s.keyAddr a))) false a (cleanBytes (bytesOf 16 x))

/-- The phase check after every update (R86). (DEDUCED, log 41.) -/
def ByteBar.check (b : ByteBar) : ByteBar :=
  if b.arr = 0 && b.landed = b.expect then
    { b with gen := (b.gen + 1) % 2 ^ 32, arr := b.arrInit, landed := 0, expect := 0 }
  else b

/-- One atomic update of an object, by a write that carries `key`, and its phase check. -/
def State.updateByteBar (s : State) (core off : Nat) (key : Option DetKey) (f : ByteBar → ByteBar) : State :=
  s.setByteBar core off key (f (s.byteBar core off)).check

/-! ### Lines (R262, R263, R336) -/

/-- Bytes of the line at a copy's position. -/
def Copy.lineLen (c : Copy) : Nat := min c.rowLeft (64 - c.dst.toNat % 64)

/-- The code of the line at a copy's position. -/
def Copy.code (c : Copy) : Nat := c.rowsLeft * 2 ^ 32 + c.rowLeft

/-- The position after the line at this one. -/
def Copy.after (c : Copy) : Copy :=
  let n := c.lineLen
  if n < c.rowLeft then
    { c with src := c.src + BitVec.ofNat 64 n, dst := c.dst + BitVec.ofNat 64 n, rowLeft := c.rowLeft - n }
  else
    let back : Word := BitVec.ofNat 64 (c.rowBytes - c.rowLeft)
    { c with src := c.src - back + c.srcStride, dst := c.dst - back + c.dstStride, rowLeft := c.rowBytes,
             rowsLeft := c.rowsLeft - 1 }

/-- The position `k` lines further on. -/
def Copy.skip (c : Copy) : Nat → Copy
  | 0 => c
  | k + 1 => c.after.skip k

/-- The position moves over lines that have landed. -/
def Copy.settle (c : Copy) : Nat → Copy
  | 0 => c
  | k + 1 => if c.rowsLeft ≠ 0 && c.landed.contains c.code then
      ({ c.after with landed := c.landed.filter (· != c.code) }).settle k
    else c

/-- Line `k` from the position has landed. -/
def Copy.land (c : Copy) (k : Nat) : Copy :=
  let c := { c with landed := c.landed ++ [(c.skip k).code], held := none }
  c.settle (c.landed.length + 1)

/-- Whether line `k` from the position is still to land. -/
def Copy.open (c : Copy) (k : Nat) : Bool :=
  (c.skip k).rowsLeft ≠ 0 && !c.landed.contains (c.skip k).code

/-- A copy's accesses are those of the issuing hart, ranges having been checked at issue (R136, R263). (DEDUCED, log 39.) -/
def State.copyRights (s : State) (c : Copy) : Rights := { s.rightsOf c.hart with stackOnly := none }

/-- A translation for a copy of core `core`. -/
def translateCopy (core : Nat) (c : Copy) (va : Word) (acc : Access) : M (Nat × Word) := do
  let s ← get
  translate (s.partOf c.hart) (dieOfCore core) (some core) (s.copyRights c) va acc

/-- Latent errors that an access of a core's copy engine finds. -/
def findForCopy (core : Nat) (c : Copy) (pa len : Nat) : M Unit :=
  modify fun s => s.findErrors (dieOfCore core) pa len (s.engineFor c.hart)

/-- The source bytes of a line, poison with them (R263, R378). (DEDUCED, log 40.) -/
def copyRead (core : Nat) (c : Copy) (len : Nat) : M (List PByte) := do
  let bs ← collect (linesOf c.src.toNat len) fun p => do
    let (pa, _) ← translateCopy core c (BitVec.ofNat 64 p.1) .load
    if windowOf pa = .register then registerAccess pa p.2
    else do
      findForCopy core c pa p.2
      let s ← get
      return (List.range p.2).map fun i => s.byteAt (dieOfCore core) (pa + i)
  return bs.flatten

/-- A line written at its destination: applied at once on the die, in the Cask, or to the module's registers (R98, R4). -/
def State.copyWrite (s : State) (core pa : Nat) (bytes : List PByte) : State :=
  if 2 ^ 48 ≤ pa then s.pokeCasks pa bytes
  else if windowOf pa = .register then s.storeWindow pa bytes
  else s.originate (dieOfCore core) none 0 none false pa bytes

/-- Whether the copy's own source covers an address, from its first row on. (DEDUCED, log 40.) -/
def Copy.reads (c : Copy) (va : Nat) : Bool :=
  let first := c.src - BitVec.ofNat 64 (c.rowBytes - c.rowLeft) - BitVec.ofNat 64 (c.rows - c.rowsLeft) * c.srcStride
  (List.range c.rows).any fun i =>
    let a := (rowAt first c.srcStride i).toNat
    a ≤ va && va < a + c.rowBytes

/-- Bytes for a line at `va`: those that overlap the copy's own source are undefined, with the poison that was read
(R5, R262). (DEDUCED, log 40.) -/
def Copy.landing (c : Copy) (va : Nat) : List PByte → State → List PByte × State
  | [], s => ([], s)
  | b :: bs, s =>
    if c.reads va then
      let (r, s') := c.landing (va + 1) bs { s with fresh := s.fresh + 1 }
      (⟨Config.freeByte s.fresh, b.poi⟩ :: r, s')
    else
      let (r, s') := c.landing (va + 1) bs s
      (b :: r, s')

/-- What becomes of a line: it lands, or it waits for the duplicates of a frame. -/
inductive LineFate where
  | landed
  | held (frame : Nat)
  deriving DecidableEq, Repr

/-- Move the line at position `p` of a copy. (DEDUCED, log 40.) -/
def moveLine (core : Nat) (p : Copy) : M LineFate := do
  let bs ← copyRead core p p.lineLen
  let (pa, leaf) ← translateCopy core p p.dst .store
  let s ← get
  if pteDup leaf && Tbl.get [] s.dups (pteAddr leaf) != [] then return .held (pteAddr leaf)
  modify fun s =>
    let s := s.mergeErrors (dieOfCore core) pa bs.length (s.engineFor p.hart)
    let (bs, s) := p.landing p.dst.toNat bs s
    let s := s.copyWrite core pa bs
    match p.bar with
    | some off => s.updateByteBar core off none fun b => { b with landed := (b.landed + bs.length) % 2 ^ 32 }
    | none => s
  return .landed

/-- A copy of a core replaced. -/
def State.setCopy (s : State) (core tag : Nat) (c : Option Copy) : State :=
  s.setCore core { s.core core with copies := Tbl.set none (s.core core).copies tag c }

/-- The copy on a tag of a core. -/
def State.copyOn (s : State) (core tag : Nat) : Option Copy := Tbl.get none (s.core core).copies tag

/-- Line `k` of the copy on a tag lands, where it can: nothing happens where its access fails or its page moves; where it must
wait for duplicates, that wait begins. -/
def State.landLine (s : State) (core tag k : Nat) : Host.Outcome State Fault Refusal :=
  match s.copyOn core tag with
  | none => .next s
  | some c =>
    if !c.open k then .next s
    else match moveLine core (c.skip k) s with
      | .ok .landed s' => .next (s'.setCopy core tag (some (c.land k)))
      | .ok (.held f) s' =>
        .next (s'.setCopy core tag (some { c with held := some (match c.held with
          | some h => h
          | none => (f, s.now)) }))
      | .error (.fault f) _ => .fault f
      | .error (.refuse r) _ => .refused r
      | .error (.machineCheck p pa) s' => .next (s'.nodeCheck p pa)
      | .error _ _ => .next s

/-- COPY_LINE_LAND: line `ev.line`, counted from the first that has not landed, of the copy on `ev.tag` of `ev.core`. -/
def execCopyLineLand (s : State) : Host.Outcome State Fault Refusal := s.landLine s.ev.core s.ev.tag s.ev.line

/-- The lines that a DUR copy has landed are durable; of another copy nothing is asked (R113, R400). (DEDUCED, log 35.) -/
def State.copyDurable (s : State) (c : Copy) : Bool := !c.dur || s.cellarPend.all (·.hart.isSome)

/-- COPY_COMPLETE: every byte has landed; for a DUR copy, no store of an agent other than a hart to the Cellar is pending (R84,
R113). (DEDUCED, log 35.) -/
def execCopyComplete (s : State) : Host.Outcome State Fault Refusal :=
  let core := s.ev.core
  match s.copyOn core s.ev.tag with
  | none => .next s
  | some c =>
    if c.rowsLeft = 0 && s.copyDurable c then
      let s := s.setCopy core s.ev.tag none
      .next (s.setCore core { s.core core with cdone := (s.core core).cdone ||| BitVec.ofNat 64 (2 ^ s.ev.tag) })
    else .next s

/-- 20 µs in ticks (R79). -/
def migrationLimit : Nat := 20000 * nsTicks

/-- UNIT of a silent holder of a frame's duplicates (R359): its die's L2, or for a fabric peer the port of the home die through which it
is reached, one of that die's own three (R8). (DEDUCED, log 47.) -/
def holderUnit (frame holder : Nat) : Nat :=
  if holder < 8 then unitPath holder 32 0 127
  else unitPath (homeOf frame % 8) (64 + 3 * (homeOf frame % 8) + (Config.portOfPeer (holder - 8)).toNat % 3) 0 127

/-- The holders of a frame's duplicates that have not acknowledged: all but the dies of `ev.dies` and the peers of bits `ev.idx`. -/
def State.silentHolders (s : State) (frame : Nat) : List Nat := (Tbl.get [] s.dups frame).filter fun x =>
  if x < 8 then !s.ev.dies.getLsbD x else !s.ev.idx.testBit (x - 8)

/-- The failure of a copy: its tag is set, no more of it lands, and the cause goes to the issuing hart, at its next boundary;
a hart that has halted takes its team down (R263). (DEDUCED, log 40.) -/
def State.failCopy (s : State) (core tag : Nat) (c : Copy) (f : CopyFail) : State :=
  let s := s.setCopy core tag none
  let s := s.setCore core { s.core core with cdone := (s.core core).cdone ||| BitVec.ofNat 64 (2 ^ tag) }
  let h := s.hart c.hart
  if h.status = .halted then
    s.teamFault h.team (dieOfCore core) { s.trapRecord c.hart unitCopy f.cause f.va 0 with unit := f.unit }
  else (s.setHart c.hart { h with copyFails := h.copyFails ++ [f] }).raiseCopyFail c.hart

/-- The access of a line fails with a cause. -/
def lineFails (core : Nat) (p : Copy) (s : State) : Bool := match moveLine core p s with
  | .error (.trap _ _ _) _ => true
  | _ => false

/-- COPY_FAILURE: the access of line `ev.line` of the copy on `ev.tag` of `ev.core` fails, the first line of the copy still to land
whose access does (R263, R339), or the duplicates that it waits for have not gone after 20 µs, when those that have stay invalid
(R79, R359). (DEDUCED, log 40.) -/
def execCopyFailure (s : State) : Host.Outcome State Fault Refusal :=
  let core := s.ev.core
  let tag := s.ev.tag
  match s.copyOn core tag with
  | none => .next s
  | some c =>
    let p := c.skip s.ev.line
    if !c.open s.ev.line || !s.copyDurable c ||
        ((List.range s.ev.line).any fun k => c.open k && lineFails core (c.skip k) s) then .next s
    else match moveLine core p s with
      | .error (.trap cause va _) s' => .next (s'.failCopy core tag c ⟨cause.code, va, coreUnit core unitCopy⟩)
      | .ok (.held frame) s' => match c.held, s'.silentHolders frame with
        | some (_, since), x :: xs =>
          if since + migrationLimit ≤ s.now then
            .next (({ s' with dups := Tbl.set [] s'.dups frame (x :: xs) } : State).failCopy core tag c
              ⟨Cause.migrationTimeout.code, p.dst, holderUnit frame x⟩)
          else .next s
        | _, _ => .next s
      | _ => .next s

end Sys2Proof.Machine
end

