-- ==== Sys2Proof/Machine/Barriers.lean ====
section
/-! DEFINITION. Byte barriers and Trellis barriers of majors 0x31 and 0x32 (12_matrix R264-R266; 04 R86). -/

namespace Sys2Proof.Machine

/-! ### Byte barriers (Table 12.7) -/

/-- The hart's own buffered stores to an object go before an update of it, as before an atomic (R184, R264). -/
def flushObject (core off : Nat) : M Unit := modify fun s => s.flushRange s.cur (caskBase core + off) 16

/-- An update of the object at a[A] by the running hart; `rel` asks for the release of `bb.arrive`. What the update discards leaves
the object as it is (Table 22.8). -/
def bbUpdate (o : FC) (rel : Bool) (f : Word → ByteBar → Option ByteBar) : M Unit := do
  let n ← rdA o.b
  let off ← barrierOffset (← rdA o.a)
  if rel then releaseAt 2 else pure ()
  let core := coreOf (← me)
  flushObject core off
  modify fun s => match f n (s.byteBar core off) with
    | some b => s.updateByteBar core off s.myKey fun _ => b
    | none => s

/-- a[B] from 1 to 65,535 (Table 12.7). -/
def arrivalsOk (n : Word) : Bool := 1 ≤ n.toNat && n.toNat ≤ 65535

def execBbInit (o : FC) (s : State) : Host.Outcome State Fault Refusal :=
  ap (do
    if !arrivalsOk (← rdA o.b) then illegal 0x800
    bbUpdate o false fun n _ => some ⟨0, n.toNat, n.toNat, 0, 0⟩) s

/-- EXPECT raised by the low 32 bits of an operand. -/
def ByteBar.expectMore (b : ByteBar) (n : Word) : ByteBar := { b with expect := (b.expect + n.toNat) % 2 ^ 32 }

def execBbExpect (o : FC) (s : State) : Host.Outcome State Fault Refusal :=
  ap (bbUpdate o false fun n b => some (b.expectMore n)) s

/-- An arrival; one while ARR = 0 is discarded whole. -/
def ByteBar.arrive (b : ByteBar) (n : Word) : Option ByteBar :=
  if b.arr = 0 then none else some { b.expectMore n with arr := b.arr - 1 }

/-- `bb.arrive`: a release at .d. An arrival that is discarded changes nothing. -/
def execBbArrive (o : FC) (s : State) : Host.Outcome State Fault Refusal :=
  ap (bbUpdate o true fun n b => b.arrive n) s

/-- The barrier of a[A], read by the running hart. -/
def bbRead (o : FC) : M (ByteBar × Nat) := do
  let off ← barrierOffset (← rdA o.a)
  let core := coreOf (← me)
  flushObject core off
  let s ← get
  return (s.byteBar core off, caskBase core + off)

/-- `bb.wait` looks: a satisfied wait is an acquire at .d. -/
def bbLook (o : FC) : M Unit := do
  let (b, pa) ← bbRead o
  let g ← rdA o.b
  if b.gen ≠ g.toNat % 2 ^ 32 then do
    acquired pa 16
    advance
  else throw (.wait (.bb o))

def execBbWait (o : FC) (s : State) : Host.Outcome State Fault Refusal := runIn unitAp false (bbLook o) s

def execBbTest (o : FC) (s : State) : Host.Outcome State Fault Refusal :=
  ap (do
    let (b, _) ← bbRead o
    wrA o.d (BitVec.ofNat 64 b.gen)) s

/-- BB_WAKE: hart `ev.hart` looks again. -/
def execBbWake (s : State) : Host.Outcome State Fault Refusal :=
  match (s.hart s.ev.hart).wait with
  | some (.bb o) => s.tryAgain s.ev.hart (.bb o) (bbLook o)
  | _ => .next s

/-! ### Trellis barriers (Table 12.9) -/

/-- X[4:0] of a word of major 0x32. -/
def barField (o : FC) : Nat := (o.x.extractLsb' 0 5).toNat

/-- The barrier that hart `n` names by X[4:0] replaced. -/
def State.setBarrier (s : State) (n x : Nat) (b : Barrier) : State :=
  if x < 16 then match s.teamOf n with
    | some t => s.setTeam (s.hart n).team { t with bars := Tbl.set {} t.bars x b }
    | none => s
  else
    let d := s.die (dieOf n)
    s.setDie (dieOf n) { d with bars := Tbl.set {} d.bars (16 * s.groupLaunch n + x % 16) b }

/-- A die-wide group exists for a RESIDENT launch alone (R265). -/
def needBarrier (o : FC) : M Unit := do
  let s ← get
  let resident := match s.launchOf s.cur with
    | some l => l.resident
    | none => false
  if 16 ≤ barField o && !resident then illegal 0x800 else pure ()

/-- The barrier that the running hart names. -/
def myBarrier (o : FC) : M Barrier := do
  let s ← get
  return s.barrier s.cur (barField o)

/-- The phase completes when as many have arrived as are expected. (DEDUCED, log 41.) -/
def Barrier.check (b : Barrier) : Barrier :=
  if b.expected ≤ b.arrived then
    { b with arrived := 0, gen := b.gen + 1, mark := none, passed := laterKey b.mark b.passed }
  else b

/-- An arrival that carries `key`. -/
def Barrier.arrive (b : Barrier) (key : Option DetKey) : Barrier :=
  ({ b with arrived := b.arrived + 1, mark := laterKey key b.mark } : Barrier).check

/-- The running hart arrives. -/
def arriveAt (o : FC) : M Unit := do
  let b ← myBarrier o
  modify fun s => s.setBarrier s.cur (barField o) (b.arrive s.myKey)

/-- `bar.arrive`: an arrival is a release at .d. -/
def execBarArrive (o : FC) (s : State) : Host.Outcome State Fault Refusal :=
  ap (do
    needBarrier o
    releaseAt 2
    arriveAt o) s

/-- A wait whose generation has changed wakes, an acquire at .d of the arrivals of the completed phases, the latest of whose keys is
`passed` (R104). -/
def barWoken (passed : Option DetKey) : M Unit := do
  acquiredKeys passed.toList
  advance

/-- Wait for a generation other than `gen`. (DEDUCED, log 41.) -/
def barLook (sync : Bool) (gen : BitVec 32) (start : Nat) (o : FC) : M Unit := do
  let b ← myBarrier o
  if b.gen ≠ gen then barWoken b.passed else throw (.wait (.bar sync gen start o))

def execBarWait (o : FC) (s : State) : Host.Outcome State Fault Refusal :=
  runIn unitAp false (do
    needBarrier o
    barLook false ((← rdA o.a).setWidth 32) (← get).now o) s

/-- `bar.sync`: with `sr.vstart` = 1 the arrival has been counted (R266). -/
def execBarSync (o : FC) (s : State) : Host.Outcome State Fault Refusal :=
  runIn unitAp false (do
    needBarrier o
    let counted := (← myHart).vstart == 1
    if counted then pure () else releaseAt 2
    let g := (← myBarrier o).gen
    if counted then pure () else arriveAt o
    barLook true g (← get).now o) s

/-- Harts that may take part in a barrier: the team's, or those of the launch on the die (R265). (DEDUCED, log 41.) -/
def State.participants (s : State) (n x : Nat) : Nat :=
  if x < 16 then match s.teamOf n with
    | some t => t.size
    | none => 0
  else
    (s.teams.map fun e => match e.2 with
      | some t => if s.stageLaunchIx t = s.groupLaunch n && t.die = dieOf n then t.size else 0
      | none => 0).sum

def execBarMset (o : FC) (s : State) : Host.Outcome State Fault Refusal :=
  ap (do
    needBarrier o
    let n ← rdA o.a
    let s ← get
    if n.toNat = 0 || s.participants s.cur (barField o) < n.toNat then illegal 0x800
    let b ← myBarrier o
    modify fun s => s.setBarrier s.cur (barField o) ({ b with expected := n.toNat }).check) s

def execBarGen (o : FC) (s : State) : Host.Outcome State Fault Refusal :=
  ap (do
    needBarrier o
    wrA o.d ((← myBarrier o).gen.setWidth 64)) s

/-- BAR_WAKE: hart `ev.hart` looks again. -/
def execBarWake (s : State) : Host.Outcome State Fault Refusal :=
  match (s.hart s.ev.hart).wait with
  | some (.bar sync gen start o) => s.tryAgain s.ev.hart (.bar sync gen start o) (barLook sync gen start o)
  | _ => .next s

/-- BAR_TIMEOUT: the time-out of a[B] ns has passed and the generation is the same; the arrival of `bar.sync` stays counted
(R265, R266). (DEDUCED, log 41.) -/
def execBarTimeout (s : State) : Host.Outcome State Fault Refusal :=
  let n := s.ev.hart
  match (s.hart n).wait with
  | some (.bar sync gen start o) =>
    let limit := ((s.hart n).aReg o.b.toNat).toNat
    if s.awake n && limit ≠ 0 && start + limit * nsTicks ≤ s.now && (s.barrier n (barField o)).gen = gen then
      s.lookAgain n (throw (.trap .barTimeout (BitVec.ofNat 64 (barField o)) (if sync then 1 else 0)))
    else .next s
  | _ => .next s

end Sys2Proof.Machine
end

