-- ==== Sys2Proof/Machine/Async.lean ====
section
/-! DEFINITION. Code fetch, claims, `yield` and digests of major 0x39 (12_matrix R267, R269, R270; 02 R44; 04 R87;
15 R319; 23 R389). -/

namespace Sys2Proof.Machine

/-! ### Code fetch (R87, R267) -/

/-- X[5:0] of `cfetch` and `cfwait`. -/
def codeField (o : FC) : Nat := (o.x.extractLsb' 0 6).toNat

/-- Whether a hart's current segment is the one at `va`: a hart that runs or is about to. -/
def Hart.currentSeg (h : Hart) (va : Word) : Bool := (h.status == .running || h.status == .ready) && h.seg == va

/-- A slot holds the current segment of a hart of the core (R87). (DEDUCED, log 42.) -/
def State.slotCurrent (s : State) (core k : Nat) : Bool :=
  let sl := Tbl.get {} (s.core core).code k
  sl.landed.isSome && ((s.hart (2 * core)).currentSeg sl.va || (s.hart (2 * core + 1)).currentSeg sl.va)

/-- A slot other than `k` holds the segment, landed or on its way. -/
def Core.holdsElsewhere (c : Core) (k : Nat) (va : Word) : Bool :=
  c.code.any fun e => e.1 != k && e.2.landed.isSome && e.2.va == va

/-- `cfetch` (R267): the checks, then the fetch begins, in place of an earlier one into the slot. (DEDUCED, log 42.) -/
def execCfetch (o : FC) (s : State) : Host.Outcome State Fault Refusal :=
  ap (do
    let k := codeField o
    let seg := (← rdA o.a) &&& ~~~0xFFF
    let s ← get
    if s.slotCurrent (coreOf s.cur) k then illegal (BitVec.ofNat 64 (0x300 + k))
    let (pa, _) ← translateMe seg .fetch
    if (← myCore).holdsElsewhere k seg then pure ()
    else modifyCore fun c => { c with code := Tbl.set {} c.code k { landed := some false, va := seg, pa := pa } }) s

/-- A segment of 4 KiB as die `d` holds it: its bytes that are not 0, and the offsets of poisoned ones (R267, R378). -/
def State.segmentAt (s : State) (d pa : Nat) : List Host.Cell × List Nat :=
  let bs := (List.range 4096).map fun i => (i, s.byteAt d (pa + i))
  (bs.filterMap fun b => if b.2.val = 0 then none else some (b.1, b.2.val), (bs.filter (·.2.poi)).map (·.1))

/-- CFETCH_LAND: the segment that slot `ev.slot` of `ev.core` is fetching lands. -/
def execCfetchLand (s : State) : Host.Outcome State Fault Refusal :=
  let core := s.ev.core
  let sl := Tbl.get {} (s.core core).code s.ev.slot
  if sl.landed = some false then
    let d := dieOfCore core
    let s := s.findErrors d sl.pa 4096 (s.engineFor (2 * core))
    let (bytes, poison) := s.segmentAt d sl.pa
    let c := s.core core
    .next (s.setCore core
      { c with code := Tbl.set {} c.code s.ev.slot { sl with landed := some true, bytes := bytes, poison := poison } })
  else .next s

/-- `cfwait` looks at the slot. -/
def cfwaitLook (o : FC) : M Unit := do
  match (Tbl.get {} (← myCore).code (codeField o)).landed with
  | some false => throw (.wait (.cfwait o))
  | some true => do
    wrA o.d 1
    advance
  | none => do
    wrA o.d 0
    advance

def execCfwait (o : FC) (s : State) : Host.Outcome State Fault Refusal := runIn unitAp false (cfwaitLook o) s

/-- CFWAIT_WAKE: hart `ev.hart` looks again. -/
def execCfwaitWake (s : State) : Host.Outcome State Fault Refusal :=
  match (s.hart s.ev.hart).wait with
  | some (.cfwait o) => s.tryAgain s.ev.hart (.cfwait o) (cfwaitLook o)
  | _ => .next s

/-! ### Claims (R44) -/

/-- next and limit of a counter object. -/
def counterNext (x : Nat) : Nat := x % 2 ^ 64
def counterLimit (x : Nat) : Nat := x / 2 ^ 64

/-- What a claim of `n` is granted. (DEDUCED, log 42.) -/
def claimGrant (x n : Nat) : Nat := if counterNext x < counterLimit x then min n (counterLimit x - counterNext x) else 0

/-- `claim` (R44): one atomic operation at the object's home. -/
def execClaimWork (o : FC) (s : State) : Host.Outcome State Fault Refusal :=
  ap (do
    notInSplice
    let n ← rdA o.b
    raiseIf (n.toNat = 0 || 128 < n.toNat) .vlIllegal n
    let va ← rdA o.a
    aligned va 16
    let r ← atomicAt va 16 fun x => if claimGrant x n.toNat = 0 then none else some (x + claimGrant x n.toNat)
    wrA o.d (BitVec.ofNat 64 (counterNext r.old))
    modifyHart fun h => { h with vl := BitVec.ofNat 64 (claimGrant r.old n.toNat) }) s

/-- `yield`: the team yields until the next admission opportunity (R269). (DEDUCED, log 42.) -/
def execYield (s : State) : Host.Outcome State Fault Refusal :=
  ap (modify fun s => match s.teamOf s.cur with
    | some t => s.setTeam (s.hart s.cur).team { t with yielding := true }
    | none => s) s

/-! ### Digests (R270) -/

/-- The address of the first poisoned byte of a list that starts at `va`. -/
def poisonedAt (va : Word) (bs : List PByte) : Option Word :=
  (bs.zipIdx.find? fun b => b.1.poi).map fun b => va + BitVec.ofNat 64 b.2

/-- Raise POISON_CONSUMED for the first poisoned byte. -/
def refusePoison (va : Word) (bs : List PByte) : M Unit := match poisonedAt va bs with
  | some a => raise .poisonConsumed a
  | none => pure ()

/-- `dig.post`: the digest of a buffer, then the cell's digest and step in one 16-byte release at .f. The causes of addresses come
before those of data (Table 22.1), and all of them before the release. (DEDUCED, log 43.) -/
def execDigPost (o : FC) (s : State) : Host.Outcome State Fault Refusal :=
  ap (do
    let cell ← rdA o.a
    let buf ← rdA o.b
    let n := (← rdA o.c).toNat
    if 2 ^ 32 ≤ n then illegal 0x800
    aligned cell 16
    let ps ← translateArea buf n .load
    let (_, _) ← translateMe cell .load
    let (pa, leaf) ← translateMe cell .store
    let bs ← readArea ps
    refusePoison buf bs
    let old ← readPhys pa 16
    refusePoison cell old
    readyToWrite cell pa 16 leaf fun _ _ => false
    releaseAt 4
    let d := sm3Low (bs.map (·.val))
    let step : Word := BitVec.ofNat 64 (valueOf (old.drop 8)) + 1
    writePhys cell pa leaf (cleanBytes (bytesOf 8 d.toNat ++ bytesOf 8 step.toNat)) fun _ _ => false
    modifyHart Hart.drainWcb
    wrA o.d d) s

/-- A digest mismatch leaves a record of class FABRIC and an event that names the cell and both digests (R270, R319, R389).
(DEDUCED, log 43.) -/
def State.digestMismatch (s : State) (n : Nat) (cell mine theirs step : Word) : State :=
  let h := s.hart n
  let d := dieOf n
  let s := s.record d { cls := 5, sev := 0, unit := coreUnit (coreOf n) 1, kid := h.kid.toNat, iter := s.iterOf n,
                        addr := cell.toNat }
  s.raiseEvent d evDigestMismatch (s.partOf n)
    (cell.toNat + mine.toNat * 2 ^ 64 + theirs.toNat * 2 ^ 128 + step.toNat * 2 ^ 192 + h.kid.toNat % 2 ^ 32 * 2 ^ 256 +
      h.logical % 2 ^ 32 * 2 ^ 288)

/-- `dig.wait` looks at the cell: an acquire at .f. (DEDUCED, log 43.) -/
def digLook (o : FC) : M Unit := do
  let cell ← rdA o.a
  aligned cell 16
  let (pa, _) ← translateMe cell .load
  let bs ← readPhys pa 16
  refusePoison cell bs
  let digest : Word := BitVec.ofNat 64 (valueOf (bs.take 8))
  let step : Word := BitVec.ofNat 64 (valueOf (bs.drop 8))
  let mine ← rdA o.b
  let want ← rdA o.c
  if step.toNat < want.toNat then throw (.wait (.dig o))
  else do
    acquired pa 16
    if want.toNat < step.toNat then wrA o.d 2
    else if digest = mine then wrA o.d 0
    else do
      wrA o.d 1
      modify fun s => s.digestMismatch s.cur cell mine digest step
    advance

def execDigWait (o : FC) (s : State) : Host.Outcome State Fault Refusal := runIn unitAp false (digLook o) s

/-- DIG_WAIT_WAKE: hart `ev.hart` looks again. -/
def execDigWaitWake (s : State) : Host.Outcome State Fault Refusal :=
  match (s.hart s.ev.hart).wait with
  | some (.dig o) => s.tryAgain s.ev.hart (.dig o) (digLook o)
  | _ => .next s

end Sys2Proof.Machine
end

