-- ==== Sys2Proof/Machine/Branch.lean ====
section
/-! DEFINITION. Transfers of control: majors 0x0C, 0x0D and 0x0E (09_access_instructions R186-R193; 02 R39; 04 R88). -/

namespace Sys2Proof.Machine

/-! ### Direct branches (R186, R187) -/

/-- pc + 8 × OFF (R156). -/
def FB.target (o : FB) (pc : Word) : Word := pc + 8 * o.off.signExtend 64

/-- The target of a branch of the running hart. -/
def branchTarget (o : FB) : M Word := do return FB.target o (← myHart).pc

/-- A branch taken when `c` holds; only a taken branch checks its target (R187). -/
def branchWhen (c : Bool) (o : FB) : M Unit :=
  if c then do
    let t ← branchTarget o
    requireInSeg t
    completeAt t
  else advance

/-- A comparison of a with b. -/
def compareBranch (f : Word → Word → Bool) (o : FB) : State → Host.Outcome State Fault Refusal :=
  runIn unitAp false do
    let a ← rdA o.a
    let b ← rdA o.b
    branchWhen (f a b) o

def execBeq (o : FB) (s : State) : Host.Outcome State Fault Refusal := compareBranch (· == ·) o s
def execBne (o : FB) (s : State) : Host.Outcome State Fault Refusal := compareBranch (· != ·) o s
def execBlt (o : FB) (s : State) : Host.Outcome State Fault Refusal := compareBranch BitVec.slt o s
def execBge (o : FB) (s : State) : Host.Outcome State Fault Refusal := compareBranch (fun a b => !a.slt b) o s
def execBltu (o : FB) (s : State) : Host.Outcome State Fault Refusal := compareBranch BitVec.ult o s
def execBgeu (o : FB) (s : State) : Host.Outcome State Fault Refusal := compareBranch (fun a b => !a.ult b) o s
def execJmp (o : FB) (s : State) : Host.Outcome State Fault Refusal := runIn unitAp false (branchWhen true o) s

/-- a63, the return address (R186). -/
def linkReg : BitVec 6 := 63

/-- The link register takes the address of the next word. -/
def link : M Unit := do wrA linkReg ((← myHart).pc + 8)

/-- `call`: a63 is written only when the target lies in the segment (R187). -/
def execCall (o : FB) (s : State) : Host.Outcome State Fault Refusal :=
  runIn unitAp false (do
    let t ← branchTarget o
    requireInSeg t
    link
    completeAt t) s

/-! ### Indirect transfers (R188-R190) -/

def execJr (o : FR) (s : State) : Host.Outcome State Fault Refusal :=
  runIn unitAp false (do
    let t ← rdA o.a
    raiseIf (t &&& 7 != 0) .misalign t
    requireInSeg t
    completeAt t) s

/-- Control passes to a landed segment. -/
def transferTo (t : Word) : M Unit := do
  requireLanded t
  jumpTo t

def execJmpF (o : FR) (s : State) : Host.Outcome State Fault Refusal :=
  runIn unitAp false (do transferTo (← rdA o.a)) s
def execRet (s : State) : Host.Outcome State Fault Refusal :=
  runIn unitAp false (do transferTo (← rdA linkReg)) s

/-- LEN of `sr.ftab` (Table 9.10). -/
def Hart.ftabLen (h : Hart) : Nat := (h.ftab.extractLsb' 52 12).toNat
/-- BASE of `sr.ftab` as an address. -/
def Hart.ftabBase (h : Hart) : Word := (h.ftab.extractLsb' 4 48).setWidth 64 <<< 4

/-- Bits of a function-table entry (Table 9.11). -/
def entryValid (e : Nat) : Bool := e / 2 ^ 96 % 2 == 1
def entrySig (e : Nat) : Nat := e / 2 ^ 64 % 2 ^ 20
def entryTarget (e : Nat) : Word := BitVec.ofNat 64 e

/-- The checks and the transfer of R190. -/
def execCallt (o : FR) (s : State) : Host.Outcome State Fault Refusal :=
  runIn unitAp false (do
    let a ← rdA o.a
    let h ← myHart
    raiseIf (h.ftabLen ≤ a.toNat) .prot a
    let va := h.ftabBase + 16 * a
    let bs ← loadBytes va 16
    raiseIf (anyPoison bs) .poisonConsumed va
    let e := valueOf bs
    raiseIf (!entryValid e || entrySig e != o.imm.toNat) .sigMismatch
      (BitVec.ofNat 64 ((if entryValid e then 0 else 2 ^ 40) + entrySig e * 2 ^ 20 + o.imm.toNat))
    requireLanded (entryTarget e)
    link
    jumpTo (entryTarget e)) s

/-! ### Vector-data branches (R191) -/

/-- Elements below vl that mask `mb` makes active. -/
def Hart.activeSet (h : Hart) (mb : Nat) : List Nat := (List.range h.vlen).filter fun e => (h.mReg mb).getLsbD e

/-- A branch on mask `ma` over the active set of `mb`; the AP first resynchronises with the EP (R28). (DEDUCED, log 22.) -/
def maskBranch (f : Mask → List Nat → Bool) (o : FB) : State → Host.Outcome State Fault Refusal :=
  runIn unitAp false do
    resync
    let h ← myHart
    branchWhen (f (h.mReg (o.a.toNat % 16)) (h.activeSet (o.b.toNat % 16))) o

def execBvAny (o : FB) (s : State) : Host.Outcome State Fault Refusal := maskBranch (fun m es => es.any m.getLsbD) o s
def execBvNone (o : FB) (s : State) : Host.Outcome State Fault Refusal := maskBranch (fun m es => !es.any m.getLsbD) o s
def execBvAll (o : FB) (s : State) : Host.Outcome State Fault Refusal := maskBranch (fun m es => es.all m.getLsbD) o s
def execBvNall (o : FB) (s : State) : Host.Outcome State Fault Refusal := maskBranch (fun m es => !es.all m.getLsbD) o s

/-! ### Loop branches (R39, R192, R193) -/

/-- NS of `sr.ec` (Table 12.16). -/
def Hart.stages (h : Hart) : Nat := (h.ec.extractLsb' 8 3).toNat + 1
/-- SL of `sr.ec`. -/
def Hart.live (h : Hart) : Nat := (h.ec.extractLsb' 0 8).toNat

/-- The step by which `brot` rotates: 2 when PAIR is 1 (R39). -/
def Hart.rotStep (h : Hart) : Nat := if h.rrbPair then 2 else 1

/-- SL after a `brot` (R39). -/
def Hart.nextLive (h : Hart) : Nat := (h.live * 2 + (if h.lc = 0 then 0 else 1)) % 2 ^ h.stages

/-- The registers and stage predicates after a `brot` (R39). -/
def Hart.brot (h : Hart) : Hart :=
  let sl := h.nextLive
  let ns := h.stages
  let h' := { h with
    lc := if h.lc = 0 then 0 else h.lc - 1
    ec := BitVec.ofNat 64 ((ns - 1) * 256 + sl) }
  let h' := h'.setBase ((h.rrbBase + h.rotStep) % 64)
  (List.range ns).foldl (fun h st => h.setM (8 + st) (if sl / 2 ^ st % 2 = 1 then BitVec.allOnes 128 else 0)) h'

/-- `brot` takes an entry of the EP queue for its masks and branches while a stage holds an iteration; a target outside the
segment leaves everything unchanged (R187, R193). -/
def execBrot (o : FB) (s : State) : Host.Outcome State Fault Refusal :=
  runIn unitAp false (do
    let h ← myHart
    let t ← branchTarget o
    if h.nextLive ≠ 0 then requireInSeg t
    epRoom
    modifyHart Hart.brot
    epSent
    if h.nextLive ≠ 0 then completeAt t else advance) s

/-- `bloop` (R192). -/
def execBloop (o : FB) (s : State) : Host.Outcome State Fault Refusal :=
  runIn unitAp false (do
    let h ← myHart
    let t ← branchTarget o
    if h.lc = 0 then advance
    else do
      requireInSeg t
      modifyHart fun h => { h with lc := h.lc - 1 }
      completeAt t) s

end Sys2Proof.Machine
end

