-- ==== Sys2Proof/Machine/Clocks.lean ====
section
/-! DEFINITION. Time: sync beats, settled marks, and the power cap (01_package R14, R16; 02 R36, R37; 05 R105; 15 Table 15.8). -/

namespace Sys2Proof.Machine

/-- SYNC_BEAT: the reference tells die `ev.die` that fabric time lies between `ev.lo` and `ev.hi` ns; the die's interval becomes what
it has in common with that. A beat that does not contain true time is no beat. (DEDUCED, log 64.) -/
def execSyncBeat (s : State) : Host.Outcome State Fault Refusal :=
  let d := s.ev.die
  if d < 8 && s.ev.lo * nsTicks ≤ s.now && s.now ≤ s.ev.hi * nsTicks then
    let (lo, hi) := s.interval d
    .next (s.setDie d { s.die d with clock := ⟨max lo s.ev.lo, min hi s.ev.hi, s.now⟩ })
  else .next s

/-- The least of the dies' earliest values. -/
def State.leastEarliest (s : State) : Nat := (allDies.map fun d => (s.interval d).1).foldl min (s.interval 0).1

/-- PACKAGE_MARK_UPDATE: a cycle passes, at whose end the other teams of FAULTED launches stop (R347, R351), and the reference forms
the package mark, which every die's L2 takes. (DESIGN CHOICE, log 4; DEDUCED, log 12.) -/
def execPackageMarkUpdate (s : State) : Host.Outcome State Fault Refusal :=
  let s := (s.launches.map (·.1)).foldl State.stopFaulted s
  let s := { s with now := s.now + cycleTicks }
  let m := max s.packageMark s.leastEarliest
  .next (allDies.foldl (fun s d => s.setDie d { s.die d with mark := m }) { s with packageMark := m })

/-- FABRIC_MARK_EXCHANGE: the least package mark of the other modules arrives as `ev.lo`; the fabric mark is the least of the group's
package marks, this module's among them, lowered by the delay bound `ev.hi` (R105). -/
def execFabricMarkExchange (s : State) : Host.Outcome State Fault Refusal :=
  let m := max s.fabricMark (min s.ev.lo s.packageMark - s.ev.hi)
  .next (allDies.foldl (fun s d => s.setDie d { s.die d with fmark := m }) { s with fabricMark := m })

/-- The grants that CAP may hold (Table 2.2). -/
def capOk (c : BitVec 8) : Bool := c = 128 || c = 96 || c = 64 || c = 32

/-- VLCAP_CHANGE: service firmware sets CAP of the dies of `ev.dies` to `ev.cap`, and a POWER_CAP event names them.
(DEDUCED, log 64.) -/
def execVlcapChange (s : State) : Host.Outcome State Fault Refusal :=
  let dies := allDies.filter s.ev.dies.getLsbD
  match dies with
  | [] => .next s
  | d :: _ =>
    if capOk s.ev.cap then
      let s' := dies.foldl (fun (x : State) d => x.setDie d { x.die d with vlcap := s.ev.cap }) s
      .next (s'.raiseEvent d evPowerCap 0xFF (s.ev.dies.toNat + s.ev.cap.toNat * 256))
    else .next s

end Sys2Proof.Machine
end

