-- ==== Sys2Proof/Machine/Deprecated.lean ====
section
/-! DEFINITION. The deprecated forms of major 0x7E (11_memory R250, R251, Table 11.10).

A fault inside an expansion sets bit 7 of the cause, and its `sr.tval` names the micro-step; the destination is written last. -/

namespace Sys2Proof.Machine

/-- A fault of `m` is one of micro-step `n`; an FP_TRAP keeps its flags in bits 20:16 (R250). -/
def atStep {α : Type} (n : Nat) (m : M α) : M α := do
  match ← attempt m with
  | .ok a => return a
  | .error (.trap c t _) => throw (.trap c (BitVec.ofNat 64 n ||| (if c = .fpTrap then t <<< 16 else 0)) 0)
  | .error e => throw e

/-- An expansion in a unit of the core: what is checked before it, then its micro-steps. (DEDUCED, log 20.) -/
def expansionIn (cunit : Nat) (pre body : M Unit) (s : State) : Host.Outcome State Fault Refusal :=
  match pre s with
  | .ok _ s' => runIn cunit true body s'
  | .error _ _ => runIn cunit false pre s

/-- An expansion that the EP performs (Table 8.8). -/
def expansion (pre body : M Unit) : State → Host.Outcome State Fault Refusal := expansionIn unitEp pre body

/-- An enabled flag of a micro-step traps. (DEDUCED, log 20.) -/
def stepFlags (n : Nat) (f : Flags) : M Unit := do
  if f &&& (← myHart).en != 0 then atStep n (raise .fpTrap (f.setWidth 64))

/-- The first offending operand is one of micro-step 0 (R197, R250). -/
def stepTags (bad : List (Bool × Word)) : M Unit :=
  atStep 0 (match bad.find? (·.1) with
    | some (_, t) => raise .tagMismatch t
    | none => pure ())

/-- Whether the taster finds the hart's waiting lane error in an expansion over elements `es`. -/
def foundIn (es : List Nat) : M Bool := do found (onOwnPipe (← me) es)

/-- Poison that a micro-step meets in sources at element `e`. -/
def stepPoison (n : Nat) (h : Hart) (ss : List VSrc) (e : Nat) : M Unit :=
  match firstPoison h ss e with
  | some t => atStep n (raise .poisonConsumed t)
  | none => pure ()

/-- An expansion completes: its flags accrue, its queue entries are lost. -/
def finishExpansion (ss : List VSrc) (f : Flags) : M Unit := do
  modifyHart (·.addFlags f)
  consume ss
  epSent
  tasterSteps
  advance

/-! ### `vmac` -/

/-- One chain over the active elements: the accumulator and the flags so far (Table 11.10). -/
def macLoop (h : Hart) (hit : Bool) (acc : BitVec 5) (a b : VSrc) : List Nat → Nat → Flags → M (Nat × Flags)
  | [], r, f => pure (r, f)
  | k :: ks, r, f => do
    stepPoison (1 + k) h [a, b] k
    atStep (1 + k) (taste hit k)
    let (r', g) :=
      if tagIsFloat acc then
        let (x, g) := fmaE h.rm (a.val h k).x (b.val h k).x (decodeFloat (fmtOf acc) r)
        let (p, g') := toFloat (fmtOf acc) false h.rm x
        (p, g ||| g')
      else (((signedOf 32 r + truncE (a.val h k).x * truncE (b.val h k).x) % (2 ^ 32 : Nat)).toNat, 0)
    stepFlags (1 + k) g
    macLoop h hit acc a b ks r' (f ||| g)

/-- The result of a sequence written into element 0 of `d`. -/
def lastStep (d n : Nat) (v : Val) : M Flags := do
  match intoReg (← myHart) d v 0 with
  | .ok (x, g) => do
    stepFlags n g
    modifyHart (writeReg d 0 x)
    spoilQ4 d
    return g
  | .error _ => return 0

/-- (DEDUCED, log 20.) -/
def execVmac (o : F3) (s : State) : Host.Outcome State Fault Refusal :=
  let a := srcOf o.a o.qa
  let b := srcOf o.b o.qb
  let d := o.d.toNat
  expansion (do checkQueues [a, b]; epRoom; checkPairOverlap d [a, b]) (do
    let h ← myHart
    if h.vlen ≤ h.start then finishExpansion [a, b] 0
    else
      stepTags (dotFaults h d a b)
      let dv : VSrc := .reg d
      if dv.poison h 0 then atStep 0 (raise .poisonConsumed (dv.poisonTval 0))
      let ks := h.masked o.msk
      let hit ← foundIn ks
      let acc := ((dotRow (a.tag h)).getD (0x0C, false)).1
      let (old, f0) := accOld acc h.rm (dv.val h 0)
      stepFlags 0 f0
      let (r, f1) ← macLoop h hit acc a b ks old f0
      let fl := (readAs (a.tag h) 0).isFloat || (readAs (b.tag h) 0).isFloat || (dv.val h 0).isFloat
      let g ← lastStep d (h.vlen + 1) ⟨(readAs acc r).x, fl⟩
      finishExpansion [a, b] (f1 ||| g)) s

/-! ### `vrecip` (R251) -/

/-- Rt[j], as 4096 times its value: 1/(1 + (2j + 1)/512) under RNE to 12 significant bits; no quotient lies half way. -/
def recipTable (j : Nat) : Nat := (2 * 2097152 + (513 + 2 * j)) / (2 * (513 + 2 * j))

/-- The result and flags of one element. -/
def recipOf (sat : Bool) (x : Exact) : Nat × Flags :=
  match x with
  | .nan _ => ((fmtOf 0x0C).canonicalNaN, x.snan)
  | .inf n => ((toFloat (fmtOf 0x0C) false .rne (.fin n 0 0 false)).1, 0)
  | .fin n m e _ =>
    if m = 0 then
      let (p, f) := toFloat (fmtOf 0x0C) sat .rne (.inf n)
      (p, f ||| flagDZ)
    else
      let l := bitLength m
      let ex : Int := e + l - 1
      let j := (m <<< 8) >>> (l - 1) - 256
      let (p, f) := toFloat (fmtOf 0x0C) sat .rne (.fin n (recipTable j) (-12 - ex) false)
      (p, f ||| flagNX)

/-- `vrecip` element by element: its poison is found by the classification, a lane's error by the last micro-step, NV and DZ by the
classification and the other flags by the last micro-step; a lower element's cause comes first (R365). (DEDUCED, log 20.) -/
def recipLoop (h : Hart) (hit sat : Bool) (a : VSrc) : List Nat → M (List (Nat × Nat × Flags))
  | [] => pure []
  | e :: es => do
    stepPoison 0 h [a] e
    atStep 2 (taste hit e)
    let (x, f) := recipOf sat (a.val h e).x
    stepFlags (if (flagNV ||| flagDZ) &&& f &&& h.en != 0 then 0 else 2) f
    return (e, x, f) :: (← recipLoop h hit sat a es)

/-- Results of elements written, and inactive ones below vl zeroed where MU is 1: a form starts at its beginning (R250, R356). -/
def writeAll (d : Nat) (mk : BitVec 4) (mu : Bool) (rs : List (Nat × Nat × Flags)) : M Unit := do
  modifyHart fun h => rs.foldl (fun h r => writeReg d r.1 r.2.1 h) h
  let h ← myHart
  if mu then forEach ((List.range h.vlen).filter fun e => !(h.maskOf mk).getLsbD e) fun e => modifyHart (writeReg d e 0)
  if mu || !rs.isEmpty then spoilQ4 d

/-- (DEDUCED, log 20.) -/
def execVrecip (o : F3) (s : State) : Host.Outcome State Fault Refusal :=
  let a := srcOf o.a o.qa
  let d := o.d.toNat
  expansion (do checkQueues [a]; epRoom) (do
    let h ← myHart
    if h.vlen ≤ h.start then finishExpansion [a] 0
    else
      let r := h.vreg (h.rot d)
      stepTags [(h.isPairHigh (h.rot d) || r.tag != 0x0C, BitVec.ofNat 64 d), (a.pairHigh h || a.tag h != 0x0C, a.tagTval)]
      let es := h.masked o.msk
      let rs ← recipLoop h (← foundIn es) r.sat a es
      writeAll d o.msk o.mu rs
      finishExpansion [a] (rs.foldl (fun (f : Flags) x => f ||| x.2.2) 0)) s

/-! ### `vsum` -/

/-- The running sum over the active elements in order. -/
def sumLoop (h : Hart) (hit : Bool) (a : VSrc) : List Nat → Nat → Flags → M (Nat × Flags)
  | [], r, f => pure (r, f)
  | e :: es, r, f => do
    stepPoison (1 + e) h [a] e
    atStep (1 + e) (taste hit e)
    let (r', g) := nodeOp .add (nodeTag (a.tag h)) h.rm r (leafPattern (a.tag h) (a.elem h e))
    stepFlags (1 + e) g
    sumLoop h hit a es r' (f ||| g)

/-- (DEDUCED, log 20.) -/
def execVsum (o : F3) (s : State) : Host.Outcome State Fault Refusal :=
  let a := srcOf o.a o.qa
  let d := o.d.toNat
  expansion (do checkQueues [a]; epRoom; checkPairOverlap d [a]) (do
    let h ← myHart
    if h.vlen ≤ h.start then finishExpansion [a] 0
    else
      stepTags (OpClass.n.faults h d [a])
      let es := h.masked o.msk
      let (r, f) ← sumLoop h (← foundIn es) a es (identityOf .add (nodeTag (a.tag h))) 0
      let g ← lastStep d (h.vlen + 1) (nodeVal (a.tag h) r)
      finishExpansion [a] (f ||| g)) s

/-! ### `vldu` -/

/-- Bytes of an element at an unaligned address that lie below the next multiple of its size. -/
def lowerBytes (s : Nat) (va : Word) : Nat := s - va.toNat % s

/-- Translate the parts of the active elements, all lower parts first, then the upper ones (micro-steps 0 and 1). -/
def translateParts (n : Nat) (parts : List (Word × Nat)) : M (List (Nat × Nat)) :=
  collect parts fun p => do
    let (pa, _) ← atStep n (translateMe p.1 .load)
    return (pa, p.2)

/-- (DEDUCED, log 20.) -/
def execVldu (o : F3) (s : State) : Host.Outcome State Fault Refusal :=
  let d := o.d.toNat
  let mt := o.x.extractLsb' 0 5
  let sz := mtBytes mt
  expansionIn unitAp (pure ()) (do
    let h ← myHart
    if h.vlen ≤ h.start then advance
    else
      stepTags [(h.isPairHigh (h.rot d), BitVec.ofNat 64 d)]
      let base ← rdA (aField o.a)
      let es := h.masked o.msk
      let at_ := fun (e : Nat) => base + BitVec.ofNat 64 (e * sz)
      let lo ← translateParts 0 (es.map fun e => (at_ e, lowerBytes sz (at_ e)))
      let hi ← translateParts 1 (es.map fun e =>
        let n := lowerBytes sz (at_ e)
        (at_ e + BitVec.ofNat 64 (if n = sz then 0 else n), sz - n))
      let xs ← collect (es.zip (lo.zip hi)) fun x => do
        let bs ← readPhys x.2.1.1 x.2.1.2
        let cs ← if x.2.2.2 = 0 then pure [] else readPhys x.2.2.1 x.2.2.2
        return (x.1, valueOf (bs ++ cs), anyPoison (bs ++ cs))
      let h ← myHart
      let ys := xs.map fun x => (x.1, loadInto h mt d (x.2.1, x.2.2), x.2.2)
      forEach ys fun y => stepFlags 2 y.2.1.2
      modifyHart fun h => ys.foldl (fun h y => h.setElem (h.rot d) y.1 y.2.1.1 y.2.2) h
      writeAll d o.msk o.mu []
      if !ys.isEmpty then spoilQ4 d
      modifyHart (·.addFlags (ys.foldl (fun (f : Flags) y => f ||| y.2.1.2) 0))
      advance) s

end Sys2Proof.Machine
end

