-- ==== Sys2Proof/Machine/MemoryEvents.lean ====
section
/-! DEFINITION. Events of the memory system, and the ends of stalls that concern it (02 R25, R28; 04 R75, R79, R80;
05 R90-R92, R111, R112, R400; 21 R359). -/

namespace Sys2Proof.Machine

/-! ### Stalls of the access processor -/

/-- AP_DECODE_RESUME: an entry of hart `ev.hart`'s EP queue frees, and a stall for room there ends (R25). (DESIGN CHOICE, log 8.) -/
def execApDecodeResume (s : State) : Host.Outcome State Fault Refusal :=
  let n := s.ev.hart
  let h := s.hart n
  if s.awake n && 0 < h.epq then
    .next (s.setHart n { h with epq := h.epq - 1, wait := if h.wait = some .epFull then none else h.wait })
  else .next s

/-- AP_RESYNC: the hart's earlier vector and matrix instructions have produced their values, and a resynchronising stall ends
(R28), also where a pre-emption stops the hart: no such instruction is unfinished where it is saved (R33, R41, R334).
(DESIGN CHOICE, log 8.) -/
def execApResync (s : State) : Host.Outcome State Fault Refusal :=
  let n := s.ev.hart
  let h := s.hart n
  let stalled := h.wait = some .resync
  let stops := (s.teamOf n).any (·.status == .stopping)
  if h.status = .running && ((s.awake n && stalled) || stops) then
    .next (s.setHart n { h with epq := 0, meq := 0, wait := if stalled then none else h.wait })
  else .next s

/-! ### Writes (R90-R92, R111, R112) -/

/-- WRITE_APPLY: agent `ev.die` (8 for the fabric peers) applies write `ev.idx` of the net, where R91 lets it. -/
def execWriteApply (s : State) : Host.Outcome State Fault Refusal :=
  match s.net[s.ev.idx]? with
  | none => .next s
  | some w => if s.mayApply w s.ev.die then .next (s.deliver s.ev.idx s.ev.die).settlePbars.settleWrites else .next s

/-- The store at place `i` of a buffer, where it may be applied: no earlier store of its path to the same bytes waits, and no duplicate
of its page is held (R79, R90, Table 5.1). -/
def State.dueStore (s : State) (buf : List BufStore) (i : Nat) : Option BufStore :=
  (buf[i]?).filter fun e => mayApplyStore buf i && (s.dupAt e.pa e.bytes.length).isNone

/-- STORE_APPLIED_TO_L2: store `ev.idx` of hart `ev.hart`, those of path L before those of path M, is applied at its die or in
the Cask (R90). (DEDUCED, log 47.) -/
def execStoreAppliedToL2 (s : State) : Host.Outcome State Fault Refusal :=
  let n := s.ev.hart
  let h := s.hart n
  let i := s.ev.idx
  let j := i - h.sbuf.length
  if i < h.sbuf.length then match s.dueStore h.sbuf i with
    | some e => .next ((s.setHart n { h with sbuf := h.sbuf.eraseIdx i }).applyStore n e)
    | none => .next s
  else match s.dueStore h.mbuf j with
    | some e => .next ((s.setHart n { h with mbuf := h.mbuf.eraseIdx j }).applyStore n e)
    | none => .next s

/-- Whether pending Cellar store `c` may be accepted: its home has placed it, no store to the same bytes comes before it in home order,
and none of an earlier epoch of its hart is left (R92, R111, R112). -/
def State.mayAccept (s : State) (c : CellarStore) : Bool :=
  (match c.place with
    | some n => !s.cellarPend.any fun e => rangesMeet e.pa e.bytes.length c.pa c.bytes.length && e.place.any (· < n)
    | none => false) &&
  !(match c.hart with
    | some n => s.epochOpen n c.epoch
    | none => false)

/-- CELLAR_ACCEPT: the write-pending queue accepts pending store `ev.idx`, which is then durable (R111, R112, R400).
(DEDUCED, log 35.) -/
def execCellarAccept (s : State) : Host.Outcome State Fault Refusal :=
  match s.cellarPend[s.ev.idx]? with
  | none => .next s
  | some c =>
    if s.mayAccept c then
      .next (({ s with cellarPend := s.cellarPend.eraseIdx s.ev.idx } : State).pokeMedia c.pa c.bytes).settlePbars.settleWrites
    else .next s

/-! ### The fabric (R92) -/

/-- The new value of an atomic of Table 9.8 by its FN[6:0]; none outside where no atomic has the code. -/
def amoByCode (fn : Nat) : Option (Nat → Nat → Nat → Nat → Option Nat) :=
  match fn with
  | 0x00 => some fun w old b _ => some ((old + b) % 2 ^ (8 * w))
  | 0x01 => some fun _ old b _ => some (old &&& b)
  | 0x02 => some fun _ old b _ => some (old ||| b)
  | 0x03 => some fun _ old b _ => some (old ^^^ b)
  | 0x04 => some fun w old b _ => some (if sltBytes w b old then b else old)
  | 0x05 => some fun w old b _ => some (if sltBytes w old b then b else old)
  | 0x06 => some fun _ old b _ => some (min old b)
  | 0x07 => some fun _ old b _ => some (max old b)
  | 0x08 => some fun _ _ b _ => some b
  | 0x09 => some fun _ old b c => if old = c then some b else none
  | 0x0A => some fun w old b _ => some (faddBytes w old b)
  | _ => none

/-- Memory of this module that a fabric peer can reach: HBM and the Cellar. (DESIGN CHOICE, log 49.) -/
def peerReaches (pa len : Nat) : Bool :=
  0 < len && (inHbm pa || inCellar pa) && windowOf pa = windowOf (pa + len - 1)

/-- A peer's write waits for the duplicates of a frame from now on; 20 µs after it began to wait, holders other than the dies of `ev.dies`
and the peers of bits `ev.idx` have not acknowledged: the write is not performed, and MIGRATION_TIMEOUT goes to the log, since no
hart of the module made it (R79, R359). (DEDUCED, log 47.) -/
def State.peerWaits (s : State) (frame : Nat) : State :=
  match Tbl.get none s.peerHeld frame, s.silentHolders frame with
  | none, _ => { s with peerHeld := Tbl.set none s.peerHeld frame (some s.now) }
  | some _, [] => s
  | some since, x :: xs =>
    if since + migrationLimit ≤ s.now then
      let code := Cause.migrationTimeout.code.toNat
      { s with dups := Tbl.set [] s.dups frame (x :: xs), peerHeld := Tbl.set none s.peerHeld frame none }.record (homeOf s.ev.pa % 8)
        { cause := code, cls := classOf code, sev := 1, unit := holderUnit frame x, addr := s.ev.pa, phys := true }
    else s

/-- FABRIC_WINDOW_ACCESS: a peer's access `ev.fop` at `ev.pa` is performed at its home (R92), once no page that it reaches moves and,
for one that writes, no duplicate of the page is held (R79, R80): until then it waits at the home. What a read returns goes to the
peer, which is outside the module; the read leaves the errors it finds as poison. (DESIGN CHOICE, log 49.) -/
def execFabricWindowAccess (s : State) : Host.Outcome State Fault Refusal :=
  let pa := s.ev.pa
  let home := homeOf pa
  let writes := fun (n : Nat) (f : State → State) => match s.dupAt pa n with
    | some frame => s.peerWaits frame
    | none => f s
  match s.ev.fop with
  | .read len =>
    if peerReaches pa len && !s.movesAt pa len then .next ((s.catchUp home).findErrors home pa len {}) else .next s
  | .write bs =>
    if peerReaches pa bs.length && !inRecovery (pa + bs.length - 1) && !s.movesAt pa bs.length then
      .next (writes bs.length fun s => (s.mergeErrors home pa bs.length {}).updateAtHomes pa (cleanBytes bs))
    else .next s
  | .amo fn d64 b c =>
    let w := if d64 then 8 else 4
    if (s.dupAt pa w).isSome && peerReaches pa w && pa % w = 0 && !inRecovery pa && !s.movesAt pa w then
      .next (writes w id)
    else if peerReaches pa w && pa % w = 0 && !inRecovery pa && !s.movesAt pa w then
      match amoByCode fn.toNat with
      | none => .next s
      | some f =>
        let s := (s.catchUp home).findErrors home pa w {}
        let old := (s.viewOf home).peek pa w
        if anyPoison old then .next s
        else match f w (valueOf old) (b.toNat % 2 ^ (8 * w)) (c.toNat % 2 ^ (8 * w)) with
          | some new => .next (s.updateAtHome home none 0 none pa (cleanBytes (bytesOf w new)))
          | none => .next s
    else .next s

/-! ### Duplicates (R79, R359) -/

/-- Every duplicate of a frame is invalid, and the harts that waited for that run their instruction again. (DEDUCED, log 47.) -/
def State.dropDups (s : State) (frame : Nat) : State :=
  let s := { s with dups := Tbl.set [] s.dups frame [], peerHeld := Tbl.set none s.peerHeld frame none }
  (s.waiting fun w => match w with
    | .dup f _ _ => f == frame
    | _ => false).foldl State.resumeHeld s

/-- The frame whose duplicates something waits for: hart `ev.hart`, or with `ev.good` the copy on `ev.tag` of `ev.core`, or with
`ev.idx` 1 the service die, a completion or a peer, for the frame at `ev.pa`. -/
def State.heldFrame (s : State) : Option Nat :=
  if s.ev.good then ((s.copyOn s.ev.core s.ev.tag).bind (·.held)).map (·.1)
  else if s.ev.idx = 1 then some s.ev.pa
  else match (s.hart s.ev.hart).wait with
    | some (.dup f _ _) => some f
    | _ => none

/-- DUP_WRITE_PERFORM: every holder has acknowledged, and the write that waited may perform. -/
def execDupWritePerform (s : State) : Host.Outcome State Fault Refusal :=
  match s.heldFrame with
  | some f => .next (s.dropDups f)
  | none => .next s

/-- MIGRATION_TIMEOUT: 20 µs after hart `ev.hart` began to wait, holders other than the dies of `ev.dies` and the peers of bits
`ev.idx` have not acknowledged; those that have stay invalid, and the write is not performed. -/
def execMigrationTimeout (s : State) : Host.Outcome State Fault Refusal :=
  let n := s.ev.hart
  match (s.hart n).wait with
  | some (.dup frame start va) =>
    match s.silentHolders frame with
    | [] => .next s
    | x :: xs =>
      if (s.hart n).status = .running && start + migrationLimit ≤ s.now then
        let s := { s with dups := Tbl.set [] s.dups frame (x :: xs) }
        let k := (s.hart n).start
        let f := { s.trapRecord n unitAp Cause.migrationTimeout.code va k with unit := holderUnit frame x }
        let s := s.endWait n
        .next (s.takeTrapWith n f Cause.migrationTimeout.code va (s.hart n).pc k)
      else .next s
  | _ => .next s

/-! ### Translations (R75, R80) -/

/-- The harts of a partition. -/
def State.hartsIn (s : State) (p : Nat) : List Nat := (s.coresIn p).flatMap fun c => [2 * c, 2 * c + 1]

/-- The partition of a number under which something is under way: of a hart slot, or of a team that has none. -/
def State.partOfNumber (s : State) (n : Nat) : Nat :=
  if n < 512 then s.partOf n else ((s.team ((n - 512) / 32)).map (·.part)).getD 0

/-- Something of a partition still holds a translation into one of the pages: a store of path M, a store that waits for duplicates, a
stamped store that is not visible yet, or a segment on its way. -/
def State.translationHeld (s : State) (p : Nat) (pages : List (Nat × Nat)) : Bool :=
  let inPage := fun (pa n : Nat) => pages.any fun x => rangesMeet x.1 x.2 pa n
  let late := fun (e : BufStore) => inPage e.pa e.bytes.length && (s.dupAt e.pa e.bytes.length).isSome
  (s.hartsIn p).any (fun n =>
    ((s.hart n).mbuf.any fun e => inPage e.pa e.bytes.length) || ((s.hart n).sbuf ++ (s.hart n).wcb).any late) ||
  (s.stampq.any fun e => s.partOfNumber e.hart = p && inPage e.pa 32) ||
  (s.coresIn p).any fun c =>
    let coming := fun (sl : CodeSlot) => sl.landed == some false && inPage sl.pa 4096
    (s.core c).code.any (fun e => coming e.2) || coming (s.core c).sup

/-- The buffered stores of a partition's harts into pages are applied. -/
def State.flushPages (s : State) (p : Nat) (pages : List (Nat × Nat)) : State :=
  (s.hartsIn p).foldl (fun (s : State) n => pages.foldl (fun (s : State) x => s.flushRange n x.1 x.2) s) s

/-- TLBINV_COMPLETE: `tlbinv` of hart `ev.hart` completes once no instruction holds a translation that was removed: stores of path L
that had one are applied, and what else had one has finished (R75). (DEDUCED, log 46.) -/
def execTlbinvComplete (s : State) : Host.Outcome State Fault Refusal :=
  let n := s.ev.hart
  match (s.hart n).wait with
  | some (.tlbinv pages) =>
    let p := s.partOf n
    if s.awake n && !s.translationHeld p pages then .next ((s.flushPages p pages).endStall n) else .next s
  | _ => .next s

/-- An address of the old frame, moved with the page. -/
def movedAddr (old : Nat) (m : Move) (pa : Nat) : Nat :=
  if old ≤ pa && pa < old + m.size then pa - old + m.frame else pa

/-- The buffered stores of a hart follow a page. -/
def Hart.follow (h : Hart) (f : Nat → Nat) : Hart :=
  let mv := fun (e : BufStore) => { e with pa := f e.pa }
  { h with sbuf := h.sbuf.map mv, wcb := h.wcb.map mv, mbuf := h.mbuf.map mv, early := [] }

/-- A core after a page moved: no entry of its TLB holds the old frame, and segments on their way follow. -/
def Core.follow (c : Core) (old : Nat) (f : Nat → Nat) : Core :=
  { c with tlb := c.tlb.filter fun e => pteAddr e.leaf != old,
           code := c.code.map (fun e => (e.1, { e.2 with pa := f e.2.pa })),
           sup := { c.sup with pa := f c.sup.pa } }

/-- Entries of a table whose keys lie in the old frame follow to the new one, which loses what it had; `addr` is the byte
address of a key, and `rekey` the new key. -/
def followKeys {α : Type} [DecidableEq α] (d : α) (t : Tbl α) (old : Nat) (m : Move) (addr : Nat → Nat) (rekey : Nat → Nat) :
    Tbl α :=
  let inOld := fun k => decide (old ≤ addr k ∧ addr k < old + m.size)
  let inNew := fun k => decide (m.frame ≤ addr k ∧ addr k < m.frame + m.size)
  (t.filter fun e => inOld e.1).foldl (fun t e => Tbl.set d t (rekey e.1) e.2) (t.filter fun e => !inOld e.1 && !inNew e.1)

/-- The page at frame `old` moves (R80): every write made before is applied everywhere and goes with it, a Cellar store that is not
durable yet as such; the leaf is switched, no TLB holds the old frame, and everything that named it names the new one.
(DEDUCED, log 47.) -/
def State.movePage (s : State) (old : Nat) (m : Move) : State :=
  let d := dieOf m.hart
  let f := movedAddr old m
  let s := allDies.foldl State.catchUp (s.catchUp fabricAgent)
  let s := { s with cellarPend := s.cellarPend.map fun (c : CellarStore) => { c with pa := f c.pa } }
  let s := s.copyFrame d old m.frame m.size
  let leaf : Word := BitVec.ofNat 64 (valueOf (s.wordAt d m.leafPa))
  let s := s.updateAtHome d none 0 none m.leafPa (cleanBytes (bytesOf 8 (moveLeaf leaf m.frame).toNat))
  let s := s.cores.foldl (fun s e => s.setCore e.1 (e.2.follow old f)) s
  let s := s.dies.foldl (fun s e => s.setDie e.1 { e.2 with tlb := e.2.tlb.filter fun x => pteAddr x.leaf != old }) s
  let keyAddr := fun (k : Nat) => k / 2 ^ 32 * 4
  let rekey := fun (k : Nat) => f (keyAddr k) / 4 * 2 ^ 32 + k % 2 ^ 32
  let held := (Tbl.get [] s.dups old).filter (· != holderOf m.frame)
  { s with
    harts := s.harts.map fun e => (e.1, e.2.follow f)
    stampq := s.stampq.map fun x => { x with pa := f x.pa }
    detKeys := followKeys none s.detKeys old m keyAddr rekey
    dups := Tbl.set [] (Tbl.set [] s.dups old []) m.frame held
    dupSizes := Tbl.set 0 (Tbl.set 0 s.dupSizes old 0) m.frame m.size
    moving := Tbl.set none s.moving old none }

/-- Harts that wait for the page, or for a cell or duplicates of it, run their instructions again. -/
def State.releasePage (s : State) (old size : Nat) : State :=
  let inOld := fun (pa : Nat) => old ≤ pa && pa < old + size
  let s := (s.waiting fun w => match w with
    | .migrating _ => true
    | _ => false).foldl State.endWait s
  (s.waiting fun w => match w with
    | .dup f _ _ => inOld f
    | .commit c => inOld c
    | _ => false).foldl State.resumeHeld s

/-- A page may move once the Cellar stores that the move could not carry are durable: those to the new frame, and where that is not in
the Cellar, those to the old one (R80, R112). -/
def State.mayMove (s : State) (old : Nat) (m : Move) : Bool :=
  let inside := fun (lo pa : Nat) => decide (lo ≤ pa ∧ pa < lo + m.size)
  !s.cellarPend.any fun (c : CellarStore) => inside m.frame c.pa || (inside old c.pa && !inCellar m.frame)

/-- PGMIG_COMPLETE: the move that hart `ev.hart` asked for is done, and the accesses held are released (R80). A leaf in error is a machine
check, and the page stays (R345). -/
def execPgmigComplete (s : State) : Host.Outcome State Fault Refusal :=
  match s.moving.find? fun e => match e.2 with
    | some m => m.hart == s.ev.hart
    | none => false with
  | some (old, some m) =>
    if s.badNode (dieOf m.hart) m.leafPa then
      .next (({ s with moving := Tbl.set none s.moving old none } : State).nodeCheck m.part m.leafPa)
    else if !s.mayMove old m then .next s
    else
      let s := ((s.movePage old m).releasePage old m.size).settlePbars.settleWrites
      .next (if (s.hart m.hart).wait = some (.pgmig old) then s.endStall m.hart else s)
  | _ => .next s

end Sys2Proof.Machine
end

