-- ==== Sys2Proof/Machine/Launches.lean ====
section
/-! DEFINITION. Launch records, their rejection and arrival, the Blender, and `lnch` (06_launch R116-R118, R120, R123, R406;
07_splicing R137-R144; 12_matrix R268).

Launches of a partition are numbered in the order in which they arrive; one leaves the table when its completion is written. A
queue is the launches that name it, in that order. -/

namespace Sys2Proof.Machine

/-! ### What the lead slice reads (R123, R403, R406) -/

/-- The lead slice is no hart: it has the partition's own rights, and no Cask. -/
def leadRights : Rights := ⟨false, false, none, 0⟩

/-- Bytes that the lead slice of partition `p` reads through the page tables; none where they cannot be read, or carry poison. -/
def leadRead (p : Nat) (va : Word) (len : Nat) : M (Option (List PByte)) := do
  match ← attempt (readVirtual p p none none leadRights va len) with
  | .ok bs => return if anyPoison bs then none else some bs
  | .error (.trap _ _ _) => return none
  | .error e => throw e

/-- The eight descriptors of a slot table as the lead slice reads them, where it stands (R118); one that it cannot read counts as unused
(R406), and a launch without a table has none. (DEDUCED, log 50.) -/
def leadSlots (p tab : Nat) : M (List SlotDesc) :=
  if tab = 0 then return List.replicate 8 {}
  else collect (List.range 8) fun i => do
    match ← leadRead p (BitVec.ofNat 64 (tab + 64 * i)) 64 with
    | some bs => return { raw := BitVec.ofNat 512 (packed bs) }
    | none => return {}

/-! ### Rejection (R118) -/

/-- The launch of a partition that has a kernel id, queued or running. -/
def State.findKid (s : State) (p kid : Nat) : Option (Nat × Launch) := (launchesOf s p).find? fun e => e.2.kid == kid

/-- Cores of a partition that take teams. -/
def State.activeCores (s : State) (p : Nat) : List Nat :=
  (s.diesOf p).flatMap fun d => ((s.coresOfDie d).map (32 * d + ·)).filter fun c => !(s.core c).degraded

/-- Bytes of a partition's stack pool and save pool (R318). -/
def Part.stackPool (q : Part) : Nat := (q.w6.extractLsb' 0 32).toNat * 2 ^ 20
def Part.savePool (q : Part) : Nat := (q.w6.extractLsb' 32 32).toNat * 2 ^ 20

/-- Bytes of stack that a team of a launch needs. -/
def Launch.stackBytes (l : Launch) : Nat := l.teamSize * l.stackKib * 1024

/-- TYPE names a tag of Table 3.1. -/
def SlotDesc.typeListed (d : SlotDesc) : Bool := d.type < 32 && tagListed (BitVec.ofNat 5 d.type)

/-- The rejection code of a record with its slots: the first condition that holds, 0 for none. -/
def State.rejection (s : State) (l : Launch) (ds : List SlotDesc) : Nat :=
  if l.bits 37 27 != 0 || ds.any (fun d => d.acc != 0 && d.bits 496 16 != 0) then 1
  else if l.entry % 8 != 0 || l.nseg = 0 || 64 < l.nseg then 2
  else if (List.range 4).any fun d => l.shape d == 0 then 3
  else if l.teamSize = 0 || 32 < l.teamSize || l.lcores = 0 || 224 < l.lcores || l.lcores % l.coresPerTeam != 0 then 4
  else if 7 < l.prio || 63 < l.queue || ds.any (fun d => 4 < d.acc || (d.acc != 0 && !d.typeListed)) then 5
  else if 2 ^ 20 < l.caskb || l.caskb % 64 != 0 then 6
  else if l.cflag % 16 != 0 || l.slottab % 64 != 0 then 7
  else if l.resident && (s.activeCores l.part).length < l.lcores then 8
  else if l.kid = 0 || (s.findKid l.part l.kid).isSome then 9
  else if (s.part l.part).stackPool < l.stackBytes then 10
  else 0

/-! ### Queues and readiness (R123) -/

/-- The earlier launches of a launch's queue that have not completed. -/
def State.ahead (s : State) (li : Nat) (l : Launch) : List Nat :=
  ((launchesOf s l.part).filter fun e => e.1 < li && e.2.queue == l.queue).map (·.1)

/-- The kernel ids that a launch waits for. -/
def Launch.preds (l : Launch) : List Nat := ((List.range 4).map l.pred).filter (· != 0)

/-- The launches that the PRED fields of an arriving launch name, queued or running then: one that has not arrived is not waited for
(R123, R394). -/
def State.namedPreds (s : State) (l : Launch) : List Nat := l.preds.filterMap fun k => (s.findKid l.part k).map (·.1)

/-- Those that have not completed yet. (DEDUCED, log 50.) -/
def State.openPreds (s : State) (l : Launch) : List Nat := l.waits.filter fun k => (s.launch k).isSome

/-- A launch is ready (R123). -/
def State.launchReady (s : State) (li : Nat) (l : Launch) : Bool := s.ahead li l == [] && s.openPreds l == []

/-- The last stage of the splice that a launch heads, or the launch (R142). -/
def State.lastStage (s : State) (l : Launch) : Launch :=
  match l.chain.getLast? with
  | some k => (s.launch k).getD l
  | none => l

/-- Teams of a launch, or of the splice that it heads (R142). -/
def State.teamCount (s : State) (l : Launch) : Nat := (s.lastStage l).nteams

/-- The teams of a launch that are saved. -/
def State.savedTeams (s : State) (li : Nat) : List Nat :=
  (s.teams.filter fun e => match e.2 with
    | some t => t.launch == li && t.status == .saved
    | none => false).map (·.1)

/-- A launch that still has a team to place. -/
def State.hasUnadmitted (s : State) (li : Nat) (l : Launch) : Bool :=
  !l.faulted && (l.status == .queued || l.status == .running) && l.ntile != 0 &&
    (l.nextTeam < s.teamCount l || (s.savedTeams li) != [])

/-- A team of launch `li` is being stopped (R333). -/
def State.stoppingAny (s : State) (li : Nat) : Bool := s.teams.any fun e => match e.2 with
  | some t => t.launch == li && t.status == .stopping
  | none => false

/-- Ages start to count for launches that have become ready, and stand at 0 for those with every team admitted (R125). -/
def State.markReady (s : State) (p : Nat) : State :=
  (launchesOf s p).foldl (fun (s : State) e =>
    match s.launch e.1 with
    | none => s
    | some l =>
      if l.head.isNone && s.launchReady e.1 l && (s.hasUnadmitted e.1 l || s.stoppingAny e.1) then
        (if l.readyAt.isNone then s.setLaunch e.1 { l with readyAt := some s.now, age := 0 } else s)
      else s.setLaunch e.1 { l with readyAt := none, age := 0 }) s

/-! ### The Blender: maps (R137-R139) -/

/-- A square or rectangular integer matrix by rows. -/
abbrev IMat := List (List Int)

/-- The sign (−1)^k. -/
def signOf (k : Nat) : Int := if k % 2 = 0 then 1 else -1

/-- Entry i, j. -/
def IMat.at (m : IMat) (i j : Nat) : Int := (m.getD i []).getD j 0

/-- The matrix without row i and column j. -/
def IMat.minor (m : IMat) (i j : Nat) : IMat := (m.eraseIdx i).map fun r => r.eraseIdx j

/-- Determinant of an n × n matrix, along its first row. -/
def IMat.det : Nat → IMat → Int
  | 0, _ => 1
  | n + 1, m => (List.range (n + 1)).foldl (fun sum j => sum + signOf j * IMat.at m 0 j * IMat.det n (IMat.minor m 0 j)) 0

/-- Inverse of an n × n matrix of determinant 1 or −1. -/
def IMat.inverse (n : Nat) (m : IMat) : IMat :=
  (List.range n).map fun i => (List.range n).map fun j =>
    IMat.det n m * signOf (i + j) * IMat.det (n - 1) (IMat.minor m j i)

/-- Product with a vector. -/
def IMat.mulVec (m : IMat) (v : List Int) : List Int :=
  m.map fun r => (r.zip v).foldl (fun sum x => sum + x.1 * x.2) 0

/-- Rows and columns of a descriptor's map. -/
def SlotDesc.part (d : SlotDesc) (rows cols : List Nat) : IMat := rows.map fun a => cols.map fun b => d.map a b

/-- The element rows that a write map uses (R137). -/
def SlotDesc.rows (d : SlotDesc) (used : List Nat) : List Nat := (List.range 4).filter fun a => used.any fun b => d.map a b != 0

/-- The column of a row that has exactly one entry 1 and otherwise 0. -/
def unitColumn (r : List Int) : Option Nat :=
  if r.count 1 = 1 && r.count 0 + 1 = r.length then some (r.idxOf 1) else none

/-- The tile bijection of producer `p` writing through `pd` and consumer `c` reading through `cd` (R137-R139): pairs (a, b) with
G[a][b] = 1; none where a condition fails. -/
def tileBijection (p c : Launch) (pd cd : SlotDesc) : Option (List (Nat × Nat)) :=
  let up := p.used
  let uc := c.used
  let w := pd.rows up
  let n := up.length
  let a := pd.part w up
  let d := IMat.det n a
  let others := (List.range 4).filter fun r => !w.contains r
  if w.length != n || (d != 1 && d != -1) || uc.length != n ||
      others.any (fun r => uc.any (fun b => cd.map r b != 0) || cd.offset r != pd.offset r) then none
  else
    let inv := IMat.inverse n a
    let cols := uc.map fun b => IMat.mulVec inv (w.map fun r => cd.map r b)
    let g := IMat.mulVec inv (w.map fun r => cd.offset r - pd.offset r)
    let rows := (List.range n).map fun i => cols.map fun col => col.getD i 0
    let pairs := (rows.zip up).filterMap fun r => (unitColumn r.1).map fun j => (r.2, uc.getD j 0)
    if g.all (· == 0) && pairs.length = n && (pairs.map (·.2)).eraseDups.length = n &&
        pairs.all (fun ab => p.shape ab.1 == c.shape ab.2 && p.extent ab.1 == c.extent ab.2) then some pairs
    else none

/-! ### The Blender: address intervals (condition 9 of Table 7.2) -/

/-- The ranges of addresses, first and last byte, that a slot of a launch may touch. -/
def slotRanges (l : Launch) (d : SlotDesc) : List (Nat × Nat) :=
  let sum := fun (f : Nat → Int) => (List.range 4).foldl (fun acc i => acc + f i) 0
  let start : Int := d.base + sum fun a => d.stride a * d.offset a
  let reach := fun b => (sum fun a => d.stride a * d.map a b) * ((l.extent b : Int) - 1)
  let lo := start + sum fun b => min 0 (reach b)
  let hi := start + (sum fun b => max 0 (reach b)) + ((max (nibblesOf d.type) 2 / 2 : Nat) : Int) - 1
  if 2 ^ 64 ≤ hi - lo + 1 then [(0, 2 ^ 64 - 1)]
  else
    let a := (lo % 2 ^ 64).toNat
    let b := (hi % 2 ^ 64).toNat
    if a ≤ b then [(a, b)] else [(a, 2 ^ 64 - 1), (0, b)]

/-- Whether no range of one list meets one of another. -/
def rangesApart (x y : List (Nat × Nat)) : Bool := x.all fun p => y.all fun q => p.2 < q.1 || q.2 < p.1

/-- The written slots of `x` other than `skip` stay clear of every slot of `y`. -/
def slotsApart (x y : Launch) (xs ys : List SlotDesc) (skip : Nat) : Bool :=
  (xs.zipIdx.filter fun d => d.2 != skip && 2 ≤ d.1.acc && d.1.acc ≤ 4).all fun d =>
    (ys.filter fun e => e.acc != 0).all fun e => rangesApart (slotRanges x d.1) (slotRanges y e)

/-! ### The Blender: the decision (Table 7.2, R140, R141, R144) -/

/-- What a splice of two launches adds to the producer. -/
structure Link where
  perm : List (Nat × Nat)
  slotOut : Nat
  slotIn : Nat
  bytes : Nat
  deriving DecidableEq, Repr

/-- A launch that may be a stage (condition 1). -/
def Launch.stageable (l : Launch) : Bool := l.spliceOk && l.slotOnly && !l.dynamic && !l.resident && l.ntile != 0

/-- The numbers of the descriptors that satisfy a condition. (DEDUCED, log 51.) -/
def slotsWhere (ds : List SlotDesc) (f : SlotDesc → Bool) : List Nat := (ds.zipIdx.filter fun d => f d.1).map (·.2)

/-- The reading slot of condition 6: ACC 1, with the producer's BASE, strides and TYPE. -/
def SlotDesc.readsAs (d pd : SlotDesc) : Bool := d.acc == 1 && d.bits 0 320 == pd.bits 0 320 && d.type == pd.type

/-- Conditions 1, 4 and 6 to 9 of Table 7.2. A malformed descriptor, which a hart would find bad, joins nothing.
(DEDUCED, log 51.) -/
def linkOf (p c : Launch) (ps cs : List SlotDesc) : Option Link :=
  if !p.stageable || !c.stageable || p.teamSize != c.teamSize || p.lcores != c.lcores || p.det != c.det || 2 < p.teamSize ||
      (ps ++ cs).any SlotDesc.malformed then none
  else match slotsWhere ps (·.acc == 4) with
    | [i] =>
      let pd := ps.getD i {}
      match slotsWhere cs (·.readsAs pd) with
      | [j] =>
        let cd := cs.getD j {}
        if pd.reader != c.kid || !slotsApart p c ps cs i || !slotsApart c p cs ps j then none
        else (tileBijection p c pd cd).map fun m => ⟨m, i, j, p.windowBytes (nibblesOf pd.type)⟩
      | _ => none
    | _ => none

/-- The producer that condition 2 gives a launch: the one directly ahead of it, or where its queue holds none ahead, the one
that all its PRED fields name. -/
def State.producerOf (s : State) (ci : Nat) (c : Launch) : Option Nat :=
  match (s.ahead ci c).getLast? with
  | some pi => some pi
  | none => match c.preds with
    | [] => none
    | k :: ks => if ks.all (· == k) then ((s.findKid c.part k).map (·.1)).filter (· != ci) else none

/-- The stages of the splice that launch `pi` ends, if none of its teams has been admitted and another may join (condition 5,
R141). -/
def State.openChain (s : State) (pi : Nat) (p : Launch) : Option (Nat × List Nat) :=
  let hd := p.head.getD pi
  match s.launch hd with
  | none => none
  | some h =>
    let ch := if h.chain = [] then [hd] else h.chain
    if ch.getLast? = some pi && ch.length < 4 && h.nextTeam = 0 && h.status = .queued && !h.faulted then some (hd, ch) else none

/-- The windows of a chain lie one after another from the greatest CASKB (R144). -/
def State.layWindows (s : State) (ch : List Nat) (bmax : Nat) : State :=
  (ch.foldl (fun (x : State × Nat) k => match x.1.launch k with
    | some l => (x.1.setLaunch k { l with window := x.2 }, x.2 + l.windowLen)
    | none => x) (s, bmax)).1

/-- The greatest CASKB of stages, and the sum of their NSEG. -/
def State.chainCask (s : State) (ch : List Nat) : Nat := (ch.filterMap s.launch).foldl (fun m l => max m l.caskb) 0
def State.chainSegs (s : State) (ch : List Nat) : Nat := (ch.filterMap s.launch).foldl (fun m l => m + l.nseg) 0
/-- The bytes of the windows of stages. -/
def State.chainWindows (s : State) (ch : List Nat) : Nat := (ch.filterMap s.launch).foldl (fun m l => m + l.windowLen) 0

/-- The consumer joins the splice that its producer ends. (DEDUCED, log 51.) -/
def State.join (s : State) (hd : Nat) (ch : List Nat) (pi ci : Nat) (k : Link) : State :=
  let s := match s.launch pi with
    | some p => s.setLaunch pi { p with perm := k.perm, slotOut := k.slotOut, slotIn := k.slotIn, windowLen := k.bytes }
    | none => s
  let ch := ch ++ [ci]
  if s.chainCask ch + s.chainWindows ch ≤ 2 ^ 20 && s.chainSegs ch ≤ 64 then
    let s := match s.launch hd with
      | some h => s.setLaunch hd { h with chain := ch }
      | none => s
    let s := match s.launch ci with
      | some c => s.setLaunch ci { c with head := some hd }
      | none => s
    s.layWindows ch (s.chainCask ch)
  else match s.launch pi with
    | some p => s.setLaunch pi { p with perm := [], slotOut := 0, slotIn := 0, windowLen := 0 }
    | none => s

/-- The Blender considers splicing consumer `ci` to producer `pi`; a launch that heads a splice already does not join another (R141).
(DEDUCED, log 51.) -/
def splice (pi ci : Nat) : M Unit := do
  let s ← get
  match s.launch pi, s.launch ci with
  | some p, some c => match s.openChain pi p with
    | some (hd, ch) =>
      if c.status = .queued && c.nextTeam = 0 && c.chain = [] then
        let ps ← leadSlots p.part p.slottab
        let cs ← leadSlots c.part c.slottab
        match linkOf p c ps cs with
        | some k => modify fun s => s.join hd ch pi ci k
        | none => pure ()
      else pure ()
    | none => pure ()
  | _, _ => pure ()

/-- The Blender's decision on launch `ci` (R141), final, with the producer that its arrival gave it; it is put off while a PRED other
than that producer's KID is open. (DEDUCED, log 51.) -/
def blend (ci : Nat) : M Unit := do
  let s ← get
  match s.launch ci with
  | none => pure ()
  | some c => match c.producer with
    | none => pure ()
    | some pi =>
      if c.decided || (s.openPreds c).any (· != pi) then pure ()
      else do
        modify fun s => s.setLaunch ci { c with decided := true }
        splice pi ci

/-- A launch arrives: what it waits for and the producer of condition 2 are fixed, and the Blender decides where it can.
(DEDUCED, log 51.) -/
def arriveLaunch (ci : Nat) (c : Launch) : M Unit := do
  let s ← get
  let prod := s.producerOf ci c
  modify fun s => s.setLaunch ci { c with waits := s.namedPreds c, producer := prod, decided := prod.isNone }
  blend ci

/-! ### Arrival (R116, R123) -/

/-- A record that has been read is handled: its rejection code, or 0 and the launch is queued. (DEDUCED, log 50.) -/
def handleRecord (p : Nat) (va : Word) (bs : List PByte) : M Nat := do
  let l : Launch := { part := p, addr := va, raw := BitVec.ofNat 1024 (packed bs) }
  let ds ← leadSlots p l.slottab
  let s ← get
  match s.rejection l ds with
  | 0 => do
    let li := s.nextLaunch
    set { s with nextLaunch := li + 1 }
    arriveLaunch li l
    modify fun s => s.markReady p
    return 0
  | c => return c

/-- `lnch` (R268): a release at .k, then the wait for the lead slice's answer. (DEDUCED, log 50.) -/
def execLnch (o : FC) (s : State) : Host.Outcome State Fault Refusal :=
  runIn unitAp false (do
    aligned (← rdA o.a) 8
    releaseAt 3
    throw (.wait (.lnch o))) s

/-- The lead slice reads the record, through the L2 of the launching hart's die (R18), and answers. -/
def lnchAnswered (o : FC) : M Unit := do
  let s ← get
  let p := s.partOf s.cur
  let va ← rdA o.a
  let bs ← readVirtual p (dieOf s.cur) none none leadRights va 128
  raiseIf (anyPoison bs) .poisonConsumed va
  let code ← handleRecord p va bs
  wrA o.d (BitVec.ofNat 64 code)
  advance

/-- LNCH_ANSWER: the answer reaches hart `ev.hart`. A pre-emption waits for it. -/
def execLnchAnswer (s : State) : Host.Outcome State Fault Refusal :=
  let n := s.ev.hart
  match (s.hart n).wait with
  | some (.lnch o) =>
    if (s.hart n).status = .running then
      match s.lookAgain n (lnchAnswered o) with
      | .next s' => match (s'.hart n).wait with
        | some (.migrating _) => .next s
        | _ => .next s'
      | x => x
    else .next s
  | _ => .next s

end Sys2Proof.Machine
end

