-- ==== Sys2Proof/Machine/Matrix.lean ====
section
/-! DEFINITION. The matrix engine: majors 0x28 and 0x29 (12_matrix R253-R261; 03 R58-R60; 04 R83; 02 R21, R38).

An instruction of the engine is performed whole when the access processor sends it; `meq` counts what has been sent since the
last resynchronisation. -/

namespace Sys2Proof.Machine

/-! ### Shapes (Tables 8.3, 12.1, 12.2) -/

/-- The tag of a TY (Table 8.3). -/
def tyTag (ty : Nat) : BitVec 5 :=
  ([0x0D, 0x0C, 0x0A, 0x0B, 0x08, 0x09, 0x04, 0x00, 0x10, 0x11, 0x12, 0x13] : List (BitVec 5)).getD ty 0

/-- A shape: TY, K, N. -/
structure Shape where
  ty : Nat
  k : Nat
  n : Nat
  deriving DecidableEq, Repr

/-- The shape that a word laid out as Table 12.1 holds. -/
def shapeOf (w : Word) : Shape :=
  ⟨(w.extractLsb' 0 4).toNat, (w.extractLsb' 16 10).toNat, (w.extractLsb' 32 8).toNat⟩

/-- Largest K of a TY (Table 12.2), 0 for a reserved one. -/
def maxK (ty : Nat) : Nat := [64, 64, 128, 128, 256, 256, 256, 256, 512, 512, 512, 512].getD ty 0

/-- K and N are multiples of 8 within Table 12.2. -/
def shapeFits (ty k n : Nat) : Bool :=
  k % 8 == 0 && n % 8 == 0 && 8 ≤ k && k ≤ maxK ty && 8 ≤ n && n ≤ (if ty = 0 then 64 else 128)

/-- Bits of an element of the shape. -/
def Shape.width (sh : Shape) : Nat := tagWidth (tyTag sh.ty)
/-- RB of Table 12.2. -/
def Shape.rowBytes (sh : Shape) : Nat := sh.n * sh.width / 8

/-- The accumulator format of a TY (Table 3.7). -/
def accOf (ty : Nat) : BitVec 5 := ((dotRow (tyTag ty)).getD (0x0C, false)).1
/-- u: Vat columns of an accumulator. -/
def accCols (acc : BitVec 5) : Nat := if acc = 0x0D then 2 else 1

/-! ### Tiles and the Vat (R83, R256) -/

/-- The pattern of element (k, n) of a tile (R256, R46). -/
def Tile.elem (t : Tile) (sh : Shape) (k n : Nat) : Nat :=
  (t.data.toNat >>> (8 * (k * sh.rowBytes) + n * sh.width)) % 2 ^ sh.width

/-- First half byte of element (k, n) of a tile, and the half bytes that it takes. -/
def tileNibble (sh : Shape) (k n : Nat) : Nat := 2 * (k * sh.rowBytes) + n * sh.width / 4
def tileSpan (sh : Shape) : Nat := sh.width / 4

/-- Whether element (k, n) is poisoned. -/
def Tile.elemPoison (t : Tile) (sh : Shape) (k n : Nat) : Bool :=
  (t.poison.toNat >>> tileNibble sh k n) % 2 ^ tileSpan sh != 0

/-- A field of `w` bits at bit `lo` of a long word replaced. -/
def putField {n : Nat} (d : BitVec n) (lo w x : Nat) : BitVec n :=
  (d &&& ~~~(BitVec.ofNat n (2 ^ w - 1) <<< lo)) ||| (BitVec.ofNat n (x % 2 ^ w) <<< lo)

/-- Element (k, n) of a tile written, without poison. (DEDUCED, log 38.) -/
def Tile.putElem (t : Tile) (sh : Shape) (k n x : Nat) : Tile :=
  { t with
    data := putField t.data (8 * (k * sh.rowBytes) + n * sh.width) sh.width x
    poison := putField t.poison (tileNibble sh k n) (tileSpan sh) 0
    live := true }

/-- Tile `t` of the running hart's core. -/
def Core.tile (c : Core) (t : Nat) : Tile := Tbl.get {} c.tiles t
def Core.setTile (c : Core) (t : Nat) (x : Tile) : Core := { c with tiles := Tbl.set {} c.tiles t x }
/-- Vat row `r`. -/
def Core.vatRow (c : Core) (r : Nat) : VatRow := Tbl.get {} c.vat r
def Core.setVatRow (c : Core) (r : Nat) (x : VatRow) : Core := { c with vat := Tbl.set {} c.vat r x }

/-- The accumulator at column `col` of a Vat row: an f64 holds its low word there and its high word in the next column. -/
def VatRow.acc (v : VatRow) (acc : BitVec 5) (col : Nat) : Nat :=
  elemBits v.data 32 col + (if acc = 0x0D then 2 ^ 32 * elemBits v.data 32 (col + 1) else 0)

/-- Whether a word of the accumulator is poisoned. -/
def VatRow.accPoison (v : VatRow) (acc : BitVec 5) (col : Nat) : Bool :=
  v.poison.getLsbD col || (acc == 0x0D && v.poison.getLsbD (col + 1))

/-- The accumulator at column `col` written; the row is live (R131). (DEDUCED, log 38.) -/
def VatRow.putAcc (v : VatRow) (acc : BitVec 5) (col x : Nat) : VatRow :=
  let v := { v with data := putBits v.data 32 col (x % 2 ^ 32), poison := putMask v.poison col false, live := true }
  if acc = 0x0D then
    { v with data := putBits v.data 32 (col + 1) (x / 2 ^ 32), poison := putMask v.poison (col + 1) false }
  else v

/-! ### Checks -/

/-- A hart reaches the tiles that it owns (R21, R83): slot 0 has t0 to t3, slot 1 t4 to t7, and the last rank of an odd team
all eight. -/
def ownTile (t : Nat) : M Unit := do
  let s ← get
  let h := s.hart s.cur
  let lone := h.size % 2 == 1 && h.rank + 1 == h.size
  if lone || t / 4 == s.cur % 2 then pure () else illegal (BitVec.ofNat 64 (0x200 + t))

/-- The shape of a format-TY instruction (R257): TY as `sr.mshape` has it, K and N within Table 12.2. -/
def needShape (o : FX) : M Shape := do
  let sh := shapeOf (← myHart).mshape
  if o.ty.toNat ≠ sh.ty || !shapeFits sh.ty sh.k sh.n then illegal 0x700 else return sh

/-- A register group that ends above v255, and a source row that does not fit (R256, R258, R260). -/
def needShapeOk (bad : Bool) : M Unit := if bad then illegal 0x700 else pure ()

/-- Columns that an instruction needs from VC on (R258, R260). -/
def needColumns (o : FX) (u cols : Nat) : M Unit := do
  let h ← myHart
  raiseIf (128 < o.vc.toNat + u * cols) .vlIllegal h.vl

/-- G of an instruction. -/
def groupRows (o : FX) : Nat := 2 ^ o.gf.toNat

/-- Operands whose tag is not `t` (R258-R260). -/
def groupFaults (h : Hart) (t : BitVec 5) (names : List Nat) : List (Bool × Word) :=
  names.map fun n => ((VSrc.reg n).pairHigh h || (VSrc.reg n).tag h != t, (VSrc.reg n).tagTval)

/-- Operands that name the upper register of a pair (R31). -/
def groupPairFaults (h : Hart) (names : List Nat) : List (Bool × Word) :=
  names.map fun n => ((VSrc.reg n).pairHigh h, (VSrc.reg n).tagTval)

/-- The stamp of a tile that is read must equal `sr.mshape` (R256). -/
def stampFaults (h : Hart) (c : Core) (t : Nat) : List (Bool × Word) :=
  [((c.tile t).stamp != h.mshape, BitVec.ofNat 64 (0x200 + t))]

/-! ### Rows (R257) -/

/-- What a row gives: none where a source or accumulator is poisoned, or for each column written its pattern and flags. -/
abbrev RowResult := Option (List (Nat × Nat × Flags))

/-- Perform row `m`: poison, then the flags of its lowest trapping column, then the whole row. (DEDUCED, log 37.) -/
def performRow (m : Nat) (r : RowResult) (put : List (Nat × Nat) → M Unit) : M Unit := do
  match r with
  | none => throw (.trap .poisonConsumed (BitVec.ofNat 64 m) m)
  | some cs =>
    let h ← myHart
    match cs.find? fun c => c.2.2 &&& h.en != 0 with
    | some (n, _, fl) => throw (.trap .fpTrap (fl.setWidth 64 ||| BitVec.ofNat 64 (n * 2 ^ 16)) m)
    | none =>
      put (cs.map fun c => (c.1, c.2.1))
      modifyHart (·.addFlags (cs.foldl (fun (f : Flags) c => f ||| c.2.2) 0))

/-- The rows from `sr.vstart` to G − 1 of an instruction that vl bounds; tag and stamp checks come at the first of them
(R257, R367). -/
def matrixRows (g : Nat) (faults : Hart → Core → List (Bool × Word)) (row : Nat → M Unit) : M Unit := do
  let h ← myHart
  if 0 < h.vlen && h.start < g then
    let c ← myCore
    match (faults h c).find? (·.1) with
    | some (_, t) => throw (.trap .tagMismatch t h.start)
    | none => pure ()
    forEach (span h.start g) fun m => do mayCut m; row m

/-- The instruction has gone to the engine, and the next word follows. -/
def matrixDone : M Unit := do
  modifyHart fun h => { h with meq := h.meq + 1 }
  advance

/-- An instruction of the matrix engine. -/
def me_ (m : M Unit) : State → Host.Outcome State Fault Refusal := runIn unitMe false (do m; matrixDone)

/-- The results of a sequence, or none where one is missing. -/
def allSome {α : Type} (rs : List (Option α)) : Option (List α) :=
  if rs.any (·.isNone) then none else some (rs.filterMap id)

/-! ### `mma` and `mmasp` (R258, R259) -/

/-- The down-converter of R59: the value in the A format, and its flags. (DEDUCED, log 18.) -/
def downConvert (t : BitVec 5) (x : Exact) : Exact × Flags :=
  let f := fmtOf t
  match x with
  | .nan _ => (.nan false, 0)
  | .inf n => (decodeFloat f (f.maxFinite + (if n then f.signBit else 0)), flagOF ||| flagNX)
  | x =>
    let (p, fl) := toFloat f true .rne x
    (decodeFloat f p, fl)

/-- One a[k] of a row: skipped, or its value and flags; `none` outside where it is poisoned. -/
abbrev ATerm := Option (Option (Exact × Flags))

/-- An element of a register, none where it is poisoned. -/
def regTerm (h : Hart) (name e : Nat) : Option Exact :=
  if (VSrc.reg name).poison h e then none else some (VSrc.val h e (.reg name)).x

/-- a[k] of row m from registers, ρ registers a row (R258). -/
def denseTerm (h : Hart) (a rho m k : Nat) : ATerm := (regTerm h (a + m * rho + k / 128) (k % 128)).map fun x => some (x, 0)

/-- a[k] of row m from the Vat, through the down-converter (R258, R59). -/
def vatTerm (c : Core) (t acc : BitVec 5) (a m k : Nat) : ATerm :=
  let r := c.vatRow (a + m)
  let col := accCols acc * k
  if r.accPoison acc col then none else some (some (downConvert t (readAs acc (r.acc acc col)).x))

/-- a[k] of row m of a 2:4 sparse operand: values in σ registers a row, positions in register A + G·σ + m (R259, R60). -/
def sparseTerm (h : Hart) (a g sigma m k : Nat) : ATerm :=
  let ix := a + g * sigma + m
  let j := k / 4
  let value := fun (v : Nat) => (regTerm h (a + m * sigma + v / 128) (v % 128)).map fun x => some (x, (0 : Flags))
  if (VSrc.reg ix).poison h j then none
  else
    let p := (VSrc.reg ix).elem h j
    if k % 4 = p % 4 then value (2 * j)
    else if k % 4 = p / 4 % 4 then value (2 * j + 1)
    else some none

/-- Row `m`'s A values, negated where NEG is set. -/
def aRow (neg : Bool) (term : Nat → ATerm) (k : Nat) : Option (List (Option (Exact × Flags))) :=
  (allSome ((List.range k).map term)).map fun ts => ts.map fun t =>
    t.map fun x => (if neg then x.1.negate else x.1, x.2)

/-- Column `n` of a row: none for poison in a B element that is used or in the accumulator; else the new pattern and flags. -/
def mmaColumn (sh : Shape) (acc : BitVec 5) (rm : RMode) (tile : Tile) (row : VatRow) (col n : Nat)
    (as : List (Option (Exact × Flags))) : Option (Nat × Nat × Flags) :=
  if row.accPoison acc col || as.zipIdx.any (fun a => a.1.isSome && tile.elemPoison sh a.2 n) then none
  else
    let ps := as.zipIdx.map fun a => a.1.map fun x => (x.1, (readAs (tyTag sh.ty) (tile.elem sh a.2 n)).x)
    let fa := as.foldl (fun (f : Flags) a => match a with
      | some x => f ||| x.2
      | none => f) 0
    let old := row.acc acc col
    if tagIsFloat acc then
      let (r, f) := dotFloat acc rm (decodeFloat (fmtOf acc) old) ps
      some (n, (toFloat (fmtOf acc) false rm r).1, fa ||| f)
    else some (n, (dotInt (signedOf 32 old) ps % (2 ^ 32 : Nat)).toNat, fa)

/-- Row `m` of `mma` or `mmasp` (R258): nothing is read where no column is active. (DEDUCED, log 37.) -/
def mmaRow (o : FX) (sh : Shape) (term : Hart → Core → Nat → Nat → ATerm) (m : Nat) : M Unit := do
  modifyHart fun h => { h with vstart := BitVec.ofNat 64 m }
  let h ← myHart
  let c ← myCore
  let acc := accOf sh.ty
  let r := o.vr.toNat + m
  let cols := (List.range (min sh.n h.vlen)).filter (h.maskOf (o.xm.extractLsb' 0 4)).getLsbD
  let colOf := fun n => o.vc.toNat + accCols acc * n
  if cols ≠ [] then
    let res : RowResult := match aRow (o.xm.getLsbD 4) (term h c m) sh.k with
      | none => none
      | some as => allSome (cols.map fun n => mmaColumn sh acc h.rm (c.tile o.t.toNat) (c.vatRow r) (colOf n) n as)
    performRow m res fun xs => modifyCore fun c =>
      c.setVatRow r (xs.foldl (fun v x => v.putAcc acc (colOf x.1) x.2) (c.vatRow r))

/-- The shared body of `mma` and `mmasp`: ownership, the group `last` it reaches, the columns, tags and stamp, and the rows. -/
def multiply (o : FX) (bad : Shape → Bool) (tags : Hart → Shape → List (Bool × Word))
    (term : Shape → Hart → Core → Nat → Nat → ATerm) : M Unit := do
  let sh ← needShape o
  ownTile o.t.toNat
  needShapeOk (bad sh)
  needColumns o (accCols (accOf sh.ty)) (min sh.n (← myHart).vlen)
  matrixRows (groupRows o) (fun h c => tags h sh ++ stampFaults h c o.t.toNat) (mmaRow o sh (term sh))

/-- ρ of R258. -/
def denseRegs (sh : Shape) : Nat := if sh.ty = 0 then 2 else ceilDiv sh.k 128

/-- The names of the registers that `mma` reads. -/
def denseNames (o : FX) (sh : Shape) : List Nat :=
  (List.range (groupRows o)).flatMap fun m => (List.range (if sh.ty = 0 then 1 else denseRegs sh)).map fun j =>
    o.a.toNat + m * denseRegs sh + j

def execMma (o : FX) (s : State) : Host.Outcome State Fault Refusal :=
  if o.src then
    me_ (multiply o (fun sh => 255 < o.a.toNat + groupRows o - 1 || 128 < accCols (accOf sh.ty) * sh.k) (fun _ _ => [])
      fun sh _ c m k => vatTerm c (tyTag sh.ty) (accOf sh.ty) o.a.toNat m k) s
  else
    me_ (multiply o (fun sh => 255 < o.a.toNat + groupRows o * denseRegs sh - 1)
      (fun h sh => groupFaults h (tyTag sh.ty) (denseNames o sh))
      fun sh h _ m k => denseTerm h o.a.toNat (denseRegs sh) m k) s

/-- σ of R259. -/
def sparseRegs (sh : Shape) : Nat := ceilDiv sh.k 256

def execMmasp (o : FX) (s : State) : Host.Outcome State Fault Refusal :=
  me_ (multiply o (fun sh => 255 < o.a.toNat + groupRows o * sparseRegs sh + groupRows o - 1)
    (fun h sh =>
      groupFaults h (tyTag sh.ty) (span o.a.toNat (o.a.toNat + groupRows o * sparseRegs sh)) ++
      groupFaults h 0 (span (o.a.toNat + groupRows o * sparseRegs sh) (o.a.toNat + groupRows o * sparseRegs sh + groupRows o)))
    fun sh h _ m k => sparseTerm h o.a.toNat (groupRows o) (sparseRegs sh) m k) s

/-! ### Moves (R260) -/

/-- `mzero`: rows VR to VR + G − 1 are +0 and not live, whatever vl is. (DEDUCED, log 37.) -/
def execMzero (o : FX) (s : State) : Host.Outcome State Fault Refusal :=
  me_ (modifyCore fun c => (List.range (groupRows o)).foldl (fun c i => c.setVatRow (o.vr.toNat + i) {}) c) s

/-- δ of R260. -/
def rowRegs (ty : BitVec 4) : Nat := if ty = 0 then 2 else 1

/-- The names of a group of rows. -/
def rowNames (o : FX) : List Nat := (List.range (groupRows o)).map fun i => o.a.toNat + i * rowRegs o.ty

/-- MK and MU of a move between registers and the Vat. -/
def moveMask (o : FX) (h : Hart) : Mask := h.maskOf (o.xm.extractLsb' 0 4)
def moveZero (o : FX) : Bool := o.xm.getLsbD 5

/-- The shared body of the two moves: groups, columns, pairs, and the rows. -/
def vatMove (o : FX) (row : Nat → M Unit) : M Unit := do
  needShapeOk (255 < o.a.toNat + (groupRows o - 1) * rowRegs o.ty)
  needColumns o (accCols (accOf o.ty.toNat)) (← myHart).vlen
  matrixRows (groupRows o) (fun h _ => groupPairFaults h (rowNames o)) fun m => do
    modifyHart fun h => { h with vstart := BitVec.ofNat 64 m }
    row m

/-- The columns of a row below vl: an active one takes its conversion, another is 0 when MU is 1 (R195).
(DEDUCED, log 18; DEDUCED, log 37.) -/
def moveRow (o : FX) (h : Hart) (res : Nat → Option (Nat × Flags)) : RowResult :=
  allSome ((List.range h.vlen).filterMap fun n =>
    if (moveMask o h).getLsbD n then some ((res n).map fun x => (n, x.1, x.2))
    else if moveZero o then some (some (n, 0, 0)) else none)

/-- A value converted into a tag, as a conversion does it (R48, R53). -/
def converted (t : BitVec 5) (sat : Bool) (rm : RMode) (v : Val) : Nat × Flags :=
  let (p, f) := convert t sat rm v
  (p, f ||| v.x.snan)

def execMvat2v (o : FX) (s : State) : Host.Outcome State Fault Refusal :=
  me_ (vatMove o fun m => do
    let h ← myHart
    let acc := accOf o.ty.toNat
    let r := (← myCore).vatRow (o.vr.toNat + m)
    let name := o.a.toNat + m * rowRegs o.ty
    let d := h.vreg (h.rot name)
    let res := moveRow o h fun n =>
      let col := o.vc.toNat + accCols acc * n
      if r.accPoison acc col then none else some (converted d.tag d.sat h.rm (readAs acc (r.acc acc col)))
    performRow m res fun xs => do
      modifyHart fun h => xs.foldl (fun h x => writeReg name x.1 x.2 h) h
      if xs ≠ [] then spoilQ4 name) s

/-- The accumulator is no register and has no saturation bit: the conversion takes 0 for it.
(DEDUCED, log 37; DESIGN CHOICE, log 75.) -/
def execMv2vat (o : FX) (s : State) : Host.Outcome State Fault Refusal :=
  me_ (vatMove o fun m => do
    let h ← myHart
    let acc := accOf o.ty.toNat
    let r := o.vr.toNat + m
    let src := VSrc.reg (o.a.toNat + m * rowRegs o.ty)
    let res := moveRow o h fun n => if src.poison h n then none else some (converted acc false h.rm (src.val h n))
    performRow m res fun xs => modifyCore fun c =>
      c.setVatRow r (xs.foldl (fun v x => v.putAcc acc (o.vc.toNat + accCols acc * x.1) x.2)
        { c.vatRow r with live := true })) s

/-- k0 of `mv2t` and `mt2v`. -/
def firstRow (o : FX) : Nat := o.vr.toNat + 256 * (o.xm.extractLsb' 0 1).toNat

/-- The shared body of the moves between registers and a tile. -/
def tileMove (o : FX) (stamp : Bool) (row : Shape → Nat → M Unit) : M Unit := do
  let sh ← needShape o
  ownTile o.t.toNat
  needShapeOk (255 < o.a.toNat + (groupRows o - 1) * rowRegs o.ty || sh.k < firstRow o + groupRows o)
  matrixRows (groupRows o) (fun h c => groupFaults h (tyTag sh.ty) (rowNames o) ++ (if stamp then stampFaults h c o.t.toNat else []))
    fun m => do
      modifyHart fun h => { h with vstart := BitVec.ofNat 64 m }
      row sh m

def execMv2t (o : FX) (s : State) : Host.Outcome State Fault Refusal :=
  me_ (tileMove o false fun sh m => do
    let h ← myHart
    let src := VSrc.reg (o.a.toNat + m * rowRegs o.ty)
    let cols := min sh.n h.vlen
    let res : RowResult := allSome ((List.range cols).map fun n =>
      if src.poison h n then none else some (n, src.elem h n, 0))
    performRow m res fun xs => modifyCore fun c =>
      let t := c.tile o.t.toNat
      c.setTile o.t.toNat { xs.foldl (fun t x =>
        t.putElem sh (firstRow o + m) x.1 x.2) t with stamp := h.mshape, live := true }) s

def execMt2v (o : FX) (s : State) : Host.Outcome State Fault Refusal :=
  me_ (tileMove o true fun sh m => do
    let h ← myHart
    let t := (← myCore).tile o.t.toNat
    let name := o.a.toNat + m * rowRegs o.ty
    let res : RowResult := allSome ((List.range (min sh.n h.vlen)).map fun n =>
      if t.elemPoison sh (firstRow o + m) n then none else some (n, t.elem sh (firstRow o + m) n, 0))
    performRow m res fun xs => do
      modifyHart fun h => xs.foldl (fun h x => writeReg name x.1 x.2 h) h
      spoilQ4 name) s

/-! ### Shapes and path M (R254, R255, R261) -/

/-- `mshape`, executed at decode by the access processor. -/
def execMshape (o : FC) (s : State) : Host.Outcome State Fault Refusal :=
  ap (do
    let k ← rdA o.a
    let n ← rdA o.b
    let ty := (o.x.extractLsb' 0 4).toNat
    if shapeFits ty k.toNat n.toNat then
      modifyHart fun h => { h with mshape := BitVec.ofNat 64 (ty + k.toNat * 2 ^ 16 + n.toNat * 2 ^ 32) }
    else illegal 0x800) s

/-- `mrdshape`: earlier matrix writes of the tile are complete, since each is performed as it is sent. -/
def execMrdshape (o : FC) (s : State) : Host.Outcome State Fault Refusal :=
  ap (do
    let t := (o.x.extractLsb' 0 3).toNat
    ownTile t
    wrA o.d ((← myCore).tile t).stamp) s

/-- The byte at `pa` as hart `n` reads it on path M: its own youngest store of the path, whose accesses perform in its program order, or
what its die holds (R257, R261). -/
def State.hartByteM (s : State) (n pa : Nat) : PByte := (bufByte pa (s.hart n).mbuf none).getD (s.byteAt (dieOf n) pa)

/-- Bytes on path M: the hart's own buffered stores of path L are not seen. (DEDUCED, log 36.) -/
def readPathM (ps : List AreaPiece) : M (List PByte) := do
  let bs ← collect ps fun p =>
    if windowOf p.pa = .register then registerAccess p.pa p.len
    else do
      holdForCell p.pa p.len
      modify fun s => s.findErrors (dieOf s.cur) p.pa p.len (s.readerOf s.cur)
      let s ← get
      return (List.range p.len).map fun i => s.hartByteM s.cur (p.pa + i)
  return bs.flatten

/-- Bytes from a physical address put into the hart's buffer of path M, no entry across an 8-byte word: in a DET launch too they do not
pass through the write-combining buffer, and they carry the hart's key. (DEDUCED, log 36; DESIGN CHOICE, log 78.) -/
def bufferM (pa : Nat) (bytes : List PByte) : M Unit :=
  forEach (cutAt 8 pa bytes) fun w =>
    if windowOf w.1 = .register then modify (·.storeWindow w.1 w.2)
    else modifyHart fun h => { h.dropEarly w.1 w.2.length with mbuf := h.mbuf ++ [⟨w.1, w.2, h.epoch, h.fcount⟩] }

/-- Bytes on path M over translated pieces. (DEDUCED, log 36.) -/
def putPathM : List AreaPiece → List PByte → M Unit
  | [], _ => pure ()
  | p :: ps, bs => do
    bufferM p.pa (bs.take p.len)
    putPathM ps (bs.drop p.len)

/-- Write bytes on path M: every check of a performing store first, then the bytes. -/
def writePathM (ps : List AreaPiece) (bytes : List PByte) : M Unit := do
  forEach ps fun p => readyToWrite p.va p.pa p.len p.leaf (piecesCover ps)
  modify (·.forgetErrors (piecesCover ps))
  putPathM ps bytes

/-- The rows of a footprint: base and stride multiples of 64, the stride signed, all of it translated first (R261). -/
def footprint (o : FC) (rows bytes : Nat) (acc : Access) : M (List AreaPiece) := do
  let base ← rdA o.a
  let stride ← rdA o.b
  raiseIf (base.toNat % 64 != 0) .misalign base
  raiseIf (stride.toNat % 64 != 0) .misalign stride
  let ps ← collect (List.range rows) fun i => translateArea (base + BitVec.ofNat 64 i * stride) bytes acc
  return ps.flatten

/-- Poison of bytes as a number, two bits for a byte: its half bytes. -/
def poisonBits (bs : List PByte) : Nat := bs.foldr (fun b n => (if b.poi then 3 else 0) + 4 * n) 0

/-- An instruction of path M starts over when it runs again: `sr.vstart` is 0 (R261). -/
def wholeAgain : M Unit := modifyHart fun h => { h with vstart := 0 }

/-- Tile of FN 01 and 02. -/
def tileField (o : FC) : Nat := (o.x.extractLsb' 0 3).toNat

/-- `mldt`: K rows of RB bytes; bytes above them keep their contents. -/
def execMldt (o : FC) (s : State) : Host.Outcome State Fault Refusal :=
  me_ (do
    let t := tileField o
    ownTile t
    wholeAgain
    let h ← myHart
    let sh := shapeOf h.mshape
    let ps ← footprint o sh.k sh.rowBytes .load
    let bs ← readPathM ps
    modifyCore fun c =>
      let x := c.tile t
      c.setTile t { data := putField x.data 0 (8 * bs.length) (valueOf bs),
                    poison := putField x.poison 0 (2 * bs.length) (poisonBits bs), stamp := h.mshape, live := true }) s

/-- The bytes of a tile, poison with them. -/
def Tile.bytes (t : Tile) (n : Nat) : List PByte :=
  (List.range n).map fun i => ⟨t.data.extractLsb' (8 * i) 8, t.poison.extractLsb' (2 * i) 2 != 0⟩

/-- `mstt`. (DEDUCED, log 37.) -/
def execMstt (o : FC) (s : State) : Host.Outcome State Fault Refusal :=
  me_ (do
    let t := tileField o
    ownTile t
    wholeAgain
    let h ← myHart
    let c ← myCore
    let sh := shapeOf h.mshape
    raiseIf ((c.tile t).stamp != h.mshape) .tagMismatch (BitVec.ofNat 64 (0x200 + t))
    let ps ← footprint o sh.k sh.rowBytes .store
    writePathM ps ((c.tile t).bytes (sh.k * sh.rowBytes))) s

/-- First row and number of rows of FN 03 and 04. -/
def vatFirst (o : FC) : Nat := (o.x.extractLsb' 0 8).toNat
def vatRows (o : FC) : Nat := (o.x.extractLsb' 8 6).toNat + 1

/-- A Vat row of 512 bytes: a word is poisoned where one of its bytes is. -/
def vatRowOf (bs : List PByte) : VatRow :=
  { data := BitVec.ofNat 4096 (valueOf bs), live := true,
    poison := (List.range 128).foldl (fun m c => putMask m c ((bs.drop (4 * c)).take 4 |> anyPoison)) 0 }

/-- The bytes of a Vat row (R83). -/
def VatRow.bytes (v : VatRow) : List PByte :=
  (List.range 512).map fun i => ⟨v.data.extractLsb' (8 * i) 8, v.poison.getLsbD (i / 4)⟩

/-- `mldvat`. -/
def execMldvat (o : FC) (s : State) : Host.Outcome State Fault Refusal :=
  me_ (do
    wholeAgain
    let ps ← footprint o (vatRows o) 512 .load
    let bs ← readPathM ps
    modifyCore fun c => (List.range (vatRows o)).foldl (fun c i =>
      c.setVatRow (vatFirst o + i) (vatRowOf ((bs.drop (512 * i)).take 512))) c) s

/-- `mstvat`. -/
def execMstvat (o : FC) (s : State) : Host.Outcome State Fault Refusal :=
  me_ (do
    wholeAgain
    let c ← myCore
    let ps ← footprint o (vatRows o) 512 .store
    writePathM ps ((List.range (vatRows o)).flatMap fun i => (c.vatRow (vatFirst o + i)).bytes)) s

end Sys2Proof.Machine
end

