-- ==== Sys2Proof/Machine/Save.lean ====
section
/-! DEFINITION. The save area of a team: its layout, its writing and its reading (06_launch R128-R133, Tables 6.3 and 6.4;
07_splicing R149, Table 7.3; 19 R336-R338; 21 R363).

The lead slice writes and reads the area by physical address through its die (R122). -/

namespace Sys2Proof.Machine

/-! ### Bytes of the area -/

/-- `n` bytes of a value, lowest first, clean. -/
def field (n v : Nat) : List PByte := cleanBytes (bytesOf n v)

/-- The value of `n` bytes at an offset of a block. -/
def fieldAt (bs : List PByte) (off n : Nat) : Nat := valueOf ((bs.drop off).take n)

/-- The lead slice of partition `p` writes bytes of an area. -/
def State.areaWrite (s : State) (p pa : Nat) (bs : List PByte) : State := s.originateAll p pa bs

/-- Why a save area cannot be restored: a 64-byte line that holds an error which its code cannot correct (R363), a tag code that Table
3.1 does not list (R45), or a 64-bit one for an odd register (R31). -/
inductive Unrestorable where
  | line (pa : Nat)
  | tag (code : Nat)
  | odd (reg : Nat)
  deriving DecidableEq, Repr

/-- Bytes of an area as the lead slice reads them, poison with them, unless a line cannot be read. -/
def State.areaRead (s : State) (p pa n : Nat) : Except Unrestorable (List PByte) :=
  match s.latent.find? fun e => rangesMeet e.1 32 pa n with
  | some e => .error (.line (e.1 / 64 * 64))
  | none => .ok ((List.range n).map fun i => s.byteAt p (pa + i))

/-! ### Sizes (R122, R130, R144, R149) -/

/-- Bytes of a core section before the Cask share. -/
def sectionBytes : Nat := 0xB2700

/-- B: the Cask bytes of a team on each core: CASKB, or for a splice the greatest CASKB and the windows. -/
def State.caskNeed (s : State) (l : Launch) : Nat :=
  if l.chain.length ≤ 1 then l.caskb else s.chainCask l.chain + s.chainWindows l.chain

/-- Bytes of a save area. -/
def areaBytes (cores b : Nat) : Nat := ceilDiv (0x100 + cores * (sectionBytes + b)) 4096 * 4096

/-- Where core section `j` begins. -/
def sectionAt (area b j : Nat) : Nat := area + 0x100 + j * (sectionBytes + b)

/-- Where the section of hart slot `k` begins in a core section. -/
def hartSectionAt (sec k : Nat) : Nat := sec + 0x1A80 + k * 165440

/-! ### Writing (R129-R131, R336) -/

/-- Tile shape stamp of Table 6.3. -/
def packStamp (w : Word) : Nat := let sh := shapeOf w; sh.ty + sh.k * 16 + sh.n * 2 ^ 14

/-- The shape stamp as Table 12.1 lays it out. -/
def unpackStamp (x : Nat) : Word := BitVec.ofNat 64 (x % 16 + x / 16 % 2 ^ 10 * 2 ^ 16 + x / 2 ^ 14 % 2 ^ 8 * 2 ^ 32)

/-- The tiles of the stages of a splice that match the last-stage tile in progress. -/
def State.stageTiles (s : State) (t : Team) : List Nat :=
  let ch := s.chainOf t
  (List.range ch.length).map fun j => stageTileOf ch j t.tile

/-- The bytes from 0xA0 of the team header. -/
def State.progressFields (s : State) (t : Team) (l : Launch) : List PByte :=
  if l.chain.length ≤ 1 then field 8 (if l.tileBody then t.tile else 0)
  else
    let stages := ((s.chainOf t).zip (s.stageTiles t)).map fun x =>
      field 4 x.1.kid ++ field 4 x.2 ++ field 8 x.1.addr.toNat
    field 1 l.chain.length ++ field 1 t.stage ++ field 2 0 ++ field 4 t.tile ++
      (stages.flatten ++ field 64 0).take 64 ++ field 24 0

/-- The team header (Table 6.3). -/
def State.teamHeader (s : State) (t : Team) (l : Launch) : List PByte :=
  let format := if l.chain.length ≤ 1 then 1 else 2
  let flags := t.caskLeft.toNat + 2 * t.between.toNat
  let cores := t.cores.foldl (fun m c => m + 2 ^ (c % 32)) 0
  field 2 format ++ field 2 t.size ++ field 2 t.cores.length ++ field 2 flags ++ field 4 l.kid ++ field 4 t.ix ++
    field 8 l.addr.toNat ++ field 4 t.die ++ field 4 cores ++
    ((List.range 16).flatMap fun b =>
      let x := Tbl.get {} t.bars b
      field 2 x.expected ++ field 2 x.arrived ++ field 4 x.gen.toNat) ++
    s.progressFields t l

/-- A copy entry (Table 6.3). -/
def copyEntry (tag : Nat) (c : Copy) : List PByte :=
  let flags := c.dur.toNat + 2 * c.bar.isSome.toNat + 4 * c.twoD.toNat
  field 8 c.src.toNat ++ field 8 c.dst.toNat ++ field 4 c.rowLeft ++ field 4 c.rowsLeft ++ field 4 c.rowBytes ++ field 1 tag ++
    field 1 flags ++ field 2 0 ++ field 8 c.srcStride.toNat ++ field 8 c.dstStride.toNat ++ field 4 (c.bar.getD 0) ++ field 12 0

/-- The copies of a core with bytes still to land, in tag order. -/
def Core.openCopies (c : Core) : List (Nat × Copy) := c.copies.filterMap fun e => match e.2 with
  | some x => if x.rowsLeft = 0 then none else some (e.1, x)
  | none => none

/-- The distinct byte barriers of copies, in the order of their first copy. -/
def copyBarriers (cs : List (Nat × Copy)) : List Nat := (cs.filterMap (·.2.bar)).eraseDups

/-- A set of numbers below `n` as a number, one bit each. -/
def bitsOf (n : Nat) (f : Nat → Bool) : Nat := (List.range n).foldl (fun m i => m + (f i).toNat * 2 ^ i) 0

/-- The fixed part of a core section: header, live Vat rows, stamps, code directory. -/
def Core.fixedPart (c : Core) (harts : Nat) (between : Bool) : List PByte :=
  let cs := c.openCopies
  let live := fun (b : Bool) => b && !between
  field 1 harts ++ field 1 (bitsOf 8 fun t => live (c.tile t).live) ++ field 1 cs.length ++ field 1 (copyBarriers cs).length ++
    field 4 0 ++ field 8 c.cdone.toNat ++ field 48 0 ++ field 32 (bitsOf 256 fun r => live (c.vatRow r).live) ++
    ((List.range 8).flatMap fun t => field 4 (packStamp (c.tile t).stamp)) ++
    ((List.range 64).flatMap fun k =>
      let e := Tbl.get {} c.code k
      field 8 (if e.landed.isSome then (e.va &&& 0xFFFFFFFFFF000).toNat + 1 else 0))

/-- Where a hart that stops now stands: before the instruction that it would run or waits in, but past a `bar.sync` whose phase has
completed, and within one whose phase is open (R252, R266). -/
def State.stopPosition (s : State) (n : Nat) : Word × Word :=
  match (s.hart n).wait with
  | some (.bar true ..) => s.stoppedAt n
  | _ => ((s.hart n).pc, (s.hart n).vstart)

/-- The special registers of Table 6.4 but for the first two. -/
def Hart.savedSrs (h : Hart) : List Word :=
  [h.fcsr, h.mode, h.cause, h.tval, h.epc, h.evstart, h.ftab, h.slots, h.lc, h.ec, h.rrb, h.kid, h.clkw, h.pcount, h.mshape,
   h.lastStamp]

/-- Register `p`'s descriptor of Table 6.4: FRESH where this save is the first to make its image valid. -/
def VReg.saveDesc (r : VReg) : Nat :=
  r.tag.toNat + r.sat.toNat * 32 + r.hw.toNat * 256 + (r.dirty && !r.imaged).toNat * 2 ^ 15

/-- The 1,600 bytes of a hart section that every save writes. -/
def State.hartFixed (s : State) (n : Nat) (tileBody : Bool) : List PByte :=
  let h := s.hart n
  let (pc, start) := s.stopPosition n
  let qs := (List.range 8).map fun q => Tbl.get [] h.q q
  let fence := if h.det then h.fcount % 2 ^ 48 + (if tileBody then h.tilePos % 2 ^ 16 * 2 ^ 48 else 0) else 0
  field 8 pc.toNat ++ field 8 (h.status == .halted).toNat ++ field 8 h.vl.toNat ++ field 8 start.toNat ++
    (h.savedSrs.flatMap fun w => field 8 w.toNat) ++
    (qs.flatMap fun q => field 1 q.length) ++
    ((qs.flatMap fun q => q.flatMap fun e => field 1 e.mt.toNat) ++ field 64 0).take 64 ++
    field 8 fence ++ field 16 0 ++
    ((List.range 64).flatMap fun i => field 8 (h.aReg i).toNat) ++
    ((List.range 16).flatMap fun i => field 16 (h.mReg i).toNat) ++
    field 32 (bitsOf 256 fun p => (h.vreg p).dirty) ++
    ((List.range 256).flatMap fun p => field 2 (h.vreg p).saveDesc) ++
    field 32 (bitsOf 256 fun p => (h.vreg p).imaged || (h.vreg p).dirty)

/-- The poison of `n` elements at width `w` as poison of bytes. -/
def elementBytes (data : VData) (poison : Mask) (w n : Nat) : List PByte :=
  (List.range n).map fun i => ⟨data.extractLsb' (8 * i) 8, i * 8 < 128 * w && imagePoison poison w i⟩

/-- Hart `n`'s section: the fixed part, its queue entries, and the elements of its dirty registers up to h (R131). Between two runs the
fixed part alone is written. (UNVERIFIED, log 57; DESIGN CHOICE, log 77.) -/
def State.saveHart (s : State) (p n at_ : Nat) (tileBody between : Bool) : State :=
  let h := s.hart n
  let s := s.areaWrite p at_ (s.hartFixed n tileBody)
  if between then s
  else
    let es := (List.range 8).flatMap fun q => Tbl.get [] h.q q
    let s := es.zipIdx.foldl (fun s e =>
      s.areaWrite p (at_ + 0x640 + 512 * e.2) (elementBytes e.1.data e.1.poison (tagWidth e.1.mt) 512)) s
    (h.v.filter (·.2.dirty)).foldl (fun s e =>
      let w := h.ownWidth e.1
      let bytes := ceilDiv ((e.2.hw.toNat + 1) * w) 8
      s.areaWrite p (at_ + 0x8640 + 512 * e.1) (elementBytes e.2.data e.2.poison w bytes)) s

/-- A save of the team covers its Cask share: not between two runs, of which the next starts zeroed, unless that is a later stage of the
same tile, which reads the window that the stage before it has written (R128, R145, R149). -/
def Team.savesShare (t : Team) : Bool := !t.between || t.stage != 0

/-- The Cask share of a core goes into its section. -/
def State.saveShare (s : State) (p core sec b : Nat) : State :=
  s.areaWrite p (sec + sectionBytes) (s.casks.peek (caskBase core) b)

/-- Core section `j` of a team is written (R129, R336). -/
def State.saveCore (s : State) (t : Team) (l : Launch) (area b j : Nat) : State :=
  let core := t.cores.getD j 0
  let c := s.core core
  let sec := sectionAt area b j
  let p := t.part
  let ranks := (List.range t.size).filter fun r => r / 2 == j
  let cs := c.openCopies
  let s := s.areaWrite p sec (c.fixedPart ranks.length t.between)
  let s := s.areaWrite p (sec + 0x280) (cs.flatMap fun e => copyEntry e.1 e.2)
  let s := (copyBarriers cs).zipIdx.foldl (fun (s : State) e =>
    s.areaWrite p (sec + 0x1280 + 32 * e.2) (field 4 e.1 ++ field 12 0 ++ s.casks.peek (caskBase core + e.1) 16)) s
  let s := ranks.foldl (fun s r => s.saveHart p (t.hartOf r) (hartSectionAt sec (r % 2)) l.tileBody t.between) s
  let s := if t.between then s else
    let s := (c.tiles.filter (·.2.live)).foldl (fun s e => s.areaWrite p (sec + 0x52700 + 0x8000 * e.1) (e.2.bytes 32768)) s
    (c.vat.filter (·.2.live)).foldl (fun s e => s.areaWrite p (sec + 0x92700 + 512 * e.1) e.2.bytes) s
  if t.caskLeft || !t.savesShare then s else s.saveShare p core sec b

/-- What the device keeps of hart `n` besides the area. (DESIGN CHOICE, log 56.) -/
def State.keptOf (s : State) (n : Nat) : Kept :=
  let h := s.hart n
  { partQ := h.partQ, copyFails := h.copyFails, trapIter := h.trapIter, trapErr := h.trapErr, dead := (h.v.filter (·.2.dead)).map (·.1),
    tags := ((s.core (coreOf n)).openCopies.filter fun e => e.2.hart == n).map (·.1) }

/-- Team `ti` is saved at its area, and its cores are freed. -/
def State.saveTeam (s : State) (ti area : Nat) (t : Team) (l : Launch) : State :=
  let b := s.caskNeed l
  let kept := t.harts.map s.keptOf
  let final := t.harts.map fun n => (s.hart n).final
  let s := s.areaWrite t.part area (s.teamHeader t l)
  let s := (List.range t.cores.length).foldl (fun s j => s.saveCore t l area b j) s
  let s := s.freeCores ti t
  s.setTeam ti { t with status := .saved, kept := kept, final := final }

/-- A Cask share that was left in place goes into the save area, and flag bit 0 is cleared (R337). -/
def State.moveShare (s : State) (ti : Nat) : State :=
  match s.team ti with
  | none => s
  | some t => match s.launch t.launch, t.save with
    | some l, some area =>
      if t.caskLeft then
        let b := s.caskNeed l
        let s := (List.range t.cores.length).foldl
          (fun s j => s.saveShare t.part (t.cores.getD j 0) (sectionAt area b j) b) s
        let t := { t with caskLeft := false }
        (s.areaWrite t.part (area + 6) (field 2 (2 * t.between.toNat))).setTeam ti t
      else s
    | _, _ => s

/-! ### The state of a hart at a start (Table 2.5, R120, R143) -/

/-- The logical team whose place a run has: of a tile body, the team that static distribution gives its tile. -/
def Team.logicalTeam (t : Team) (stage : Launch) : Nat := if stage.tileBody then t.stageTile % stage.nteams else t.ix

/-- Rank `r` of team `ti` in its place, before it has run: stage `l` gives its code, kernel and stack. -/
def Team.seat (ti : Nat) (t : Team) (l : Launch) (r : Nat) : Hart :=
  let lteam := t.logicalTeam l
  let stack := l.stackKib * 1024
  { team := ti, rank := r, size := t.size, teamIx := lteam, lcore := lteam * l.coresPerTeam + r / 2, det := l.det,
    kid := BitVec.ofNat 64 l.kid, slots := BitVec.ofNat 64 l.slottab,
    sva := BitVec.ofNat 64 (t.save.getD 0),
    tilePos := if l.tileBody then t.stageTile / l.nteams else 0,
    stackLo := t.stackBase + r * stack, stackLen := stack }

/-- Rank `r` at the start of a run: the state of Table 2.5. -/
def Team.startHart (ti : Nat) (t : Team) (l : Launch) (r : Nat) : Hart :=
  let h := t.seat ti l r
  let tile : Word := if l.tileBody then BitVec.ofNat 64 t.stageTile else if l.dynamic then BitVec.allOnes 64 else BitVec.ofNat 64 t.ix
  let h := { h with status := .running, pc := BitVec.ofNat 64 l.entry, seg := BitVec.ofNat 64 (l.entry / 4096 * 4096) }
  let h := h.setA 1 l.addr
  let h := h.setA 2 (BitVec.ofNat 64 h.teamIx)
  let h := h.setA 3 (BitVec.ofNat 64 r)
  let h := h.setA 4 (BitVec.ofNat 64 t.size)
  let h := h.setA 5 (BitVec.ofNat 64 h.logical)
  let h := h.setA 6 tile
  h.setA 61 (if h.stackLen = 0 then 0 else BitVec.ofNat 64 (h.stackLo + h.stackLen))

/-! ### Reading (R132, R338) -/

/-- Register `p` as its descriptor and the bytes of its image give it: bytes that were not read are 0. -/
def savedReg (desc : Nat) (w : Nat) (bs : List PByte) (valid : Bool) : VReg :=
  { tag := BitVec.ofNat 5 desc, sat := desc / 32 % 2 == 1, data := BitVec.ofNat 4096 (valueOf bs), imaged := valid,
    poison := (List.range 128).foldl (fun (m : Mask) e => putMask m e (elemPoisonOf bs w e)) 0 }

/-- Width of the elements that register `p` itself holds, by the descriptors of a hart section. -/
def savedWidth (desc : Nat → Nat) (p : Nat) : Nat :=
  let w := fun (q : Nat) => tagWidth (BitVec.ofNat 5 (desc q))
  if w p = 64 || (p % 2 = 1 && w (p - 1) = 64) then 32 else w p

/-- The registers of a hart section: of a FRESH one the saved bytes, of another valid image all 512; a tag code must be listed (R45), and
a 64-bit one belongs to an even register (R31). (UNVERIFIED, log 57.) -/
def State.readRegs (s : State) (p at_ : Nat) (fixed : List PByte) : List Nat → Except Unrestorable (Tbl VReg)
  | [] => .ok []
  | r :: rs => do
    let desc := fun (q : Nat) => fieldAt fixed (0x420 + 2 * q) 2
    if !tagListed (BitVec.ofNat 5 (desc r)) then throw (.tag (desc r % 32))
    if (oddPair [(r, desc r)]).isSome then throw (.odd r)
    let w := savedWidth desc r
    let valid := fieldAt fixed 0x620 32 / 2 ^ r % 2 == 1
    let n := if !valid then 0 else if desc r / 2 ^ 15 = 1 then ceilDiv ((desc r / 256 % 128 + 1) * w) 8 else 512
    let bs ← s.areaRead p (at_ + 0x8640 + 512 * r) n
    let rest ← s.readRegs p at_ fixed rs
    return if savedReg (desc r) w bs valid = {} then rest else (r, savedReg (desc r) w bs valid) :: rest

/-- Entries of the queues of a hart section: `k` counts entries read so far. -/
def State.readEntries (s : State) (p at_ : Nat) (fixed : List PByte) (k : Nat) : Nat → Except Unrestorable (List QEntry)
  | 0 => .ok []
  | n + 1 => do
    let mt : BitVec 5 := BitVec.ofNat 5 (fieldAt fixed (0xA8 + k) 1)
    let bs ← s.areaRead p (at_ + 0x640 + 512 * k) 512
    let rest ← s.readEntries p at_ fixed (k + 1) n
    return { mt := mt, data := BitVec.ofNat 4096 (valueOf bs),
             poison := (List.range 128).foldl (fun (m : Mask) e => putMask m e (elemPoisonOf bs (tagWidth mt) e)) 0 } :: rest

/-- Queues `q`, `q + 1`, … of a hart section. -/
def State.readQueues (s : State) (p at_ : Nat) (fixed : List PByte) (k : Nat) : List Nat → Except Unrestorable (Tbl (List QEntry))
  | [] => .ok []
  | q :: qs => do
    let n := fieldAt fixed (0xA0 + q) 1
    let es ← s.readEntries p at_ fixed k n
    let rest ← s.readQueues p at_ fixed (k + n) qs
    return if es = [] then rest else (q, es) :: rest

/-- A hart restored from its section and from what the device kept; `base` is its new place. -/
def State.readHart (s : State) (p at_ : Nat) (base : Hart) (kept : Kept) : Except Unrestorable Hart := do
  let fx ← s.areaRead p at_ 0x640
  let sr := fun (i : Nat) => BitVec.ofNat 64 (fieldAt fx (0x10 + 8 * i) 8)
  let regs ← s.readRegs p at_ fx (List.range 256)
  let qs ← s.readQueues p at_ fx 0 (List.range 8)
  let pc : Word := BitVec.ofNat 64 (fieldAt fx 0 8)
  let fence := fieldAt fx 0xE8 8
  return { base with
    status := if fieldAt fx 8 8 % 2 = 1 then .halted else .running
    pc := pc, seg := pc &&& ~~~0xFFF, vl := sr 0, vstart := sr 1, fcsr := sr 2, supv := (sr 3).getLsbD 1, det := (sr 3).getLsbD 0,
    cause := sr 4, tval := sr 5, epc := sr 6, evstart := sr 7, ftab := sr 8, slots := sr 9, lc := sr 10, ec := sr 11,
    rrb := sr 12, kid := sr 13, clkw := sr 14, pcount := sr 15, mshape := sr 16, lastStamp := sr 17,
    fcount := fence % 2 ^ 48, tilePos := fence / 2 ^ 48, epoch := (sr 15).toNat,
    a := (span 1 64).foldl (fun t i => Tbl.set 0 t i (BitVec.ofNat 64 (fieldAt fx (0x100 + 8 * i) 8))) [],
    m := (span 1 16).foldl (fun t i => Tbl.set 0 t i (BitVec.ofNat 128 (fieldAt fx (0x300 + 16 * i) 16))) [],
    v := regs, q := qs, partQ := kept.partQ, copyFails := kept.copyFails, trapIter := kept.trapIter, trapErr := kept.trapErr }

/-- A copy of a copy entry, issued again for hart `n` (R338). -/
def copyOfEntry (bs : List PByte) (n : Nat) : Nat × Copy :=
  let flags := fieldAt bs 29 1
  let w := fun (o : Nat) => (BitVec.ofNat 64 (fieldAt bs o 8) : Word)
  (fieldAt bs 28 1,
   { hart := n, src := w 0, dst := w 8, rowLeft := fieldAt bs 16 4, rowsLeft := fieldAt bs 20 4, rowBytes := fieldAt bs 24 4,
     srcStride := w 32, dstStride := w 40, dur := flags % 2 == 1, twoD := flags / 4 % 2 == 1, rows := fieldAt bs 20 4,
     bar := if flags / 2 % 2 = 1 then some (fieldAt bs 48 4) else none })

/-- Perform a reading for every element of a list. -/
def readEach {α β : Type} (f : α → Except Unrestorable β) : List α → Except Unrestorable (List β)
  | [] => .ok []
  | x :: xs => do
    let y ← f x
    let ys ← readEach f xs
    return y :: ys

/-- What a core section gives back: the core, its harts, and bytes of its Cask with their offsets. -/
structure CoreImage where
  core : Core
  harts : List (Nat × Hart)
  cask : List (Nat × List PByte)
  deriving DecidableEq, Repr

/-- Core section `j` of a saved team read for the core that it now has. -/
def State.readCore (s : State) (ti : Nat) (t : Team) (l : Launch) (area b j : Nat) : Except Unrestorable CoreImage := do
  let p := t.part
  let sec := sectionAt area b j
  let hd ← s.areaRead p sec 0x280
  let core := t.cores.getD j 0
  let c := s.core core
  let ranks := (List.range t.size).filter fun r => r / 2 == j
  let share ← if t.caskLeft then pure [] else do
    let bs ← s.areaRead p (sec + sectionBytes) b
    pure [(0, bs)]
  let bars ← readEach (fun k => do
    let bs ← s.areaRead p (sec + 0x1280 + 32 * k) 32
    return (fieldAt bs 0 4, bs.drop 16)) (List.range (fieldAt hd 3 1))
  let tiles ← readEach (fun k => do
    let live := fieldAt hd 1 1 / 2 ^ k % 2 == 1
    let bs ← s.areaRead p (sec + 0x52700 + 0x8000 * k) (if live then 32768 else 0)
    return (k, ({ data := BitVec.ofNat 262144 (valueOf bs), live := live, stamp := unpackStamp (fieldAt hd (0x60 + 4 * k) 4),
                  poison := BitVec.ofNat 65536 (bitsOf 65536 fun i => (bs.getD (i / 2) ⟨0, false⟩).poi) } : Tile))) (List.range 8)
  let rows ← readEach (fun k => do
    let bs ← s.areaRead p (sec + 0x92700 + 512 * k) 512
    return (k, vatRowOf bs)) ((List.range 256).filter fun k => fieldAt hd 0x40 32 / 2 ^ k % 2 == 1)
  let harts ← readEach (fun r => do
    let h ← s.readHart p (hartSectionAt sec (r % 2)) (t.seat ti l r) (t.kept.getD r {})
    return (t.hartOf r, h)) ranks
  let copies ← readEach (fun k => do
    let bs ← s.areaRead p (sec + 0x280 + 64 * k) 64
    let tag := fieldAt bs 28 1
    let owner := (ranks.find? fun r => (t.kept.getD r {}).tags.contains tag).getD (2 * j)
    return copyOfEntry bs (t.hartOf owner)) (List.range (fieldAt hd 2 1))
  return { core := { c with
             tiles := tiles.filter fun e => decide (e.2 ≠ {})
             vat := rows.filter fun e => decide (e.2 ≠ {})
             cdone := BitVec.ofNat 64 (fieldAt hd 8 8)
             copies := copies.foldl (fun x e => Tbl.set none x e.1 (some e.2)) [] },
           harts := harts, cask := share ++ bars }

/-- Registers that were dead hold fresh contents (R132). (DESIGN CHOICE, log 56.) -/
def reviveDead (n : Nat) (dead : List Nat) : M Unit := forEach dead fun v => do
  let x ← freshReg
  modify fun s =>
    let h := s.hart n
    s.setHart n (h.setV v { h.vreg v with data := x, poison := 0, dead := true })

/-- Bytes of a saved Cask put back, whose words keep their keys (R133). -/
def State.fillCask (s : State) (a : Nat) (bs : List PByte) : State := { s with casks := s.casks.poke a bs }

/-- The image of a core put in place. -/
def State.putCore (s : State) (core : Nat) (i : CoreImage) : State :=
  let s := s.setCore core i.core
  let s := i.harts.foldl (fun s h => s.setHart h.1 h.2) s
  i.cask.foldl (fun (s : State) x => s.fillCask (caskBase core + x.1) x.2) s

/-- The Cask share of a team that was saved between two stages of one tile stands again, the window with it (R145, R149). -/
def refillShare (t : Team) : M (Option Unrestorable) := do
  let s ← get
  match s.launch t.launch, t.save with
  | some l, some area =>
    if !t.between || !t.savesShare || t.caskLeft then return none
    let b := s.caskNeed l
    match readEach (fun j => s.areaRead t.part (sectionAt area b j + sectionBytes) b) (List.range t.cores.length) with
    | .error e => return some e
    | .ok shares => do
      modify fun s => (t.cores.zip shares).foldl (fun (s : State) x => s.fillCask (caskBase x.1) x.2) s
      return none
  | _, _ => return none

/-- Team `ti` is restored from its area (steps 2 to 5 of R132): nothing is put in place where it cannot be, and why is given. Stores
still under way follow their harts, which latch their slot descriptors (R133). (DESIGN CHOICE, log 56.) -/
def restoreTeam (ti area : Nat) (t : Team) (l stage : Launch) : M (Option Unrestorable) := do
  let s ← get
  let b := s.caskNeed l
  let hd := s.areaRead t.part area 0x100
  let imgs := readEach (fun j => s.readCore ti t stage area b j) (List.range t.cores.length)
  match hd, imgs with
  | .error e, _ => return some e
  | _, .error e => return some e
  | .ok hd, .ok imgs => do
    let bars := (List.range 16).foldl (fun x i => Tbl.set {} x i
      { Tbl.get {} t.bars i with expected := fieldAt hd (0x20 + 8 * i) 2, arrived := fieldAt hd (0x22 + 8 * i) 2,
                                 gen := BitVec.ofNat 32 (fieldAt hd (0x24 + 8 * i) 4) }) []
    modify fun s =>
      let s := (t.cores.zip imgs).foldl (fun s x => s.putCore x.1 x.2) s
      let s := (List.range t.size).foldl (fun (s : State) r => s.renumber (orphan ti r) (t.hartOf r)) s
      s.setTeam ti { t with status := .running, bars := bars, kept := [], caskLeft := false }
    forEach (List.range t.size) fun r => do
      reviveDead (t.hartOf r) (t.kept.getD r {}).dead
      latchSlots (t.hartOf r)
    return none

/-! ### What a Recovery Page records of a hart (R330) -/

/-- What a Recovery Page records of a hart: `sr.pcount`, last stamp, flags. -/
abbrev HartEntry := Nat × Nat × Nat

/-- The entry of rank `r` of a saved team, from its save area; where the area has an uncorrectable error, nothing is known of the
counts. -/
def State.savedEntry (s : State) (t : Team) (area r : Nat) : HartEntry :=
  let b := match s.launch t.launch with
    | some l => s.caskNeed l
    | none => 0
  match s.areaRead t.part (hartSectionAt (sectionAt area b (r / 2)) (r % 2)) 0xA0 with
  | .ok bs => (fieldAt bs 0x88 8, fieldAt bs 0x98 8, 1 + 2 * (fieldAt bs 0x08 8 % 2))
  | .error _ => (0, 0, 1)

/-- An entry of final values, or of a hart that has not started. -/
def entryOf : Option Final → HartEntry
  | some f => (f.pcount.toNat, f.lastStamp.toNat, 1 + 2 * f.halted.toNat)
  | none => (0, 0, 0)

/-- The entry of rank `r` of a team: of one that has never run, that nothing has started. -/
def State.teamEntry (s : State) (t : Team) (r : Nat) : HartEntry :=
  match t.status, t.save with
  | .fetching, some a => if t.between then s.savedEntry t a r else entryOf none
  | .fetching, none => entryOf none
  | .ended, _ => entryOf t.final[r]?
  | .saved, some a => s.savedEntry t a r
  | .restoring, some a => s.savedEntry t a r
  | _, _ => entryOf (some (s.hart (t.hartOf r)).final)

/-- The teams of a launch, also those that have ended. -/
def State.allTeams (s : State) (li : Nat) : List Team := s.teams.filterMap fun e => match e.2 with
  | some t => if t.launch = li then some t else none
  | none => none

/-- The runs of stage `j` of a splice that a team has begun, as tiles of the last stage, oldest first. -/
def Team.stageRuns (t : Team) (j step : Nat) : List Nat :=
  ((List.range (t.tile / max 1 step + 1)).map (t.ix + · * step)).filter fun x =>
    x < t.tile || (x = t.tile && (j < t.stage || (j = t.stage && t.begun)))

/-- The entry of logical hart `i` of stage `l`, launch `li`, of the splice that launch `hd` heads: of the run that is under way for it, or
halted after one that is over (R143). -/
def State.stageEntry (s : State) (li : Nat) (l : Launch) (hd : Nat) (h : Launch) (i : Nat) : HartEntry :=
  let ch := h.chain.filterMap s.launch
  let j := h.chain.idxOf li
  let runs := (s.allTeams hd).flatMap fun t => ((t.stageRuns j (s.teamCount h)).filter fun x =>
    stageTileOf ch j x % l.nteams = i / l.teamSize).map fun x => (t, x)
  let old := runs.any fun x => x.2 != x.1.tile || x.1.stage != j
  match runs.find? fun x => x.2 == x.1.tile && x.1.stage == j with
  | some x =>
    let e := s.teamEntry x.1 (i % l.teamSize)
    if e.2.2 = 0 && old then (0, 0, 3) else e
  | none => if old then (0, 0, 3) else entryOf none

end Sys2Proof.Machine
end

