-- ==== Sys2Proof/Machine/Scheduler.lean ====
section
/-! DEFINITION. The scheduler: priorities, admission, pre-emption, runs, the ends of teams and launches, and events of shared
state (02 R20-R24, R43; 06_launch R119-R134; 07_splicing R135, R142-R148; 18 R333; 19 R337; 20 R345-R348; 21 R353, R363, R364;
14 R311; 25 R398; 05 R100, R101; 06 R401, R402).

The lead slice of a partition is that of its lowest-numbered die, which is also its slot (R123, R318). -/

namespace Sys2Proof.Machine

/-- An action of the lead slice: it waits where a page on its way is moving, and an uncorrectable error in a page-table node
checks its partition. -/
def runLead (m : M Unit) (s : State) : Host.Outcome State Fault Refusal :=
  match m s with
  | .ok _ s' => .next s'
  | .error (.machineCheck p pa) s' => .next (s'.nodeCheck p pa)
  | .error (.fault f) _ => .fault f
  | .error (.refuse r) _ => .refused r
  | .error _ _ => .next s

/-! ### Effective priority (R125, R142) -/

/-- The launches of its partition that a launch waits on. -/
def State.waitsOn (s : State) (e : Nat × Launch) : List Nat := s.ahead e.1 e.2 ++ s.openPreds e.2

/-- One round of donation: each launch that another waits on takes at least its priority. -/
def State.donate (s : State) (ls : List (Nat × Launch)) (m : Tbl Nat) : Tbl Nat :=
  ls.foldl (fun m x => (s.waitsOn x).foldl (fun m y => Tbl.set 0 m y (max (Tbl.get 0 m y) (Tbl.get 0 m x.1))) m) m

/-- Rounds of donation. -/
def State.donateTimes (s : State) (ls : List (Nat × Launch)) : Nat → Tbl Nat → Tbl Nat
  | 0, m => m
  | k + 1, m => s.donateTimes ls k (s.donate ls m)

/-- eff of every launch of a partition: PRIO and age up to 7, donation until nothing changes, and for a splice the greatest of its
stages. -/
def State.effs (s : State) (p : Nat) : Tbl Nat :=
  let ls := launchesOf s p
  let m := ls.foldl (fun m e => Tbl.set 0 m e.1 (min 7 (e.2.prio + e.2.age))) []
  let m := s.donateTimes ls ls.length m
  ls.foldl (fun m e =>
    if e.2.chain.length ≤ 1 then m else Tbl.set 0 m e.1 (e.2.chain.foldl (fun x k => max x (Tbl.get 0 m k)) 0)) m

/-- AGE_TICK: a whole millisecond more has passed since launch `ev.launch` became ready. -/
def execAgeTick (s : State) : Host.Outcome State Fault Refusal :=
  match s.launch s.ev.launch with
  | some l => match l.readyAt with
    | some r =>
      if r + (l.age + 1) * 1000000 * nsTicks ≤ s.now then .next (s.setLaunch s.ev.launch { l with age := l.age + 1 }) else .next s
    | none => .next s
  | none => .next s

/-! ### Pools (R122) -/

/-- The lowest address from `base` at which `need` bytes fit in a pool of `total` bytes beside the regions in use, aligned. -/
def lowestFit (used : List (Nat × Nat)) (base total need align : Nat) : Option Nat :=
  let at_ := base :: used.map fun u => ceilDiv (u.1 + u.2) align * align
  let ok := at_.filter fun a => base ≤ a && a + need ≤ base + total && used.all fun u => !rangesMeet u.1 u.2 a need
  match ok with
  | [] => none
  | a :: as => some (as.foldl min a)

/-- Teams of a partition that have not ended. -/
def State.partTeams (s : State) (p : Nat) : List (Nat × Team) := s.teams.filterMap fun e => match e.2 with
  | some t => if t.part = p && t.status ≠ .ended then some (e.1, t) else none
  | none => none

/-- Stack bytes of a team of a launch: a splice's stages share one region, as large as the largest needs. -/
def State.stackNeed (s : State) (l : Launch) : Nat :=
  if l.chain.length ≤ 1 then l.stackBytes else (l.chain.filterMap s.launch).foldl (fun m x => max m x.stackBytes) 0

/-- The stack regions in use. -/
def State.stackUsed (s : State) (p : Nat) : List (Nat × Nat) := (s.partTeams p).filterMap fun e =>
  (s.launch e.2.launch).bind fun l => if s.stackNeed l = 0 then none else some (e.2.stackBase, s.stackNeed l)

/-- Bytes of a team's save area. -/
def State.areaNeed (s : State) (t : Team) : Nat := match s.launch t.launch with
  | some l => areaBytes t.cores.length (s.caskNeed l)
  | none => 0

/-- The save areas in use. -/
def State.areasUsed (s : State) (p : Nat) : List (Nat × Nat) :=
  (s.partTeams p).filterMap fun e => e.2.save.map fun a => (a, s.areaNeed e.2)

/-! ### Placement (R121, R126, R133, R333, R398) -/

/-- A team to place: a saved one or a new one, and the die it must have. -/
structure Need where
  team : Option Nat
  pin : Option Nat
  deriving DecidableEq, Repr

/-- Where a team goes. -/
structure Berth where
  team : Option Nat
  die : Nat
  cores : List Nat
  stack : Nat
  deriving DecidableEq, Repr

/-- What a placement lacks. -/
inductive Lack where
  | cores | stack
  deriving DecidableEq, Repr

/-- The cores of a die that take a team now, in logical order (R121, R385). -/
def State.freeOn (s : State) (d : Nat) : List Nat :=
  ((s.coresOfDie d).map (32 * d + ·)).filter fun c => (s.core c).team.isNone && !(s.core c).degraded

/-- A group of the launch of team `t`, or of a stage that it runs, has a round open on its die (R398). -/
def State.holdsRound (s : State) (t : Team) : Bool :=
  let ls := match s.launch t.launch with
    | some l => t.launch :: l.chain
    | none => [t.launch]
  (s.die t.die).groups.any fun e => match e.2 with
    | some g => ls.contains g.launch && (g.fixed.isSome || g.packets != [])
    | none => false

/-- The saved teams of a launch, earlier pre-emptions first (R333). -/
def State.savedInOrder (s : State) (li : Nat) : List (Nat × Team) :=
  sortBy (fun a b => a.2.saveSeq ≤ b.2.saveSeq) ((s.savedTeams li).filterMap fun ti => (s.team ti).map fun t => (ti, t))

/-- The teams that must be placed together next: of a RESIDENT launch all, of another one. -/
def State.needsOf (s : State) (li : Nat) (l : Launch) : List Need :=
  match s.savedInOrder li with
  | [] => List.replicate (if l.resident then s.teamCount l - l.nextTeam else 1) ⟨none, none⟩
  | (ti, t) :: rest =>
    if l.resident then ((ti, t) :: rest).map fun e => ⟨some e.1, some e.2.die⟩
    else [⟨some ti, if s.holdsRound t then some t.die else none⟩]

/-- Whether a need may be met on a die. -/
def Need.allows (n : Need) (d : Nat) : Bool := match n.pin with
  | some x => x == d
  | none => true

/-- Places for needs of `c` cores and `bytes` of stack each: the lowest die with room, its lowest free cores. -/
def placeAll (c bytes : Nat) (pool : Nat × Nat) : List Need → List (Nat × List Nat) → List (Nat × Nat) → Except Lack (List Berth)
  | [], _, _ => .ok []
  | n :: ns, free, used =>
    let new := n.team.isNone && bytes != 0
    match if new then lowestFit used pool.1 pool.2 bytes 65536 else some 0 with
    | none => .error .stack
    | some a => match free.find? fun f => n.allows f.1 && c ≤ f.2.length with
      | none => .error .cores
      | some (d, cs) =>
        let free := free.map fun f => if f.1 = d then (d, f.2.drop c) else f
        match placeAll c bytes pool ns free (if new then (a, bytes) :: used else used) with
        | .ok ps => .ok (⟨n.team, d, cs.take c, a⟩ :: ps)
        | .error e => .error e

/-- Places for the next teams of a launch on dies. -/
def State.findPlaces (s : State) (l : Launch) (needs : List Need) (dies : List Nat) : Except Lack (List Berth) :=
  let q := s.part l.part
  placeAll l.coresPerTeam (s.stackNeed l) (q.w4.toNat, q.stackPool) needs (dies.map fun d => (d, s.freeOn d)) (s.stackUsed l.part)

/-! ### Victims (R127, R269) -/

/-- Cores of a die that are free or are being freed. -/
def State.freeingOn (s : State) (d : Nat) : Nat :=
  (((s.coresOfDie d).map (32 * d + ·)).filter fun c => !(s.core c).degraded && match (s.core c).team with
    | none => true
    | some ti => ((s.team ti).map (·.status)) == some .stopping).length

/-- A team may be pre-empted: it runs, and with a RESIDENT launch every team of the launch does, since they go as one (R24, R127). -/
def State.wholeRuns (s : State) (t : Team) : Bool :=
  t.status == .running &&
  match s.launch t.launch with
  | some l => !l.resident || (s.partTeams t.part).all fun x => x.2.launch != t.launch || x.2.status == .running
  | none => true

/-- The running teams of a partition on a die that a candidate of priority `e` may displace, in the order in which it does. -/
def State.displaceable (s : State) (p d e : Nat) (effs : Tbl Nat) : List (Nat × Team) :=
  let eff := fun (x : Nat × Team) => Tbl.get 0 effs x.2.launch
  sortBy (fun a b => eff a < eff b || (eff a == eff b && b.2.admitSeq ≤ a.2.admitSeq))
    ((s.partTeams p).filter fun x => s.wholeRuns x.2 && x.2.die == d && (eff x < e || (x.2.yielding && eff x ≤ e)))

/-- The teams that go with team `ti`: of a RESIDENT launch every one (R127). -/
def State.groupOf (s : State) (ti : Nat) (t : Team) : List Nat :=
  match s.launch t.launch with
  | some l =>
    if l.resident then ((s.partTeams t.part).filter fun x => x.2.launch == t.launch).map (·.1)
    else [ti]
  | none => [ti]

/-- Save areas for teams that have none yet, in a pool; none where one does not fit (R122). -/
def State.areasFor (s : State) (p : Nat) : List Nat → List (Nat × Nat) → Option (List (Nat × Nat))
  | [], used => some used
  | ti :: ts, used => match s.team ti with
    | none => s.areasFor p ts used
    | some t =>
      if t.save.isSome then s.areasFor p ts used
      else match lowestFit used (s.part p).w5.toNat (s.part p).savePool (s.areaNeed t) 4096 with
        | some a => s.areasFor p ts ((a, s.areaNeed t) :: used)
        | none => none

/-- A choice of victims in progress: cores to be had on the die, teams taken, save areas in use. -/
structure Trial where
  got : Nat
  take : List Nat
  areas : List (Nat × Nat)
  deriving DecidableEq, Repr

/-- Cores of teams on a die. -/
def State.coresOn (s : State) (d : Nat) (ts : List Nat) : Nat :=
  (ts.filterMap s.team).foldl (fun n t => if t.die = d then n + t.cores.length else n) 0

/-- One more victim is considered. (DEDUCED, log 52.) -/
def State.tryVictim (s : State) (p c d : Nat) (x : Trial) (v : Nat × Team) : Trial :=
  if c ≤ x.got || x.take.contains v.1 then x
  else
    let grp := (s.groupOf v.1 v.2).filter fun g => !x.take.contains g
    match s.areasFor p grp x.areas with
    | some areas => ⟨x.got + s.coresOn d grp, x.take ++ grp, areas⟩
    | none => x

/-- Victims for needs of `c` cores each, on a single die each; none where no die can be freed. `spent` counts cores of a die that
earlier needs have. (DEDUCED, log 52.) -/
def State.victims (s : State) (p c e : Nat) (effs : Tbl Nat) (dies : List Nat) :
    List Need → Tbl Nat → List Nat → List (Nat × Nat) → Option (List Nat)
  | [], _, take, _ => some take
  | n :: ns, spent, take, areas =>
    let trials := (dies.filter n.allows).map fun d =>
      (d, (s.displaceable p d e effs).foldl (s.tryVictim p c d)
            ⟨s.freeingOn d + s.coresOn d take - Tbl.get 0 spent d, take, areas⟩)
    match trials.find? fun x => c ≤ x.2.got with
    | none => none
    | some (d, x) => s.victims p c e effs dies ns (Tbl.set 0 spent d (Tbl.get 0 spent d + c)) x.take x.areas

/-- Team `ti` is pre-empted (R128): its harts stop where they are, their buffers drain, its save area is allotted, and the age of
its launch starts afresh. `keep` leaves its Cask share in place. (DEDUCED, log 52.) -/
def State.preempt (s : State) (keep : Bool) (ti : Nat) : State :=
  match s.team ti with
  | none => s
  | some t =>
    let q := s.part t.part
    let area := match t.save with
      | some a => some a
      | none => lowestFit (s.areasUsed t.part) q.w5.toNat q.savePool (s.areaNeed t) 4096
    let s := t.harts.foldl (fun (s : State) n =>
      s.setHart n { (s.hart n).drainWcb with sva := BitVec.ofNat 64 (area.getD 0) }) s
    match s.launch t.launch with
    | some l =>
      let s := s.setTeam ti { t with status := .stopping, save := area, caskLeft := keep && s.caskNeed l != 0, yielding := false,
                                     saveSeq := s.seq }
      { s with seq := s.seq + 1 }.setLaunch t.launch { l with readyAt := some s.now, age := 0 }
    | none => s

/-! ### Admission (R121, R128, R132, R401) -/

/-- The segments of a launch in slot order: NSEG from ENTRY's on, for each stage of a splice (R121, R311). -/
def Launch.segments (l : Launch) : List Word := (List.range l.nseg).map fun i => BitVec.ofNat 64 (l.entry / 4096 * 4096 + 4096 * i)
def State.allSegments (s : State) (l : Launch) : List Word :=
  if l.chain.length ≤ 1 then l.segments else (l.chain.filterMap s.launch).flatMap Launch.segments

/-- A slot of a core's code store replaced. -/
def State.setSlot (s : State) (core k : Nat) (e : CodeSlot) : State :=
  let c := s.core core
  s.setCore core { c with code := Tbl.set {} c.code k e }

/-- A segment leaves every slot of a core but `k`: the directory never holds one twice (R87). -/
def State.clearElsewhere (s : State) (core k : Nat) (va : Word) : State :=
  let c := s.core core
  s.setCore core { c with code := c.code.filter fun e => e.1 == k || !(e.2.landed.isSome && e.2.va == va) }

/-- The scheduler fetches a segment into a slot of a core; a fetch that fails leaves the slot empty and gives its cause (R401).
A segment that the directory holds already is left where it is (R87), but not where `assigned` gives each segment its own slot
(R311). -/
def fetchInto (p core : Nat) (sp assigned : Bool) (k : Nat) (va : Word) : M (Option Cause) := do
  let s ← get
  if (s.core core).holdsElsewhere k va then
    if assigned then set (s.clearElsewhere core k va) else return none
  match ← attempt (translate p (dieOfCore core) (some core) ⟨false, sp, none, 0⟩ va .fetch) with
  | .ok (pa, _) => do
    modify fun s => s.setSlot core k { landed := some false, va := va, pa := pa }
    return none
  | .error (.trap c _ _) => do
    modify fun s => s.setSlot core k {}
    return some c
  | .error e => throw e

/-- The record of a team fault that the scheduler finds (R401, R363). -/
def State.leadFault (s : State) (ti : Nat) (f : RecordFields) : State :=
  match s.team ti with
  | none => s
  | some t => match s.launch (s.stageLaunchIx t) with
    | none => s.killTeam ti
    | some l => s.teamFault ti t.die
        { f with trapped := true, kid := l.kid,
                 iter := if l.dynamic then [] else l.coords (if l.tileBody then t.stageTile else t.ix) }

/-- The team faults because a segment at which a hart is to start cannot be fetched. (DEDUCED, log 54.) -/
def State.segmentFault (s : State) (ti core : Nat) (c : Cause) (va : Word) : State :=
  s.leadFault ti { cause := c.code.toNat, cls := classOf c.code.toNat, unit := coreUnit core 7, syndrome := va.toNat, addr := va.toNat }

/-- Team `ti` has ended. -/
def State.teamOver (s : State) (ti : Nat) : Bool := (s.team ti).all (·.status == .ended)

/-- Segments are fetched into slots of the cores of a team; the team faults where one that a hart needs at its start fails, and no
more is fetched for it. -/
def fetchAll (ti p : Nat) (sp assigned : Bool) (cores : List Nat) (segs : List (Nat × Word)) (needed : Nat → List Word) : M Unit :=
  forEach cores fun core => forEach segs fun e => do
    if (← get).teamOver ti then pure ()
    else match ← fetchInto p core sp assigned e.1 e.2 with
      | some c => if (needed core).contains e.2 then modify fun s => s.segmentFault ti core c e.2 else pure ()
      | none => pure ()

/-- The Cask of a core reads as zero below `n` (R82, R121). -/
def State.zeroCask (s : State) (core n : Nat) : State :=
  let lo := caskBase core
  if Tbl.get 0 s.casks.base (16 + core) = 0 then
    let keep := fun (a : Nat) => a < lo || lo + n ≤ a
    { s with casks := { s.casks with
        bytes := s.casks.bytes.filter fun e => keep e.1
        poison := s.casks.poison.filter fun e => keep e.1 } }
  else s.pokeCasks lo (List.replicate n ⟨0, false⟩)

/-- Shares of saved teams that stand in cores which another team is to use go into their save areas (R337). -/
def State.moveSharesOff (s : State) (cores : List Nat) (but : Option Nat) : State :=
  s.teams.foldl (fun s e => match e.2 with
    | some t => if t.status = .saved && t.caskLeft && some e.1 ≠ but && t.cores.any cores.contains then s.moveShare e.1 else s
    | none => s) s

/-- Team `ti` occupies its cores: nothing of an earlier occupant remains (R40), but for a share of its own left in place. -/
def State.occupy (s : State) (ti : Nat) (t : Team) (l stage : Launch) : State :=
  t.cores.foldl (fun (s : State) core =>
    let s := if t.caskLeft then s else s.zeroCask core (s.caskNeed l)
    s.setCore core { (s.core core).release with team := some ti, share := stage.caskb }) s

/-- A new team of launch `li` is admitted: its stack region, its cores, its barriers, and the fetch of its segments. -/
def newTeam (li : Nat) (pl : Berth) : M Unit := do
  let s ← get
  match s.launch li with
  | none => pure ()
  | some l =>
    let ti := s.nextTeam
    let k := l.nextTeam
    let t : Team := {
      launch := li, part := l.part, ix := k, die := pl.die, cores := pl.cores, size := l.teamSize, status := .fetching, tile := k,
      bars := (List.range 16).map fun b => (b, { expected := l.teamSize }), stackBase := pl.stack, admitSeq := s.seq }
    let t := { t with stageTile := stageTileOf (s.chainOf t) 0 k }
    modify fun s =>
      let s := if s.caskNeed l = 0 then s else s.moveSharesOff pl.cores none
      let s := { s.setTeam ti t with nextTeam := ti + 1, seq := s.seq + 1 }
      let s := s.setLaunch li { l with nextTeam := k + 1, status := .running }
      let s := if l.resident then
          let d := s.die pl.die
          s.setDie pl.die { d with bars := (List.range 16).foldl (fun x b =>
            let y : Barrier := Tbl.get {} x (16 * li + b)
            Tbl.set {} x (16 * li + b) { y with expected := y.expected + l.teamSize }) d.bars }
        else s
      s.occupy ti t l l
    let segs := (s.allSegments l).zipIdx.map fun e => (e.2, e.1)
    fetchAll ti l.part l.spliceOk false pl.cores segs fun _ => l.segments.take 1

/-- A landed or coming supervisor slot for a hart that is to go on in its routine (R364). -/
def needSupervisor (ti p core : Nat) : M Unit := do
  let s ← get
  if s.teamOver ti || (s.supState core p).isSome then pure ()
  else match s.fetchSup core p with
    | .coming s' | .checked s' => set s'
    | .later _ => throw (.wait (.migrating (s.part p).supSeg))
    | .failed => modify fun s => s.segmentFault ti core .segAbsent (BitVec.ofNat 64 (s.part p).supSeg)

/-- What step 1 of R132 takes from a saved team's area: for core section `j`, its directory, and of each hart that has not halted
its pc and whether it is in its supervisor routine. -/
def State.readPlaces (s : State) (t : Team) (area b j : Nat) : Except Unrestorable (List (Nat × Word) × List (Nat × Word × Bool)) := do
  let sec := sectionAt area b j
  let hd ← s.areaRead t.part sec 0x280
  let dir := (List.range 64).filterMap fun k =>
    let e := fieldAt hd (0x80 + 8 * k) 8
    if e % 2 = 1 then some (k, (BitVec.ofNat 64 (e / 4096 * 4096) : Word)) else none
  let ranks := (List.range t.size).filter fun r => r / 2 == j
  let harts ← readEach (fun r => do
    let fx ← s.areaRead t.part (hartSectionAt sec (r % 2)) 0x30
    return (r, (BitVec.ofNat 64 (fieldAt fx 0 8) : Word), fieldAt fx 0x28 8 / 2 % 2 == 1, fieldAt fx 8 8 % 2 == 1)) ranks
  return (dir, (harts.filter (!·.2.2.2)).map fun x => (x.1, x.2.1, x.2.2.1))

/-- A saved team faults because a line of its area cannot be read, or holds a tag code that is not listed, or a 64-bit one for an odd
register, the cause and `sr.tval` of which are `vcfg`'s; its save area is freed (R45, R363). (DESIGN CHOICE, log 56.) -/
def State.restoreFault (s : State) (ti : Nat) : Unrestorable → State
  | .line pa => s.leadFault ti { cause := 0x30, cls := classOf 0x30, eccst := 3, unit := memoryUnit pa, addr := pa, phys := true }
  | .tag code => s.leadFault ti
      { cause := Cause.illegal.code.toNat, unit := schedUnit (((s.team ti).map (·.part)).getD 0), syndrome := code }
  | .odd reg => s.leadFault ti
      { cause := Cause.tagMismatch.code.toNat, unit := schedUnit (((s.team ti).map (·.part)).getD 0), syndrome := reg }

/-- Segments of a splice that no longer stand in their slots of a core. -/
def State.strayed (s : State) (l : Launch) (core : Nat) : List (Nat × Word) :=
  ((s.allSegments l).zipIdx.filter fun e =>
    let sl := Tbl.get {} (s.core core).code e.2
    !(sl.landed.isSome && sl.va == e.1)).map fun e => (e.2, e.1)

/-- Segments of a splice that have left their slots are fetched into them before the next stage of team `ti` (R311). -/
def fetchStrayed (ti : Nat) (l : Launch) (cores : List Nat) : M Unit :=
  forEach cores fun c => do
    let s ← get
    let stage := match s.team ti with
      | some t => (s.launch (s.stageLaunchIx t)).getD l
      | none => l
    fetchAll ti l.part l.spliceOk true [c] (s.strayed l c) fun _ => stage.segments.take 1

/-- A saved team is placed again (R132, R333): step 1 fetches the segments of its saved directories, so that the code store of a team
saved between two runs is as the last one left it (R135), and a splice's stand in their slots (R311). -/
def resumeTeam (ti : Nat) (pl : Berth) : M Unit := do
  let s ← get
  match s.team ti with
  | none => pure ()
  | some t => match s.launch t.launch, t.save with
    | some l, some area => do
      let stage := (s.launch (s.stageLaunchIx t)).getD l
      let b := s.caskNeed l
      modify fun s =>
        let s := if b = 0 then s else s.moveSharesOff pl.cores (some ti)
        let s := if t.caskLeft && t.cores != pl.cores then s.moveShare ti else s
        let left := t.caskLeft && t.cores == pl.cores
        let t' := { t with cores := pl.cores, die := pl.die, caskLeft := left, yielding := false, admitSeq := s.seq,
                           status := if t.between then .fetching else .restoring }
        let s := { s.setTeam ti t' with seq := s.seq + 1 }
        s.occupy ti t' l stage
      let s ← get
      match readEach (s.readPlaces { t with cores := pl.cores } area b) (List.range pl.cores.length) with
      | .error e => modify fun s => s.restoreFault ti e
      | .ok xs => do
        forEach (pl.cores.zip xs) fun x => do
          let (core, dir, harts) := x
          let starts := if t.between then stage.segments.take 1 else (harts.filter (!·.2.2)).map fun h => h.2.1 &&& ~~~0xFFF
          fetchAll ti l.part l.spliceOk false [core] dir fun _ => starts
          forEach (harts.filter (·.2.2)) fun _ => needSupervisor ti t.part core
        if t.between && 1 < l.chain.length then fetchStrayed ti l pl.cores
    | _, _ => pure ()

/-! ### ADMIT_TEAM (R125-R127) -/

/-- A launch that an admission opportunity may choose, with its eff. -/
structure Cand where
  li : Nat
  launch : Launch
  eff : Nat
  deriving DecidableEq, Repr

/-- No team of the launch that was pre-empted before every saved one still stops; of a RESIDENT launch none does (R333). -/
def State.stopsOver (s : State) (li : Nat) (l : Launch) : Bool :=
  let stopping := (s.partTeams l.part).filter fun t => t.2.launch == li && t.2.status == .stopping
  stopping == [] || (!l.resident && match s.savedInOrder li with
    | x :: _ => stopping.all fun t => x.2.saveSeq ≤ t.2.saveSeq
    | [] => false)

/-- A launch that is ready and has a team to place. -/
def State.isCandidate (s : State) (e : Nat × Launch) : Bool :=
  e.2.head.isNone && s.launchReady e.1 e.2 && s.hasUnadmitted e.1 e.2 && s.stopsOver e.1 e.2

/-- The candidates of a partition: descending eff, and within one eff the queues after the pointer, cyclically. -/
def State.candidates (s : State) (p : Nat) (effs : Tbl Nat) : List Cand :=
  let cs := ((launchesOf s p).filter s.isCandidate).map fun e => (⟨e.1, e.2, Tbl.get 0 effs e.1⟩ : Cand)
  let key := fun (c : Cand) => (7 - c.eff) * 64 + (c.launch.queue + 127 - Tbl.get 63 (s.part p).rr c.eff) % 64
  sortBy (fun a b => key a ≤ key b) cs

/-- The dies that a candidate could use. (DEDUCED, log 52.) -/
def usableDies (needs : List Need) (dies : List Nat) : List Nat := dies.filter fun d => needs.any fun n => n.allows d

/-- Teams of launch `li` are placed, none any more once the launch is FAULTED (R347). -/
def seatAll (li : Nat) (places : List Berth) : M Unit := forEach places fun pl => do
  if ((← get).launch li).any (·.faulted) then pure ()
  else match pl.team with
    | some ti => resumeTeam ti pl
    | none => newTeam li pl

/-- The candidate's queue becomes the round-robin pointer of its eff (R125). -/
def State.choose (s : State) (p : Nat) (x : Cand) : State :=
  let q := s.part p
  s.setPart p { q with rr := Tbl.set 63 q.rr x.eff x.launch.queue }

/-- The opportunity goes to the candidates in turn. The first is the one chosen: its queue becomes the pointer of its eff, and it
alone may displace teams (R125, R127). While one of eff 7 cannot be placed, none of lower eff goes onto dies that it could use.
(DEDUCED, log 52.) -/
def seatTeams (p : Nat) (effs : Tbl Nat) : List Cand → Bool → List Nat → M Unit
  | [], _, _ => pure ()
  | x :: xs, first, closed => do
    modify fun s => if first then s.choose p x else s
    let s ← get
    let needs := s.needsOf x.li x.launch
    let dies := (s.diesOf p).filter fun d => x.eff = 7 || !closed.contains d
    match s.findPlaces x.launch needs dies with
    | .ok places => seatAll x.li places
    | .error lack =>
      let vs := if first && lack = .cores then
          s.victims p x.launch.coresPerTeam x.eff effs dies needs [] [] (s.areasUsed p) else none
      match vs with
      | some vs => modify fun s => vs.foldl (State.preempt · (s.caskNeed x.launch = 0)) s
      | none => seatTeams p effs xs false (if x.eff = 7 then closed ++ usableDies needs (s.diesOf p) else closed)

/-- ADMIT_TEAM: an admission opportunity of the lead slice of partition `ev.idx`. A self-test of one of its dies holds it. -/
def execAdmitTeam (s : State) : Host.Outcome State Fault Refusal :=
  let p := s.ev.idx
  if (s.part p).state ≠ 1 || s.svc.selftests.any (fun t => (s.diesOf t.1).any (s.diesOf p).contains) then .next s
  else
    let yields := ((s.partTeams p).filter (·.2.yielding)).map (·.1)
    runLead (do
      let effs := s.effs p
      seatTeams p effs (s.candidates p effs) true []
      modify fun s =>
        let s := yields.foldl (fun (s : State) ti => match s.team ti with
          | some t => s.setTeam ti { t with yielding := false }
          | none => s) s
        s.markReady p) s

/-! ### Runs (R121, R132, R135, R143) -/

/-- Whether a core has a segment still on its way. -/
def Core.fetching (c : Core) : Bool := c.code.any fun e => e.2.landed == some false

/-- Bytes at `va` and above in the partition's memory become undefined, a page at a time, for every agent. (DEDUCED, log 53.) -/
def spoilVirtual (p : Nat) (va len : Nat) : M Unit :=
  forEach (pieces va len) fun x => do
    match ← attempt (translate p p none leadRights (BitVec.ofNat 64 x.1) .load) with
    | .ok (pa, _) => modify fun s =>
        let n := s.fresh
        let bs := (List.range x.2).map fun i => (⟨Config.freeByte (n + i), false⟩ : PByte)
        ({ s with fresh := n + x.2 } : State).mapViews (·.poke pa bs)
    | .error (.trap _ _ _) => pure ()
    | .error e => throw e

/-- A run of team `ti` starts: its share, Vat rows and tiles are zero, its harts hold the state of Table 2.5 and have latched their
slot descriptors; the stack of a tile-body run holds nothing defined. (DEDUCED, log 53.) -/
def beginRun (ti : Nat) : M Unit := do
  let s ← get
  match s.team ti with
  | none => pure ()
  | some t => match s.launch t.launch, s.launch (s.stageLaunchIx t) with
    | some l, some stage => do
      let share := if l.chain.length ≤ 1 then l.caskb else s.chainCask l.chain
      modify fun s =>
        let s := t.cores.foldl (fun (s : State) core =>
          let s := s.zeroCask core share
          s.setCore core { s.core core with tiles := [], vat := [], cdone := 0, share := stage.caskb }) s
        let s := (List.range t.size).foldl (fun (s : State) r => s.setHart (t.hartOf r) (t.startHart ti stage r)) s
        s.setTeam ti { t with status := .running, between := false, caskLeft := false, begun := true }
      if stage.tileBody then
        spoilVirtual t.part t.stackBase (t.size * stage.stackKib * 1024)
      forEach t.harts latchSlots
    | _, _ => pure ()

/-- The entry segment of the stage that a team is to run stands in every core's code store, or the team faults (R401). -/
def State.missingEntry (s : State) (t : Team) : Option (Nat × Word) :=
  match s.launch (s.stageLaunchIx t) with
  | none => none
  | some l =>
    let va : Word := BitVec.ofNat 64 (l.entry / 4096 * 4096)
    (t.cores.find? fun c => !(s.core c).segLanded va).map fun c => (c, va)

/-- The writes that the harts of a new team have acquired have been applied at its die (R101). (DEDUCED, log 53.) -/
def State.startAcquired (s : State) (t : Team) : Bool :=
  allDies.all fun i => (s.part t.part).ended.getD i 0 ≤ s.seenBy t.die i

/-- The supervisor slot of a core is on its way. -/
def Core.supComing (c : Core) : Bool := c.sup.landed == some false

/-- The cores of a team, by its area, on which a hart is to go on in its routine and the supervisor slot has not landed: `tlbinv` may
have emptied it since (R364). -/
def State.lackRoutine (s : State) (t : Team) (area b : Nat) : List Nat :=
  match readEach (s.readPlaces t area b) (List.range t.cores.length) with
  | .ok xs => ((t.cores.zip xs).filter fun x => x.2.2.any (·.2.2) && s.supState x.1 t.part != some true).map (·.1)
  | .error _ => []

/-- HART_START: the segments of team `ev.team` have landed, and all its harts start together, at a run's start or restored.
(DEDUCED, log 6.) -/
def execHartStart (s : State) : Host.Outcome State Fault Refusal :=
  let ti := s.ev.team
  match s.team ti with
  | none => .next s
  | some t =>
    if t.cores.any fun c => (s.core c).fetching then .next s
    else match t.status with
      | .fetching =>
        if s.startAcquired t then runLead (do
          match ← refillShare t with
          | some e => modify fun s => s.restoreFault ti e
          | none => beginRun ti) s
        else .next s
      | .restoring =>
        match s.launch t.launch, s.launch (s.stageLaunchIx t), t.save with
        | some l, some stage, some area =>
          if t.cores.any fun c => (s.core c).supComing then .next s
          else runLead (do
            match (← get).lackRoutine t area (s.caskNeed l) with
            | [] => match ← restoreTeam ti area t l stage with
              | some e => modify fun s => s.restoreFault ti e
              | none => modify fun s => t.harts.foldl (fun s n => s.raiseCopyFail n) s
            | cs => forEach cs (needSupervisor ti t.part)) s
        | _, _, _ => .next s
      | _ => .next s

/-- The run that follows the one a team has ended: stage and last-stage tile (R135, R142). -/
def State.nextRun (s : State) (t : Team) : Option (Nat × Nat) :=
  match s.launch t.launch with
  | none => none
  | some l =>
    let last := s.lastStage l
    if t.stage + 1 < l.chain.length then some (t.stage + 1, t.tile)
    else if (l.tileBody || 1 < l.chain.length) && t.tile + last.nteams < last.ntile then some (0, t.tile + last.nteams)
    else none

/-- A team's stores have been applied at its die, its stamped stores are visible, and no copy of its cores is outstanding. -/
def State.teamQuiet (s : State) (t : Team) : Bool :=
  t.harts.all (fun n => s.storesDone n && (s.hart n).mbuf.isEmpty) && t.cores.all fun c => (s.core c).copies == []

/-- A team moves to the next run. (DEDUCED, log 53.) -/
def State.toRun (s : State) (ti : Nat) (t : Team) (run : Nat × Nat) : State :=
  let s := s.countRun t
  let t := { t with stage := run.1, tile := run.2, begun := false }
  s.setTeam ti { t with stageTile := stageTileOf (s.chainOf t) run.1 run.2 }

/-- A team that runs has ended a run, and another follows; none where it has not. -/
def State.runOver (s : State) (ti : Nat) : Option (Team × Nat × Nat) :=
  match s.team ti with
  | some t =>
    if t.status = .running && s.allHalted t && s.teamQuiet t then (s.nextRun t).map fun r => (t, r) else none
  | none => none

/-- Whether a team runs the stages of a splice. -/
def State.spliced (s : State) (t : Team) : Bool := match s.launch t.launch with
  | some l => 1 < l.chain.length
  | none => false

/-- TILE_RUN_START: team `ev.team` of an unspliced tile-body launch starts its next run. -/
def execTileRunStart (s : State) : Host.Outcome State Fault Refusal :=
  let ti := s.ev.team
  match s.runOver ti with
  | some (t, r) => if s.spliced t then .next s else runLead (beginRun ti) (s.toRun ti t r)
  | none => .next s

/-- The next stage starts once its entry segment stands; the team faults where it cannot (R401). -/
def State.enterStage (s : State) (ti : Nat) : Host.Outcome State Fault Refusal :=
  match s.team ti with
  | none => .next s
  | some t => match s.missingEntry t with
    | some (c, va) => .next (s.segmentFault ti c .segAbsent va)
    | none => runLead (beginRun ti) s

/-- STAGE_SWITCH: team `ev.team` of a splice goes to its next stage or tile; segments that left their slots are fetched first, and
the stage starts when they have landed (R143, R311). -/
def execStageSwitch (s : State) : Host.Outcome State Fault Refusal :=
  let ti := s.ev.team
  match s.team ti with
  | none => .next s
  | some t =>
    if t.status = .switching then
      if t.cores.any fun c => (s.core c).fetching then .next s else s.enterStage ti
    else match s.runOver ti, s.launch t.launch with
      | some (t, r), some l =>
        if !s.spliced t then .next s
        else
          let s1 := s.toRun ti t r
          if t.cores.all fun c => s1.strayed l c == [] && !(s1.core c).fetching then s1.enterStage ti
          else match fetchStrayed ti l t.cores s1 with
            | .ok _ s2 => match s2.team ti with
              | some t2 => if t2.status = .ended then .next s2 else .next (s2.setTeam ti { t2 with status := .switching })
              | none => .next s2
            | .error e _ => runLead (throw e) s
      | _, _ => .next s

/-! ### Saves (R128-R131, R134, R252) -/

/-- A wait that holds a save: a launch under way, a trap entry, a page that moves, and a write or access held by acknowledgements or by a
commit wait, which completes first (R134, R252, R364). (DEDUCED, log 55.) -/
def Wait.holdsSave : Wait → Bool
  | .lnch _ => true
  | .trapEntry .. => true
  | .pgmig _ => true
  | .dup .. => true
  | .commit _ => true
  | _ => false

/-- Whether team `t` may be saved: its stores have been applied on every die, its epochs and stamped stores are complete, no vector or
matrix instruction is unfinished before the position of a hart, and its copies stand at line boundaries with landed lines a prefix
(R33, R100, R129, R134). (DEDUCED, log 55.) -/
def State.savable (s : State) (t : Team) : Bool :=
  t.harts.all (fun n =>
    let h := s.hart n
    s.storesDone n && h.mbuf.isEmpty && h.pbars.isEmpty && h.epq = 0 && h.meq = 0 && !h.finishing &&
      !(h.wait.any Wait.holdsSave)) &&
  s.countedApplied (s.clockOf t.die) false &&
  t.cores.all fun c => (s.core c).copies.all fun e => match e.2 with
    | some x => x.landed.isEmpty && x.rowsLeft != 0
    | none => true

/-- SAVE_COMPLETE: team `ev.team`, which a pre-emption has stopped, is saved and its cores are freed; with every hart halted, it is
saved between two runs. -/
def execSaveComplete (s : State) : Host.Outcome State Fault Refusal :=
  let ti := s.ev.team
  match s.team ti with
  | none => .next s
  | some t => match s.launch t.launch, t.save with
    | some l, some area =>
      if t.status ≠ .stopping || !s.savable t then .next s
      else
        let done := fun (s : State) => Host.Outcome.next (s.markReady t.part)
        if s.allHalted t then match s.nextRun t with
          | none => .next s
          | some r =>
            if s.teamQuiet t then
              let s := s.toRun ti t r
              match s.team ti with
              | some t' => done (s.saveTeam ti area { t' with between := true, caskLeft := t'.caskLeft && t'.stage != 0 } l)
              | none => .next s
            else .next s
        else done (s.saveTeam ti area t l)
    | _, _ => .next s

/-! ### Ends (R43, R123, R124, R147, R148, R271, R402) -/

/-- TEAM_END: every hart of team `ev.team` has halted, its copies have completed and no run follows. -/
def execTeamEnd (s : State) : Host.Outcome State Fault Refusal :=
  let ti := s.ev.team
  match s.team ti with
  | none => .next s
  | some t =>
    if (t.status = .running || t.status = .stopping) && s.allHalted t && s.teamQuiet t && (s.nextRun t).isNone then
      .next ((s.killTeam ti).markReady t.part)
    else .next s

/-- Every team that launch `li` started has ended, and what they stored has been applied on every die (R101). -/
def State.teamsOver (s : State) (li : Nat) (l : Launch) : Bool :=
  s.liveTeams li == [] && s.countedApplied l.clock false &&
  !s.stampq.any fun e => 512 ≤ e.hart && ((s.team ((e.hart - 512) / 32)).any fun t => t.launch == li)

/-- How launch `li` ends now, if it does: as it was decided, or by its teams; one without a tile ends when it is ready (R119). -/
def State.endsAs (s : State) (li : Nat) (l : Launch) : Option LStatus :=
  match l.head with
  | some h =>
    if (s.launch h).isSome || (launchesOf s l.part).any (fun e => e.2.head == some h && e.1 < li) || l.status = .queued then none
    else some l.status
  | none =>
    if l.status = .cancelled then some .cancelled
    else if l.nextTeam = 0 then (if l.ntile = 0 && s.launchReady li l then some .ok else none)
    else if !s.teamsOver li l then none
    else if l.faulted then (if !l.checked && 1 < l.chain.length && l.faultStage ≠ 0 then
        some (if l.ntile ≤ l.runs then .ok else .cancelled) else some .faulted)
    else if l.nextTeam = s.teamCount l then some .ok
    else none

/-- The other stages of the splice that launch `li` heads end with it, FAULTED where a machine check stopped it (R148, R348); what a
Recovery Page says of their harts is kept until each has completed. (DEDUCED, log 51.) -/
def State.endStages (s : State) (li : Nat) (l : Launch) (st : LStatus) : State :=
  l.chain.zipIdx.foldl (fun (s : State) e => match s.launch e.1 with
    | some x =>
      let last := if l.nextTeam = 0 then []
        else (List.range (x.nteams * x.teamSize)).map fun i => s.stageEntry e.1 x li l i
      if x.head.isNone then s
      else s.setLaunch e.1 { x with last := last, status :=
        if l.checked then .faulted
        else if st = .cancelled && !l.faulted then .cancelled
        else if !l.faulted then .ok
        else if e.2 = l.faultStage then .faulted
        else if x.ntile ≤ x.runs then .ok
        else .cancelled }
    | none => s) s

/-- The status word (R124). -/
def LStatus.word : LStatus → Nat
  | .faulted => 1
  | .cancelled => 2
  | _ => 0

/-- A completion that cannot be written leaves a record (R402). -/
def State.completionFailed (s : State) (p kid code addr : Nat) (phys : Bool) : State :=
  s.record p { cause := code, cls := classOf code, sev := 1, unit := schedUnit p, kid := kid, addr := addr, phys := phys }

/-- A completion word meets a unit in error (R402). -/
def State.completionBad (s : State) (p kid : Nat) (e : Latent) (pa addr : Nat) (phys : Bool) : State :=
  s.record p { errorRecord e pa {} with unit := schedUnit p, kid := kid, addr := addr, phys := phys }

/-- The duplicates of CFLAG's page are still held (R79). -/
def State.dupHeld (s : State) (leaf : Word) : Bool := pteDup leaf && Tbl.get [] s.dups (pteAddr leaf) != []

/-- The frame whose duplicates the completion write of a launch waits for. -/
def completionFrame (l : Launch) : M (Option Nat) := do
  if l.cflag = 0 then return none
  match ← attempt (translate l.part l.part none leadRights (BitVec.ofNat 64 l.cflag) .store) with
  | .ok (_, leaf) => return if (← get).dupHeld leaf then some (pteAddr leaf) else none
  | .error _ => return none

/-- The physical address of the drain flag of queue `q`, where no launch but `li` is left in the queue (R124). -/
def State.drainFlag (s : State) (p q li : Nat) : Option Nat :=
  let w := (s.part p).w3.toNat
  if w = 0 || (launchesOf s p).any fun e => e.2.queue == q && e.1 != li then none else some (w + 8 * q)

/-- The completion write of launch `li`, and the drain flag that it may write, wait until no duplicate of their pages is held, for 20 µs
at most (R79). (DEDUCED, log 47.) -/
def completionHeld (li : Nat) (l : Launch) : M Bool := do
  let own ← completionFrame l
  let s ← get
  match own.or ((s.drainFlag l.part l.queue li).bind fun pa => s.dupAt pa 8) with
  | none => return false
  | some f =>
    match l.held.filter (·.1 == f) with
    | some (_, since) => return !(since + migrationLimit ≤ s.now)
    | none => do
      set (s.setLaunch li { l with held := some (f, s.now) })
      return true

/-- The status word, then CVAL, in one release at .k (R124). A page-table node in error checks the partition, and the launch ends all
the same (R348). (DEDUCED, log 54.) -/
def writeCompletion (l : Launch) (st : LStatus) : M Unit := do
  if l.cflag = 0 then pure ()
  else
    let p := l.part
    match ← attempt (translate p p none leadRights (BitVec.ofNat 64 l.cflag) .store) with
    | .error (.trap c _ _) => modify fun s => s.completionFailed p l.kid c.code.toNat l.cflag false
    | .error (.machineCheck q pa) => modify fun s => (s.completionBad p l.kid (s.nodeError pa) pa l.cflag false).nodeCheck q pa
    | .error e => throw e
    | .ok (pa, leaf) => do
      let s ← get
      match s.latentAt pa with
      | some e => set (s.completionBad p l.kid e pa l.cflag false)
      | none =>
        if s.dupHeld leaf then set (s.completionFailed p l.kid Cause.migrationTimeout.code.toNat l.cflag false)
        else
          let s := s.originate p none 0 none false (pa + 8) (cleanBytes (bytesOf 8 st.word))
          set (s.originate p none 0 none false pa (cleanBytes (bytesOf 8 l.cval)))

/-- The drain flag of a queue that has become empty: the launches that it has completed, by physical address (R124, R318). -/
def State.writeDrainFlag (s : State) (p q li kid : Nat) : State :=
  match s.drainFlag p q li with
  | none => s
  | some pa => match s.latentAt pa with
    | some e => s.completionBad p kid e pa pa true
    | none =>
      if (s.dupAt pa 8).isSome then s.completionFailed p kid Cause.migrationTimeout.code.toNat pa true
      else s.originate p none 0 none false pa (cleanBytes (bytesOf 8 (Tbl.get 0 (s.part p).completed q)))

/-- Nothing of a launch remains in the routers, the Trellis nodes, the kept keys or the team table (R104, R265, R398). -/
def State.forgetLaunch (s : State) (li : Nat) : State :=
  let s := allDies.foldl (fun (s : State) d =>
    let x := s.die d
    s.setDie d { x with bars := x.bars.filter fun e => e.1 / 16 != li,
                        groups := x.groups.filter fun e => match e.2 with
                          | some g => g.launch != li
                          | none => false }) s
  { s with
    detKeys := s.detKeys.filter fun e => e.1 % 2 ^ 32 != li
    teams := s.teams.filter fun e => match e.2 with
      | some t => t.launch != li
      | none => false
    launches := Tbl.set none s.launches li none }

/-- Launches that have started no team and depend on launch `li`, which did not end OK, end CANCELLED, whole splices with them: later
ones of its queue, and those whose PRED names it (R123). (DEDUCED, log 54.) -/
def State.cancelDependents (s : State) (li : Nat) (l : Launch) : State :=
  let hit := (launchesOf s l.part).filter fun e =>
    e.2.status == .queued && ((e.2.queue == l.queue && li < e.1) || e.2.waits.contains li)
  hit.foldl (fun (s : State) e =>
    let hd := e.2.head.getD e.1
    match s.launch hd with
    | some h => if h.nextTeam = 0 then s.setLaunch hd { h with status := .cancelled } else s
    | none => s) s

/-- Launch `li` leaves its queue with status `st`: its completion is written, and what waited for it goes on. -/
def completeLaunch (li : Nat) (l : Launch) (st : LStatus) : M Unit := do
  let p := l.part
  modify fun s => if 1 < l.chain.length then s.endStages li l (if l.status = .cancelled then .cancelled else st) else s
  writeCompletion l st
  modify fun s =>
    let s := s.forgetLaunch li
    let q := s.part p
    let s := s.setPart p { q with completed := Tbl.set 0 q.completed l.queue (Tbl.get 0 q.completed l.queue + 1) }
    let s := s.writeDrainFlag p l.queue li l.kid
    let s := s.setPart p { s.part p with ended := s.clockOf p }
    if st = .ok then s else s.cancelDependents li l
  let s ← get
  forEach ((launchesOf s p).map (·.1)) blend
  modify fun s => s.markReady p

/-- LAUNCH_COMPLETE: the other teams of launch `ev.launch` stop, where it is FAULTED (R347); once none is left, or the launch has ended in
another way, it completes. -/
def execLaunchComplete (s : State) : Host.Outcome State Fault Refusal :=
  let li := s.ev.launch
  match s.launch li with
  | none => .next s
  | some l =>
    if l.faulted && s.liveTeams li != [] then .next (s.stopFaulted li)
    else match s.endsAs li l with
      | none => .next s
      | some st => runLead (do if ← completionHeld li l then pure () else completeLaunch li l st) s

/-! ### Supervisor slots and shared state (R348, R353, R364) -/

/-- A trap of hart `n` that waits for the supervisor segment is entered once the segment has landed. -/
def State.enterWaiting (s : State) (n : Nat) : State := match (s.hart n).wait with
  | some (.trapEntry cause tval epc start _) => s.enterTrap n cause tval epc start
  | _ => s

/-- A trap of hart `n` that waits for a segment whose fetch fails is a team fault, whose record carries the trap's cause (R353). -/
def State.failWaiting (s : State) (n : Nat) : State := match (s.hart n).wait with
  | some (.trapEntry cause tval _ start unit) =>
    s.teamFault (s.hart n).team (dieOf n) { s.trapRecord n unitAp cause tval start.toNat with unit := unit }
  | _ => s

/-- SUPERVISOR_SLOT_LANDED: the supervisor segment lands in core `ev.core`, and the traps that wait for it are entered; where its fetch
could not begin, it begins (R80, R353). -/
def execSupervisorSlotLanded (s : State) : Host.Outcome State Fault Refusal :=
  let core := s.ev.core
  let harts := [2 * core, 2 * core + 1]
  let c := s.core core
  match c.sup.landed with
  | some true => .next s
  | some false =>
    let d := dieOfCore core
    let s := s.findErrors d c.sup.pa 4096 (s.engineFor (2 * core))
    let (bytes, poison) := s.segmentAt d c.sup.pa
    let c := s.core core
    .next (harts.foldl State.enterWaiting
      (s.setCore core { c with sup := { c.sup with landed := some true, bytes := bytes, poison := poison } }))
  | none => match harts.find? fun n => (s.hart n).wait.any fun w => match w with
      | .trapEntry .. => true
      | _ => false with
    | none => .next s
    | some n => match s.fetchSup core (s.partOf n) with
      | .coming s' | .checked s' => .next s'
      | .later _ => .next s
      | .failed => .next (harts.foldl State.failWaiting s)

/-- The slots of the partitions that a unit serves (R348): those with a die of the pair of a Cellar stack, those with the die of another
unit; of an HBM stack, which holds pages of every partition, those in `owners`. (DEDUCED, log 65.) -/
def State.servedBy (s : State) (unit : Nat) (owners : BitVec 8) : List Nat :=
  let d := unit / 2 ^ 28
  let k := unit / 2 ^ 21 % 128
  (List.range 8).filter fun p =>
    if 8 ≤ d then false
    else if 40 ≤ k && k < 44 then (s.diesOf p).any fun x => x / 2 == d / 2
    else if k = 37 || k = 38 then owners.getLsbD p
    else (s.diesOf p).contains d

/-- MACHINE_CHECK: an uncorrectable error, cause `ev.cause`, in unit `ev.unit`, which checks every partition that the unit serves; of an
HBM stack the slots in `ev.dies` say whose state it was (R342, R348). (DEDUCED, log 65.) -/
def execMachineCheck (s : State) : Host.Outcome State Fault Refusal :=
  if s.ev.cause = 0x19 || s.ev.cause = 0x1A then
    .next ((s.servedBy s.ev.unit.toNat s.ev.dies).foldl
      (fun (s : State) p => s.machineCheck p { tagFails := s.ev.cause = 0x1A } s.ev.unit.toNat s.ev.pa) s)
  else .next s

end Sys2Proof.Machine
end

