-- ==== Sys2Proof/Machine/Service.lean ====
section
/-! DEFINITION. Command records: rights, ownership, partitions, memory and registers, attestation (15_host_and_fabric R313-R327,
R403, R404; 20 R343, R349; 21 R352, R353; 23 R385, R390; 04 R68; 05 R400).

A record has been taken from `State.cmdq` into `State.cmd`. Its answer goes to the response field of its slot. -/

namespace Sys2Proof.Machine

/-! ### Statuses and rights (R314, R317, R325) -/

/-- First byte of the command window of a port, inside the module (R326). -/
def portWindow (port : Nat) : Nat := 0x700000200000 + port * 0x10000

/-- The bytes that a READ names lie in `[lo, hi)`. -/
def readIn (r : CmdRec) (lo hi : Nat) : Bool := lo ≤ r.w0.toNat && r.w0.toNat + r.w1.toNat ≤ hi

/-- A READ of the module status window. -/
def readsStatus (r : CmdRec) (code : Nat) : Bool := code = 2 && readIn r statusWindow (statusWindow + 0x10000)

/-- A READ of published windows (Table 15.3). -/
def readsPublished (r : CmdRec) (code : Nat) : Bool :=
  code = 2 && (readIn r statusWindow (statusWindow + 0x30000) || readIn r (portWindow r.port) (portWindow r.port + 0x10000))

/-- Commands that Table 15.2 gives to the owner. -/
def ownerCommand (code : Nat) : Bool := [1, 3, 5, 6, 7, 8, 9, 0xB].contains code

/-- The operand words from `W n` on are 0. -/
def unusedZero (r : CmdRec) (n : Nat) : Bool := ([r.w0, r.w1, r.w2, r.w3, r.w4, r.w5, r.w6].drop n).all (· == 0)

/-- A master is frozen, with the record of R349; one that is frozen already stays so. The service die has no clock of its own: the
record carries die 0's. (DEDUCED, log 59.) -/
def State.freezeMaster (s : State) (m port addr code : Nat) : State :=
  if s.svc.frozen.getLsbD m then s
  else
    let s := { s with svc := { s.svc with frozen := s.svc.frozen ||| BitVec.twoPow 16 m } }
    s.record 0 { cls := 6, sev := 1, unit := unitPath 8 (64 + port) 0 127, kid := m, addr := addr, phys := true, syndrome := code }

/-- What comes before every command: the master, which must be its port's, freezing, ownership, terms, and the unused words; `code` and
its `words` operands. A status is an answer at once. (DEDUCED, log 58.) -/
def State.judge (s : State) (r : CmdRec) (code words : Nat) : State × Option Nat :=
  let m := r.master.toNat
  if 15 < m || r.alien then (s, some stBadCommand)
  else
    let used := if unusedZero r words then none else some stBadCommand
    if s.svc.frozen.getLsbD m && !readsStatus r code then (s, some stFrozen)
    else if s.svc.owner ≠ some m then
      if code = 4 || code = 0xA || readsPublished r code then (s, used)
      else if ownerCommand code && r.term.toNat < s.svc.term.toNat then (s, some stNotOwner)
      else (s.freezeMaster m r.port (if code = 2 || code = 3 then r.w0.toNat else 0) code, some stFrozen)
    else if ownerCommand code && r.term ≠ s.svc.term then (s, some stStaleTerm)
    else (s, used)

/-- A command: its record is judged, and where nothing stands against it, `f` executes it. -/
def commanded (code words : Nat) (f : CmdRec → State → Host.Outcome State Fault Refusal) (s : State) :
    Host.Outcome State Fault Refusal :=
  match s.judge s.cmd code words with
  | (s', some st) => .next (s'.respond s.cmd st 0)
  | (s', none) => f s.cmd s'

/-- A record is answered. -/
def answer (r : CmdRec) (st : Nat) (v : Word) (s : State) : Host.Outcome State Fault Refusal := .next (s.respond r st v)

/-- UNLISTED_COMMAND_CODE: BAD_COMMAND, where the master's rights reach so far. -/
def execUnlistedCommandCode (s : State) : Host.Outcome State Fault Refusal :=
  commanded s.cmd.code.toNat 7 (fun r => answer r stBadCommand 0) s

/-! ### LAUNCH (R116, R118, R403) -/

/-- The answer to LAUNCH: status and value. -/
def launchAnswer (r : CmdRec) : M (Nat × Word) := do
  let p := r.w0.toNat
  let s ← get
  if 7 < p || (s.part p).state = 0 then return (stBadCommand, 0)
  if (s.part p).state ≠ 1 then return (stBusy, 0)
  if r.w1 &&& 7 ≠ 0 then return (stBadCommand, 0)
  match ← leadRead p r.w1 128 with
  | none => return (stBadCommand, r.w1)
  | some bs => return (← handleRecord p r.w1 bs, 0)

/-- LAUNCH: a record on a page that is moving is taken again later; an uncorrectable page-table node checks the partition, and the
record cannot be read; nor can one whose page-table node lies in no window of memory. (DEDUCED, log 50.) -/
def execLaunch (s : State) : Host.Outcome State Fault Refusal :=
  commanded 1 2 (fun r s => match launchAnswer r s with
    | .ok (st, v) s' => answer r st v s'
    | .error (.machineCheck p pa) s' => answer r stBadCommand r.w1 (s'.nodeCheck p pa)
    | .error (.wait _) _ | .error (.cut _) _ => .next { s with cmdq := r :: s.cmdq }
    | .error (.trap _ _ _) s' | .error (.fault _) s' => answer r stBadCommand r.w1 s'
    | .error (.refuse x) _ => .refused x) s

/-! ### READ (R314, R326, R404) -/

/-- A length of READ or WRITE (Table 15.2). (DEDUCED, log 58.) -/
def lengthOk (n : Nat) : Bool := 8 ≤ n && n ≤ 4096 && n % 8 = 0

/-- A range of memory in one window, not in the register window or a hole. -/
def memoryRange (a n : Nat) : Bool :=
  let e := a + n - 1
  (inHbm a && inHbm e) || (inCellar a && inCellar e) || (windowOf a = .fabric && windowOf e = .fabric)

/-- The service firmware controls (Table 15.3). -/
def firmwareRange (a n : Nat) : Bool := 0x700000100000 ≤ a && a + n ≤ 0x700000200000

/-- A byte of the command window of a port, as a READ returns it: record slots are write-only. -/
def Port.windowByte (p : Port) (off : Nat) : Byte :=
  if 0x200 ≤ off && off < 0x280 then
    BitVec.ofNat 8 ((Tbl.get 0 p.resp ((off - 0x200) / 16)).toNat >>> (8 * (off % 16)))
  else if 0x1000 ≤ off && off < 0x9000 then Tbl.get 0 p.data (off - 0x1000)
  else 0

/-- The bytes without their poison: a poisoned byte has no value that a reader could be given. -/
def plainBytes : List PByte → State → List Byte × State
  | [], s => ([], s)
  | b :: bs, s =>
    if b.poi then
      let (r, s') := plainBytes bs { s with fresh := s.fresh + 1 }
      (Config.freeByte s.fresh :: r, s')
    else
      let (r, s') := plainBytes bs s
      (b.val :: r, s')

/-- Bytes of memory that the service die reads at their homes. -/
def State.readHomes (s : State) (a n : Nat) : List PByte × State :=
  (cutAt 4096 a (List.replicate n ⟨0, false⟩)).foldl (fun (x : List PByte × State) w =>
    let home := homeOf w.1
    let s := (x.2.catchUp home).findErrors (if home = fabricAgent then 0 else home) w.1 w.2.length {}
    (x.1 ++ (s.viewOf home).peek w.1 w.2.length, s)) ([], s)

/-- What READ returns: none where the range is outside what it may name. The contents of the firmware controls are not given.
(DEDUCED, log 58.) -/
def State.readRange (s : State) (port a n : Nat) : Option (List Byte × State) :=
  if memoryRange a n then
    let (bs, s) := s.readHomes a n
    some (plainBytes bs s)
  else if statusWindow ≤ a && a + n ≤ statusWindow + 0x30000 then some ((List.range n).map fun i => s.regByte (a + i), s)
  else if portWindow port ≤ a && a + n ≤ portWindow port + 0x10000 then
    some ((List.range n).map fun i => (s.port port).windowByte (a + i - portWindow port), s)
  else if firmwareRange a n then some (plainBytes (List.replicate n ⟨0, true⟩) s)
  else none

/-- READ: the bytes go to the slot's data buffer before the response. -/
def execRead (s : State) : Host.Outcome State Fault Refusal :=
  commanded 2 2 (fun r s =>
    if !lengthOk r.w1.toNat then answer r stBadCommand 0 s
    else match s.readRange r.port r.w0.toNat r.w1.toNat with
      | none => answer r stBadCommand 0 s
      | some (bs, s) => answer r stOk 0 (s.fillData r.port r.slot 0 bs)) s

/-! ### Registers that the owner writes (R327, R343, R352) -/

/-- The bytes of a slot's data buffer. -/
def State.dataBytes (s : State) (r : CmdRec) (n : Nat) : List Byte :=
  (List.range n).map fun i => Tbl.get 0 (s.port r.port).data (4096 * r.slot + i)

/-- The 8-byte word at an offset of a slot's data buffer. -/
def State.dataWord (s : State) (r : CmdRec) (i : Nat) : Word :=
  BitVec.ofNat 64 (valueOf (cleanBytes ((s.dataBytes r (i + 8)).drop i)))

/-- The dies of a partition slot hold a queued or running launch. -/
def State.holdsLaunch (s : State) (dies : List Nat) : Bool := s.launches.any fun e => match e.2 with
  | some l => (s.diesOf l.part).any dies.contains
  | none => false

/-- The words of a WRITE into the published windows, lowest first, up to the first that is answered otherwise than OK. -/
def State.writeRegs (s : State) (r : CmdRec) : List Nat → Nat × State
  | [] => (stOk, s)
  | i :: is => match s.writeReg (r.w0.toNat - statusWindow + 8 * i) (s.dataWord r (8 * i)) with
    | (0, s') => s'.writeRegs r is
    | x => x

/-- A WRITE of one register. -/
def registerCommand (f : CmdRec → State → Word → Nat × State) (s : State) : Host.Outcome State Fault Refusal :=
  commanded 3 2 (fun r s =>
    let (st, s') := f r s (s.dataWord r 0)
    answer r st 0 s') s

def execSupvecWrite (s : State) : Host.Outcome State Fault Refusal :=
  registerCommand (fun r s v => s.writeSupvec ((r.w0.toNat - statusWindow - 0x800) / 8) v) s
def execLogbaseWrite (s : State) : Host.Outcome State Fault Refusal := registerCommand (fun _ s v => s.writeLogbase v) s
def execLoglenWrite (s : State) : Host.Outcome State Fault Refusal := registerCommand (fun _ s v => s.writeLoglen v) s
def execTailWrite (s : State) : Host.Outcome State Fault Refusal := registerCommand (fun _ s v => s.writeTail v) s
def execDropClear (s : State) : Host.Outcome State Fault Refusal :=
  registerCommand (fun r s v => s.clearDrop ((r.w0.toNat - logWindow - 0x20) / 8) v) s
def execEvtailWrite (s : State) : Host.Outcome State Fault Refusal := registerCommand (fun _ s v => s.writeEvtail v) s
def execEvdropClear (s : State) : Host.Outcome State Fault Refusal := registerCommand (fun _ s v => s.clearEvdrop v) s

/-! ### WRITE (R68, R314, R400) -/

/-- Bytes that a WRITE puts into the issuing port's own window: the data buffers take them. -/
def State.writeWindow (s : State) (port off : Nat) (bs : List Byte) : State :=
  let p := s.port port
  let kept := bs.zipIdx.filter fun b => decide (0x1000 ≤ off + b.2 ∧ off + b.2 < 0x9000)
  s.setPort port { p with data := kept.foldl (fun t b => Tbl.set 0 t (off + b.2 - 0x1000) b.1) p.data }

/-- The image that the firmware controls hold: their bytes from the first on. (DESIGN CHOICE, log 61.) -/
def Service.image (v : Service) : List Byte :=
  (List.range (match v.controls.getLast? with
    | some e => e.1 + 1
    | none => 0)).map (Tbl.get 0 v.controls)

/-- Bytes written into the firmware controls, from offset `off` on. -/
def State.writeControls (s : State) (off : Nat) (bs : List Byte) : State :=
  { s with svc := { s.svc with controls := bs.zipIdx.foldl (fun t b => Tbl.set 0 t (off + b.2) b.1) s.svc.controls } }

/-- The signature of an image verifies against an enrolled owner key (R321). -/
def Service.ownerSigned (v : Service) (image : List Byte) : Bool := v.ownerKeys.any fun k => Config.signedBy k image

/-- The golden image runs, and an enrolled owner key has signed the image that the controls hold (R321, R391). -/
def State.takesImage (s : State) : Bool := s.svc.golden && s.svc.ownerSigned s.svc.image

/-- WRITE to memory at its homes; a Cellar range is answered once it is durable (R400). -/
def writeMemory (r : CmdRec) (bs : List Byte) (s : State) : Host.Outcome State Fault Refusal :=
  let a := r.w0.toNat
  let home := homeOf a
  let s := (s.mergeErrors (if home = fabricAgent then 0 else home) a bs.length {}).updateAtHomes a (cleanBytes bs)
  if inCellar a then .next ({ s with svc := { s.svc with writes := s.svc.writes ++ [r] } }).settleWrites
  else answer r stOk 0 s

/-- WRITE to a page with duplicates waits, at the head of its records, until none is held; after 20 µs it is not performed: a record
names a silent holder, and the answer is BUSY (R79, R359). (DEDUCED, log 47.) -/
def holdWrite (r : CmdRec) (frame : Nat) (s : State) : Host.Outcome State Fault Refusal :=
  let again := fun (s : State) => Host.Outcome.next { s with cmdq := r :: s.cmdq }
  match s.svc.held, s.silentHolders frame with
  | some (_, since), x :: xs =>
    if since + migrationLimit ≤ s.now then
      let s := { s with dups := Tbl.set [] s.dups frame (x :: xs), svc := { s.svc with held := none } }
      answer r stBusy 0 (s.record (homeOf frame % 8)
        { cause := 0x0A, cls := classOf 0x0A, sev := 1, unit := holderUnit frame x, phys := true, addr := r.w0.toNat })
    else again s
  | some _, [] => again s
  | none, _ => again { s with svc := { s.svc with held := some (frame, s.now) } }

/-- WRITE: memory, the registers of the published windows, the data buffers of the port's own window, or the firmware controls, which
under the golden image take a signed image: it is written into the firmware partition, and the module reboots (R321).
`reboot` is that reset. (DEDUCED, log 58.) -/
def writeWith (reboot : State → State) (r : CmdRec) (s : State) : Host.Outcome State Fault Refusal :=
  let a := r.w0.toNat
  let n := r.w1.toNat
  let bs := s.dataBytes r n
  if !lengthOk n then answer r stBadCommand 0 s
  else if memoryRange a n then
    if inRecovery (a + n - 1) then answer r stBadCommand 0 s
    else match s.dupAt a n with
      | some frame => holdWrite r frame s
      | none => writeMemory r bs { s with svc := { s.svc with held := none } }
  else if statusWindow ≤ a && a + n ≤ statusWindow + 0x30000 then
    if a % 8 ≠ 0 then answer r stBadCommand 0 s
    else
      let (st, s') := s.writeRegs r (List.range (n / 8))
      answer r st 0 s'
  else if portWindow r.port ≤ a && a + n ≤ portWindow r.port + 0x10000 then
    answer r stOk 0 (s.writeWindow r.port (a - portWindow r.port) bs)
  else if firmwareRange a n then
    let s := s.writeControls (a - 0x700000100000) bs
    if s.takesImage then
      answer r stOk 0 (reboot { s with svc := { s.svc with firmware := some s.svc.image } })
    else answer r stOk 0 s
  else answer r stBadCommand 0 s

/-! ### Ownership (R315-R317) -/

/-- A master becomes the owner under a term, which is recorded in flash first; the owner is never frozen. -/
def State.own (s : State) (m : Nat) (term : BitVec 32) : State :=
  { s with svc := { s.svc with owner := some m, term := term, lastTerm := term,
                               frozen := s.svc.frozen &&& ~~~(BitVec.twoPow 16 m) } }

/-- CLAIM. -/
def execClaim (s : State) : Host.Outcome State Fault Refusal :=
  commanded 4 0 (fun r s =>
    if s.svc.owner.isSome then answer r stNotOwner 0 s
    else if r.term.toNat ≤ s.svc.lastTerm.toNat then answer r stStaleTerm 0 s
    else answer r stOk 0 (s.own r.master.toNat r.term)) s

/-- HANDOVER. (DEDUCED, log 59.) -/
def execHandover (s : State) : Host.Outcome State Fault Refusal :=
  commanded 5 1 (fun r s =>
    if 15 < r.w0.toNat then answer r stBadCommand 0 s
    else answer r stOk 0 (s.own r.w0.toNat (s.svc.term + 1))) s

/-- The lowest port bound to a master, or `other`. -/
def State.portOf (s : State) (m other : Nat) : Nat :=
  match s.ports.find? fun e => e.2.bound == some m with
  | some e => e.1
  | none => other

/-- FREEZE: the owner itself is never frozen. (DEDUCED, log 59.) -/
def execFreeze (s : State) : Host.Outcome State Fault Refusal :=
  commanded 6 1 (fun r s =>
    let m := r.w0.toNat
    if 15 < m then answer r stBadCommand 0 s
    else if s.svc.owner = some m then answer r stOk 0 s
    else answer r stOk 0 (s.freezeMaster m (s.portOf m r.port) 0 6)) s

/-- UNFREEZE. -/
def execUnfreeze (s : State) : Host.Outcome State Fault Refusal :=
  commanded 7 1 (fun r s =>
    let m := r.w0.toNat
    if 15 < m then answer r stBadCommand 0 s
    else answer r stOk 0 { s with svc := { s.svc with frozen := s.svc.frozen &&& ~~~(BitVec.twoPow 16 m) } }) s

/-! ### Spare cores (R10, R385, R390) -/

/-- Logical cores with each one that `bad` names replaced by the next spare, or left out where no spare remains, when the cores after it
move down by one; and those replaced. (DEDUCED, log 60.) -/
def mendCores (bad : Nat → Bool) : List Nat → List Nat → List Nat × List Nat
  | [], _ => ([], [])
  | c :: cs, spares =>
    if bad c then match spares with
      | x :: xs =>
        let r := mendCores bad cs xs
        (x :: r.1, c :: r.2)
      | [] => mendCores bad cs []
    else
      let r := mendCores bad cs spares
      (c :: r.1, r.2)

/-- The spare map (R382). -/
def State.spareMap (s : State) : SpareMap :=
  { cores := s.svc.coreMap, rows := s.spare.remapped
    lanes := s.cores.flatMap fun e => e.2.pipes.filterMap fun p => p.2.spareFor.map fun l => (e.1, p.1, l) }

/-- The module with a changed spare map, of which the copy before is kept (R382). Whoever changes the map asks that the golden image does
not run. -/
def State.mapChanged (old s : State) : State :=
  { s with svc := { s.svc with lastMap := old.spareMap, mapVersion := s.svc.mapVersion + 1 } }

/-- The module with another spare map in use. -/
def State.loadMap (s : State) (m : SpareMap) : State :=
  let clear := fun (c : Core) => { c with pipes := c.pipes.map fun p => (p.1, { p.2 with spareFor := none }) }
  let s := { s with cores := s.cores.map fun e => (e.1, clear e.2), svc := { s.svc with coreMap := m.cores }
                    spare := { s.spare with remapped := m.rows } }
  m.lanes.foldl (fun (s : State) x =>
    let c := s.core x.1
    let p := Tbl.get {} c.pipes x.2.1
    s.setCore x.1 { c with pipes := Tbl.set {} c.pipes x.2.1 { p with spareFor := some x.2.2 } }) s

/-- Degraded cores of die `d` give way to spares, but for cores on which a team is resident (R10), and never under the golden image
(R382); the physical cores replaced. -/
def State.mendDie (s : State) (d : Nat) : State × List Nat :=
  let cs := s.coresOfDie d
  let core := fun c => s.core (32 * d + c)
  let spares := (List.range 32).filter fun c => !cs.contains c && !(core c).degraded && (core c).team.isNone
  let (m, fixed) := mendCores (fun c => (core c).degraded && (core c).team.isNone) cs spares
  if m = cs || s.svc.golden then (s, [])
  else (s.mapChanged { s with svc := { s.svc with coreMap := Tbl.set none s.svc.coreMap d (some m) } }, fixed.map (32 * d + ·))

/-- Degraded cores of dies give way to spares; the cores replaced. (DEDUCED, log 60.) -/
def State.mendDies (s : State) (dies : List Nat) : State × List Nat :=
  dies.foldl (fun (x : State × List Nat) d => let (s', f) := x.1.mendDie d; (s', x.2 ++ f)) (s, [])

/-! ### PARTITION (R318) -/

/-- The dies of a partition of a level in a slot; none where the slot does not fit the level. -/
def diesFor (level slot : Nat) : Option (List Nat) :=
  match level with
  | 0 => if slot = 0 then some (List.range 8) else none
  | 1 => if slot = 0 || slot = 4 then some ((List.range 4).map (slot + ·)) else none
  | 2 => if slot < 8 && slot % 2 = 0 then some [slot, slot + 1] else none
  | 3 => if slot < 8 then some [slot] else none
  | _ => none

/-- The operands W2 to W6 lie in their ranges. -/
def poolsOk (r : CmdRec) : Bool :=
  let flags := r.w3.toNat
  let save := r.w5.toNat
  let bytes := (r.w6.extractLsb' 32 32).toNat * 2 ^ 20
  r.w2.toNat < 2 ^ 48 && flags % 8 = 0 && (flags = 0 || (inHbm flags && inHbm (flags + 511))) &&
    r.w4.toNat % 65536 = 0 && r.w4.toNat < 2 ^ 52 && save % 4096 = 0 && inHbm save && (bytes = 0 || inHbm (save + bytes - 1))

/-- A core with no supervisor segment and no translation. -/
def Core.forget (c : Core) : Core := { c with sup := {}, tlb := [] }

/-- The partition is made: slots on its dies that it replaces hold none, its SUPVEC stands, degraded cores give way to spares, and
nothing of the old page tables remains in its TLBs. (DEDUCED, log 60.) -/
def State.makePartition (s : State) (level slot : Nat) (dies : List Nat) (r : CmdRec) : State :=
  let clear := (List.range 8).filter fun p => (s.part p).state != 0 && (s.diesOf p).any dies.contains
  let s := clear.foldl (fun (s : State) p => s.setPart p { supvec := (s.part p).supvec }) s
  let s := s.setPart slot { level := level, state := 1, w2 := r.w2, w3 := r.w3, w4 := r.w4, w5 := r.w5, w6 := r.w6,
                            supvec := (s.part slot).supvec }
  let s := dies.foldl (fun (s : State) d =>
    let s := s.setDie d { s.die d with tlb := [] }
    (List.range 32).foldl (fun (s : State) c => s.setCore (32 * d + c) (s.core (32 * d + c)).forget) s) s
  (s.mendDies dies).1

/-- PARTITION. -/
def execPartition (s : State) : Host.Outcome State Fault Refusal :=
  commanded 8 7 (fun r s => match diesFor r.w0.toNat r.w1.toNat with
    | none => answer r stBadCommand 0 s
    | some dies =>
      if !poolsOk r then answer r stBadCommand 0 s
      else if s.holdsLaunch dies then answer r stBusy 0 s
      else answer r stOk 0 (s.makePartition r.w0.toNat r.w1.toNat dies r)) s

/-! ### SELFTEST (R390) -/

/-- SELFTEST: the record is answered when the test ends. -/
def execSelftest (s : State) : Host.Outcome State Fault Refusal :=
  commanded 9 1 (fun r s =>
    let p := r.w0.toNat
    if 7 < p || (s.part p).state = 0 then answer r stBadCommand 0 s
    else if s.holdsLaunch (s.diesOf p) then answer r stBusy 0 s
    else .next { s with svc := { s.svc with selftests := s.svc.selftests ++ [(p, r)] } }) s

/-- Fields of UNIT (R341). -/
def unitDie (u : Nat) : Nat := u / 2 ^ 28
def unitDunit (u : Nat) : Nat := u / 2 ^ 21 % 128
def unitCunit (u : Nat) : Nat := u / 2 ^ 17 % 16
def unitLane (u : Nat) : Nat := u / 2 ^ 10 % 128

/-- A unit of a core. -/
def isCoreUnit (u : Nat) : Bool := unitDunit u < 32
/-- A lane of a core: l0 to l32 of pipe 0, l33 to l65 of pipe 1 (Table 1.4). -/
def isLaneUnit (u : Nat) : Bool := isCoreUnit u && unitCunit u = 2 && unitLane u < 66
/-- The core of a core unit. -/
def unitCore (u : Nat) : Nat := 32 * unitDie u + unitDunit u

/-- Pipe `k` of a core replaced. -/
def Core.setPipe (c : Core) (k : Nat) (p : Pipe) : Core := { c with pipes := Tbl.set {} c.pipes k p }
/-- Pipe `k` of a core. -/
def Core.pipe (c : Core) (k : Nat) : Pipe := Tbl.get {} c.pipes k

/-- The pipe without the marks and the events of a lane. -/
def Pipe.settled (p : Pipe) (lane : Nat) : Pipe :=
  { p with failing := p.failing.filter (· != lane), events := p.events.filter fun e => e.1 != lane }

/-- A failing unit is taken out of use: a lane by its pipe's spare lane, unless the golden image runs (R382), else the core by being
marked degraded. A unit of a die stays as it is. (DEDUCED, log 60.) -/
def State.retire (s : State) (u : Nat) : State :=
  if !isCoreUnit u then s
  else
    let c := s.core (unitCore u)
    let k := unitLane u / 33
    let lane := unitLane u % 33
    if isLaneUnit u then
      if (c.pipe k).spareFor = some lane then s
      else if lane < 32 && (c.pipe k).spareFor.isNone && !s.svc.golden then
        s.mapChanged (s.setCore (unitCore u) (c.setPipe k { (c.pipe k).settled lane with spareFor := some lane }))
      else if lane = 32 && (c.pipe k).spareFor.isNone then s
      else s.setCore (unitCore u) { c with degraded := true }
    else s.setCore (unitCore u) { c with degraded := true }

/-- A failing unit has been repaired by spares: its core is one of those replaced, or it is a lane that the spare stands for on a core
that is not degraded. (DEDUCED, log 60.) -/
def State.repaired (s : State) (fixed : List Nat) (u : Nat) : Bool :=
  isCoreUnit u && (fixed.contains (unitCore u) ||
    (isLaneUnit u && !(s.core (unitCore u)).degraded &&
      ((s.core (unitCore u)).pipe (unitLane u / 33)).spareFor == some (unitLane u % 33)))

/-- A view whose listed regions hold free contents from now on. -/
def View.renew (v : View) (regions : List Nat) (g : Nat) : View :=
  let keep := fun (a : Nat) => match baseRegion a with
    | some r => !regions.contains r
    | none => true
  { bytes := v.bytes.filter fun e => keep e.1, poison := v.poison.filter fun e => keep e.1,
    keys := v.keys.filter fun e => keep (4 * e.1)
    base := regions.foldl (fun t r => Tbl.set 0 t r g) v.base }

/-- The Casks of dies, as regions. -/
def caskRegions (dies : List Nat) : List Nat := dies.flatMap fun d => (List.range 32).map (16 + 32 * d + ·)

/-- The HBM and the Casks of dies become undefined, for every observer (R5). (DESIGN CHOICE, log 2.) -/
def State.loseContents (s : State) (dies : List Nat) : State :=
  let g := s.fresh + 1
  let s := allDies.foldl State.catchUp (s.catchUp fabricAgent)
  let s := s.mapViews (·.renew dies g)
  { s with casks := s.casks.renew (caskRegions dies) g, fresh := g,
           latent := s.latent.filter fun e => match baseRegion e.1 with
             | some r => !dies.contains r
             | none => true }

/-- Where a unit stands in the order of the test: a core's lanes first, then its units in the order of Table 1.4, then the units of the
die; the dies are tested together (R390). (DEDUCED, log 60.) -/
def testOrder (u : Nat) : Nat :=
  (unitDunit u * 256 + (if isLaneUnit u then unitLane u else if isCoreUnit u then 128 + unitCunit u else 0)) * 16 + unitDie u

/-- SELFTEST_COMPLETE: the test of partition `ev.idx` found the units of `ev.failing`; each has a record, what spares can repair is
repaired, and the command is answered. (DEDUCED, log 60.) -/
def execSelftestComplete (s : State) : Host.Outcome State Fault Refusal :=
  match s.svc.selftests.find? (·.1 == s.ev.idx) with
  | none => .next s
  | some (p, r) =>
    let dies := s.diesOf p
    let units := sortBy (fun a b => testOrder a ≤ testOrder b)
      ((s.ev.failing.map (·.toNat)).filter fun u => dies.contains (unitDie u)).eraseDups
    let s := { s with svc := { s.svc with selftests := s.svc.selftests.erase (p, r) } }
    let s := units.foldl (fun (s : State) u => (s.record (unitDie u) { cls := 6, sev := 0, unit := u }).retire u) s
    let (s, fixed) := s.mendDies dies
    let found := units.length
    let mended := (units.filter (s.repaired fixed)).length
    let value := found % 2 ^ 16 + mended % 2 ^ 16 * 2 ^ 16 + (found - mended) % 2 ^ 16 * 2 ^ 32
    answer r stOk (BitVec.ofNat 64 value) (s.loseContents dies)

/-! ### ATTEST (R320) -/

/-- The digest as one value, its first byte highest. -/
def Sm3.value (v : Sm3) : BitVec 256 := v.a ++ v.b ++ v.c ++ v.d ++ v.e ++ v.f ++ v.g ++ v.h

/-- The firmware image that runs (R321). -/
def Service.running (v : Service) : List Byte := if v.golden then Config.goldenImage else v.firmware.getD Config.firstImage

/-- The configuration record (Table 1.6, R382). -/
def State.configuration (s : State) : Config.Record :=
  let m := s.spareMap
  ⟨m.cores, m.lanes, m.rows, s.svc.lastTerm, s.svc.ownerKeys, s.svc.defaults⟩

/-- The first 160 bytes of the report: nonce, identity key, digests of the firmware image and of the configuration record; values lie
little-endian (R3), and a digest as its 32 bytes. (DESIGN CHOICE, log 61.) -/
def State.attested (s : State) (r : CmdRec) : List Byte :=
  ([r.w0, r.w1, r.w2, r.w3].flatMap fun w => bytesOf 8 w.toNat) ++ bytesOf 64 (Config.identityKey 0).toNat ++
    sm3Bytes s.svc.running ++ sm3Bytes (Config.recordBytes s.configuration)

/-- ATTEST: the report, with the signature over the digest of its first fields, goes to the slot's data buffer. -/
def execAttest (s : State) : Host.Outcome State Fault Refusal :=
  commanded 0xA 4 (fun r s =>
    let body := s.attested r
    let sig := Config.identitySign (sm3 body).value
    answer r stOk 0 (s.fillData r.port r.slot 0 (body ++ bytesOf 32 sig.1.toNat ++ bytesOf 32 sig.2.toNat))) s

end Sys2Proof.Machine
end

