-- ==== Sys2Proof/Machine/Drain.lean ====
section
/-! DEFINITION. The power-fail drain, module reset, boot, and the lanes of ports (23_integrity R388, R391; 05 R114; 17 R330;
15_host_and_fabric R315, R321, R324, R325, R327). -/

namespace Sys2Proof.Machine

/-! ### The drain (R114, R330, R388) -/

/-- The stamped Cellar stores below the mark of their domain become visible and durable, least first; `k` bounds them. -/
def State.settleStamps (s : State) : Nat → State
  | 0 => s
  | k + 1 => match ({ s with stampq := s.stampq.filter fun e => inCellar e.pa } : State).dueStamped with
    | none => s
    | some e => (({ s with stampq := s.stampq.erase e } : State).applyStamped e).settleStamps k

/-- The entries of a launch by logical hart: all ones that its admitted teams hold, and for the rest that nothing has started.
(DEDUCED, log 62.) -/
def State.launchEntries (s : State) (li : Nat) (l : Launch) : List (Nat × Nat × HartEntry) :=
  (List.range (l.nteams * l.teamSize)).map fun i =>
    let hd := l.head.getD li
    (l.kid, i, match s.launch hd with
      | some h =>
        if 1 < h.chain.length then s.stageEntry li l hd h i
        else match (s.allTeams li).find? fun t => t.ix = i / l.teamSize with
          | some t => s.teamEntry t (i % l.teamSize)
          | none => entryOf none
      | none => l.last.getD i (entryOf none))

/-- The launches of a partition with an admitted team, by kernel id; the stages of a splice share its teams, each until it has completed
itself. -/
def State.recorded (s : State) (p : Nat) : List (Nat × Launch) :=
  sortBy (fun a b => a.2.kid ≤ b.2.kid) ((launchesOf s p).filter fun e => match s.launch (e.2.head.getD e.1) with
    | some h => 0 < h.nextTeam
    | none => e.2.last != [])

/-- First byte of the Recovery Page of a partition slot (R68). -/
def recoveryPage (p : Nat) : Nat := recoveryBase + p * 0x10000

/-- The drain generation of a Recovery Page, as the media hold it. -/
def View.generation (v : View) (p : Nat) : Nat := valueOf (v.peek (recoveryPage p + 8) 8)

/-- The bytes of a Recovery Page: header and entries (Table 17.4). -/
def pageBytesOf (gen f : Nat) (es : List (Nat × Nat × HartEntry)) : List PByte :=
  field 2 1 ++ field 2 es.length ++ field 4 0 ++ field 8 gen ++ field 8 f ++ field 40 0 ++
    es.flatMap fun e => field 4 e.1 ++ field 4 e.2.1 ++ field 8 e.2.2.1 ++ field 8 e.2.2.2.1 ++ field 8 e.2.2.2.2

/-- The drain controller writes the Recovery Page of partition `p`; `f` is the cut. (DEDUCED, log 62.) -/
def State.writeRecovery (s : State) (f p : Nat) : State :=
  let es := ((s.recorded p).flatMap fun e => s.launchEntries e.1 e.2).take 2046
  let bs := pageBytesOf ((s.media.generation p + 1) % 2 ^ 64) f es
  let s := (s.mergeErrors (homeOf (recoveryPage p)) (recoveryPage p) bs.length {}).coverUnits (recoveryPage p) bs.length
  s.pokeMedia (recoveryPage p) bs

/-- Slots that hold a partition. -/
def State.slotsInUse (s : State) : List Nat := (List.range 8).filter fun p => (s.part p).state != 0

/-- The drain: stamped Cellar stores below the cut are settled, the `pbar` instructions of what is durable are counted, every other store
that is not durable is lost, and the Recovery Pages are written. The Cellar's media hold what survives. (DEDUCED, log 62.) -/
def State.drain (s : State) : State :=
  let s := (s.settleStamps s.stampq.length).settlePbars
  let s := { s with cellarPend := [], stampq := [] }
  let s := s.slotsInUse.foldl (fun s p => s.writeRecovery s.packageMark p) s
  { s with svc := { s.svc with drained := some (s.slotsInUse.foldl (fun g p => max g (s.media.generation p)) 0) } }

/-! ### Module reset (R5, R6, R315, R382, R391) -/

/-- A core after reset: the spare map and the marks of degraded cores stand. -/
def Core.afterReset (c : Core) : Core :=
  { pipes := (c.pipes.filter fun e => e.2.spareFor.isSome).map fun e => (e.1, { spareFor := e.2.spareFor }), degraded := c.degraded }

/-- What a die sees of memory after reset: the Cellar's media and the peers' memory, and free contents of HBM.
(DESIGN CHOICE, log 2.) -/
def State.viewAfterReset (s : State) (g : Nat) : View :=
  let far := fun (a : Nat) => decide (0x800000000000 ≤ a)
  { bytes := (s.media.bytes.filter fun e => !far e.1) ++ s.peers.bytes.filter fun e => far e.1,
    poison := (s.media.poison.filter fun e => !far e.1) ++ s.peers.poison.filter fun e => far e.1,
    base := allDies.foldl (fun t d => Tbl.set 0 t d g) [] }

/-- The module after a reset that follows a drain: what lies outside it goes on (its schedule, time, the peers' memory, uses of free
values), the Cellar's media with the errors in them, the flash of the service die, and rows that have been remapped. Records that had no
response yet are answered BUSY, since none may be dropped without one (R313). (DEDUCED, log 62.) -/
def State.afterReset (s : State) : State :=
  let g := s.fresh + 1
  let v := s.viewAfterReset g
  let open_ := s.cmdq ++ s.svc.writes ++ s.svc.selftests.map (·.2)
  open_.foldl (fun (s : State) r => s.respond r stBusy 0) { State.reset with
    cur := s.cur, agenda := s.agenda, ev := s.ev, cmd := s.cmd, fresh := g, now := s.now
    cores := (s.cores.map fun e => (e.1, e.2.afterReset)).filter fun e => e.2 != {}
    dies := (List.range 8).map fun d => (d, { view := v })
    peers := v
    casks := { base := (caskRegions allDies).foldl (fun t r => Tbl.set 0 t r g) [] }
    media := s.media
    latent := s.latent.filter fun e => inCellar e.1
    svc := { term := s.svc.lastTerm, lastTerm := s.svc.lastTerm, drained := s.svc.drained, coreMap := s.svc.coreMap,
             mapVersion := s.svc.mapVersion, lastMap := s.svc.lastMap, firmware := s.svc.firmware,
             ownerKeys := s.svc.ownerKeys, defaults := s.svc.defaults }
    spare := { remapped := s.spare.remapped } }

/-- POWER_FAIL_DRAIN: the input falls below 40 V; the module is reset when it is powered again. -/
def execPowerFailDrain (s : State) : Host.Outcome State Fault Refusal :=
  if s.svc.powered then
    let s := s.drain.afterReset
    .next { s with svc := { s.svc with powered := false } }
  else .next s

/-- RECOVER: the drain, then a module reset, which boots the golden image. No completion flag is written. (DEDUCED, log 62.) -/
def execRecover (s : State) : Host.Outcome State Fault Refusal :=
  commanded 0xB 0 (fun r s =>
    let s := s.drain.afterReset
    answer r stOk 0 { s with svc := { s.svc with golden := true } }) s

/-- WRITE. The golden image reboots into a signed firmware image without a drain, so that the Recovery Pages stand (R321, R391). -/
def execWrite (s : State) : Host.Outcome State Fault Refusal := commanded 3 2 (writeWith State.afterReset) s

/-- The configuration record as the boot ROM takes it: a spare map that fails its HMAC (`ev.badMap`) gives way to the last copy before it,
and an owner-term section that does (`ev.badTerm`) to its last verifying copy with the term raised by one (R382). -/
def State.takeRecord (s : State) : State :=
  let s := if s.ev.badMap then s.loadMap s.svc.lastMap else s
  if s.ev.badTerm then { s with svc := { s.svc with term := s.svc.term + 1, lastTerm := s.svc.lastTerm + 1 } } else s

/-- BOOT: the boot ROM boots the firmware partition where its signature verifies against the vendor key (`ev.good`) or a key that
is enrolled then, else, or under the recovery strap (`ev.strap`) or after RECOVER, the golden image. After a drain the event queue carries
DRAIN_DONE. (DEDUCED, log 63.) -/
def execBoot (s : State) : Host.Outcome State Fault Refusal :=
  if s.svc.booted then .next s
  else
    let verified := s.ev.good || s.svc.ownerSigned (s.svc.firmware.getD Config.firstImage)
    let s := s.takeRecord
    let s := { s with svc := { s.svc with booted := true, powered := true, golden := s.svc.golden || s.ev.strap || !verified } }
    .next (match s.svc.drained with
      | some g => ({ s with svc := { s.svc with drained := none } }).raiseEvent 0 evDrainDone 0xFF g
      | none => s)

/-- PORT_NO_ACTIVE_LANE: port `ev.port` has had no active lane for 100 ms: it is unbound, and the owner lapses with its last port.
(DEDUCED, log 59.) -/
def execPortNoActiveLane (s : State) : Host.Outcome State Fault Refusal :=
  let p := s.port s.ev.port
  let s := s.setPort s.ev.port { p with bound := none }
  .next (if p.bound.isSome && s.svc.owner == p.bound && !s.ports.any (·.2.bound == p.bound) then
    { s with svc := { s.svc with owner := none } } else s)

end Sys2Proof.Machine
end

