-- ==== Sys2Proof/Machine/Packets.lean ====
section
/-! DEFINITION. Reduction packets of major 0x21 (11_memory R240-R243; 25_program_reduction R397, R398). -/

namespace Sys2Proof.Machine

/-- The descriptor of Table 11.5. -/
structure RpDesc where
  grp : Nat
  rank : Nat
  n : Nat
  /-- Root time-out in µs. -/
  tmo : Nat
  deriving DecidableEq, Repr

/-- The fields of a descriptor; a time-out of 0 means 50 µs. -/
def rpDescOf (d : Word) : RpDesc :=
  let tmo := (d.extractLsb' 24 16).toNat
  { grp := (d.extractLsb' 0 8).toNat, rank := (d.extractLsb' 8 8).toNat, n := (d.extractLsb' 16 8).toNat,
    tmo := if tmo = 0 then 50 else tmo }

/-- The group descriptor of an instruction, refused outside R240. -/
def readRpDesc (o : FM) : M RpDesc := do
  let d ← rdA o.base
  let r := rpDescOf d
  if d.extractLsb' 40 24 != 0 || r.n < 2 || 32 < r.n || r.n ≤ r.rank then illegal 0x402
  return r

/-- The operation and the tree shape of a packet instruction. -/
def rpOp (o : FM) : Nat := (o.x.extractLsb' 0 3).toNat
def rpTree (o : FM) : Nat := (o.seg.extractLsb' 0 1).toNat

/-- What the first packet of a round fixes (R397). -/
def rpFix (o : FM) (d : RpDesc) (vl : Nat) : RpFixed := ⟨d.n, rpOp o, o.mt.toNat, rpTree o, vl⟩

/-- Round(MT, Elem(vs, e), RNE) (R241); a packet is no register and has no saturation bit: the conversion takes 0 for it.
(DESIGN CHOICE, log 75.) -/
def packetElem (h : Hart) (mt : BitVec 5) (v e : Nat) : Nat × Flags :=
  let t := (h.vreg (h.rot v)).tag
  if t = mt then (h.elem (h.rot v) e, 0)
  else
    let x := VSrc.val h e (.reg v)
    let (p, f) := convert mt false .rne x
    (p, f ||| x.x.snan)

/-- The packet of an instruction, its elements below vl and the flags of its rounding: the first element that carries poison or
raises an enabled flag traps (R199, R241), unless `sr.vstart` leaves none (R367). -/
def packetFrom (o : FM) (h : Hart) : List Nat → M (List Word × Flags)
  | [] => pure ([], 0)
  | e :: es => do
    let (x, f) ← if (h.maskOf o.msk).getLsbD e then do
        let left : Bool := h.start < h.vlen
        match firstPoison h [.reg o.v.toNat] e with
        | some t => if left then throw (.trap .poisonConsumed t 0)
        | none => pure ()
        let (x, f) := packetElem h o.mt o.v.toNat e
        if left && f &&& h.en != 0 then throw (.trap .fpTrap (f.setWidth 64) 0)
        pure (x, f)
      else pure (identityOf (RedOp.ofCode (rpOp o)) o.mt, 0)
    let (xs, g) ← packetFrom o h es
    return (BitVec.ofNat 64 x :: xs, f ||| g)

/-- The group of a descriptor on the running hart's die: one held by another launch is refused (R397), and one in which nobody has sent
is free (R398). (DEDUCED, log 32.) -/
def readGroup (d : RpDesc) : M RGroup := do
  let s ← get
  let li := s.keyLaunch s.cur
  match Tbl.get none (s.die (dieOf s.cur)).groups d.grp with
  | none => return { launch := li }
  | some g =>
    if g.launch = li then return g
    else if g.owned then illegal 0x402
    else return { launch := li }

/-- The group replaced. -/
def writeGroup (d : RpDesc) (g : RGroup) : M Unit := modify fun s =>
  let x := dieOf s.cur
  s.setDie x { s.die x with groups := Tbl.set none (s.die x).groups d.grp (some g) }

/-- Open rounds of a die (R397). -/
def Die.openRounds (d : Die) : Nat :=
  (d.groups.filter fun e => match e.2 with
    | some g => g.fixed.isSome
    | none => false).length

/-- A packet is accepted into its round, discarded when its round was abandoned, refused, or must wait (R241, R242, R397).
(DEDUCED, log 32.) -/
def acceptPacket (o : FM) (d : RpDesc) (g : RGroup) (fix : RpFixed) (packet : List Word) : M Unit := do
  let sent := Tbl.get 0 g.sent d.rank
  let g' := { g with owned := true, sent := Tbl.set 0 g.sent d.rank (sent + 1) }
  if sent < g.round then writeGroup d g'
  else if g.round < sent then throw (.wait (.rpSend o))
  else
    match g.fixed with
    | some f => if f = fix then pure () else illegal 0x402
    | none => do
      let s ← get
      if 64 ≤ (s.die (dieOf s.cur)).openRounds then throw (.wait (.rpSend o)) else pure ()
    writeGroup d { g' with fixed := some fix, packets := Tbl.set [] g.packets d.rank packet }

/-- The pair rule for the register of a packet instruction, for one with elements to move (R31, R367). -/
def packetReg (v : Nat) (h : Hart) : M Unit :=
  raiseIf (h.start < h.vlen && h.isPairHigh (h.rot v)) .tagMismatch (BitVec.ofNat 64 v)

/-- `rp.send`: performed whole when the router accepts the packet. -/
def rpSendLook (o : FM) : M Unit := do
  let d ← readRpDesc o
  let h ← myHart
  let g ← readGroup d
  let fix := rpFix o d h.vlen
  match g.fixed with
  | some f => if f != fix && Tbl.get 0 g.sent d.rank = g.round then illegal 0x402
  | none => pure ()
  packetReg o.v.toNat h
  let (packet, fl) ← packetFrom o h (List.range h.vlen)
  acceptPacket o d g fix packet
  modifyHart (·.addFlags fl)
  advance

def execRpSend (o : FM) (s : State) : Host.Outcome State Fault Refusal := runIn unitAp false (rpSendLook o) s

/-- The router can take the packet now. -/
def execRpAccept (s : State) : Host.Outcome State Fault Refusal :=
  let n := s.ev.hart
  match (s.hart n).wait with
  | some (.rpSend o) => s.tryAgain n (.rpSend o) (rpSendLook o)
  | _ => .next s

/-! ### The root (R241, R242) -/

/-- The nodes of one element over the packets in rank order: pairwise levels, or the chain (R241). -/
def combineElem (f : RpFixed) (xs : List Nat) : Nat × Flags :=
  let node := nodeOp (RedOp.ofCode f.op) (BitVec.ofNat 5 f.mt) .rne
  if f.tree = 0 then treeReduce node 5 xs 0
  else match xs with
    | [] => (0, 0)
    | x :: rest => rest.foldl (fun r y => let (z, g) := node r.1 y; (z, r.2 ||| g)) (x, 0)

/-- Element `e` of a round's result, with the flags of its nodes. -/
def roundElem (g : RGroup) (f : RpFixed) (e : Nat) : Nat × Flags :=
  combineElem f ((List.range f.n).map fun r => ((Tbl.get [] g.packets r).getD e 0).toNat)

/-- Every rank below N has sent its packet of the open round. -/
def RGroup.complete (g : RGroup) (n : Nat) : Bool := (List.range n).all fun r => g.round < Tbl.get 0 g.sent r

/-- The group after its round has ended. (DEDUCED, log 32.) -/
def RGroup.ended (g : RGroup) : RGroup := { g with round := g.round + 1, fixed := none, packets := [] }

/-- `rp.recv` once its round's result is there: the loop of R195 into vd, then the round ends. (DEDUCED, log 32.) -/
def rpRecvLook (o : FM) (start : Nat) : M Unit := do
  let d ← readRpDesc o
  if d.rank != 0 then illegal 0x402
  let g ← readGroup d
  let h ← myHart
  match g.fixed with
  | none =>
    packetReg o.v.toNat h
    throw (.wait (.rpRecv start o))
  | some f =>
    if f != rpFix o d h.vlen then illegal 0x402
    packetReg o.v.toNat h
    if !g.complete d.n then throw (.wait (.rpRecv start o))
    spoiling o.v.toNat h.start h.vlen (h.maskOf o.msk).getLsbD
      (elemLoop 0 (h.maskOf o.msk) false h.start h.vlen (fun h e =>
        let (x, fl) := roundElem g f e
        let v := readAs o.mt x
        intoReg h o.v.toNat v (fl ||| v.x.snan)) (writeReg o.v.toNat))
    writeGroup d g.ended
  advance

def execRpRecv (o : FM) (s : State) : Host.Outcome State Fault Refusal :=
  runIn unitAp false (rpRecvLook o s.now) s

/-- The result of the round is complete. -/
def execRpResult (s : State) : Host.Outcome State Fault Refusal :=
  let n := s.ev.hart
  match (s.hart n).wait with
  | some (.rpRecv start o) => s.tryAgain n (.rpRecv start o) (rpRecvLook o start)
  | _ => .next s

/-- Ranks below N whose packet of the open round is missing, rank r in bit r (R242). -/
def RGroup.missing (g : RGroup) (n : Nat) : Word :=
  (List.range n).foldl (fun (m : Word) r => if Tbl.get 0 g.sent r ≤ g.round then m ||| (1#64 <<< r) else m) 0

/-- The root's time is over: RP_TIMEOUT, the round abandoned (R242). (DEDUCED, log 32.) -/
def rpGiveUp (o : FM) : M Unit := do
  let d ← readRpDesc o
  let g ← readGroup d
  writeGroup d g.ended
  raise .rpTimeout (g.missing d.n)

def execRpTimeout (s : State) : Host.Outcome State Fault Refusal :=
  let n := s.ev.hart
  match (s.hart n).wait with
  | some (.rpRecv start o) =>
    let d := rpDescOf ((s.hart n).aReg o.base.toNat)
    let done := match Tbl.get none (s.die (dieOf n)).groups d.grp with
      | some g => g.complete d.n
      | none => false
    if start + d.tmo * 1000 * nsTicks ≤ s.now && !done then s.tryAgain n (.rpRecv start o) (rpGiveUp o) else .next s
  | _ => .next s

end Sys2Proof.Machine
end

