-- ==== Sys2Proof/Machine/Paired.lean ====
section
/-! DEFINITION. Paired words (08_encoding R161-R164; 22 R371): two EP slots, or an AP slot and an EP slot, as one instruction. -/

namespace Sys2Proof.Machine

/-- An EP slot ready to run: destination, mask, class, sources, and the result of an element (Table 8.5). -/
structure EpWork where
  d : Nat
  msk : BitVec 4
  cls : OpClass
  ss : List VSrc
  res : Hart → Nat → ElemResult

/-- A slot of two sources, d and a. -/
def ep2 (c : OpClass) (s : EpArgs) (f : Nat → List VSrc → Hart → Nat → ElemResult) : EpWork :=
  let ss := [VSrc.reg s.d.toNat, .reg s.a.toNat]
  ⟨s.d.toNat, s.msk, c, ss, withSources ss (f s.d.toNat ss)⟩

/-- A slot of one source, a. -/
def ep1 (c : OpClass) (s : EpArgs) (f : Nat → List VSrc → Hart → Nat → ElemResult) : EpWork :=
  let ss := [VSrc.reg s.a.toNat]
  ⟨s.d.toNat, s.msk, c, ss, withSources ss (f s.d.toNat ss)⟩

/-- a + IMM, IMM from −16 to 15. -/
def addImm (imm : BitVec 5) (d : Nat) (ss : List VSrc) (h : Hart) (e : Nat) : ElemResult :=
  match valsOf h e ss with
  | [a] => valueResult d [a] (addE h.rm a.x (Exact.ofInt imm.toInt)) h
  | _ => .ok (0, 0)

/-- A shift of a by IMM mod w. -/
def shiftImm (f : Nat → Nat → Nat → Nat) (imm : BitVec 5) (_ : Nat) : List VSrc → Hart → Nat → ElemResult :=
  opBits fun w a _ => f w a imm.toNat

/-- What an OP of Table 8.5 does; none for an OP that no word holds. -/
def epWork (op : BitVec 6) (s : EpArgs) : Option EpWork :=
  match op.toNat with
  | 0x00 => some (ep2 .n s (op2 addOp))
  | 0x01 => some (ep2 .n s (op2 subOp))
  | 0x02 => some (ep2 .n s (op2 mulOp))
  | 0x03 => some (ep2 .n s (op2 minOp))
  | 0x04 => some (ep2 .n s (op2 maxOp))
  | 0x05 => some (ep2 .w s (fun _ => opBits andOp))
  | 0x06 => some (ep2 .w s (fun _ => opBits orOp))
  | 0x07 => some (ep2 .w s (fun _ => opBits xorOp))
  | 0x08 => some (ep1 .w s (fun _ => opBits movOp))
  | 0x09 => some (ep1 .n s (op1 sameOp))
  | 0x0A => some (ep1 .s s (shiftImm sllOp s.imm))
  | 0x0B => some (ep1 .s s (shiftImm srlOp s.imm))
  | 0x0C => some (ep1 .s s (shiftImm sraOp s.imm))
  | 0x0D => some (ep1 .n s (op1 negOp))
  | 0x0E => some (ep1 .n s (op1 absOp))
  | 0x10 => some (ep1 .n s (addImm s.imm))
  | _ => none

/-- The registers that a slot names, D first. -/
def slotRegs (s : EpArgs) : List Nat := [s.d.toNat, s.a.toNat]

/-- The first register of an EP+EP word that lies in a wrong bank (R163). (DEDUCED, log 45.) -/
def pairBank (s : EpArgs) (p : EpSlot) : Option Nat :=
  ((slotRegs s).find? fun n => 2 ≤ n % 4) <|> (slotRegs p.args).find? fun n => n % 4 < 2

/-- The result of one slot for element `e`: none where its mask leaves the element alone. -/
def EpWork.at (w : EpWork) (h : Hart) (e : Nat) : Option ElemResult :=
  if (h.maskOf w.msk).getLsbD e then some (w.res h e) else none

/-- The flags that a result raises. -/
def flagsOf : Option ElemResult → Flags
  | some (.ok (_, f)) => f
  | _ => 0

/-- The cause of a result that is one. -/
def causeOf : Option ElemResult → Option (Cause × Word)
  | some (.error c) => some c
  | _ => none

/-- A result written. -/
def EpWork.put (w : EpWork) (e : Nat) (r : Option ElemResult) (h : Hart) : Hart := match r with
  | some (.ok (x, _)) => writeReg w.d e x h
  | _ => h

/-- `sr.tval` of FP_TRAP of a paired word (R164): slot 1 of an AP+EP word is its EP slot. -/
def pairTval (en f0 f1 : Flags) : Word :=
  (f0 ||| f1).setWidth 64 ||| (if f0 &&& en != 0 then 0x100 else 0) ||| (if f1 &&& en != 0 then 0x200 else 0)

/-- Whether the slot that runs on pipe `k` is active at element `e`: the slots of an EP+EP word run on the two pipes, slot 0 on pipe 0,
and the EP slot of an AP+EP word on its hart's own. -/
def activeOn (n : Nat) (w0 : Option EpWork) (w1 : EpWork) (k : Nat) (h : Hart) (e : Nat) : Bool := match w0 with
  | some w => if k = 0 then (h.maskOf w.msk).getLsbD e else (h.maskOf w1.msk).getLsbD e
  | none => k == ownPipe n && (h.maskOf w1.msk).getLsbD e

/-- The pipes that a paired word runs on. (DESIGN CHOICE, log 11.) -/
def pipesOf (w0 : Option EpWork) (n : Nat) : List Nat := if w0.isSome then [0, 1] else [ownPipe n]

/-- Element `e` of a paired word, both slots read before either writes (R163, R164); `lowest` says whether a lane error is found, at this
element. (DEDUCED, log 45.) -/
def pairElem (w0 : Option EpWork) (w1 : EpWork) (lowest : Bool) (e : Nat) : M Unit := do
  mayCutGroup e
  let h ← myHart
  let r0 := w0.bind (·.at h e)
  let r1 := w1.at h e
  match causeOf r0 <|> causeOf r1 with
  | some (c, t) => throw (.trap c t e)
  | none => do
    taste lowest e
    let h ← myHart
    if (flagsOf r0 ||| flagsOf r1) &&& h.en != 0 then
      throw (.trap .fpTrap (pairTval h.en (flagsOf r0) (flagsOf r1)) e)
    modifyHart fun h =>
      let h := match w0 with
        | some w => w.put e r0 h
        | none => h
      (w1.put e r1 h).addFlags (flagsOf r0 ||| flagsOf r1)

/-- The EP's part of a paired word: tags, and the elements below vl. -/
def pairLoop (w0 : Option EpWork) (w1 : EpWork) : M Unit := do
  epRoom
  tagCheck fun h => (match w0 with
    | some w => w.cls.faults h w.d w.ss
    | none => []) ++ w1.cls.faults h w1.d w1.ss
  let h ← myHart
  let n ← me
  let hit ← found fun k => (span h.start h.vlen).filter (activeOn n w0 w1 k h)
  let k := (h.laneErr.map (·.1)).getD 0
  let spoil := fun (w : EpWork) => spoiling w.d h.start h.vlen (h.maskOf w.msk).getLsbD
  let both := forEach (span h.start h.vlen) fun e =>
    pairElem w0 w1 (hit && activeOn n w0 w1 k h e && !((span h.start e).any fun i => i % 32 == e % 32 && activeOn n w0 w1 k h i)) e
  spoil w1 (match w0 with
    | some w => spoil w both
    | none => both)
  epSent
  modify fun s => s.tasted (pipesOf w0 s.cur)

/-- An EP+EP word: the bank rule, then both slots. -/
def epPair (op : BitVec 6) (s : EpArgs) (p : EpSlot) : State → Host.Outcome State Fault Refusal :=
  ep (do
    match pairBank s p with
    | some n => raise .pairBank (BitVec.ofNat 64 n)
    | none => pure ()
    match epWork op s, epWork p.op p.args with
    | some w0, some w1 => pairLoop (some w0) w1
    | _, _ => illegal 0x401
    advance)

/-- An AP+EP word: the EP slot's elements, then the AP slot, which never traps (R162, R164). (DEDUCED, log 45.) -/
def apPair (f : Hart → Word) (s : ApArgs) (p : EpSlot) : State → Host.Outcome State Fault Refusal :=
  ep (do
    let x := f (← myHart)
    match epWork p.op p.args with
    | some w => pairLoop none w
    | none => illegal 0x411
    wrA s.d x
    advance)

/-- A slot 0 of an AP+EP word with two sources, d and a. -/
def apTwo (f : Word → Word → Word) (s : ApArgs) (p : EpSlot) : State → Host.Outcome State Fault Refusal :=
  apPair (fun h => f (h.aReg s.d.toNat) (h.aReg s.a.toNat)) s p

/-- A slot 0 of an AP+EP word with a and IMM. -/
def apImm (f : Word → BitVec 13 → Word) (s : ApArgs) (p : EpSlot) : State → Host.Outcome State Fault Refusal :=
  apPair (fun h => f (h.aReg s.a.toNat) s.imm) s p

def execEpSlotVadd (s : EpArgs) (p : EpSlot) (x : State) : Host.Outcome State Fault Refusal := epPair 0x00 s p x
def execEpSlotVsub (s : EpArgs) (p : EpSlot) (x : State) : Host.Outcome State Fault Refusal := epPair 0x01 s p x
def execEpSlotVmul (s : EpArgs) (p : EpSlot) (x : State) : Host.Outcome State Fault Refusal := epPair 0x02 s p x
def execEpSlotVmin (s : EpArgs) (p : EpSlot) (x : State) : Host.Outcome State Fault Refusal := epPair 0x03 s p x
def execEpSlotVmax (s : EpArgs) (p : EpSlot) (x : State) : Host.Outcome State Fault Refusal := epPair 0x04 s p x
def execEpSlotVand (s : EpArgs) (p : EpSlot) (x : State) : Host.Outcome State Fault Refusal := epPair 0x05 s p x
def execEpSlotVor (s : EpArgs) (p : EpSlot) (x : State) : Host.Outcome State Fault Refusal := epPair 0x06 s p x
def execEpSlotVxor (s : EpArgs) (p : EpSlot) (x : State) : Host.Outcome State Fault Refusal := epPair 0x07 s p x
def execEpSlotVmov (s : EpArgs) (p : EpSlot) (x : State) : Host.Outcome State Fault Refusal := epPair 0x08 s p x
def execEpSlotVcvt (s : EpArgs) (p : EpSlot) (x : State) : Host.Outcome State Fault Refusal := epPair 0x09 s p x
def execEpSlotVslli (s : EpArgs) (p : EpSlot) (x : State) : Host.Outcome State Fault Refusal := epPair 0x0A s p x
def execEpSlotVsrli (s : EpArgs) (p : EpSlot) (x : State) : Host.Outcome State Fault Refusal := epPair 0x0B s p x
def execEpSlotVsrai (s : EpArgs) (p : EpSlot) (x : State) : Host.Outcome State Fault Refusal := epPair 0x0C s p x
def execEpSlotVneg (s : EpArgs) (p : EpSlot) (x : State) : Host.Outcome State Fault Refusal := epPair 0x0D s p x
def execEpSlotVabs (s : EpArgs) (p : EpSlot) (x : State) : Host.Outcome State Fault Refusal := epPair 0x0E s p x
def execEpSlotVaddi (s : EpArgs) (p : EpSlot) (x : State) : Host.Outcome State Fault Refusal := epPair 0x10 s p x
def execApSlotAdd (s : ApArgs) (p : EpSlot) (x : State) : Host.Outcome State Fault Refusal := apTwo (· + ·) s p x
def execApSlotSub (s : ApArgs) (p : EpSlot) (x : State) : Host.Outcome State Fault Refusal := apTwo (· - ·) s p x
def execApSlotAnd (s : ApArgs) (p : EpSlot) (x : State) : Host.Outcome State Fault Refusal := apTwo (· &&& ·) s p x
def execApSlotOr (s : ApArgs) (p : EpSlot) (x : State) : Host.Outcome State Fault Refusal := apTwo (· ||| ·) s p x
def execApSlotXor (s : ApArgs) (p : EpSlot) (x : State) : Host.Outcome State Fault Refusal := apTwo (· ^^^ ·) s p x
def execApSlotAddi (s : ApArgs) (p : EpSlot) (x : State) : Host.Outcome State Fault Refusal :=
  apImm (fun a i => a + i.signExtend 64) s p x
def execApSlotSlli (s : ApArgs) (p : EpSlot) (x : State) : Host.Outcome State Fault Refusal :=
  apImm (fun a i => a <<< (i.extractLsb' 0 6).toNat) s p x
def execApSlotSrli (s : ApArgs) (p : EpSlot) (x : State) : Host.Outcome State Fault Refusal :=
  apImm (fun a i => a >>> (i.extractLsb' 0 6).toNat) s p x
def execApSlotLdi (s : ApArgs) (p : EpSlot) (x : State) : Host.Outcome State Fault Refusal :=
  apImm (fun _ i => i.signExtend 64) s p x

/-- RESERVED_ENCODING: a word that does not decode raises ILLEGAL with its class, and no part of it has an effect (R167). -/
def execReservedEncoding (s : State) : Host.Outcome State Fault Refusal := ap (illegal s.badClass) s

end Sys2Proof.Machine
end

