-- ==== Sys2Proof/Machine/Reliability.lean ====
section
/-! DEFINITION. Scrubbing, row sparing, wear-levelling, lane sparing, and the writing of records and events (23_integrity R377-R381,
R385, R387; 20_when_things_fail R343, R350; 15_host_and_fabric R327). -/

namespace Sys2Proof.Machine

/-! ### Corrected errors (R380) -/

/-- Key of a row of a stack. -/
def rowKey (bank row : Nat) : Nat := bank * 2 ^ 24 + row

/-- The three filter positions of a key. -/
def filterBits (k : Nat) : List Nat :=
  [0x9E3779B1, 0x85EBCA77, 0xC2B2AE3D].map fun c => k * c % 2 ^ 32 / 2 ^ 16

/-- The repeat table after one more repeat of a key, and the entry's count: entries stand oldest first; a full table of 256 gives up
the oldest of those with the lowest count. -/
def countRepeat (t : List (Nat × Nat)) (k : Nat) : List (Nat × Nat) × Nat :=
  match t.find? (·.1 == k) with
  | some e => (t.map fun x => if x.1 = k then (k, x.2 + 1) else x, e.2 + 1)
  | none =>
    let t := if t.length < 256 then t
      else
        let least := t.foldl (fun m x => min m x.2) (t.headD (0, 0)).2
        match t.find? (·.2 == least) with
        | some old => t.erase old
        | none => t
    (t ++ [(k, 1)], 1)

/-- A row among the rows of all stacks. -/
def rowId (stack bank row : Nat) : Nat := stack * 2 ^ 40 + rowKey bank row

/-- UNIT of an HBM stack. -/
def stackUnit (stack : Nat) : Nat := unitPath (stack / 2) (37 + stack % 2) 0 127

/-- The record of a row that has been spared, or that could not be. -/
def rowRecord (stack bank row : Nat) (left : Bool) : RecordFields :=
  { cls := 6, sev := 0, unit := stackUnit stack, phys := true, addr := Config.rowAddress stack bank row,
    syndrome := if left then 0 else 0xFFFFFFFF * 2 ^ 32 }

/-- A row is to be spared: its copy begins, or where its bank has no spare row left, a record says so (R381). -/
def State.spareRow (s : State) (stack bank row : Nat) : State :=
  let id := rowId stack bank row
  let inBank := fun (r : Nat) => r / 2 ^ 24 == id / 2 ^ 24
  if s.spare.copying.any (·.1 == id) then s
  else if (s.spare.remapped.filter inBank).length + (s.spare.copying.filter fun e => inBank e.1).length < 64 then
    { s with spare := { s.spare with copying := s.spare.copying ++ [(id, 0)] } }
  else s.record (stack / 2) (rowRecord stack bank row false)

/-- A corrected error of an HBM row, found at `pa`, with its ECC syndrome (R380). (DESIGN CHOICE, log 10; DEDUCED, log 66.) -/
def State.corrected (s : State) (pa bank row : Nat) (syndrome : BitVec 32) : State :=
  let st := stackOf pa
  let k := rowKey bank row
  let f := Tbl.get 0 s.spare.filter st
  let bits := filterBits k
  if bits.all f.getLsbD then
    let (t, n) := countRepeat (Tbl.get [] s.spare.repeats st) k
    let t' := if n = 4 then t.filter (·.1 != k) else t
    let s := { s with spare := { s.spare with repeats := Tbl.set [] s.spare.repeats st t' } }
    if n = 4 then s.spareRow st bank row else s
  else
    let f' := bits.foldl (fun f b => f ||| BitVec.twoPow 65536 b) f
    let s := { s with spare := { s.spare with filter := Tbl.set 0 s.spare.filter st f' } }
    s.record (homeOf pa) { cause := 0x19, cls := 1, sev := 0, eccst := 2, unit := memoryUnit pa, phys := true, addr := pa,
                           syndrome := syndrome.toNat }

/-- SCRUB_BURST: the scrubber reads the unit of `ev.pa`. An uncorrectable error or a failed tag turns it poisoned, with a record; a
corrected error (`ev.good`, with its ECC syndrome in `ev.unit`) of row `ev.row` of bank `ev.bank` is filtered, or in the Cellar recorded.
(DESIGN CHOICE, log 10; DEDUCED, log 66.) -/
def execScrubBurst (s : State) : Host.Outcome State Fault Refusal :=
  match unitOf s.ev.pa with
  | none => .next s
  | some (u, n) => match s.latentAt u with
    | some e => .next ((s.poisonUnit u n).record (homeOf u) (errorRecord e u {}))
    | none =>
      if !s.ev.good then .next s
      else if inHbm u then .next (s.corrected u s.ev.bank (s.ev.row % 2 ^ 24) s.ev.unit)
      else .next (s.record (homeOf u)
        { cause := 0x19, cls := 1, sev := 0, eccst := 2, tagst := 1, unit := memoryUnit u, phys := true, addr := u, syndrome := s.ev.unit.toNat })

/-- FILTER_CLEAR: the filters and repeat tables are cleared together. -/
def execFilterClear (s : State) : Host.Outcome State Fault Refusal :=
  .next { s with spare := { s.spare with filter := [], repeats := [] } }

/-! ### Row sparing (R381) -/

/-- ROW_SPARE_BURST: a burst of the copy `ev.idx`. Reads are still served from the old row, and writes reach both. -/
def execRowSpareBurst (s : State) : Host.Outcome State Fault Refusal :=
  match s.spare.copying[s.ev.idx]? with
  | none => .next s
  | some (id, n) => .next { s with spare := { s.spare with copying := s.spare.copying.set s.ev.idx (id, n + 1) } }

/-- ROW_SPARE_REMAP: copy `ev.idx` is complete; the spare map records the row, which the bank's remap entry sends to its spare. Under the
golden image, which never alters the map (R382), the copy stays as it is. (DEDUCED, log 66.) -/
def execRowSpareRemap (s : State) : Host.Outcome State Fault Refusal :=
  match s.spare.copying[s.ev.idx]? with
  | none => .next s
  | some (id, n) =>
    if n = 0 || s.svc.golden then .next s
    else
      let s := s.mapChanged
        { s with spare := { s.spare with copying := s.spare.copying.eraseIdx s.ev.idx, remapped := s.spare.remapped ++ [id] } }
      .next (s.record (id / 2 ^ 41) (rowRecord (id / 2 ^ 40) (id / 2 ^ 24 % 2 ^ 16) (id % 2 ^ 24) true))

/-- WEAR_LEVEL_MOVE: a Cellar sector moves below the physical address map; it keeps its address, contents and tag (R387).
(DEDUCED, log 66.) -/
def execWearLevelMove (s : State) : Host.Outcome State Fault Refusal := .next s

/-! ### Lane sparing (R385) -/

/-- A lane that has had three corrected events within some second. -/
def Pipe.worn (p : Pipe) : Option Nat :=
  (p.events.find? fun e =>
    3 ≤ (p.events.filter fun x => x.1 == e.1 && e.2 ≤ x.2 && x.2 ≤ e.2 + 1000000000 * nsTicks).length).map (·.1)

/-- LANE_SPARE_SWITCH: the spare lane of pipe `ev.pipe` of core `ev.core` replaces a failing lane, or the core is marked degraded. Under
the golden image, which never alters the spare map (R382), no lane is switched. (DEDUCED, log 66.) -/
def execLaneSpareSwitch (s : State) : Host.Outcome State Fault Refusal :=
  let core := s.ev.core
  let k := s.ev.pipe
  let c := s.core core
  let p := c.pipe k
  match p.failing.head?.orElse fun _ => p.worn with
  | none => .next s
  | some lane =>
    if p.spareFor.isSome then .next (s.setCore core { c.setPipe k (p.settled lane) with degraded := true })
    else if s.svc.golden then .next s
    else
      let s := s.mapChanged (s.setCore core (c.setPipe k { p.settled lane with spareFor := some lane }))
      .next (s.record (core / 32) { cls := 6, sev := 0, unit := laneUnit core k lane })

/-! ### The log and the event queue (R327, R343) -/

/-- SEV of a record. -/
def sevOf (r : BitVec 512) : Nat := (r.extractLsb' 36 4).toNat

/-- The next record to write is dropped, and counted. -/
def Log.dropNext (l : Log) (r : BitVec 512) (rest : List (BitVec 512)) : Log :=
  { l with pending := rest, drops := Tbl.set 0 l.drops (sevOf r) (Tbl.get 0 l.drops (sevOf r) + 1) }

/-- Where the next record goes; none where it is dropped: no log, no room, or a place beyond HBM. (DEDUCED, log 65.) -/
def Log.place (l : Log) : Option Nat :=
  let a := l.base.toNat + 64 * (l.head.toNat % l.len.toNat)
  if l.base = 0 || l.len.toNat ≤ l.head.toNat - l.tail.toNat || !inHbm (a + 63) then none else some a

/-- LOG_WRITE: the logging engine writes the oldest record's bytes, with its SEQ, header last; once they are applied on every die,
HEAD counts the record. (DEDUCED, log 65.) -/
def execLogWrite (s : State) : Host.Outcome State Fault Refusal :=
  match s.log.pending with
  | [] => .next s
  | r :: rest => match s.log.written with
    | some clock =>
      if s.countedApplied clock false then
        .next { s with log := { s.log with pending := rest, written := none, head := s.log.head + 1 }
                       events := s.events.counted (s.log.head.toNat + 1) }
      else .next s
    | none => match s.log.place with
      | none => .next { s with log := s.log.dropNext r rest, events := s.events.counted 0 }
      | some a =>
        let whole := r.toNat + (s.log.head.toNat + 1) % 2 ^ 32
        let bytes := cleanBytes (bytesOf 64 whole)
        let s := s.updateAtHome (homeOf a) none 0 none (a + 8) (bytes.drop 8)
        let s := s.updateAtHome (homeOf a) none 0 none a (bytes.take 8)
        .next { s with log := { s.log with written := some (s.clockOf (homeOf a)) } }

/-- An event message that carries EVHEAD goes out on every port bound to the owner (R319, R327). -/
def State.tellOwner (s : State) (head : Word) : State :=
  { s with ports := s.ports.map fun e =>
      (e.1, if e.2.bound.isSome && e.2.bound == s.svc.owner then { e.2 with msgs := e.2.msgs ++ [.event head] } else e.2) }

/-- EVENT_WRITE: the oldest event enters the ring, EVHEAD counts it and the owner is told, or it is dropped where 256 stand unread. -/
def execEventWrite (s : State) : Host.Outcome State Fault Refusal :=
  match s.events.pending with
  | [] => .next s
  | e :: rest =>
    let q := s.events
    let k := q.head.toNat
    if 256 ≤ k - q.tail.toNat then .next { s with events := { q with pending := rest, drop := q.drop + 1 } }
    else
      let s := { s with events := { q with pending := rest, head := q.head + 1, ring := Tbl.set 0 q.ring (k % 256) e } }
      .next (s.tellOwner (q.head + 1))

end Sys2Proof.Machine
end

