-- ==== Sys2Proof/Machine/Dispatch.lean ====
section
/-! DEFINITION. One arm per instruction, command and event: each calls its meaning. -/

namespace Sys2Proof.Machine

def exec (i : Instr) (s : State) : Host.Outcome State Fault Refusal :=
  match i with
  | .add o => Sys2Proof.Machine.execAdd o s
  | .sub o => Sys2Proof.Machine.execSub o s
  | .mul o => Sys2Proof.Machine.execMul o s
  | .mulh o => Sys2Proof.Machine.execMulh o s
  | .mulhu o => Sys2Proof.Machine.execMulhu o s
  | .div o => Sys2Proof.Machine.execDiv o s
  | .divu o => Sys2Proof.Machine.execDivu o s
  | .rem o => Sys2Proof.Machine.execRem o s
  | .remu o => Sys2Proof.Machine.execRemu o s
  | .and o => Sys2Proof.Machine.execAnd o s
  | .or o => Sys2Proof.Machine.execOr o s
  | .xor o => Sys2Proof.Machine.execXor o s
  | .andn o => Sys2Proof.Machine.execAndn o s
  | .sll o => Sys2Proof.Machine.execSll o s
  | .srl o => Sys2Proof.Machine.execSrl o s
  | .sra o => Sys2Proof.Machine.execSra o s
  | .slt o => Sys2Proof.Machine.execSlt o s
  | .sltu o => Sys2Proof.Machine.execSltu o s
  | .min o => Sys2Proof.Machine.execMin o s
  | .max o => Sys2Proof.Machine.execMax o s
  | .minu o => Sys2Proof.Machine.execMinu o s
  | .maxu o => Sys2Proof.Machine.execMaxu o s
  | .cmov o => Sys2Proof.Machine.execCmov o s
  | .clz o => Sys2Proof.Machine.execClz o s
  | .ctz o => Sys2Proof.Machine.execCtz o s
  | .popc o => Sys2Proof.Machine.execPopc o s
  | .bext o => Sys2Proof.Machine.execBext o s
  | .bins o => Sys2Proof.Machine.execBins o s
  | .addi o => Sys2Proof.Machine.execAddi o s
  | .andi o => Sys2Proof.Machine.execAndi o s
  | .ori o => Sys2Proof.Machine.execOri o s
  | .xori o => Sys2Proof.Machine.execXori o s
  | .slli o => Sys2Proof.Machine.execSlli o s
  | .srli o => Sys2Proof.Machine.execSrli o s
  | .srai o => Sys2Proof.Machine.execSrai o s
  | .slti o => Sys2Proof.Machine.execSlti o s
  | .sltiu o => Sys2Proof.Machine.execSltiu o s
  | .ldi o => Sys2Proof.Machine.execLdi o s
  | .ldhi o => Sys2Proof.Machine.execLdhi o s
  | .adpc o => Sys2Proof.Machine.execAdpc o s
  | .ld sz o => Sys2Proof.Machine.execLd sz o s
  | .ldz sz o => Sys2Proof.Machine.execLdz sz o s
  | .st sz o => Sys2Proof.Machine.execSt sz o s
  | .ldAcq sz o => Sys2Proof.Machine.execLdAcq sz o s
  | .stRel sz o => Sys2Proof.Machine.execStRel sz o s
  | .amoAdd d64 o => Sys2Proof.Machine.execAmoAdd d64 o s
  | .amoAnd d64 o => Sys2Proof.Machine.execAmoAnd d64 o s
  | .amoOr d64 o => Sys2Proof.Machine.execAmoOr d64 o s
  | .amoXor d64 o => Sys2Proof.Machine.execAmoXor d64 o s
  | .amoMin d64 o => Sys2Proof.Machine.execAmoMin d64 o s
  | .amoMax d64 o => Sys2Proof.Machine.execAmoMax d64 o s
  | .amoMinu d64 o => Sys2Proof.Machine.execAmoMinu d64 o s
  | .amoMaxu d64 o => Sys2Proof.Machine.execAmoMaxu d64 o s
  | .amoSwap d64 o => Sys2Proof.Machine.execAmoSwap d64 o s
  | .amoCas d64 o => Sys2Proof.Machine.execAmoCas d64 o s
  | .amoFadd d64 o => Sys2Proof.Machine.execAmoFadd d64 o s
  | .beq o => Sys2Proof.Machine.execBeq o s
  | .bne o => Sys2Proof.Machine.execBne o s
  | .blt o => Sys2Proof.Machine.execBlt o s
  | .bge o => Sys2Proof.Machine.execBge o s
  | .bltu o => Sys2Proof.Machine.execBltu o s
  | .bgeu o => Sys2Proof.Machine.execBgeu o s
  | .jmp o => Sys2Proof.Machine.execJmp o s
  | .call o => Sys2Proof.Machine.execCall o s
  | .jr o => Sys2Proof.Machine.execJr o s
  | .jmpF o => Sys2Proof.Machine.execJmpF o s
  | .callt o => Sys2Proof.Machine.execCallt o s
  | .bvAny o => Sys2Proof.Machine.execBvAny o s
  | .bvNone o => Sys2Proof.Machine.execBvNone o s
  | .bvAll o => Sys2Proof.Machine.execBvAll o s
  | .bvNall o => Sys2Proof.Machine.execBvNall o s
  | .brot o => Sys2Proof.Machine.execBrot o s
  | .bloop o => Sys2Proof.Machine.execBloop o s
  | .trap o => Sys2Proof.Machine.execTrap o s
  | .srd o => Sys2Proof.Machine.execSrd o s
  | .swr o => Sys2Proof.Machine.execSwr o s
  | .swrFcsr o => Sys2Proof.Machine.execSwrFcsr o s
  | .swrSlots o => Sys2Proof.Machine.execSwrSlots o s
  | .swrVl o => Sys2Proof.Machine.execSwrVl o s
  | .swrRrb o => Sys2Proof.Machine.execSwrRrb o s
  | .swrEc o => Sys2Proof.Machine.execSwrEc o s
  | .brk o => Sys2Proof.Machine.execBrk o s
  | .tlbinv o => Sys2Proof.Machine.execTlbinv o s
  | .pgmig o => Sys2Proof.Machine.execPgmig o s
  | .vadd o => Sys2Proof.Machine.execVadd o s
  | .vsub o => Sys2Proof.Machine.execVsub o s
  | .vmul o => Sys2Proof.Machine.execVmul o s
  | .vmulh o => Sys2Proof.Machine.execVmulh o s
  | .vfma o => Sys2Proof.Machine.execVfma o s
  | .vfms o => Sys2Proof.Machine.execVfms o s
  | .vfnma o => Sys2Proof.Machine.execVfnma o s
  | .vdiv o => Sys2Proof.Machine.execVdiv o s
  | .vrem o => Sys2Proof.Machine.execVrem o s
  | .vsqrt o => Sys2Proof.Machine.execVsqrt o s
  | .vrcp o => Sys2Proof.Machine.execVrcp o s
  | .vrsqrt o => Sys2Proof.Machine.execVrsqrt o s
  | .vmin o => Sys2Proof.Machine.execVmin o s
  | .vmax o => Sys2Proof.Machine.execVmax o s
  | .vabs o => Sys2Proof.Machine.execVabs o s
  | .vneg o => Sys2Proof.Machine.execVneg o s
  | .vand o => Sys2Proof.Machine.execVand o s
  | .vor o => Sys2Proof.Machine.execVor o s
  | .vxor o => Sys2Proof.Machine.execVxor o s
  | .vandn o => Sys2Proof.Machine.execVandn o s
  | .vnot o => Sys2Proof.Machine.execVnot o s
  | .vsll o => Sys2Proof.Machine.execVsll o s
  | .vsrl o => Sys2Proof.Machine.execVsrl o s
  | .vsra o => Sys2Proof.Machine.execVsra o s
  | .vclz o => Sys2Proof.Machine.execVclz o s
  | .vpopc o => Sys2Proof.Machine.execVpopc o s
  | .vcvt o => Sys2Proof.Machine.execVcvt o s
  | .vmov o => Sys2Proof.Machine.execVmov o s
  | .vsel o => Sys2Proof.Machine.execVsel o s
  | .vexp2 o => Sys2Proof.Machine.execVexp2 o s
  | .vlog2 o => Sys2Proof.Machine.execVlog2 o s
  | .vcmp o => Sys2Proof.Machine.execVcmp o s
  | .vclass o => Sys2Proof.Machine.execVclass o s
  | .mand o => Sys2Proof.Machine.execMand o s
  | .mor o => Sys2Proof.Machine.execMor o s
  | .mxor o => Sys2Proof.Machine.execMxor o s
  | .mandn o => Sys2Proof.Machine.execMandn o s
  | .mnot o => Sys2Proof.Machine.execMnot o s
  | .mpopc o => Sys2Proof.Machine.execMpopc o s
  | .mfirst o => Sys2Proof.Machine.execMfirst o s
  | .mset o => Sys2Proof.Machine.execMset o s
  | .vmsk o => Sys2Proof.Machine.execVmsk o s
  | .vred o => Sys2Proof.Machine.execVred o s
  | .vscan o => Sys2Proof.Machine.execVscan o s
  | .vdot o => Sys2Proof.Machine.execVdot o s
  | .vdotg o => Sys2Proof.Machine.execVdotg o s
  | .vsac o => Sys2Proof.Machine.execVsac o s
  | .vsacb o => Sys2Proof.Machine.execVsacb o s
  | .vslup o => Sys2Proof.Machine.execVslup o s
  | .vsldn o => Sys2Proof.Machine.execVsldn o s
  | .vperm o => Sys2Proof.Machine.execVperm o s
  | .vcompress o => Sys2Proof.Machine.execVcompress o s
  | .vexpand o => Sys2Proof.Machine.execVexpand o s
  | .vzip o => Sys2Proof.Machine.execVzip o s
  | .vunzip o => Sys2Proof.Machine.execVunzip o s
  | .vrev o => Sys2Proof.Machine.execVrev o s
  | .vpack4 o => Sys2Proof.Machine.execVpack4 o s
  | .vunpk4 o => Sys2Proof.Machine.execVunpk4 o s
  | .vbscale o => Sys2Proof.Machine.execVbscale o s
  | .vcfg o => Sys2Proof.Machine.execVcfg o s
  | .vsetl o => Sys2Proof.Machine.execVsetl o s
  | .vlq o => Sys2Proof.Machine.execVlq o s
  | .vtag o => Sys2Proof.Machine.execVtag o s
  | .vrotb o => Sys2Proof.Machine.execVrotb o s
  | .vdead o => Sys2Proof.Machine.execVdead o s
  | .vmvAe o => Sys2Proof.Machine.execVmvAe o s
  | .vmvEa o => Sys2Proof.Machine.execVmvEa o s
  | .vbcast o => Sys2Proof.Machine.execVbcast o s
  | .vid o => Sys2Proof.Machine.execVid o s
  | .vld o => Sys2Proof.Machine.execVld o s
  | .vlds o => Sys2Proof.Machine.execVlds o s
  | .vldx o => Sys2Proof.Machine.execVldx o s
  | .vldseg o => Sys2Proof.Machine.execVldseg o s
  | .vldm o => Sys2Proof.Machine.execVldm o s
  | .vpref o => Sys2Proof.Machine.execVpref o s
  | .vst o => Sys2Proof.Machine.execVst o s
  | .vsts o => Sys2Proof.Machine.execVsts o s
  | .vstx o => Sys2Proof.Machine.execVstx o s
  | .vstseg o => Sys2Proof.Machine.execVstseg o s
  | .vstm o => Sys2Proof.Machine.execVstm o s
  | .vamoadd o => Sys2Proof.Machine.execVamoadd o s
  | .vspill o => Sys2Proof.Machine.execVspill o s
  | .vfill o => Sys2Proof.Machine.execVfill o s
  | .vwait o => Sys2Proof.Machine.execVwait o s
  | .vsave o => Sys2Proof.Machine.execVsave o s
  | .vrest o => Sys2Proof.Machine.execVrest o s
  | .rpSend o => Sys2Proof.Machine.execRpSend o s
  | .rpRecv o => Sys2Proof.Machine.execRpRecv o s
  | .mma o => Sys2Proof.Machine.execMma o s
  | .mmasp o => Sys2Proof.Machine.execMmasp o s
  | .mzero o => Sys2Proof.Machine.execMzero o s
  | .mvat2v o => Sys2Proof.Machine.execMvat2v o s
  | .mv2vat o => Sys2Proof.Machine.execMv2vat o s
  | .mv2t o => Sys2Proof.Machine.execMv2t o s
  | .mt2v o => Sys2Proof.Machine.execMt2v o s
  | .mshape o => Sys2Proof.Machine.execMshape o s
  | .mldt o => Sys2Proof.Machine.execMldt o s
  | .mstt o => Sys2Proof.Machine.execMstt o s
  | .mldvat o => Sys2Proof.Machine.execMldvat o s
  | .mstvat o => Sys2Proof.Machine.execMstvat o s
  | .mrdshape o => Sys2Proof.Machine.execMrdshape o s
  | .cpy o => Sys2Proof.Machine.execCpy o s
  | .cpy2d o => Sys2Proof.Machine.execCpy2d o s
  | .cpyBb o => Sys2Proof.Machine.execCpyBb o s
  | .cwaitAny o => Sys2Proof.Machine.execCwaitAny o s
  | .cwaitAll o => Sys2Proof.Machine.execCwaitAll o s
  | .cffr o => Sys2Proof.Machine.execCffr o s
  | .cdone o => Sys2Proof.Machine.execCdone o s
  | .cclr o => Sys2Proof.Machine.execCclr o s
  | .bbInit o => Sys2Proof.Machine.execBbInit o s
  | .bbExpect o => Sys2Proof.Machine.execBbExpect o s
  | .bbArrive o => Sys2Proof.Machine.execBbArrive o s
  | .bbWait o => Sys2Proof.Machine.execBbWait o s
  | .bbTest o => Sys2Proof.Machine.execBbTest o s
  | .barArrive o => Sys2Proof.Machine.execBarArrive o s
  | .barWait o => Sys2Proof.Machine.execBarWait o s
  | .barSync o => Sys2Proof.Machine.execBarSync o s
  | .barMset o => Sys2Proof.Machine.execBarMset o s
  | .barGen o => Sys2Proof.Machine.execBarGen o s
  | .fence o => Sys2Proof.Machine.execFence o s
  | .fencePath o => Sys2Proof.Machine.execFencePath o s
  | .stStamp o => Sys2Proof.Machine.execStStamp o s
  | .ldAsof o => Sys2Proof.Machine.execLdAsof o s
  | .clkRd o => Sys2Proof.Machine.execClkRd o s
  | .clkWait o => Sys2Proof.Machine.execClkWait o s
  | .cfetch o => Sys2Proof.Machine.execCfetch o s
  | .cfwait o => Sys2Proof.Machine.execCfwait o s
  | .lnch o => Sys2Proof.Machine.execLnch o s
  | .claimWork o => Sys2Proof.Machine.execClaimWork o s
  | .digPost o => Sys2Proof.Machine.execDigPost o s
  | .digWait o => Sys2Proof.Machine.execDigWait o s
  | .vmac o => Sys2Proof.Machine.execVmac o s
  | .vrecip o => Sys2Proof.Machine.execVrecip o s
  | .vsum o => Sys2Proof.Machine.execVsum o s
  | .vldu o => Sys2Proof.Machine.execVldu o s
  | .epSlotVadd o p => Sys2Proof.Machine.execEpSlotVadd o p s
  | .epSlotVsub o p => Sys2Proof.Machine.execEpSlotVsub o p s
  | .epSlotVmul o p => Sys2Proof.Machine.execEpSlotVmul o p s
  | .epSlotVmin o p => Sys2Proof.Machine.execEpSlotVmin o p s
  | .epSlotVmax o p => Sys2Proof.Machine.execEpSlotVmax o p s
  | .epSlotVand o p => Sys2Proof.Machine.execEpSlotVand o p s
  | .epSlotVor o p => Sys2Proof.Machine.execEpSlotVor o p s
  | .epSlotVxor o p => Sys2Proof.Machine.execEpSlotVxor o p s
  | .epSlotVmov o p => Sys2Proof.Machine.execEpSlotVmov o p s
  | .epSlotVcvt o p => Sys2Proof.Machine.execEpSlotVcvt o p s
  | .epSlotVslli o p => Sys2Proof.Machine.execEpSlotVslli o p s
  | .epSlotVsrli o p => Sys2Proof.Machine.execEpSlotVsrli o p s
  | .epSlotVsrai o p => Sys2Proof.Machine.execEpSlotVsrai o p s
  | .epSlotVneg o p => Sys2Proof.Machine.execEpSlotVneg o p s
  | .epSlotVabs o p => Sys2Proof.Machine.execEpSlotVabs o p s
  | .epSlotVaddi o p => Sys2Proof.Machine.execEpSlotVaddi o p s
  | .apSlotAdd o p => Sys2Proof.Machine.execApSlotAdd o p s
  | .apSlotSub o p => Sys2Proof.Machine.execApSlotSub o p s
  | .apSlotAnd o p => Sys2Proof.Machine.execApSlotAnd o p s
  | .apSlotOr o p => Sys2Proof.Machine.execApSlotOr o p s
  | .apSlotXor o p => Sys2Proof.Machine.execApSlotXor o p s
  | .apSlotAddi o p => Sys2Proof.Machine.execApSlotAddi o p s
  | .apSlotSlli o p => Sys2Proof.Machine.execApSlotSlli o p s
  | .apSlotSrli o p => Sys2Proof.Machine.execApSlotSrli o p s
  | .apSlotLdi o p => Sys2Proof.Machine.execApSlotLdi o p s
  | .reservedEncoding => Sys2Proof.Machine.execReservedEncoding s
  | .nop => Sys2Proof.Machine.execNop s
  | .eret => Sys2Proof.Machine.execEret s
  | .halt => Sys2Proof.Machine.execHalt s
  | .syncAe => Sys2Proof.Machine.execSyncAe s
  | .ret => Sys2Proof.Machine.execRet s
  | .pbar => Sys2Proof.Machine.execPbar s
  | .fenceDur => Sys2Proof.Machine.execFenceDur s
  | .yield => Sys2Proof.Machine.execYield s
  | .launch => Sys2Proof.Machine.execLaunch s
  | .read => Sys2Proof.Machine.execRead s
  | .write => Sys2Proof.Machine.execWrite s
  | .claim => Sys2Proof.Machine.execClaim s
  | .handover => Sys2Proof.Machine.execHandover s
  | .freeze => Sys2Proof.Machine.execFreeze s
  | .unfreeze => Sys2Proof.Machine.execUnfreeze s
  | .partition => Sys2Proof.Machine.execPartition s
  | .selftest => Sys2Proof.Machine.execSelftest s
  | .attest => Sys2Proof.Machine.execAttest s
  | .recover => Sys2Proof.Machine.execRecover s
  | .supvecWrite => Sys2Proof.Machine.execSupvecWrite s
  | .evtailWrite => Sys2Proof.Machine.execEvtailWrite s
  | .evdropClear => Sys2Proof.Machine.execEvdropClear s
  | .logbaseWrite => Sys2Proof.Machine.execLogbaseWrite s
  | .loglenWrite => Sys2Proof.Machine.execLoglenWrite s
  | .tailWrite => Sys2Proof.Machine.execTailWrite s
  | .dropClear => Sys2Proof.Machine.execDropClear s
  | .selftestComplete => Sys2Proof.Machine.execSelftestComplete s
  | .boot => Sys2Proof.Machine.execBoot s
  | .powerFailDrain => Sys2Proof.Machine.execPowerFailDrain s
  | .portNoActiveLane => Sys2Proof.Machine.execPortNoActiveLane s
  | .syncBeat => Sys2Proof.Machine.execSyncBeat s
  | .packageMarkUpdate => Sys2Proof.Machine.execPackageMarkUpdate s
  | .fabricMarkExchange => Sys2Proof.Machine.execFabricMarkExchange s
  | .vlcapChange => Sys2Proof.Machine.execVlcapChange s
  | .admitTeam => Sys2Proof.Machine.execAdmitTeam s
  | .ageTick => Sys2Proof.Machine.execAgeTick s
  | .saveComplete => Sys2Proof.Machine.execSaveComplete s
  | .hartStart => Sys2Proof.Machine.execHartStart s
  | .tileRunStart => Sys2Proof.Machine.execTileRunStart s
  | .stageSwitch => Sys2Proof.Machine.execStageSwitch s
  | .teamEnd => Sys2Proof.Machine.execTeamEnd s
  | .launchComplete => Sys2Proof.Machine.execLaunchComplete s
  | .supervisorSlotLanded => Sys2Proof.Machine.execSupervisorSlotLanded s
  | .machineCheck => Sys2Proof.Machine.execMachineCheck s
  | .copyFailure => Sys2Proof.Machine.execCopyFailure s
  | .copyLineLand => Sys2Proof.Machine.execCopyLineLand s
  | .copyComplete => Sys2Proof.Machine.execCopyComplete s
  | .copyIssueResume => Sys2Proof.Machine.execCopyIssueResume s
  | .cfetchLand => Sys2Proof.Machine.execCfetchLand s
  | .apDecodeResume => Sys2Proof.Machine.execApDecodeResume s
  | .apResync => Sys2Proof.Machine.execApResync s
  | .vwaitMet => Sys2Proof.Machine.execVwaitMet s
  | .vwaitTimeout => Sys2Proof.Machine.execVwaitTimeout s
  | .barWake => Sys2Proof.Machine.execBarWake s
  | .barTimeout => Sys2Proof.Machine.execBarTimeout s
  | .bbWake => Sys2Proof.Machine.execBbWake s
  | .cwaitWake => Sys2Proof.Machine.execCwaitWake s
  | .cfwaitWake => Sys2Proof.Machine.execCfwaitWake s
  | .clkWaitWake => Sys2Proof.Machine.execClkWaitWake s
  | .clockWide => Sys2Proof.Machine.execClockWide s
  | .rpAccept => Sys2Proof.Machine.execRpAccept s
  | .rpResult => Sys2Proof.Machine.execRpResult s
  | .rpTimeout => Sys2Proof.Machine.execRpTimeout s
  | .ldAsofRead => Sys2Proof.Machine.execLdAsofRead s
  | .digWaitWake => Sys2Proof.Machine.execDigWaitWake s
  | .fenceDone => Sys2Proof.Machine.execFenceDone s
  | .fenceDurDone => Sys2Proof.Machine.execFenceDurDone s
  | .pbarComplete => Sys2Proof.Machine.execPbarComplete s
  | .commitWait => Sys2Proof.Machine.execCommitWait s
  | .lnchAnswer => Sys2Proof.Machine.execLnchAnswer s
  | .tlbinvComplete => Sys2Proof.Machine.execTlbinvComplete s
  | .pgmigComplete => Sys2Proof.Machine.execPgmigComplete s
  | .writeApply => Sys2Proof.Machine.execWriteApply s
  | .dupWritePerform => Sys2Proof.Machine.execDupWritePerform s
  | .migrationTimeout => Sys2Proof.Machine.execMigrationTimeout s
  | .cellarAccept => Sys2Proof.Machine.execCellarAccept s
  | .scrubBurst => Sys2Proof.Machine.execScrubBurst s
  | .filterClear => Sys2Proof.Machine.execFilterClear s
  | .rowSpareBurst => Sys2Proof.Machine.execRowSpareBurst s
  | .rowSpareRemap => Sys2Proof.Machine.execRowSpareRemap s
  | .wearLevelMove => Sys2Proof.Machine.execWearLevelMove s
  | .laneSpareSwitch => Sys2Proof.Machine.execLaneSpareSwitch s
  | .logWrite => Sys2Proof.Machine.execLogWrite s
  | .eventWrite => Sys2Proof.Machine.execEventWrite s
  | .unlistedCommandCode => Sys2Proof.Machine.execUnlistedCommandCode s
  | .storeAppliedToL2 => Sys2Proof.Machine.execStoreAppliedToL2 s
  | .fabricWindowAccess => Sys2Proof.Machine.execFabricWindowAccess s

end Sys2Proof.Machine
end

