-- ==== Sys2Proof/Machine/Step.lean ====
section
/-! DEFINITION. One step of the module, and how a word is placed where the next step fetches. -/

namespace Sys2Proof.Machine

/-- Hart `n` fetches and runs one instruction. A word that is no instruction raises ILLEGAL with its class (R167). -/
def runWord (n : Nat) (s : State) : Host.Outcome State Fault Refusal :=
  match s.fetchWord n with
  | .error e => runIn unitAp false (throw e) s
  | .ok w => match decode w with
    | .ok i => exec i s
    | .error e => exec .reservedEncoding { s with badClass := e.tval }

/-- A step of hart `n`: one that cannot run does nothing, and one whose EP queue is full waits until an entry frees (R25). After the
instruction a copy failure that was kept back for its end is raised (R263). (DEDUCED, log 6.) -/
def stepHart (n : Nat) (s : State) : Host.Outcome State Fault Refusal :=
  if s.runnable n then
    if 64 ≤ (s.hart n).epq then .next (s.setWait n .epFull)
    else match runWord n { s with cur := n } with
      | .next t => .next (t.raiseCopyFail n)
      | o => o
  else .next s

/-- The service die takes its oldest command record, once it has booted and the record's port has no record under way (R313).
(DEDUCED, log 63.) -/
def stepCommand (s : State) : Host.Outcome State Fault Refusal :=
  match s.cmdq with
  | r :: rest => if s.commandReady r then exec (decodeCommand r) { s with cmdq := rest, cmd := r } else .next s
  | [] => .next s

/-- What the agenda asks for. -/
def perform (s : State) : Action → Host.Outcome State Fault Refusal
  | .run n => stepHart n s
  | .event i ev => if isEvent i then exec i { s with ev := ev } else .next s
  | .takeCommand => stepCommand s
  | .record p sl raw => .next (s.arrive p sl raw)
  | .portData p sl off bs => .next (s.fillData p sl off bs)
  | .takeMessage p => .next (s.takeMessage p)
  | .configRecord ks ds ok => .next (s.configRecord ks ds ok)
  | .peerStore pa bs => .next (s.peerStore pa bs)
  | .loadEarly h b pa n => .next (s.loadEarly h b pa n)
  | .upset u e => .next (s.upset u e)
  | .sramUpset u x bad => .next (s.sramUpset u x bad)
  | .laneUpset h p l c => .next (s.laneUpset h p l c)
  | .cut h k => .next (s.cutHart h k)
  | .tlbEvict d c k => .next (s.evict d c k)

/-- Whether an event has changed the state; an admission opportunity that moves nothing but a round-robin pointer has not. -/
def changed (i : Instr) (s s' : State) : Bool :=
  if i = .admitTeam then s'.teams != s.teams || s'.launches != s.launches else s' != s

/-- The first event of a list that changes the state, tried in order. -/
def firstEvent (s : State) : List (Instr × Ev) → Option (Host.Outcome State Fault Refusal)
  | [] => none
  | (i, ev) :: rest =>
    match exec i { s with ev := ev } with
    | .next s' => if changed i { s with ev := ev } s' then some (.next s') else firstEvent s rest
    | o => some o

/-- The module's own work, then a hart, and time passes where nothing else can happen. -/
def stepOwn (s : State) : Host.Outcome State Fault Refusal :=
  match firstEvent s s.pendingEvents with
  | some o => o
  | none => match s.nextHart with
    | some n => stepHart n s
    | none => exec .packageMarkUpdate { s with ev := {} }

/-- The default schedule: a command record that can be taken goes before the rest. (DESIGN CHOICE, log 5.) -/
def stepDefault (s : State) : Host.Outcome State Fault Refusal :=
  match stepCommand s with
  | .next s' => if s'.cmdq = s.cmdq && s'.svc = s.svc then stepOwn s else .next s'
  | o => o

/-- One step of the module: the head of the agenda, or the default schedule. -/
def step (s : State) : Host.Outcome State Fault Refusal :=
  match s.agenda with
  | a :: rest => perform { s with agenda := rest } a
  | [] => stepDefault s

/-- The state with an instruction placed where hart 0 fetches: hart 0 runs, waits for nothing, control is in the segment of its
pc, that segment has landed in slot 0 of core 0 with the instruction's bytes at pc, and the agenda runs hart 0 next.
(DEDUCED, log 6.) -/
def State.withFetchWord (s : State) (_nbits w : Nat) : State :=
  let h := s.hart 0
  let pc := h.pc &&& ~~~7
  let seg := pc &&& ~~~0xFFF
  let word : Word := BitVec.ofNat 64 w
  let bytes := (List.range 8).foldl (fun t i => Tbl.set 0 t (pc.toNat % 4096 + i) (byteOf word i)) ([] : Tbl Byte)
  let c := s.core 0
  let slot : CodeSlot := { landed := some true, va := seg, pa := 0, bytes := bytes, poison := [] }
  let s := s.setHart 0 { h with status := .running, wait := none, pc := pc, seg := seg, routine := none,
                                 epq := if h.epq < 64 then h.epq else 0 }
  let s := s.setCore 0 { c with code := Tbl.set {} c.code 0 slot, sup := {} }
  let s := match s.teamOf 0 with
    | some t => s.setTeam h.team { t with status := .running }
    | none => s
  { s with agenda := .run 0 :: s.agenda }

end Sys2Proof.Machine
end

