-- ==== Sys2Proof/Safety.lean ====
section
/-! DEFINITION. What counts as a safe run of the module: no step stops it. -/

namespace Sys2Proof.Machine

/-- The step from `s` answers a next state. -/
def Steps (s t : State) : Prop := step s = .next t

/-- States that a run of steps from `s` reaches. -/
inductive Reaches (s : State) : State → Prop
  | here : Reaches s s
  | next {t u : State} : Reaches s t → Steps t u → Reaches s u

/-- No run from `s` ends in a fault or a refusal: in every state it reaches the module makes another step. -/
def Safe (s : State) : Prop := ∀ t, Reaches s t → ∃ u, Steps t u

/-- A property that every step keeps. -/
def Invariant (P : State → Prop) : Prop := ∀ s t, P s → Steps s t → P t

end Sys2Proof.Machine
end

