-- ==== Sys2Proof/WellFormed.lean ====
section
/-! DEFINITION. The well-formed instructions: those whose fields hold no value that the spec reserves.

A reserved encoding never executes as another instruction (R167, R368); the checks themselves, with the class that each
reports, are `fieldError`, beside the decoder. -/

namespace Sys2Proof

/-- Every operand field holds a value that the spec gives the instruction (R153, R372). The sub-forms of `swr` name the
register that makes them that form (R272). -/
def Instr.wellFormed (i : Instr) : Bool :=
  (fieldError i).isNone && match i with
    | .swr o | .swrVl o | .swrFcsr o | .swrSlots o | .swrEc o | .swrRrb o => decide (selectSwr o = i)
    | _ => true

end Sys2Proof
end

