-- ==== Sys2Proof/Certificates/Slice0/Obligations.lean ====
section
/-! DEFINITION. The statements about the model, for the provers. Each docstring names the rule of spec/ that it formalises.

`runner s` is the hart whose instruction `exec` runs; `done s h` is `s` with that hart's instruction completed. An equation
`exec i s = .next t` with `t` written out says what the instruction changes and that it changes nothing else. -/

namespace Sys2Proof.Claims

open Sys2Proof.Machine

/-- The hart whose instruction runs. -/
def runner (s : State) : Hart := s.hart s.cur

/-- The state in which the running hart's instruction has completed: the hart is `h`, the next word follows and `sr.vstart` is 0
(R170, R195). -/
def done (s : State) (h : Hart) : State :=
  s.setHart s.cur (h.at (h.pc + 8))

/-- As `done`, with control at `pc'`. -/
def doneAt (s : State) (pc' : Word) (h : Hart) : State :=
  s.setHart s.cur (h.at pc')

/-- The running hart takes a cause at its own pc, with stop element `k` (R354). -/
def trapped (s : State) (c : Cause) (tval : Word) (k : Nat := 0) : State :=
  s.takeTrap s.cur unitAp c.code tval (runner s).pc k

end Sys2Proof.Claims

open Sys2Proof Sys2Proof.Machine Sys2Proof.Claims

/-! ### Scalar operations (09_access_instructions) -/

namespace Sys2Proof.Claims

/-- Results of Table 9.2 for a and b, and of `cmov` for c too. -/
def scalarResults (o : FR) (a b c : Word) : List (Instr × Word) :=
  [(.add o, a + b), (.sub o, a - b), (.mul o, a * b),
   (.mulh o, (a.signExtend 128 * b.signExtend 128).extractLsb' 64 64),
   (.mulhu o, (a.setWidth 128 * b.setWidth 128).extractLsb' 64 64),
   (.and o, a &&& b), (.or o, a ||| b), (.xor o, a ^^^ b), (.andn o, a &&& ~~~b),
   (.sll o, a <<< (b &&& 63)), (.srl o, a >>> (b &&& 63)), (.sra o, a.sshiftRight (b &&& 63).toNat),
   (.slt o, if a.toInt < b.toInt then 1 else 0), (.sltu o, if a < b then 1 else 0),
   (.min o, if a.toInt ≤ b.toInt then a else b), (.max o, if a.toInt ≤ b.toInt then b else a),
   (.minu o, if a ≤ b then a else b), (.maxu o, if a ≤ b then b else a),
   (.cmov o, if c ≠ 0 then a else b),
   (.clz o, BitVec.ofNat 64 ((List.range 64).takeWhile fun i => !a.getMsbD i).length),
   (.ctz o, BitVec.ofNat 64 ((List.range 64).takeWhile fun i => !a.getLsbD i).length),
   (.popc o, BitVec.ofNat 64 ((List.range 64).filter a.getLsbD).length)]

/-- Results of Table 9.4 for a, simm, the unsigned IMM and pc. -/
def immediateResults (o : FI) (a pc : Word) : List (Instr × Word) :=
  let simm := o.imm.signExtend 64
  let sh := (o.imm.extractLsb' 0 6).toNat
  [(.addi o, a + simm), (.andi o, a &&& simm), (.ori o, a ||| simm), (.xori o, a ^^^ simm),
   (.slli o, a <<< sh), (.srli o, a >>> sh), (.srai o, a.sshiftRight sh),
   (.slti o, if a.toInt < simm.toInt then 1 else 0), (.sltiu o, if a < simm then 1 else 0),
   (.ldi o, simm), (.ldhi o, o.imm ++ a.extractLsb' 0 28), (.adpc o, pc + simm)]

end Sys2Proof.Claims

/-- R174, Table 9.2: each of these completes in every state; D, unless it names a0, becomes the value of the table, and nothing
else changes but pc and `sr.vstart`. -/
def Sys2Proof.Claims.ScalarResults : Prop :=
  ∀ (o : FR) (s : State),
    ∀ p ∈ scalarResults o ((runner s).aReg o.a.toNat) ((runner s).aReg o.b.toNat) ((runner s).aReg o.c.toNat),
      exec p.1 s = .next (done s ((runner s).setA o.d.toNat p.2))

/-- R177, Table 9.4: the same of the immediate operations. -/
def Sys2Proof.Claims.ImmediateResults : Prop :=
  ∀ (o : FI) (s : State), ∀ p ∈ immediateResults o ((runner s).aReg o.a.toNat) (runner s).pc,
    exec p.1 s = .next (done s ((runner s).setA o.d.toNat p.2))

/-- R174, R175: a division by b ≠ 0 completes with the quotient rounded toward zero or the remainder (−2^63 by −1 gives −2^63
and 0), and one by b = 0 takes INT_DIV0 with `sr.tval` 0. -/
def Sys2Proof.Claims.DivisionResults : Prop :=
  ∀ (o : FR) (s : State),
    let a := (runner s).aReg o.a.toNat
    let b := (runner s).aReg o.b.toNat
    ∀ p ∈ [(Instr.div o, a.sdiv b), (.divu o, a / b), (.rem o, a.srem b), (.remu o, a % b)],
      (b ≠ 0 → exec p.1 s = .next (done s ((runner s).setA o.d.toNat p.2))) ∧
      (b = 0 → exec p.1 s = .next (trapped s .intDiv0 0))

/-- R176, Table 9.2: for the pos and len that the decoder admits, `bext` writes bits [pos+len−1 : pos] of a, extended with zeros
or, with IMM[13], with the top one of them; `bins` replaces those bits of D by the low bits of a. -/
def Sys2Proof.Claims.BitFieldResults : Prop :=
  ∀ (o : FR) (s : State),
    let a := (runner s).aReg o.a.toNat
    let d := (runner s).aReg o.d.toNat
    let pos := (o.imm.extractLsb' 0 6).toNat
    let len := (o.imm.extractLsb' 6 7).toNat
    0 < len → pos + len ≤ 64 →
      (∃ v : Word, exec (.bext o) s = .next (done s ((runner s).setA o.d.toNat v)) ∧
        ∀ i < 64, v.getLsbD i = if i < len then a.getLsbD (pos + i) else o.imm.getLsbD 13 && a.getLsbD (pos + len - 1)) ∧
      (∃ v : Word, exec (.bins o) s = .next (done s ((runner s).setA o.d.toNat v)) ∧
        ∀ i < 64, v.getLsbD i = if pos ≤ i ∧ i < pos + len then a.getLsbD (i - pos) else d.getLsbD i)

/-- R170, R174 to R177: the results of the scalar operations: those of Tables 9.2 and 9.4, division with its corner cases and
INT_DIV0, and the bit fields. Each writes its destination, moves on, and changes nothing else. -/
def Obligations.ScalarInstructions : Prop := ScalarResults ∧ ImmediateResults ∧ DivisionResults ∧ BitFieldResults

/-! ### Scalar loads, stores and atomics (09_access_instructions R178-R185) -/

namespace Sys2Proof.Claims

/-- The little-endian value of `n` bytes, extended with its sign to 64 bits. -/
def signedBytes (n : Nat) (bs : List PByte) : Word := (BitVec.ofNat (8 * n) (valueOf bs)).signExtend 64

/-- No byte carries poison. -/
def clean (bs : List PByte) : Prop := ∀ b ∈ bs, b.poi = false

/-- The address a + sext(IMM). -/
def offsetAddr (o : FR) (s : State) : Word := (runner s).aReg o.a.toNat + o.imm.signExtend 64

/-- The state after the running hart's store of the low `n` bytes of a register: its buffer holds them, or the register window has
taken them. -/
def stored (s : State) (pa n : Nat) (v : Word) : State := s.issueStore s.cur pa (cleanBytes (bytesOf n v.toNat))

/-- A hart after an acquire: its fence count may have risen, and no load stands ahead of its instruction (R96, R104). -/
def acquiredHart (h h' : Hart) : Prop :=
  ∃ c, h' = { h with fcount := c, early := [] } ∧ h.fcount ≤ c ∧ (h.det = false → c = h.fcount)

/-- What a read of `n` bytes leaves: no other hart, no team, launch or partition changes, the reading hart only forgets what its early
loads of the bytes found, no byte changes its value, and where no latent error stands and `pa` is outside the register window nothing
else changes at all (R93, R230). -/
def readFrame (s s₁ : State) (pa n : Nat) : Prop :=
  s₁.cur = s.cur ∧ (∀ m, m ≠ s.cur → s₁.hart m = s.hart m) ∧
  (runner s₁ = runner s ∨ runner s₁ = (runner s).dropEarly pa n) ∧
  s₁.teams = s.teams ∧ s₁.launches = s.launches ∧ s₁.parts = s.parts ∧
  (∀ d p, (s₁.byteAt d p).val = (s.byteAt d p).val) ∧
  (s.latent = [] → windowOf pa ≠ .register → s₁ = s.setHart s.cur ((runner s).dropEarly pa n))

/-- The new value of Table 9.8 for `w` bytes; none where nothing is written. -/
def atomicNew (w old b c : Nat) : List ((Bool → FR → Instr) × Option Nat) :=
  let sg := fun x : Nat => (BitVec.ofNat (8 * w) x).toInt
  let f : Fmt := if w = 4 then ⟨8, 23, 127, false⟩ else ⟨11, 52, 1023, false⟩
  [(.amoAdd, some ((old + b) % 2 ^ (8 * w))), (.amoAnd, some (old &&& b)), (.amoOr, some (old ||| b)),
   (.amoXor, some (old ^^^ b)), (.amoMin, some (if sg old ≤ sg b then old else b)),
   (.amoMax, some (if sg old ≤ sg b then b else old)), (.amoMinu, some (min old b)), (.amoMaxu, some (max old b)),
   (.amoSwap, some b), (.amoCas, if old = c then some b else none),
   (.amoFadd, some (toFloat f false .rne (addE .rne (decodeFloat f old) (decodeFloat f b)).1).1)]

end Sys2Proof.Claims

/-- R93, R178, R179, R180, Table 9.6: an aligned load whose translation is allowed, and whose bytes can be read and carry no poison,
completes: D, unless it names a0, becomes the bytes' little-endian value, sign-extended by `ld` and zero-extended by `ldz`. The bytes
are those that it read if it performed early, else those that stand there now. -/
def Sys2Proof.Claims.LoadResults : Prop :=
  ∀ (sz : BitVec 2) (o : FR) (s s₁ s₂ : State) (pa : Nat) (leaf : Word) (bytes : List PByte),
    let n := 2 ^ sz.toNat
    (offsetAddr o s).toNat % n = 0 → translateMe (offsetAddr o s) .load s = .ok (pa, leaf) s₁ →
    readAhead o.a pa n s₁ = .ok bytes s₂ → clean bytes →
      exec (.ld sz o) s = .next (done s₂ ((runner s₂).setA o.d.toNat (signedBytes n bytes))) ∧
      exec (.ldz sz o) s = .next (done s₂ ((runner s₂).setA o.d.toNat (BitVec.ofNat 64 (valueOf bytes))))

/-- R178, R179, R180, Table 9.6: `st` stores the low 2^size bytes of b at the address, once the page may be written at the physical
address: they enter the hart's store buffer, or in deterministic mode its write-combining buffer, and a register of the register window
takes them at once. -/
def Sys2Proof.Claims.StoreResults : Prop :=
  ∀ (sz : BitVec 2) (o : FR) (s s₁ s₂ : State) (pa : Nat) (leaf : Word),
    let n := 2 ^ sz.toNat
    let t := stored s₂ pa n ((runner s).aReg o.b.toNat)
    (offsetAddr o s).toNat % n = 0 → translateMe (offsetAddr o s) .store s = .ok (pa, leaf) s₁ →
    readyToWrite (offsetAddr o s) pa n leaf (fun _ _ => false) s₁ = .ok () s₂ →
      exec (.st sz o) s = .next (done t (runner t))

/-- R96, R103, R178, R194, Table 9.6: `ld.acq` and `st.rel` at address a complete as `ld` and `st` do, the store once its checks have
been made and its release waits are over; the store and all that the hart had buffered leave the write-combining buffer. -/
def Sys2Proof.Claims.AcquireReleaseResults : Prop :=
  ∀ (sz : BitVec 2) (o : FR) (s : State),
    let n := 2 ^ sz.toNat
    let va := (runner s).aReg o.a.toNat
    va.toNat % n = 0 →
      (∀ (s₁ s₂ : State) (pa : Nat) (leaf : Word) (bytes : List PByte), translateMe va .load s = .ok (pa, leaf) s₁ →
        readPhys pa n s₁ = .ok bytes s₂ → clean bytes →
          ∃ h', acquiredHart ((runner s₂).setA o.d.toNat (signedBytes n bytes)) h' ∧ exec (.ldAcq sz o) s = .next (done s₂ h')) ∧
      (∀ (s₁ s₂ s₃ s₄ : State) (pa₁ pa : Nat) (leaf₁ leaf : Word), translateMe va .store s = .ok (pa₁, leaf₁) s₁ →
        readyToWrite va pa₁ n leaf₁ (fun _ _ => false) s₁ = .ok () s₁ →
        releaseAt (o.imm.extractLsb' 0 3).toNat s₁ = .ok () s₂ → translateMe va .store s₂ = .ok (pa, leaf) s₃ →
        readyToWrite va pa n leaf (fun _ _ => false) s₃ = .ok () s₄ →
          let t := stored s₄ pa n ((runner s₂).aReg o.b.toNat)
          exec (.stRel sz o) s = .next (done t (runner t).drainWcb))

/-- R181, R182, R183, R185, Table 9.8: an aligned atomic whose translation is allowed, whose location may be written and holds no
poison, and whose release waits are over where it is a release, completes: D becomes the old value, sign-extended, and the location at
its home becomes the new value of the table, or keeps its own where `amo.cas` finds another value than c. -/
def Sys2Proof.Claims.AtomicResults : Prop :=
  ∀ (d64 : Bool) (o : FR) (s s₁ s₂ s₃ : State) (x : Nat × Word) (pa : Nat) (leaf : Word),
    let w := if d64 then 8 else 4
    let va := (runner s).aReg o.a.toNat
    va.toNat % w = 0 → probeAtomic va w s = .ok x s₁ →
    (if o.imm.getLsbD 4 then releaseAt (o.imm.extractLsb' 0 3).toNat else pure ()) s₁ = .ok () s₂ →
    probeAtomic va w s₂ = .ok (pa, leaf) s₃ →
    let s₄ := (s₃.setHart s₃.cur ((runner s₃).dropEarly pa w)).settleFor pa w
    let old := s₄.oldBytes pa w
    ∀ p ∈ atomicNew w (valueOf old) (((runner s₂).aReg o.b.toNat).toNat % 2 ^ (8 * w))
          (((runner s₂).aReg o.c.toNat).toNat % 2 ^ (8 * w)),
        let s₅ := match p.2 with
          | some new => if windowOf pa = .register then s₄.storeWindow pa (cleanBytes (bytesOf w new))
            else s₄.putAtHome pa (bytesOf w new)
          | none => s₄
        ∃ h', (if o.imm.getLsbD 3 then acquiredHart ((runner s₅).setA o.d.toNat (signedBytes w old)) h'
            else h' = (runner s₅).setA o.d.toNat (signedBytes w old)) ∧
          exec (p.1 d64 o) s = .next (done s₅ h')

/-- R170, R179, R183: a misaligned scalar access takes MISALIGN with `sr.tval` the address, and performs nothing. -/
def Obligations.MisalignedAccessTraps : Prop :=
  ∀ (sz : BitVec 2) (d64 : Bool) (o : FR) (s : State),
    let va := (runner s).aReg o.a.toNat
    ((offsetAddr o s).toNat % 2 ^ sz.toNat ≠ 0 → ∀ i ∈ [Instr.ld sz o, .ldz sz o, .st sz o],
      exec i s = .next (trapped s .misalign (offsetAddr o s))) ∧
    (va.toNat % 2 ^ sz.toNat ≠ 0 → ∀ i ∈ [Instr.ldAcq sz o, .stRel sz o], exec i s = .next (trapped s .misalign va)) ∧
    (va.toNat % (if d64 then 8 else 4) ≠ 0 →
      ∀ p ∈ atomicNew 4 0 0 0, exec (p.1 d64 o) s = .next (trapped s .misalign va))

/-- R90, R93: a hart reads its own youngest store to a byte before its die has applied it, every other byte and every other hart
reads as before, and what the dies and the Casks hold is unchanged until the store is applied.
Choices of the model that it rests on: log entries 7, 67. -/
def Obligations.BufferedStoreIsRead : Prop :=
  ∀ (s : State) (n m pa p : Nat) (bytes : List PByte), ((s.hart n).det = false → (s.hart n).wcb = []) → m ≠ n →
    let t := s.bufferStore n pa bytes
    (∀ i (h : i < bytes.length), t.hartByte n (pa + i) = bytes[i]) ∧
    (¬(pa ≤ p ∧ p < pa + bytes.length) → t.hartByte n p = s.hartByte n p) ∧
    t.hartByte m p = s.hartByte m p ∧ ∀ d, t.byteAt d p = s.byteAt d p

/-- R74, R92, R93, R230, R360: the frame of an access. Translation changes no hart, team, launch or partition, and no byte where it
finds ACC, and for a write DTY, set; a read, also one that an early load answers, leaves what `readFrame` says; the checks of a store
change nothing; and what precedes a releasing store changes only the hart's buffers, its early loads and its fence count. -/
def Sys2Proof.Claims.AccessFrame : Prop :=
  ∀ (s s₁ : State) (va : Word) (acc : Access) (pa n scope : Nat) (leaf : Word) (bytes : List PByte) (base : BitVec 6),
    (translateMe va acc s = .ok (pa, leaf) s₁ →
      s₁.cur = s.cur ∧ s₁.harts = s.harts ∧ s₁.teams = s.teams ∧ s₁.launches = s.launches ∧ s₁.parts = s.parts ∧
      s₁.media = s.media ∧ (caskWindow ≤ va.toNat → s₁ = s) ∧
      (pteAcc leaf = true → (acc.writes = true → pteDty leaf = true) →
        (∀ d p, s₁.byteAt d p = s.byteAt d p) ∧ s₁.net = s.net ∧ s₁.cellarPend = s.cellarPend ∧ s₁.latent = s.latent)) ∧
    (readPhys pa n s = .ok bytes s₁ → readFrame s s₁ pa n) ∧ (readAhead base pa n s = .ok bytes s₁ → readFrame s s₁ pa n) ∧
    (readyToWrite va pa n leaf (fun _ _ => false) s = .ok () s₁ → s₁ = s) ∧
    (releaseAt scope s = .ok () s₁ →
      ∃ c, (c = (runner s).fcount ∨ c = (runner s).fcount + 1) ∧
        s₁ = s.setHart s.cur { (runner s).drainWcb with released := false, early := [], fcount := c })

/-- R90, R178, R179: the results of loads and stores of every size, with the frame that they leave.
Choices of the model that it rests on: log entries 7, 48, 68. -/
def Obligations.PlainAccesses : Prop := LoadResults ∧ StoreResults ∧ AccessFrame

/-- R178, R181 to R184: the results of `ld.acq`, `st.rel` and the atomics.
Choices of the model that it rests on: log entries 7, 14, 33, 48, 67, 68. -/
def Obligations.OrderedAccesses : Prop := AcquireReleaseResults ∧ AtomicResults

/-! ### Transfers of control (09_access_instructions R186-R193, 02 R39) -/

namespace Sys2Proof.Claims

/-- pc + 8 × OFF (R156). -/
def target (o : FB) (s : State) : Word := (runner s).pc + 8 * o.off.signExtend 64

/-- A branch that is taken when `c` holds: inside the segment control moves to the target, outside it SEG_ABSENT is taken; one that
is not taken goes on with the next word, whatever its target (R187). -/
def branches (i : Instr) (o : FB) (s : State) (c : Prop) : Prop :=
  (¬c → exec i s = .next (done s (runner s))) ∧
  (c → (runner s).inSeg (target o s) → exec i s = .next (doneAt s (target o s) (runner s))) ∧
  (c → ¬(runner s).inSeg (target o s) → exec i s = .next (trapped s .segAbsent (target o s)))

/-- SL of `sr.ec` after a `brot` (R39). -/
def slAfter (h : Hart) : Nat := (h.live * 2 + (if h.lc = 0 then 0 else 1)) % 2 ^ h.stages

/-- What `brot` leaves of the loop state (R39): `sr.lc`, `sr.ec`, `sr.rrb`, and masks m8 to m(7+NS); all else is kept. -/
def rotated (h h' : Hart) : Prop :=
  h'.lc = (if h.lc = 0 then 0 else h.lc - 1) ∧ h'.live = slAfter h ∧ h'.stages = h.stages ∧
  h'.rrbBase = (h.rrbBase + (if h.rrbPair then 2 else 1)) % 64 ∧ h'.rrbPair = h.rrbPair ∧
  (∀ st < h.stages, h'.mReg (8 + st) = if slAfter h / 2 ^ st % 2 = 1 then BitVec.allOnes 128 else 0) ∧
  (∀ k, k < 8 ∨ 8 + h.stages ≤ k → h'.mReg k = h.mReg k) ∧
  h' = { h with lc := h'.lc, ec := h'.ec, rrb := h'.rrb, m := h'.m }

end Sys2Proof.Claims

/-- R186, R187: the six comparing branches, `jmp`, and `call`, which links inside the segment and outside it leaves a63 unchanged. -/
def Sys2Proof.Claims.BranchResults : Prop :=
  ∀ (o : FB) (s : State),
    let a := (runner s).aReg o.a.toNat
    let b := (runner s).aReg o.b.toNat
    branches (.beq o) o s (a = b) ∧ branches (.bne o) o s (a ≠ b) ∧
    branches (.blt o) o s (a.toInt < b.toInt) ∧ branches (.bge o) o s (b.toInt ≤ a.toInt) ∧
    branches (.bltu o) o s (a.toNat < b.toNat) ∧ branches (.bgeu o) o s (b.toNat ≤ a.toNat) ∧ branches (.jmp o) o s True ∧
    ((runner s).inSeg (target o s) →
      exec (.call o) s = .next (doneAt s (target o s) ((runner s).setA 63 ((runner s).pc + 8)))) ∧
    (¬(runner s).inSeg (target o s) → exec (.call o) s = .next (trapped s .segAbsent (target o s)))

/-- R191, R28: a branch on vector data, once the EP and the matrix engine have finished the hart's instructions, decides over the
elements below vl that mask mb makes active; while they have not, the hart waits and nothing else changes. That vl is `sr.vl` itself is
the model's choice (log entry 22), and so are the counts `epq` and `meq` of instructions that have not finished (log entry 8). -/
def Sys2Proof.Claims.MaskBranchResults : Prop :=
  ∀ (o : FB) (s : State),
    let ma := (runner s).mReg (o.a.toNat % 16)
    let live := fun e => e < (runner s).vl.toNat ∧ ((runner s).mReg (o.b.toNat % 16)).getLsbD e
    ((runner s).epq = 0 → (runner s).meq = 0 →
      branches (.bvAny o) o s (∃ e, live e ∧ ma.getLsbD e) ∧ branches (.bvNone o) o s (¬∃ e, live e ∧ ma.getLsbD e) ∧
      branches (.bvAll o) o s (∀ e, live e → ma.getLsbD e) ∧ branches (.bvNall o) o s (¬∀ e, live e → ma.getLsbD e)) ∧
    (¬((runner s).epq = 0 ∧ (runner s).meq = 0) → ∀ i ∈ [Instr.bvAny o, .bvNone o, .bvAll o, .bvNall o],
      exec i s = .next (s.setHart s.cur { runner s with wait := some .resync }))

/-- R188: `jr` stays in the segment; `jmp.f` and `ret` reach any landed segment; a misaligned target takes MISALIGN first. -/
def Sys2Proof.Claims.TransferResults : Prop :=
  ∀ (p : FR) (s : State),
    let h := runner s
    (∀ a, a = h.aReg p.a.toNat →
      (a &&& 7 ≠ 0 → exec (.jr p) s = .next (trapped s .misalign a)) ∧
      (a &&& 7 = 0 → ¬h.inSeg a → exec (.jr p) s = .next (trapped s .segAbsent a)) ∧
      (a &&& 7 = 0 → h.inSeg a → exec (.jr p) s = .next (doneAt s a h))) ∧
    ∀ q ∈ [(Instr.jmpF p, h.aReg p.a.toNat), (.ret, h.aReg 63)],
      (q.2 &&& 7 ≠ 0 → exec q.1 s = .next (trapped s .misalign q.2)) ∧
      (q.2 &&& 7 = 0 → s.landedFor s.cur q.2 = false → exec q.1 s = .next (trapped s .segAbsent q.2)) ∧
      (q.2 &&& 7 = 0 → s.landedFor s.cur q.2 → exec q.1 s = .next (doneAt s q.2 { h with seg := q.2 &&& ~~~0xFFF }))

/-- R189, R190: `callt` with an index below LEN, a readable entry without poison that is valid and carries the call site's
signature, and a landed, aligned target, links and transfers; with an index at or above LEN it takes PROT, and with another
signature or an entry that is not valid SIG_MISMATCH. -/
def Sys2Proof.Claims.TableCallResults : Prop :=
  ∀ (o : FR) (s s₁ : State) (bytes : List PByte),
    let a := (runner s).aReg o.a.toNat
    let base : Word := (runner s).ftab &&& 0xFFFFFFFFFFFF0
    let e := valueOf bytes
    let t : Word := BitVec.ofNat 64 e
    (((runner s).ftab >>> 52).toNat ≤ a.toNat → exec (.callt o) s = .next (trapped s .prot a)) ∧
    (a.toNat < ((runner s).ftab >>> 52).toNat → loadBytes (base + 16 * a) 16 s = .ok bytes s₁ → clean bytes →
      (e / 2 ^ 96 % 2 = 1 → e / 2 ^ 64 % 2 ^ 20 = o.imm.toNat → t &&& 7 = 0 → s₁.landedFor s₁.cur t →
        exec (.callt o) s = .next (doneAt s₁ t { (runner s₁).setA 63 ((runner s₁).pc + 8) with seg := t &&& ~~~0xFFF })) ∧
      (¬(e / 2 ^ 96 % 2 = 1 ∧ e / 2 ^ 64 % 2 ^ 20 = o.imm.toNat) → s₁.cur = s.cur →
        exec (.callt o) s = .next (trapped s₁ .sigMismatch
          (BitVec.ofNat 64 ((if e / 2 ^ 96 % 2 = 1 then 0 else 2 ^ 40) + e / 2 ^ 64 % 2 ^ 20 * 2 ^ 20 + o.imm.toNat)))))

/-- R39, R192, R193: `bloop` counts `sr.lc` down and branches while it was not 0; `brot` ends a pass of a pipelined loop, with room
in the EP queue, and branches while a stage holds an iteration; a target outside the segment leaves everything unchanged. That `brot`
takes an entry of the EP queue, counted in `epq`, is the model's choice (log entry 8). -/
def Sys2Proof.Claims.LoopBranchResults : Prop :=
  ∀ (o : FB) (s : State),
    let t := target o s
    let h := runner s
    (h.lc = 0 → exec (.bloop o) s = .next (done s h)) ∧
    (h.lc ≠ 0 → h.inSeg t → exec (.bloop o) s = .next (doneAt s t { h with lc := h.lc - 1 })) ∧
    (h.lc ≠ 0 → ¬h.inSeg t → exec (.bloop o) s = .next (trapped s .segAbsent t)) ∧
    (slAfter h ≠ 0 → ¬h.inSeg t → exec (.brot o) s = .next (trapped s .segAbsent t)) ∧
    (h.epq < 64 → (slAfter h ≠ 0 → h.inSeg t) →
      ∃ h', rotated h h' ∧
        exec (.brot o) s = .next (doneAt s (if slAfter h ≠ 0 then t else h.pc + 8) { h' with epq := h.epq + 1 }))

/-- R39, R186, R187, R191, R192: branches on registers, on masks, and of loops, and `call`: where control goes, what is written, and that
one taken to another segment takes SEG_ABSENT and changes nothing else.
Choices of the model that it rests on: log entries 8, 22. -/
def Obligations.Branches : Prop := BranchResults ∧ MaskBranchResults ∧ LoopBranchResults

/-- R88, R188 to R190: jumps and returns through registers, within a segment and to another, and calls through the function table. -/
def Obligations.Transfers : Prop := TransferResults ∧ TableCallResults

/-! ### Exceptions and system instructions (21_faults R352-R356, 12_matrix R271-R273) -/

namespace Sys2Proof.Claims

/-- Hart `n` of team `t` can enter the supervisor routine of its partition now: its team has not ended, SUPV = 0, SUPVEC names a
segment, and the supervisor slot of the core holds it (R352, R353). -/
def canEnter (s : State) (n : Nat) (t : Team) : Prop :=
  s.teamOf n = some t ∧ t.status ≠ .ended ∧ (s.hart n).supv = false ∧ (s.part t.part).supSeg ≠ 0 ∧
  s.supState (coreOf n) t.part = some true

/-- The registers of R354 after the entry; every other one is kept. What the device notes of the instruction under way, its stall and its
early loads, is gone; the iteration vector and the memory error of its element are kept for the record of a `halt` in the routine (R346),
which runs in the core's slot. -/
def entered (h : Hart) (cause : BitVec 8) (tval epc : Word) (k : Nat) (seg : Nat) : Hart :=
  { h with epc := epc, evstart := BitVec.ofNat 64 k, cause := cause.setWidth 64, tval := tval, vstart := 0, supv := true,
           pc := BitVec.ofNat 64 seg, seg := BitVec.ofNat 64 seg, wait := none, released := false, finishing := false,
           elemIter := none, memErr := none, early := [], trapIter := h.elemIter, trapErr := h.memErr, routine := none }

/-- Special registers by index, for a hart in its state (Table 12.12). -/
def specialRegisters (s : State) : List (Nat × Word) :=
  let h := runner s
  [(0x000, h.vl), (0x001, (s.die (dieOf s.cur)).vlcap.setWidth 64), (0x002, h.vstart), (0x003, h.fcsr),
   (0x004, BitVec.ofNat 64 (h.supv.toNat * 2 + h.det.toNat)), (0x010, h.ftab), (0x011, h.slots), (0x018, h.lc), (0x019, h.ec),
   (0x01A, h.rrb),
   (0x020, BitVec.ofNat 64 (h.lcore % 256 * 2 ^ 32 + dieOf s.cur % 8 * 2 ^ 16 + s.dcore (coreOf s.cur) % 256 * 2 ^ 8 + s.cur % 2)),
   (0x021, BitVec.ofNat 64 (h.teamIx % 2 ^ 32 * 2 ^ 16 + h.size % 64 * 2 ^ 8 + h.rank % 32)), (0x022, h.kid),
   (0x030, h.vdirty 0), (0x031, h.vdirty 1), (0x032, h.vdirty 2), (0x033, h.vdirty 3), (0x040, h.clkw),
   (0x041, (s.core (coreOf s.cur)).cdone), (0x042, h.pcount), (0x043, h.sva), (0x044, h.mshape)]

/-- Those that the supervisor routine alone reads. -/
def supervisorRegisters (s : State) : List (Nat × Word) :=
  let h := runner s
  [(0x005, h.cause), (0x006, h.tval), (0x007, h.epc), (0x008, h.evstart)]

/-- The EP and the matrix engine have finished the hart's instructions, so that nothing waits for them. -/
def settledEp (s : State) : Prop := (runner s).epq = 0 ∧ (runner s).meq = 0

end Sys2Proof.Claims

/-- R344, R354: a trap of a hart that can enter the supervisor routine writes `sr.epc`, `sr.evstart`, `sr.cause`, `sr.tval`, clears
`sr.vstart`, sets SUPV and moves pc to the segment of SUPVEC in one step; nothing else in the state changes, but that the log takes one
record where the cause is one that R344 logs.
Choices of the model that it rests on: log entry 54. -/
def Obligations.TrapEntry : Prop :=
  ∀ (s : State) (n unit k : Nat) (cause : BitVec 8) (tval epc : Word) (t : Team), canEnter s n t →
    let u := s.takeTrap n unit cause tval epc k
    let logged := cause.toNat % 128 ∈ [0x0A, 0x18, 0x19, 0x1A, 0x1B, 0x30]
    u = { s.setHart n (entered (s.hart n) cause tval epc k (s.part t.part).supSeg) with log := u.log } ∧
      u.log = { s.log with pending := u.log.pending } ∧ (¬logged → u.log = s.log) ∧
      (logged → ∃ r, u.log.pending = s.log.pending ++ [r])

/-- R271, R354, Table 12.11: `trap` and `brk` take their causes with `sr.tval` the code X[13:0]; `sr.epc` is pc + 8 for `trap` and
pc for `brk`, and control is at the supervisor routine. -/
def Sys2Proof.Claims.TrapAndBreak : Prop :=
  ∀ (o : FC) (s : State) (t : Team), canEnter s s.cur t →
    let h := runner s
    let seg := (s.part t.part).supSeg
    exec (.trap o) s = .next (s.setHart s.cur (entered h 0x38 (o.x.setWidth 64) (h.pc + 8) 0 seg)) ∧
    exec (.brk o) s = .next (s.setHart s.cur (entered h 0x39 (o.x.setWidth 64) h.pc 0 seg))

/-- R167, R354: a word that is no instruction takes ILLEGAL with its class at its own address, with no other effect. -/
def Sys2Proof.Claims.ReservedEncodingTraps : Prop :=
  ∀ (s : State) (t : Team), canEnter s s.cur t → exec .reservedEncoding s =
    .next (s.setHart s.cur (entered (runner s) 0x01 s.badClass (runner s).pc 0 (s.part t.part).supSeg))

/-- R345, R353, R354: a trap of a running team's hart inside its supervisor routine, or with no routine, is a team fault: afterwards
the team has ended and its launch is FAULTED.
Choices of the model that it rests on: log entries 54, 70. -/
def Obligations.FaultInRoutineEndsTeam : Prop :=
  ∀ (s : State) (n unit k : Nat) (cause : BitVec 8) (tval epc : Word) (t : Team) (l : Launch), s.teamOf n = some t →
    t.status = .running → s.launch t.launch = some l → ((s.hart n).supv = true ∨ (s.part t.part).supSeg = 0) →
      let u := s.takeTrap n unit cause tval epc k
      (∃ t', u.team (s.hart n).team = some t' ∧ t'.status = .ended ∧ t'.faulted = true) ∧
      ∃ l', u.launch t.launch = some l' ∧ l'.faulted = true

/-- R271, R356: in the supervisor routine `eret` restores pc from `sr.epc` and `sr.vstart` from `sr.evstart` and clears SUPV; outside
it PRIV is taken with `sr.tval` 0. -/
def Obligations.ReturnFromTrap : Prop :=
  ∀ (s : State), let h := runner s
    (h.supv = true → h.copyFails = [] → exec .eret s = .next (s.setHart s.cur
      { h with pc := h.epc, seg := h.epc &&& ~~~0xFFF, vstart := h.evstart, supv := false, released := false, elemIter := none })) ∧
    (h.supv = false → exec .eret s = .next (trapped s .priv 0))

/-- R272, Tables 12.12 to 12.15: `srd` of a listed register reads it into D; outside the supervisor routine the four exception
registers take PRIV with `sr.tval` the index; an index that is not listed takes ILLEGAL 0x402.
Choices of the model that it rests on: log entries 8, 25. -/
def Obligations.SpecialRegisterReads : Prop :=
  ∀ (o : FC) (s : State), settledEp s →
    let i := (o.x.extractLsb' 0 12).toNat
    (∀ p ∈ specialRegisters s, i = p.1 → exec (.srd o) s = .next (done s ((runner s).setA o.d.toNat p.2))) ∧
    (∀ p ∈ supervisorRegisters s, i = p.1 →
      ((runner s).supv = true → exec (.srd o) s = .next (done s ((runner s).setA o.d.toNat p.2))) ∧
      ((runner s).supv = false → exec (.srd o) s = .next (trapped s .priv (BitVec.ofNat 64 i)))) ∧
    ((∀ p ∈ specialRegisters s ++ supervisorRegisters s, i ≠ p.1) → exec (.srd o) s = .next (trapped s .illegal 0x402))

/-- R4, R272, Table 12.12: `swr` of a register without behaviour of its own writes it, reserved bits kept at 0; the supervisor's
registers take PRIV outside its routine, and every index but those of the tables' writable registers takes ILLEGAL 0x402. -/
def Sys2Proof.Claims.SpecialRegisterWrites : Prop :=
  ∀ (o : FC) (s : State),
    let i := (o.x.extractLsb' 0 12).toNat
    let v := (runner s).aReg o.a.toNat
    let h := (runner s).at ((runner s).pc + 8)
    (∀ p ∈ [(0x010, { h with ftab := v &&& ~~~0xF }), (0x018, { h with lc := v }), (0x040, { h with clkw := v &&& 0xFFFFFFFF })],
      i = p.1 → exec (.swr o) s = .next (s.setHart s.cur p.2)) ∧
    (∀ p ∈ [(0x002, { h with vstart := v }), (0x005, { h with cause := v }), (0x006, { h with tval := v }),
        (0x007, { h with epc := v }), (0x008, { h with evstart := v })],
      i = p.1 → ((runner s).supv = true → exec (.swr o) s = .next (s.setHart s.cur p.2)) ∧
        ((runner s).supv = false → exec (.swr o) s = .next (trapped s .priv (BitVec.ofNat 64 i)))) ∧
    (i ∉ [0x000, 0x002, 0x003, 0x005, 0x006, 0x007, 0x008, 0x010, 0x011, 0x018, 0x019, 0x01A, 0x040] →
      exec (.swr o) s = .next (trapped s .illegal 0x402))

/-- R38, R49, R50, R272, R273: `swr` of `sr.fcsr` writes RM, EN and FLAGS once the EP has finished, and takes ILLEGAL for an RM of 5
to 7; of `sr.ec` drops SL bits at or above NS; of `sr.rrb` drops BASE bit 0 while PAIR is set; of `sr.vl` grants the supervisor
exactly a[A] up to CAP, takes VL_ILLEGAL above it and PRIV outside the routine. -/
def Sys2Proof.Claims.LoopAndStatusWrites : Prop :=
  ∀ (o : FC) (s : State),
    let v := (runner s).aReg o.a.toNat
    let h := runner s
    let rm := (v >>> 16).toNat % 8
    (rm < 5 → settledEp s → exec (.swrFcsr o) s = .next (done s { h with fcsr := v &&& 0x71F1F })) ∧
    (5 ≤ rm → exec (.swrFcsr o) s = .next (trapped s .illegal v)) ∧
    (∃ e, exec (.swrEc o) s = .next (done s { h with ec := e }) ∧ (e >>> 8).toNat = (v >>> 8).toNat % 8 ∧
      (e &&& 0xFF).toNat = (v &&& 0xFF).toNat % 2 ^ ((v >>> 8).toNat % 8 + 1)) ∧
    exec (.swrRrb o) s = .next (done s { h with rrb := if v &&& 0x40 = 0 then v &&& 0x3F else v &&& 0x7E }) ∧
    (h.supv = false → exec (.swrVl o) s = .next (trapped s .priv 0)) ∧
    (h.supv = true → v.toNat ≤ (s.die (dieOf s.cur)).vlcap.toNat → exec (.swrVl o) s = .next (done s { h with vl := v })) ∧
    (h.supv = true → (s.die (dieOf s.cur)).vlcap.toNat < v.toNat → exec (.swrVl o) s = .next (trapped s .vlIllegal v))

/-- R28, R43, R103, R271: `nop` only moves on; `sync.ae` does, once the EP and the matrix engine have finished; `halt` outside the
supervisor routine then drains the write-combining buffer and retires the hart. -/
def Obligations.SyncAndHalt : Prop :=
  ∀ (s : State),
    exec .nop s = .next (done s (runner s)) ∧
    (settledEp s → exec .syncAe s = .next (done s (runner s))) ∧
    (settledEp s → (runner s).supv = false →
      ∃ h', exec .halt s = .next (s.setHart s.cur h') ∧ h'.status = .halted ∧ h'.wcb = [] ∧
        h'.sbuf = (runner s).sbuf ++ (runner s).wcb ∧ h'.a = (runner s).a ∧ h'.v = (runner s).v ∧ h'.m = (runner s).m)

/-- R133, R136, R233: `swr` of `sr.slots` writes the register and latches the descriptors at the new address afresh; in a
SLOT_ONLY launch that may be spliced it takes ILLEGAL with `sr.tval` 0x011. -/
def Sys2Proof.Claims.SlotTableWrites : Prop :=
  ∀ (o : FC) (s : State),
    let v := (runner s).aReg o.a.toNat
    ((∀ l, s.launchOf s.cur = some l → l.spliceOk = false ∨ l.slotOnly = false) →
      ∀ s₁, latchSlots s.cur (s.setHart s.cur { runner s with slots := v }) = .ok () s₁ →
        exec (.swrSlots o) s = .next (done s₁ (runner s₁))) ∧
    (∀ l, s.launchOf s.cur = some l → l.spliceOk = true → l.slotOnly = true →
      exec (.swrSlots o) s = .next (trapped s .illegal 0x011))

/-- The entries that a `tlbinv` of partition `p` names: every one of the partition's, or that of the page of `size` bytes at `va`. -/
def Sys2Proof.Claims.named (p : Nat) (all : Bool) (va size : Nat) (e : TlbEntry) : Prop :=
  e.part = p ∧ (all = true ∨ (e.va ≤ va ∧ va < e.va + e.size ∧ e.size = size ∧ e.va % size = 0))

/-- R75, R271, R364: in the supervisor routine `tlbinv` removes every entry that it names, and no other, from the TLBs of the partition's
dies and cores, and waits; once released it completes. Of harts it changes nothing but that a routine which runs goes on in the segment's
copy that its core held. `tlbinv` and `pgmig` outside the routine take PRIV. -/
def Sys2Proof.Claims.TlbInvalidation : Prop :=
  ∀ (o : FC) (s : State),
    let h := runner s
    let p := s.partOf s.cur
    let all := o.x.getLsbD 0
    let va := (h.aReg o.a.toNat).toNat
    let size := 2 ^ (16 + 6 * (o.x.extractLsb' 2 2).toNat)
    (h.supv = false → ∀ i ∈ [Instr.tlbinv o, .pgmig o], exec i s = .next (trapped s .priv 0)) ∧
    (h.supv = true → h.released = true → exec (.tlbinv o) s = .next (done s h)) ∧
    (h.supv = true → h.released = false →
      let u := s.invalidate p all va size
      exec (.tlbinv o) s = .next (u.setHart s.cur { u.hart s.cur with
        wait := some (.tlbinv (s.namedPages p all va size)), finishing := false }) ∧
      (∀ n, u.hart n = s.hart n ∨ ((s.hart n).supv = true ∧ (s.hart n).routine = none ∧ (s.core (coreOf n)).sup.landed = some true ∧
        u.hart n = { s.hart n with routine := some (s.core (coreOf n)).sup })) ∧
      (∀ d e, e ∈ (u.die d).tlb ↔ e ∈ (s.die d).tlb ∧ ¬(d ∈ s.diesOf p ∧ named p all va size e)) ∧
      (∀ c e, e ∈ (u.core c).tlb ↔ e ∈ (s.core c).tlb ∧ ¬(c ∈ s.coresIn p ∧ named p all va size e)) ∧
      (∀ d ∈ s.diesOf p, ∀ e ∈ (s.die d).tlb, named p all va size e → (pteAddr e.leaf, e.size) ∈ s.namedPages p all va size))

/-- R79, R80, R271: in the supervisor routine, for a mapped page that is not on its way, `pgmig` reports 3 for a frame that is
misaligned or outside a window, 2 for a page without DUP in modes 1 and 2, and 1 for a fifteenth duplicate too many; else mode 0
begins the move and waits, mode 1 performs the stores to the page that have retired, copies it to the frame and adds its holder,
mode 2 drops the holder, and both report 0; a move that is over reports 0. -/
def Sys2Proof.Claims.PageMigration : Prop :=
  ∀ (o : FC) (s s₁ : State) (e : TlbEntry),
    let h := runner s
    let va := h.aReg o.a.toNat
    let frame := (h.aReg o.b.toNat).toNat
    let mode := (o.x.extractLsb' 0 2).toNat
    h.supv = true →
    (h.released = true → exec (.pgmig o) s = .next (done s (h.setA o.d.toNat 0))) ∧
    (h.released = false → va.toNat < caskWindow → findLeaf (s.partOf s.cur) (dieOf s.cur) (some (coreOf s.cur)) va.toNat s = .ok e s₁ →
      let page := pteAddr e.leaf
      let held := Tbl.get [] s₁.dups page
      let status := fun n => exec (.pgmig o) s = .next (done s₁ ((runner s₁).setA o.d.toNat n))
      let does := fun (u : State) => exec (.pgmig o) s = .next (done u ((runner u).setA o.d.toNat 0))
      Tbl.get none s₁.moving page = none →
      (frameOk frame e.size = false → status 3) ∧
      (frameOk frame e.size = true →
        (mode = 0 → exec (.pgmig o) s = .next
          (({ s₁ with moving := Tbl.set none s₁.moving page (some ⟨s₁.cur, frame, e.leafPa, e.size, s₁.partOf s₁.cur⟩) } : State).setWait
            s.cur (.pgmig page))) ∧
        (mode ≠ 0 → pteDup e.leaf = false → status 2) ∧
        (mode = 1 → pteDup e.leaf = true → 15 ≤ held.length → holderOf frame ∉ held → status 1) ∧
        (mode = 1 → pteDup e.leaf = true → (held.length < 15 ∨ holderOf frame ∈ held) →
          let u := (s₁.performDrained page e.size).copyFrame (dieOf s₁.cur) page frame e.size
          does { u with
            dupSizes := Tbl.set 0 u.dupSizes page e.size
            dups := Tbl.set [] u.dups page (if holderOf frame ∈ held then held else held ++ [holderOf frame]) }) ∧
        (mode = 2 → pteDup e.leaf = true →
          does { s₁ with dups := Tbl.set [] s₁.dups page (held.filter (· != holderOf frame)) })))

/-- R75, R80: TLBINV_COMPLETE, once nothing of the partition holds a translation that was removed, performs the stores that had one and
lets the instruction complete; until then it changes nothing. PGMIG_COMPLETE ends a move, once no Cellar store is pending that it could
not carry: the page is no longer on its way, no TLB translates to its old frame, and the instruction that waited completes. A leaf in
error instead checks the partition of the hart that asked, and the page stays. -/
def Sys2Proof.Claims.TranslationEvents : Prop :=
  ∀ (s : State), let n := s.ev.hart
    (∀ pages, s.awake n = true → (s.hart n).wait = some (.tlbinv pages) →
      (s.translationHeld (s.partOf n) pages = true → exec .tlbinvComplete s = .next s) ∧
      (s.translationHeld (s.partOf n) pages = false →
        let u := s.flushPages (s.partOf n) pages
        exec .tlbinvComplete s = .next (u.setHart n { u.hart n with wait := none, released := true }) ∧
        ∀ m ∈ s.hartsIn (s.partOf n), ∀ e ∈ (u.hart m).sbuf ++ (u.hart m).wcb, ∀ x ∈ pages,
          rangesMeet e.pa e.bytes.length x.1 x.2 = false)) ∧
    (∀ old m, (s.moving.find? fun e => match e.2 with
        | some m => m.hart == n
        | none => false) = some (old, some m) →
      let bad := s.badNode (dieOf m.hart) m.leafPa
      (bad = true → exec .pgmigComplete s =
        .next (({ s with moving := Tbl.set none s.moving old none } : State).nodeCheck m.part m.leafPa)) ∧
      (bad = false → s.mayMove old m = false → exec .pgmigComplete s = .next s) ∧
      (bad = false → s.mayMove old m = true → ∃ t, exec .pgmigComplete s = .next t ∧ Tbl.get none t.moving old = none ∧
        (∀ d, ∀ e ∈ (t.die d).tlb, pteAddr e.leaf ≠ old) ∧ (∀ c, ∀ e ∈ (t.core c).tlb, pteAddr e.leaf ≠ old) ∧
        ((s.hart m.hart).wait = some (.pgmig old) → (t.hart m.hart).wait = none)))

/-- R167, R271, R354: `trap`, `brk`, and a word that is no instruction. -/
def Obligations.TrapInstructions : Prop := TrapAndBreak ∧ ReservedEncodingTraps

/-- R4, R38, R49, R50, R133, R136, R233, R272, R273: `swr` of every register of Table 12.12.
Choices of the model that it rests on: log entries 8, 25, 26, 73. -/
def Obligations.RegisterWrites : Prop := SpecialRegisterWrites ∧ LoopAndStatusWrites ∧ SlotTableWrites

/-- R75, R79, R80, R271: `tlbinv` and `pgmig`, and the events that complete them.
Choices of the model that it rests on: log entries 46, 47. -/
def Obligations.TranslationCare : Prop := TlbInvalidation ∧ PageMigration ∧ TranslationEvents

/-! ### Vector instructions (10_vector_instructions, 03_numbers) -/

namespace Sys2Proof.Claims

/-- The EP queue has room, every queue source holds an entry, and the supervisor routine names none (R25, R27, R355). -/
def canSend (s : State) (ss : List VSrc) : Prop :=
  (runner s).epq < 64 ∧ (∀ q ∈ queuesOf ss, (runner s).queue q ≠ []) ∧ ((runner s).supv = true → queuesOf ss = [])

/-- No lane error waits for the hart, no flag traps, and its instruction is not cut. -/
def quiet (h : Hart) : Prop := h.laneErr = none ∧ h.en = 0 ∧ h.cut = none

/-- A 64-bit tag is on an even register (R31), for a destination and the register sources of an instruction. -/
def evenPairs (h : Hart) (d : Nat) (ss : List VSrc) : Prop :=
  ∀ n, n = d ∨ VSrc.reg n ∈ ss → tagWidth (h.vreg (h.rot n)).tag = 64 → h.rot n % 2 = 0

/-- The registers of a 64-bit pair share a number here (R31, R198). -/
def pairOf (h : Hart) (n : Nat) : Nat := if tagWidth (h.vreg (n / 2 * 2)).tag = 64 then n / 2 * 2 else n

/-- D shares no register or pair with a source (R198). -/
def apart (h : Hart) (d : Nat) (ss : List VSrc) : Prop := ∀ n, VSrc.reg n ∈ ss → pairOf h (h.rot n) ≠ pairOf h (h.rot d)

/-- The instruction has completed in `t` on pipes `ps`: pc moves on, an entry enters the EP queue, queue sources lose their heads (R195),
the tasters' LFSRs of the pipes step (R383); besides, only vector registers and FLAGS of the hart may differ. -/
def doneOnPipes (s t : State) (ss : List VSrc) (ps : List Nat) : Prop :=
  let h := runner s
  let h' := runner t
  t = { (s.tasted ps).setHart s.cur h' with fresh := t.fresh } ∧
  h' = ({ h with v := h'.v, q := h'.q, fcsr := h'.fcsr, epq := h.epq + 1 } : Hart).at (h.pc + 8) ∧
  ∀ q, h'.queue q = if q ∈ queuesOf ss then (h.queue q).tail else h.queue q

/-- An instruction that is no EP+EP word has completed. -/
def vectorDone (s t : State) (ss : List VSrc) : Prop := doneOnPipes s t ss [ownPipe s.cur]

/-- Register `d` after a loop over elements `lo` to `hi − 1`: an element holds the value given for it, or is undisturbed; every
register keeps its tag, and every other register is kept. -/
def written (h h' : Hart) (d lo hi : Nat) (val : Nat → Option Nat) : Prop :=
  (∀ e < 128, h'.elem (h.rot d) e = match (if lo ≤ e ∧ e < hi then val e else none) with
    | some x => x % 2 ^ tagWidth (h.vreg (h.rot d)).tag
    | none => h.elem (h.rot d) e) ∧
  (∀ n, (h'.vreg n).tag = (h.vreg n).tag ∧ (h'.vreg n).sat = (h.vreg n).sat) ∧
  ∀ n, n ≠ h.rot d → ¬(tagWidth (h.vreg (h.rot d)).tag = 64 ∧ n = h.rot d + 1) → h'.vreg n = h.vreg n

/-- The flags of the active elements from `lo` to `hi − 1` (R51). -/
def flagsOver (lo hi : Nat) (mk : Mask) (fl : Nat → Flags) : Flags :=
  (span lo hi).foldl (fun (f : Flags) e => if mk.getLsbD e then f ||| fl e else f) 0

/-- FLAGS gain the flags of the active elements (R51), and `sr.fcsr` changes in nothing else. -/
def gained (h h' : Hart) (lo hi : Nat) (mk : Mask) (fl : Nat → Flags) : Prop :=
  h'.fcsr = h.fcsr ||| (flagsOver lo hi mk fl).setWidth 64

/-- A vector instruction as the loop of R195 sees it: sources, operands that break its class, mask, MU, destination, and what
element e gives. -/
structure Row where
  i : Instr
  ss : List VSrc
  faults : Hart → List (Bool × Word)
  mask : Hart → Mask
  mu : Bool
  d : Nat
  res : Hart → Nat → ElemResult

/-- The masked value of the loop of R195. -/
def Row.masked (r : Row) (h : Hart) (val : Nat → Nat) (e : Nat) : Option Nat :=
  if (r.mask h).getLsbD e then some (val e) else if r.mu then some 0 else none

/-- The hart once the elements below `e` have been performed, as far as registers go: `vunpk4` and `vbscale` read their scale byte again
at every element. -/
def Row.through (r : Row) (h : Hart) (val : Nat → Nat) (e : Nat) : Hart :=
  (span h.start e).foldl (fun g i => match r.masked h val i with
    | some x => writeReg r.d i x g
    | none => g) h

/-- The row reads one scale byte for all its elements (R219, R220). -/
def Row.scaled (r : Row) (o : F3) : Bool := r.i = .vunpk4 o || r.i = .vbscale o

/-- The tags are checked at element 0 (R63). -/
def Row.atZero (r : Row) (o : F3) : Bool := r.i = .vexp2 o || r.i = .vlog2 o

/-- An elementwise row of a class. -/
def ewRow (i : Instr) (o : F3) (c : OpClass) (ss extra : List VSrc) (res : Nat → List VSrc → Hart → Nat → ElemResult) : Row :=
  ⟨i, ss, fun h => c.faults h o.d.toNat ss, (·.maskOf o.msk), o.mu, o.d.toNat, withSources (ss ++ extra) (res o.d.toNat ss)⟩

/-- The elementwise instructions of majors 0x18, 0x19, 0x1A, 0x1B, 0x1D and 0x1E with a register destination, each with its class
(Table 10.2) and its result. -/
def elementwiseRows (o : F3) (a : Word) : List Row :=
  let two := twoSrc o
  let one := oneSrc o
  let d := o.d.toNat
  let va := srcOf o.a o.qa
  let vb := srcOf o.b o.qb
  let fma := fun (i : Instr) (f : RMode → Exact → Exact → Exact → Exact × Flags) => ewRow i o .n two [.reg d] (op3 f)
  let bits2 := fun (i : Instr) (c : OpClass) (f : Nat → Nat → Nat → Nat) => ewRow i o c two [] fun _ => opBits f
  [ewRow (.vadd o) o .n two [] (op2 addOp), ewRow (.vsub o) o .n two [] (op2 subOp), ewRow (.vmul o) o .n two [] (op2 mulOp),
   ewRow (.vmulh o) o .h two [] mulhOp, fma (.vfma o) fmaOp, fma (.vfms o) fmsOp, fma (.vfnma o) fnmaOp,
   ewRow (.vdiv o) o .n two [] (divOp false), ewRow (.vrem o) o .n two [] (divOp true),
   ewRow (.vsqrt o) o .f one [] (op1 sqrtE), ewRow (.vrcp o) o .f one [] (op1 rcpE), ewRow (.vrsqrt o) o .f one [] (op1 rsqrtE),
   ewRow (.vmin o) o .n two [] (op2 minOp), ewRow (.vmax o) o .n two [] (op2 maxOp),
   ewRow (.vabs o) o .n one [] (op1 absOp), ewRow (.vneg o) o .n one [] (op1 negOp),
   bits2 (.vand o) .w andOp, bits2 (.vor o) .w orOp, bits2 (.vxor o) .w xorOp, bits2 (.vandn o) .w andnOp,
   ewRow (.vnot o) o .w one [] fun _ => opBits notOp,
   bits2 (.vsll o) .s sllOp, bits2 (.vsrl o) .s srlOp, bits2 (.vsra o) .s sraOp,
   ewRow (.vclz o) o .i one [] (opCount clzOp), ewRow (.vpopc o) o .i one [] (opCount popcOp),
   ewRow (.vcvt o) o .n one [] (op1 sameOp), ewRow (.vmov o) o .w one [] fun _ => opBits movOp,
   ewRow (.vexp2 o) o .e one [] (expLogOp exp2E), ewRow (.vlog2 o) o .e one [] (expLogOp log2E),
   { i := .vsel o, ss := two, faults := fun h => OpClass.n.faults h d two, mask := fun _ => BitVec.allOnes 128, mu := false, d := d,
     res := fun h e =>
       let src := if (h.maskOf o.msk).getLsbD e then va else vb
       withSources [src] (op1 sameOp d [src]) h e },
   { ewRow (.vclass o) o .n one [] (fun _ _ h e => .ok (2 ^ classBit (va.tag h) (va.elem h e), 0)) with
     faults := fun h =>
       let t := (h.vreg (h.rot d)).tag
       [(h.isPairHigh (h.rot d) || !tagIsInt t || tagWidth t < 16, BitVec.ofNat 64 d), (va.pairHigh h, va.tagTval)] },
   ewRow (.mpopc o) o .n [] [] fun _ _ h _ => intoReg h d ⟨Exact.ofInt (h.bothActive o.a o.msk).length, false⟩ 0,
   ewRow (.mfirst o) o .n [] [] fun _ _ h _ =>
     intoReg h d ⟨Exact.ofInt (((h.bothActive o.a o.msk).head?.map fun e => (e : Int)).getD (-1)), false⟩ 0,
   { ewRow (.vsac o) o .n [va, vb] [] (fun _ _ _ _ => .ok (0, 0)) with
     faults := fun h => scaleFaults h d va vb
     res := withSources [va, vb, .reg d] fun h e =>
       match scalePair (vb.elem h e) with
       | none => .ok ((fmtOf (h.vreg (h.rot d)).tag).canonicalNaN, 0)
       | some k => valueResult d [va.val h e] (fmaE h.rm (va.val h e).x (.fin false 1 k false) (VSrc.val h e (.reg d)).x) h },
   { ewRow (.vpack4 o) o .n [va] [] (op1 sameOp) with
     faults := fun h =>
       [(h.isPairHigh (h.rot d) || !tagIsQ4 (h.vreg (h.rot d)).tag, BitVec.ofNat 64 d), (va.pairHigh h, va.tagTval)] },
   { ewRow (.vunpk4 o) o .n [va, vb] [] (fun _ _ _ _ => .ok (0, 0)) with
     faults := fun h => [(h.isPairHigh (h.rot d) || tagIsQ4 (h.vreg (h.rot d)).tag, BitVec.ofNat 64 d),
       (va.pairHigh h || !tagIsQ4 (va.tag h), va.tagTval), (vb.pairHigh h || vb.tag h ≠ 0, vb.tagTval)]
     res := scaledResult d va vb fun h e x => ((decodeQ4 (x / 64 % 4) (va.elem h e)).scale ((x % 64 : Nat) - 32), 0) },
   { ewRow (.vbscale o) o .n [va, vb] [] (fun _ _ _ _ => .ok (0, 0)) with
     faults := fun h =>
       [(h.isPairHigh (h.rot d), BitVec.ofNat 64 d), (va.pairHigh h, va.tagTval), (vb.pairHigh h || vb.tag h ≠ 0, vb.tagTval)]
     res := scaledResult d va vb fun h e x => ((va.val h e).x.scale (32 - (x % 64 : Nat)), (va.val h e).x.snan) },
   ewRow (.vbcast o) o .n [] [] fun _ _ h _ => scalarInto o a h,
   ewRow (.vid o) o .n [] [] fun _ _ h e => intoReg h d ⟨Exact.ofInt e, false⟩ 0]

/-- A scan or permute whose result e comes from source elements other than e. -/
def crossRow (i : Instr) (o : F3) (ss : List VSrc) (faults : Hart → List (Bool × Word))
    (pick : Hart → Nat → Except Word (Option (VSrc × Nat))) : Row :=
  ⟨i, ss, faults, (·.maskOf o.msk), o.mu, o.d.toNat, fun h e => match pick h e with
    | .error t => .error (.poisonConsumed, t)
    | .ok (some (a, j)) => moveElem o.d.toNat h a j e
    | .ok none => .ok (0, 0)⟩

/-- `vscan` (R62, R213), the permutes that keep places by number (Table 10.7), and `vexpand`; `vslup` apart. -/
def crossRows (o : F3) : List Row :=
  let two := twoSrc o
  let one := oneSrc o
  let va := srcOf o.a o.qa
  let vb := srcOf o.b o.qb
  let n := fun ss => nFaults o ss
  [⟨.vscan o, one, fun h => (redClass (redOp o)).faults h o.d.toNat one, (·.maskOf o.msk), o.mu, o.d.toNat,
      fun h e =>
        if poisonIn h va (h.maskOf o.msk) 0 (e + 1) then .error (.poisonConsumed, va.poisonTval e)
        else
          let p := scanAt h (redOp o) va (h.maskOf o.msk) e
          intoReg h o.d.toNat (nodeVal (va.tag h) p.1) p.2⟩,
   crossRow (.vsldn o) o one (n one) fun h e => .ok (if e + slide o < h.vlen then some (va, e + slide o) else none),
   crossRow (.vperm o) o two
     (fun h => [(h.isPairHigh (h.rot o.d.toNat), BitVec.ofNat 64 o.d.toNat), (va.pairHigh h, va.tagTval),
       (vb.pairHigh h || !tagIsInt (vb.tag h), vb.tagTval)])
     fun h e => if vb.poison h e then .error (vb.poisonTval e) else
       .ok (if vb.elem h e < 128 then some (va, vb.elem h e) else none),
   crossRow (.vzip o) o two (n two) fun _ e => .ok (some (if e % 2 = 0 then va else vb, e / 2)),
   crossRow (.vunzip o) o two (n two) fun _ e =>
     let j := 2 * e + (o.x.getLsbD 0).toNat
     .ok (some (if j < 128 then (va, j) else (vb, j - 128))),
   crossRow (.vrev o) o one (n one) fun h e => .ok (some (va, h.vlen - 1 - e)),
   crossRow (.vexpand o) o one (n one) fun h e => .ok (some (va, ((List.range e).filter (h.maskOf o.msk).getLsbD).length))]

/-- An instruction that writes element 0 alone (R212, R214, R216). -/
def zeroRows (o : F3) : List Row :=
  let va := srcOf o.a o.qa
  let vb := srcOf o.b o.qb
  let d := o.d.toNat
  [⟨.vred o, [va], fun h => (redClass (redOp o)).faults h d [va], (·.maskOf o.msk), false, d, fun h _ =>
      match wholePoison h [va] (h.maskOf o.msk) with
      | some t => .error (.poisonConsumed, t)
      | none =>
        let p := treeOver h (redOp o) va (h.maskOf o.msk)
        intoReg h d (nodeVal (va.tag h) p.1) p.2⟩,
   ⟨.vdot o, [va, vb], fun h => dotFaults h d va vb, (·.maskOf o.msk), false, d,
      fun h _ => dotResult h d va vb (h.maskOf o.msk) 0 0 128⟩,
   ⟨.vsacb o, [va, vb], fun h => scaleFaults h d va vb, (·.maskOf o.msk), false, d, fun h _ => sacbResult h d va vb (h.maskOf o.msk)⟩]

end Sys2Proof.Claims

/-- R195, R201, Table 10.2: an elementwise instruction whose operands fit its class, and each of whose active elements from
`sr.vstart` below vl gives a value, completes: those elements take their values, inactive ones are zeroed where MU is 1 and
undisturbed where it is 0, elements at and above vl are undisturbed, and nothing else but FLAGS and the queue sources changes. The
sources of an element are read as they stood at the start, but for the scale byte of `vunpk4` and `vbscale`: that it is read at every
element is the model's choice (log entry 71).
Choices of the model that it rests on: log entries 11, 15, 16, 17, 18, 22, 71, 79, 81. -/
def Obligations.ElementwiseResults : Prop :=
  ∀ (o : F3) (s : State), ∀ r ∈ elementwiseRows o ((runner s).aReg (o.a.toNat % 64)),
    let h := runner s
    canSend s r.ss → quiet h → evenPairs h r.d r.ss → (∀ p ∈ r.faults h, p.1 = false) →
    ∀ (val : Nat → Nat) (fl : Nat → Flags),
      (∀ e, h.start ≤ e → e < h.vlen → (r.mask h).getLsbD e →
        r.res (if r.scaled o then r.through h val e else h) e = .ok (val e, fl e)) →
        ∃ t, exec r.i s = .next t ∧ vectorDone s t r.ss ∧ written h (runner t) r.d h.start h.vlen (r.masked h val) ∧
          gained h (runner t) h.start h.vlen (r.mask h) fl

/-- R62, R198, R213, R217, Table 10.7: a scan, a permute or an expansion whose D shares no register or pair with its sources
completes in the same way; `vslup` leaves the elements below its distance undisturbed.
Choices of the model that it rests on: log entries 11, 18, 80. -/
def Obligations.CrossElementResults : Prop :=
  ∀ (o : F3) (s : State),
    let h := runner s
    let va := srcOf o.a o.qa
    let up := crossRow (.vslup o) o (oneSrc o) (nFaults o (oneSrc o)) fun _ e => .ok (some (va, e - slide o))
    ∀ r ∈ up :: crossRows o,
      let lo := if r.i = .vslup o then max h.start (slide o) else h.start
      canSend s r.ss → quiet h → evenPairs h r.d r.ss → apart h r.d r.ss → (∀ p ∈ r.faults h, p.1 = false) →
      ∀ (val : Nat → Nat) (fl : Nat → Flags),
        (∀ e, lo ≤ e → e < h.vlen → (r.mask h).getLsbD e → r.res h e = .ok (val e, fl e)) →
          ∃ t, exec r.i s = .next t ∧ vectorDone s t r.ss ∧ written h (runner t) r.d lo h.vlen (r.masked h val) ∧
            gained h (runner t) lo h.vlen (r.mask h) fl

/-- R61, R212, R214, R216: `vred`, `vdot` and `vsacb` write element 0 of vd alone, and nothing where `sr.vstart` is at or above vl;
`vdotg` writes one element for each group of G source elements below vl; `vcompress` moves the elements that MK selects down; FLAGS gain
the flags of the elements written.
Choices of the model that it rests on: log entries 11, 16, 18, 19, 76, 80. -/
def Obligations.ReductionResults : Prop :=
  ∀ (o : F3) (s : State),
    let h := runner s
    let va := srcOf o.a o.qa
    let vb := srcOf o.b o.qb
    (∀ r ∈ zeroRows o, canSend s r.ss → quiet h → evenPairs h r.d r.ss → apart h r.d r.ss → (∀ p ∈ r.faults h, p.1 = false) →
      (∀ (x : Nat) (f : Flags), h.start < h.vlen → r.res h 0 = .ok (x, f) →
        ∃ t, exec r.i s = .next t ∧ vectorDone s t r.ss ∧ written h (runner t) r.d 0 1 (fun _ => some x) ∧
          (runner t).fcsr = h.fcsr ||| f.setWidth 64) ∧
      (h.vlen ≤ h.start →
        ∃ t, exec r.i s = .next t ∧ vectorDone s t r.ss ∧ (runner t).v = h.v ∧ (runner t).fcsr = h.fcsr)) ∧
    (let g := 2 ^ (o.x.extractLsb' 0 3).toNat
     canSend s [va, vb] → quiet h → evenPairs h o.d.toNat [va, vb] → apart h o.d.toNat [va, vb] →
     (∀ p ∈ dotFaults h o.d.toNat va vb, p.1 = false) → h.start < h.vlen →
     ∀ (val : Nat → Nat) (fl : Nat → Flags),
       (∀ j, h.start ≤ j → j < ceilDiv h.vlen g →
         dotResult h o.d.toNat va vb (h.maskOf o.msk) j (j * g) (j * g + g) = .ok (val j, fl j)) →
         ∃ t, exec (.vdotg o) s = .next t ∧ vectorDone s t [va, vb] ∧
           written h (runner t) o.d.toNat h.start (ceilDiv h.vlen g) (fun j => some (val j)) ∧
           gained h (runner t) h.start (ceilDiv h.vlen g) (BitVec.allOnes 128) fl) ∧
    (∀ p ∈ [(Instr.vdotg o, [va, vb]), (.vcompress o, [va])], canSend s p.2 → apart h o.d.toNat p.2 → h.vlen ≤ h.start →
        ∃ t, exec p.1 s = .next t ∧ vectorDone s t p.2 ∧ (runner t).v = h.v ∧ (runner t).fcsr = h.fcsr) ∧
    (canSend s [va] → quiet h → evenPairs h o.d.toNat [va] → apart h o.d.toNat [va] → (∀ p ∈ nFaults o [va] h, p.1 = false) →
     ∀ (val : Nat → Nat) (fl : Nat → Flags),
       (∀ k (hk : k < (h.masked o.msk).length), h.start ≤ k →
         moveElem o.d.toNat h va (h.masked o.msk)[k] k = .ok (val k, fl k)) →
         ∃ t, exec (.vcompress o) s = .next t ∧ vectorDone s t [va] ∧
           written h (runner t) o.d.toNat h.start h.vlen (fun k =>
             if k < (h.masked o.msk).length then some (val k) else if o.mu then some 0 else none) ∧
           gained h (runner t) h.start h.vlen (BitVec.ofNat 128 (2 ^ (h.masked o.msk).length - 1)) fl)

/-- R208, R210, R211, Table 10.4: `vcmp` and `vmsk` write mask bits by the loop of R195, and the mask operations write every bit
below vl, whatever `sr.vstart` is, but `mset` none where that is at or above vl; every other bit, every other mask and every queue
that is no source is kept, and FLAGS gain the flags of the compared elements.
Choices of the model that it rests on: log entries 11, 22. -/
def Obligations.MaskResults : Prop :=
  ∀ (o : F3) (s : State),
    let h := runner s
    let d := o.d.toNat % 16
    let mk := h.maskOf o.msk
    let ma := h.mReg (o.a.toNat % 16)
    let mb := h.mReg (o.b.toNat % 16)
    let cmp := fun (e : Nat) => compareVals (o.x.extractLsb' 0 3).toNat ((srcOf o.a o.qa).val h e).x ((srcOf o.b o.qb).val h e).x
    let kept := fun (s t : State) (ss : List VSrc) => (∀ n, n ≠ d → (runner t).mReg n = h.mReg n) ∧
      (∀ q, (runner t).queue q = if q ∈ queuesOf ss then (h.queue q).tail else h.queue q) ∧
      t = s.setHart s.cur (runner t) ∧
      runner t = ({ h with m := (runner t).m, q := (runner t).q, fcsr := (runner t).fcsr, epq := h.epq + 1 } : Hart).at (h.pc + 8)
    d ≠ 0 →
    (∀ p ∈ [(Instr.vcmp o, twoSrc o, fun e => cmp e), (.vmsk o, oneSrc o, fun e => (!((srcOf o.a o.qa).val h e).x.isZero, 0))],
      canSend s p.2.1 → quiet h → (∀ q ∈ pairFaults h none p.2.1, q.1 = false) →
      (∀ e, h.start ≤ e → e < h.vlen → mk.getLsbD e → firstPoison h p.2.1 e = none) →
        ∃ t, exec p.1 s = .next t ∧ kept (s.tasted [ownPipe s.cur]) t p.2.1 ∧
          (∀ e < 128, ((runner t).mReg d).getLsbD e =
            if h.start ≤ e ∧ e < h.vlen ∧ mk.getLsbD e then (p.2.2 e).1
            else if h.start ≤ e ∧ e < h.vlen ∧ o.mu then false else (h.mReg d).getLsbD e) ∧
          gained h (runner t) h.start h.vlen mk (fun e => (p.2.2 e).2)) ∧
    (∀ p ∈ [(Instr.mand o, fun e => ma.getLsbD e && mb.getLsbD e), (.mor o, fun e => ma.getLsbD e || mb.getLsbD e),
        (.mxor o, fun e => ma.getLsbD e != mb.getLsbD e), (.mandn o, fun e => ma.getLsbD e && !mb.getLsbD e),
        (.mnot o, fun e => !ma.getLsbD e),
        (.mset o, fun e => if h.start < h.vlen then decide (e < (o.x.extractLsb' 0 8).toNat) else (h.mReg d).getLsbD e)],
      h.epq < 64 → ∃ t, exec p.1 s = .next t ∧ kept s t [] ∧ (runner t).fcsr = h.fcsr ∧
        ∀ e < 128, ((runner t).mReg d).getLsbD e = if e < h.vlen then p.2 e else (h.mReg d).getLsbD e)

/-- R33, R63, R197, R199: an elementwise instruction whose operand breaks its class takes TAG_MISMATCH at element `sr.vstart`, `vexp2` and
`vlog2` at element 0, with the first offending register in `sr.tval`, and changes nothing; one whose first active element carries poison
takes POISON_CONSUMED there. -/
def Sys2Proof.Claims.VectorOperandTraps : Prop :=
  ∀ (o : F3) (s : State), ∀ r ∈ elementwiseRows o ((runner s).aReg (o.a.toNat % 64)),
    let h := runner s
    let trap := fun (c : Cause) (t : Word) (k : Nat) => s.takeTrap s.cur unitEp c.code t h.pc k
    canSend s r.ss → h.start < h.vlen →
      (∀ b t, (r.faults h).find? (·.1) = some (b, t) → exec r.i s = .next (trap .tagMismatch t (if r.atZero o then 0 else h.start))) ∧
      ((∀ p ∈ r.faults h, p.1 = false) → (r.mask h).getLsbD h.start →
        ∀ t, r.res h h.start = .error (.poisonConsumed, t) → exec r.i s = .next (trap .poisonConsumed t h.start))

/-- R53, R202, Table 3.4: with integer tags of width w that do not saturate, sum, difference and product wrap modulo 2^w, and one
that saturates clamps to the range of its tag; none raises a flag. -/
def Sys2Proof.Claims.IntegerArithmetic : Prop :=
  ∀ (t : BitVec 5) (rm : RMode) (x y : Int), tagIsInt t = true →
    let w := tagWidth t
    let lo : Int := if tagIsSigned t then -(2 ^ (w - 1)) else 0
    let hi : Int := if tagIsSigned t then 2 ^ (w - 1) - 1 else 2 ^ w - 1
    let into := fun (sat : Bool) (r : Exact × Flags) => convert t sat rm ⟨r.1, false⟩
    ∀ p ∈ [(addOp rm (Exact.ofInt x) (Exact.ofInt y), x + y), (subOp rm (Exact.ofInt x) (Exact.ofInt y), x - y),
        (mulOp rm (Exact.ofInt x) (Exact.ofInt y), x * y)],
      p.1.2 = 0 ∧ into false p.1 = ((p.2 % 2 ^ w).toNat, 0) ∧ into true p.1 = ((max lo (min hi p.2) % 2 ^ w).toNat, 0)

/-- R61, R62, Table 3.8: over integer elements of one width, the tree of an add reduction gives the sum of the active elements modulo
2^w, and the running value of an add scan the sum up to its element. -/
def Sys2Proof.Claims.IntegerSums : Prop :=
  ∀ (h : Hart) (a : VSrc) (mk : Mask) (e : Nat), tagIsInt (a.tag h) = true →
    let w := tagWidth (a.tag h)
    let sum := fun (n : Nat) => ((List.range n).filter fun p => mk.getLsbD p).foldl (fun r p => r + a.elem h p) 0
    h.vlen ≤ 128 → treeOver h .add a mk = (sum h.vlen % 2 ^ w, 0) ∧ scanAt h .add a mk e = (sum (e + 1) % 2 ^ w, 0)

/-- R48, R51: a sum or product of exact values with a NaN is a NaN, of infinities of two signs a NaN with NV; a NaN converted into a
float format is the canonical one without a flag, and into an integer 0 with NV. -/
def Sys2Proof.Claims.NaNRules : Prop :=
  ∀ (t : BitVec 5) (sat q : Bool) (rm : RMode) (x : Exact),
    addE rm (.nan q) x = (.nan false, (Exact.nan q).snan ||| x.snan) ∧ mulE x (.nan q) = (.nan false, x.snan ||| (Exact.nan q).snan) ∧
    addE rm (.inf false) (.inf true) = (.nan false, flagNV) ∧ mulE (.inf q) (.fin q 0 0 false) = (.nan false, flagNV) ∧
    (tagIsFloat t = true → convert t sat rm ⟨.nan q, true⟩ = ((fmtOf t).canonicalNaN, 0)) ∧
    (tagIsInt t = true → convert t sat rm ⟨.nan q, true⟩ = (0, flagNV))

namespace Sys2Proof.Claims

/-- An EP instruction that acts whatever vl is has completed in `t`: besides vector registers of the hart nothing changes but pc,
`sr.vstart` and the count of the EP queue. -/
def configDone (s t : State) : Prop :=
  t = { s.setHart s.cur (runner t) with fresh := t.fresh } ∧
  runner t = ({ runner s with v := (runner t).v, epq := (runner s).epq + 1 } : Hart).at ((runner s).pc + 8)

/-- Vector registers after the registers of `names` took a tag and a saturation bit in order, the registers that this releases taking
contents that nothing fixes (R31, R221). -/
def retagged (h h' : Hart) (names : List Nat) (tag : BitVec 5) (sat : Bool) : Prop :=
  ∃ x : Nat → VData, h'.v = ((h.archOf names).foldl (fun g p => g.setTag p tag sat (x p)) h).v

/-- Register `r` with a tag of another or the same width, of no 64-bit pair before or after: its bytes stay, and where it is dirty and
its width changes the next save keeps every byte (R221). -/
def VReg.renamed (r : VReg) (tag : BitVec 5) (sat : Bool) : VReg :=
  { r with tag := tag, sat := sat, hw := if r.dirty ∧ tagWidth tag ≠ tagWidth r.tag then 127 else r.hw }

/-- Register `p` belongs to no 64-bit pair. -/
def unpaired (h : Hart) (p : Nat) : Prop := tagWidth (h.vreg p).tag ≠ 64 ∧ ¬(p % 2 = 1 ∧ tagWidth (h.vreg (p - 1)).tag = 64)

end Sys2Proof.Claims

/-- R30, R31, R221, R222: `vcfg` gives its registers a tag and `vtag` gives one register the tag and saturation bit of a[A], for an even
register, or one of no pair: contents stay but for those of a released partner, and of registers of no pair only tag, saturation bit and
for another width h may change. A name that R31 refuses takes TAG_MISMATCH, a code that is not listed ILLEGAL with the code. -/
def Sys2Proof.Claims.TagResults : Prop :=
  ∀ (o : F3) (s : State),
    let h := runner s
    let n := h.aReg (o.a.toNat % 64)
    h.epq < 64 →
    (∀ p ∈ [(Instr.vcfg o, cfgNames o, o.x.extractLsb' 0 5, o.x.getLsbD 5),
        (.vtag o, [o.d.toNat], n.extractLsb' 0 5, n.getLsbD 5)],
      (p.1 = .vtag o → tagListed p.2.2.1 = true) →
      (∀ v, h.badTagName p.2.1 p.2.2.1 = some v → exec p.1 s = .next (s.takeTrap s.cur unitEp 0x12 (BitVec.ofNat 64 v) h.pc 0)) ∧
      (h.badTagName p.2.1 p.2.2.1 = none →
        ∃ t, exec p.1 s = .next t ∧ configDone s t ∧ retagged h (runner t) p.2.1 p.2.2.1 p.2.2.2)) ∧
    (tagListed (n.extractLsb' 0 5) = false → exec (.vtag o) s = .next (s.takeTrap s.cur unitEp 0x01 (n &&& 31) h.pc 0)) ∧
    (tagWidth (o.x.extractLsb' 0 5) ≠ 64 →
      (∀ k ≤ (o.x.extractLsb' 6 6).toNat, unpaired h (h.rot (o.d.toNat + k))) →
      ∃ t, exec (.vcfg o) s = .next t ∧ configDone s t ∧
        ∀ v, (runner t).vreg v = if ∃ k ≤ (o.x.extractLsb' 6 6).toNat, v = h.rot (o.d.toNat + k)
          then VReg.renamed (h.vreg v) (o.x.extractLsb' 0 5) (o.x.getLsbD 5) else h.vreg v) ∧
    (tagListed (n.extractLsb' 0 5) = true → tagWidth (n.extractLsb' 0 5) ≠ 64 → unpaired h (h.rot o.d.toNat) →
      ∃ t, exec (.vtag o) s = .next t ∧ configDone s t ∧
        ∀ v, (runner t).vreg v = if v = h.rot o.d.toNat
          then VReg.renamed (h.vreg v) (n.extractLsb' 0 5) (n.getLsbD 5) else h.vreg v)

/-- R36, R223 to R226: `vsetl` grants the lesser of a[A] and CAP; `vlq` gives the bytes of a queue window; `vrotb` moves BASE; `vdead`
leaves its registers clean, with h = 0 and contents that nothing fixes; `vmv.ae` writes one element below vl, or nothing where there is
none, and `vmv.ea` reads one, as i64, as n64, or as its pattern. -/
def Sys2Proof.Claims.MoveResults : Prop :=
  ∀ (o : F3) (s : State),
    let h := runner s
    let n := h.aReg (o.a.toNat % 64)
    let ad := o.d.toNat % 64
    let cap := (s.die (dieOf s.cur)).vlcap
    let i := (o.x.extractLsb' 0 7).toNat
    let grant := if n.toNat < cap.toNat then n else cap.setWidth 64
    exec (.vsetl o) s = .next (done s (({ h with vl := grant } : Hart).setA ad grant)) ∧
    exec (.vlq o) s = .next (done s (h.setA ad (n * (64 * BitVec.ofNat 64 ((h.vl.toNat + 7) / 8))))) ∧
    (∃ r, exec (.vrotb o) s = .next (done s { h with rrb := r }) ∧
      ((r &&& 63).toNat : Int) % 64 = ((h.rrbBase : Int) + (o.x.extractLsb' 0 7).toInt * (if h.rrbPair then 2 else 1)) % 64 ∧
      r.getLsbD 6 = h.rrbPair) ∧
    (h.epq < 64 → ∃ t, exec (.vdead o) s = .next t ∧ configDone s t ∧
      ∀ v, (runner t).vreg v = if ∃ k ≤ (o.x.extractLsb' 0 8).toNat, v = h.rot (o.d.toNat + k)
        then { h.vreg v with dirty := false, hw := 0, dead := true, poison := 0, data := ((runner t).vreg v).data }
        else h.vreg v) ∧
    (canSend s [] → quiet h → evenPairs h o.d.toNat [] →
      (h.isPairHigh (h.rot o.d.toNat) = false → h.start < h.vlen → i < h.vlen → ∀ x f, scalarInto o n h = .ok (x, f) →
        ∃ t, exec (.vmvAe o) s = .next t ∧ vectorDone s t [] ∧ written h (runner t) o.d.toNat i (i + 1) (fun _ => some x) ∧
          (runner t).fcsr = h.fcsr ||| f.setWidth 64) ∧
      (h.vlen ≤ h.start ∨ h.vlen ≤ i →
        ∃ t, exec (.vmvAe o) s = .next t ∧ vectorDone s t [] ∧ (runner t).v = h.v ∧ (runner t).fcsr = h.fcsr)) ∧
    (let a := srcOf o.a o.qa
     let v := a.val h i
     (∀ q ∈ queuesOf [a], h.queue q ≠ []) → (h.supv = true → o.qa = false) → settledEp s → h.en = 0 → a.pairHigh h = false →
     a.poison h i = false →
       let out : Nat × Flags := match (o.x.extractLsb' 7 2).toNat with
         | 0 => ((convert 7 false h.rm v).1, (convert 7 false h.rm v).2 ||| v.x.snan)
         | 1 => ((convert 3 false h.rm v).1, (convert 3 false h.rm v).2 ||| v.x.snan)
         | _ => (a.elem h i, 0)
       ∃ h', exec (.vmvEa o) s = .next (done s h') ∧
         h' = ({ h with q := h'.q, fcsr := h.fcsr ||| out.2.setWidth 64 } : Hart).setA ad (BitVec.ofNat 64 out.1) ∧
         ∀ q, h'.queue q = if q ∈ queuesOf [a] then (h.queue q).tail else h.queue q)

/-- R30, R31, R36, R221 to R226: the configuration and move instructions.
Choices of the model that it rests on: log entries 11, 21, 22, 23. -/
def Obligations.ConfigurationResults : Prop := TagResults ∧ MoveResults

namespace Sys2Proof.Claims

/-- The chain of `vmac` over the active elements in order (Table 11.10): the accumulator's pattern and the flags. -/
def macChain (h : Hart) (acc : BitVec 5) (a b : VSrc) (ks : List Nat) (old : Nat × Flags) : Nat × Flags :=
  ks.foldl (fun (r : Nat × Flags) k =>
    if tagIsFloat acc then
      let x := fmaE h.rm (a.val h k).x (b.val h k).x (decodeFloat (fmtOf acc) r.1)
      let p := toFloat (fmtOf acc) false h.rm x.1
      (p.1, r.2 ||| x.2 ||| p.2)
    else (((signedOf 32 r.1 + truncE (a.val h k).x * truncE (b.val h k).x) % (2 ^ 32 : Nat)).toNat, r.2)) old

/-- The sum of `vsum` over the active elements in order, in the node format, and its flags (Table 11.10). -/
def sumChain (h : Hart) (a : VSrc) (es : List Nat) : Nat × Flags :=
  es.foldl (fun (r : Nat × Flags) e =>
    let x := nodeOp .add (nodeTag (a.tag h)) h.rm r.1 (leafPattern (a.tag h) (a.elem h e))
    (x.1, r.2 ||| x.2)) (identityOf .add (nodeTag (a.tag h)), 0)

/-- Element 0 of `d` takes `v`, and FLAGS gain `f` and those of its conversion. -/
def zeroTakes (s t : State) (d : Nat) (v : Val) (f : Flags) : Prop :=
  ∃ x g, intoReg (runner s) d v 0 = .ok (x, g) ∧ written (runner s) (runner t) d 0 1 (fun _ => some x) ∧
    (runner t).fcsr = (runner s).fcsr ||| (f ||| g).setWidth 64

end Sys2Proof.Claims

/-- R250, R251, Table 11.10: with no element from `sr.vstart` below vl a deprecated form writes nothing and completes; over operands of
their classes without poison `vmac` writes the chain of its products into element 0, `vsum` the sum of its elements in order, `vrecip`
the estimates of every element, since a form starts at its beginning. FLAGS gain theirs.
Choices of the model that it rests on: log entries 11, 20. -/
def Obligations.DeprecatedResults : Prop :=
  ∀ (o : F3) (s : State),
    let h := runner s
    let va := srcOf o.a o.qa
    let vb := srcOf o.b o.qb
    let d := o.d.toNat
    let es := h.masked o.msk
    (∀ p ∈ [(Instr.vmac o, [va, vb]), (.vrecip o, [va]), (.vsum o, [va])],
      canSend s p.2 → (p.1 ≠ .vrecip o → apart h d p.2) → h.vlen ≤ h.start →
        ∃ t, exec p.1 s = .next t ∧ vectorDone s t p.2 ∧ (runner t).v = h.v ∧ (runner t).fcsr = h.fcsr) ∧
    (h.vlen ≤ h.start → exec (.vldu o) s = .next (done s h)) ∧
    (canSend s [va, vb] → quiet h → evenPairs h d [va, vb] → apart h d [va, vb] → (∀ p ∈ dotFaults h d va vb, p.1 = false) →
      h.start < h.vlen → VSrc.poison h 0 (.reg d) = false → (∀ e ∈ es, firstPoison h [va, vb] e = none) →
        let acc := ((dotRow (va.tag h)).getD (0x0C, false)).1
        let r := macChain h acc va vb es (accOld acc h.rm (VSrc.val h 0 (.reg d)))
        let fl := (readAs (va.tag h) 0).isFloat || (readAs (vb.tag h) 0).isFloat || (VSrc.val h 0 (.reg d)).isFloat
        ∃ t, exec (.vmac o) s = .next t ∧ vectorDone s t [va, vb] ∧ zeroTakes s t d ⟨(readAs acc r.1).x, fl⟩ r.2) ∧
    (canSend s [va] → quiet h → evenPairs h d [va] → h.isPairHigh (h.rot d) = false → (h.vreg (h.rot d)).tag = 0x0C →
      va.pairHigh h = false → va.tag h = 0x0C → h.start < h.vlen → (∀ e ∈ es, va.poison h e = false) →
        let out := fun e => recipOf (h.vreg (h.rot d)).sat (va.val h e).x
        ∃ t, exec (.vrecip o) s = .next t ∧ vectorDone s t [va] ∧
          written h (runner t) d 0 h.vlen (fun e => if (h.maskOf o.msk).getLsbD e then some (out e).1
            else if o.mu then some 0 else none) ∧
          gained h (runner t) 0 h.vlen (h.maskOf o.msk) (fun e => (out e).2)) ∧
    (canSend s [va] → quiet h → evenPairs h d [va] → apart h d [va] → (∀ p ∈ OpClass.n.faults h d [va], p.1 = false) →
      h.start < h.vlen → (∀ e ∈ es, va.poison h e = false) →
        ∃ t, exec (.vsum o) s = .next t ∧ vectorDone s t [va] ∧
          zeroTakes s t d (nodeVal (va.tag h) (sumChain h va es).1) (sumChain h va es).2)

/-- R48, R51, R53, R61, R62, R202: sums, differences and products of integer elements wrap or saturate, integer reductions and scans give
sums, and what the floating operations and conversions do with NaNs and infinities.
Choices of the model that it rests on: log entry 15. -/
def Obligations.ElementValues : Prop := IntegerArithmetic ∧ IntegerSums ∧ NaNRules

/-! ### Vector loads, stores and scatter-adds (11_memory R228-R235, 04 R76-R78, R81) -/

namespace Sys2Proof.Claims

/-- The running hart can read `n` bytes at `pa` now: published registers, or memory without a latent error and without a stamped
store of the hart to its cell that is not visible (R107, R230). -/
def readable (s : State) (pa n : Nat) : Prop :=
  (windowOf pa = .register ∧ published pa = true ∧ published (pa + n - 1) = true) ∨
  (windowOf pa ≠ .register ∧ (∀ e ∈ s.stampq, e.hart = s.cur → rangesMeet (e.pa / 32 * 32) 32 pa n = false) ∧
    ∀ i < n, s.latentAt (pa + i) = none)

/-- Those bytes. -/
def bytesRead (s : State) (pa n : Nat) : List PByte :=
  if windowOf pa = .register then (List.range n).map fun i => ⟨s.regByte (pa + i), false⟩ else s.hartBytes s.cur pa n

/-- The running hart can write `n` bytes at `pa` now through a leaf: in the register window, or in memory with no stamped store of its own
to a cell there, no duplicates of the page, and no latent error in a unit but those that the instruction covers whole (R79, R107,
R360). -/
def writable (s : State) (pa n : Nat) (leaf : Word) (whole : Nat → Nat → Bool) : Prop :=
  windowOf pa = .register ∨
  ((∀ e ∈ s.stampq, e.hart = s.cur → rangesMeet (e.pa / 32 * 32) 32 pa n = false) ∧
    (pteDup leaf = true → Tbl.get [] s.dups (pteAddr leaf) = []) ∧
    ∀ i < n, s.latentAt (pa + i) = none ∨ ∃ u m, unitOf (pa + i) = some (u, m) ∧ whole u m = true)

/-- What the running hart's loads of `n` bytes at the addresses give, one after another: the bytes that a load found which performed early
for a-register `base`, where one did and none before it in the list meets it, else those that stand there now (R93). -/
def readsInOrder (s : State) (base : Option (BitVec 6)) (n : Nat) : List Nat → List (List PByte)
  | [] => []
  | pa :: pas =>
    let h := runner s
    let gone := s.setHart s.cur (h.dropEarly pa n)
    match base.bind fun b => h.early.find? fun e => e.base == b.toNat && e.pa == pa && e.bytes.length == n with
    | some e => e.bytes :: readsInOrder gone base n pas
    | none => bytesRead s pa n :: readsInOrder (if windowOf pa = .register then s else gone) base n pas

/-- A vector load by its parts: memory type, destinations, rights, alignment rule, operands that break a class, addresses, and what
its decode and its slot ask for. -/
structure LoadForm where
  i : Instr
  mt : BitVec 5
  dest : LoadDest
  rights : Rights
  bad : Word → Bool
  faults : List (Bool × Word)
  addr : AddrOf
  ok : Prop

/-- b of R229: a[base] + sext(OFF) × scale. -/
def fmBase (o : FM) (s : State) : Word :=
  (runner s).aReg o.base.toNat + o.off.signExtend 64 * BitVec.ofNat 64 (if tagIsQ4 o.mt then 64 else mtBytes o.mt)

/-- Every register of a segment access exists, even under a 64-bit tag (R81). -/
def segOk (h : Hart) (rs : List Nat) : Prop :=
  ∀ r ∈ rs, r ≤ 255 ∧ (tagWidth (h.vreg (h.rot r)).tag = 64 → h.rot r % 2 = 0)

/-- The addresses of an access through a slot: those of the launch's iteration space (R117, R233). -/
def slotPlaces (o : FM) (s : State) : AddrOf :=
  match s.launchOf s.cur with
  | some l => mapAddr l ((runner s).slotDesc (slotIx o)) ((runner s).aReg (aField o.x).toNat).toNat ((runner s).aReg o.base.toNat)
  | none => fun _ => .ok none

/-- A slot allows an access: good, of an access kind in `accs`, and its TYPE fits (R133, R229, R233). -/
def slotOk (o : FM) (s : State) (accs : List Nat) (queue : Bool) : Prop :=
  let d := (runner s).slotDesc (slotIx o)
  d.bad = false ∧ d.acc ∈ accs ∧ tagIsQ4 d.elemType = false ∧ (queue = true → tagWidth d.elemType ≠ 64)

/-- The loads of Table 11.3. -/
def loadForms (o : FM) (s : State) : List LoadForm :=
  let h := runner s
  let b := fmBase o s
  let sz := mtBytes o.mt
  let raw := s.rightsOf s.cur
  let x := o.x.toNat
  let k := slotIx o
  let t := (h.slotDesc k).elemType
  let rs := segRegs h o.v.toNat (segFields o)
  let f := destFaults (destOf o).regs h
  [⟨.vld o, o.mt, { destOf o with base := some o.base }, raw, misaligned o.mt b, f, unitAddr o.mt b, True⟩,
   ⟨.vlds o, o.mt, destOf o, raw, misaligned o.mt b, f, strideAddr b (h.aReg (aField o.x).toNat), True⟩,
   ⟨.vldx o, o.mt, destOf o, raw, misaligned o.mt b, f ++ indexFaults h x, indexAddr h x sz b, True⟩,
   ⟨.vldseg o, o.mt, ⟨none, rs, o.mu, some o.base⟩, raw, misaligned o.mt b, destFaults rs h, segAddr sz (segFields o) b, segOk h rs⟩,
   ⟨.vldm o, t, destOf o, s.slotRights s.cur k, misaligned t 0, f, slotPlaces o s, slotOk o s [1, 3, 4] (destOf o).queue.isSome⟩]

/-- What a load asks for before its first element: room in its queue, tags, even pairs (R26, R27, R31, R229, R355). -/
def loadReady (f : LoadForm) (h : Hart) : Prop :=
  f.ok ∧ (∀ q, f.dest.queue = some q → (h.queue q).length < 8 ∧ h.supv = false ∧ tagWidth f.mt ≤ 32) ∧ (∀ p ∈ f.faults, p.1 = false) ∧
  ∀ r ∈ f.dest.regs, tagWidth (h.vreg (h.rot r)).tag = 64 → h.rot r % 2 = 0

/-- The entry that a stopped load kept, where a load goes on with it, is of its memory type (R26, R230). -/
def continues (f : LoadForm) (h : Hart) : Prop :=
  f.dest.queue = none ∨ h.start = 0 ∨ ∀ x, h.partQ = some x → x.mt = f.mt

/-- A load with a queue destination opens an entry whose contents are undefined so far (R26). -/
def opened (f : LoadForm) (s : State) : State :=
  match (if f.dest.queue.isSome then openEntry f.mt else pure ()) s with
  | .ok _ s' => s'
  | .error _ s' => s'

/-- Pattern and poison of each element and field that a plan reads, by its numbers; a q4 element takes its half of the byte. -/
def fetched (s : State) (f : LoadForm) (ps : List Placed) : List ((Nat × Nat) × Nat × Bool) :=
  let at_ := ps.flatMap fun p => p.fields.zipIdx.map fun x => ((p.e, x.2), x.1.2.1)
  (at_.zip (readsInOrder s f.dest.base (if tagIsQ4 f.mt then 1 else mtBytes f.mt) (at_.map (·.2)))).map fun x =>
    (x.1.1, if tagIsQ4 f.mt then valueOf x.2 / 16 ^ (x.1.1.1 % 2) % 16 else valueOf x.2, anyPoison x.2)

/-- Pattern and poison of field `g` of element `e` of a plan; none for an element that does not perform. -/
def elementOf (s : State) (f : LoadForm) (ps : List Placed) (e g : Nat) : Option (Nat × Bool) :=
  ((fetched s f ps).find? (·.1 == (e, g))).map (·.2)

/-- A load has completed from `s` into `t`: pc moves on, and only vector registers, queues, FLAGS and vl of the hart differ, and what its
early loads had found. -/
def loadDone (s t : State) : Prop :=
  t = { s.setHart s.cur (runner t) with fresh := t.fresh } ∧
  runner t = ({ runner s with v := (runner t).v, q := (runner t).q, partQ := (runner t).partQ, fcsr := (runner t).fcsr,
                              vl := (runner t).vl, early := (runner t).early } : Hart).at ((runner s).pc + 8)

/-- The registers of a load after the elements from `sr.vstart` to `hi − 1`: field g of an element goes to register g, an element
that does not load is 0 where MU is 1 and undisturbed otherwise, and every other register is kept. -/
def registersLoaded (s t : State) (f : LoadForm) (ps : List Placed) (hi : Nat) : Prop :=
  let h := runner s
  let h' := runner t
  let d := fun g => h.rot (f.dest.regs.getD g 0)
  (∀ g < f.dest.regs.length, ∀ e < 128, h'.elem (d g) e =
    if h.start ≤ e ∧ e < hi then
      match elementOf s f ps e g with
      | some x => (loadInto h f.mt (f.dest.regs.getD g 0) x).1 % 2 ^ tagWidth (h.vreg (d g)).tag
      | none => if f.dest.mu then 0 else h.elem (d g) e
    else h.elem (d g) e) ∧
  (∀ n, (h'.vreg n).tag = (h.vreg n).tag) ∧
  ∀ n, (∀ g < f.dest.regs.length, n ≠ d g ∧ ¬(tagWidth (h.vreg (d g)).tag = 64 ∧ n = d g + 1)) → h'.vreg n = h.vreg n

/-- The flags of the conversions of the elements of a plan into the registers of a load; a poisoned element raises none (R230). -/
def loadFlags (s : State) (f : LoadForm) (ps : List Placed) : Flags :=
  (fetched s f ps).foldl (fun (acc : Flags) x => match f.dest.regs[x.1.2]? with
    | some r => acc ||| (loadInto (runner s) f.mt r x.2).2
    | none => acc) 0

/-- The queues after a load: the entry joins its queue, an element that does not load is 0 in it (R26). -/
def queuesLoaded (s t : State) (f : LoadForm) (ps : List Placed) (hi : Nat) : Prop :=
  let h := runner s
  let h' := runner t
  match f.dest.queue with
  | none => h'.q = h.q ∧ h'.partQ = h.partQ
  | some q => h'.partQ = none ∧ (∀ p, p ≠ q → h'.queue p = h.queue p) ∧
    ∃ x, h'.queue q = h.queue q ++ [x] ∧ x.mt = f.mt ∧ ∀ e, h.start ≤ e → e < hi → e < 128 →
      elemBits x.data (tagWidth f.mt) e = match elementOf s f ps e 0 with
        | some x => x.1 % 2 ^ tagWidth f.mt
        | none => 0

/-- A vector store by its parts. -/
structure StoreForm where
  i : Instr
  mt : BitVec 5
  regs : List Nat
  free : Bool
  rights : Rights
  bad : Word → Bool
  faults : List (Bool × Word)
  addr : AddrOf
  ok : Prop

/-- The stores of Table 11.3; only `vst` has the q4 types (R229). -/
def storeForms (o : FM) (s : State) : List StoreForm :=
  let h := runner s
  let b := fmBase o s
  let sz := mtBytes o.mt
  let raw := s.rightsOf s.cur
  let v := o.v.toNat
  let x := o.x.toNat
  let k := slotIx o
  let t := (h.slotDesc k).elemType
  let rs := segRegs h v (segFields o)
  let f := destFaults [v] h
  [⟨.vst o, o.mt, [v], false, raw, misaligned o.mt b, f, unitAddr o.mt b, True⟩,
   ⟨.vsts o, o.mt, [v], false, raw, misaligned o.mt b, f, strideAddr b (h.aReg (aField o.x).toNat), tagIsQ4 o.mt = false⟩,
   ⟨.vstx o, o.mt, [v], true, raw, misaligned o.mt b, f ++ indexFaults h x, indexAddr h x sz b, tagIsQ4 o.mt = false⟩,
   ⟨.vstseg o, o.mt, rs, false, raw, misaligned o.mt b, destFaults rs h, segAddr sz (segFields o) b, segOk h rs ∧ tagIsQ4 o.mt = false⟩,
   ⟨.vstm o, t, [v], false, s.slotRights s.cur k, misaligned t 0, f, slotPlaces o s, slotOk o s [2, 3, 4] false⟩]

/-- The writes of a plan in element order: each field of an element at its physical address takes the low bytes of the element's
pattern in its register, converted into the memory type; a q4 code takes its half of its byte, the other half new too where the
element below is stored with it. -/
def planWrites (h : Hart) (f : StoreForm) (ps : List Placed) : List Staged :=
  ps.flatMap fun p => (p.fields.zip f.regs).map fun x =>
    let v := (storeFrom h f.mt x.2 p.e).1
    if tagIsQ4 f.mt then
      { pa := x.1.2.1, bytes := cleanBytes [BitVec.ofNat 8 v], half := some (p.e % 2, p.e % 2 == 1 && ps.any (·.e == p.e - 1)) }
    else { pa := x.1.2.1, bytes := cleanBytes (bytesOf (mtBytes f.mt) v) }

/-- The flags of the conversions of a plan's elements. -/
def storeFlags (h : Hart) (f : StoreForm) (ps : List Placed) : Flags :=
  ps.foldl (fun (acc : Flags) p => f.regs.foldl (fun (acc : Flags) r => acc ||| (storeFrom h f.mt r p.e).2) acc) 0

/-- One write performed: it enters the hart's buffer, or a register takes it; a q4 code keeps the other half of the byte as the hart reads
it, and its poison unless both halves are new. -/
def writeDone (s : State) (w : Staged) : State :=
  match w.half with
  | none => s.issueStore s.cur w.pa w.bytes
  | some (k, both) =>
    let old := s.hartOld s.cur w.pa
    let x := (w.bytes.headD ⟨0, false⟩).val
    let v : Byte := if k = 0 then (old.1.val &&& 0xF0) ||| (x &&& 0x0F) else (old.1.val &&& 0x0F) ||| (x <<< 4)
    old.2.issueStore s.cur w.pa [⟨v, old.1.poi && !both⟩]

/-- The state once a plan's writes have been performed in the order of `ws`: latent errors of units that they cover whole are gone. -/
def writesDone (s : State) (f : StoreForm) (ps : List Placed) (ws : List Staged) : State :=
  ws.foldl writeDone (s.forgetErrors (coversUnit f.mt ps))

/-- Every element of a plan of a store can perform: no poison in its registers, and its bytes can be written. -/
def storable (s : State) (f : StoreForm) (ps : List Placed) : Prop :=
  ∀ p ∈ ps, (∀ r ∈ f.regs, VSrc.poison (runner s) p.e (.reg r) = false) ∧
    ∀ x ∈ p.fields, writable s x.2.1 (storeLen f.mt) x.2.2 (coversUnit f.mt ps)

/-- The atomic adds of a plan, one after another, lead from `s` to `t` (R92, R235). -/
def addsInOrder (mt : BitVec 5) (v : Nat) : List Placed → State → State → Prop
  | [], s, t => t = s
  | p :: ps, s, t =>
    let s₁ := s.setHart s.cur { runner s with vstart := BitVec.ofNat 64 p.e }
    let x := storeFrom (runner s) mt v p.e
    let n := mtBytes mt
    VSrc.poison (runner s) p.e (.reg v) = false ∧
    ∃ (va leaf : Word) (pa₀ pa : Nat) (l₀ : Word) (s₂ : State), p.fields = [(va, pa₀, l₀)] ∧ probeAtomic va n s₁ = .ok (pa, leaf) s₂ ∧
      let s₃ := (s₂.setHart s₂.cur ((runner s₂).dropEarly pa n)).settleFor pa n
      let new := bytesOf n (amoAddValue mt x.1 (valueOf (s₃.oldBytes pa n)))
      let s₄ := if windowOf pa = .register then s₃.storeWindow pa (cleanBytes new) else s₃.putAtHome pa new
      addsInOrder mt v ps (s₄.setHart s₄.cur ((runner s₄).addFlags x.2)) t

end Sys2Proof.Claims

/-- R26, R76, R81, R228 to R233: a vector load all of whose active elements translate and can be read completes: the elements go
into the registers and the entry of its queue as Table 11.2 says, FLAGS gain those of their conversions, and nothing else changes.
The bytes are those that a load found which performed early for the base register, or those that stand there now (R93). With
`sr.vstart` at or above vl no element is touched, and the entry joins its queue as it stands. `vpref` has no effect.
Choices of the model that it rests on: log entries 7, 27, 28, 48, 68, 72. -/
def Obligations.VectorLoadResults : Prop :=
  ∀ (o : FM) (s s₁ : State) (ps : List Placed), exec (.vpref o) s = .next (done s (runner s)) ∧
    ∀ f ∈ loadForms o s, loadReady f (runner s) →
      let h := runner s
      (continues f h → h.en = 0 → h.cut = none → h.start < h.vlen →
        planElems f.rights .load f.bad f.addr (h.active o.msk) (opened f s) = .ok (ps, none) s₁ →
        (∀ p ∈ ps, ∀ x ∈ p.fields, readable s₁ x.2.1 (if tagIsQ4 f.mt then 1 else mtBytes f.mt)) →
          ∃ t, exec f.i s = .next t ∧ loadDone s₁ t ∧ registersLoaded s₁ t f ps h.vlen ∧
            queuesLoaded s₁ t f ps h.vlen ∧ (runner t).vl = h.vl ∧
            (runner t).fcsr = h.fcsr ||| (loadFlags s₁ f ps).setWidth 64) ∧
      (h.vlen ≤ h.start → (f.dest.queue = none → exec f.i s = .next (done s h)) ∧
        ∀ q, f.dest.queue = some q → ∃ t x, exec f.i s = .next t ∧ t = { s.setHart s.cur (runner t) with fresh := t.fresh } ∧
          runner t = ({ h with q := (runner t).q, partQ := none } : Hart).at (h.pc + 8) ∧
          (runner t).queue q = h.queue q ++ [x] ∧ ∀ k, k ≠ q → (runner t).queue k = h.queue k)

/-- R78, R102, R231, R233: a vector store all of whose active elements translate and can perform completes: each field of each element is
written at the physical address of the plan, with the bytes of the element in its register, in element order (`vstx` outside
deterministic mode in any order), FLAGS gain those of the conversions, and nothing else changes. With `sr.vstart` at or above vl nothing
is written.
Choices of the model that it rests on: log entries 27, 28, 31, 48, 68. -/
def Obligations.VectorStoreResults : Prop :=
  ∀ (o : FM) (s s₁ : State) (ps : List Placed), ∀ f ∈ storeForms o s,
    let h := runner s
    f.ok →
    (h.vlen ≤ h.start → exec f.i s = .next (done s h)) ∧
    ((∀ p ∈ f.faults, p.1 = false) → h.en = 0 → h.cut = none → h.start < h.vlen →
      planElems f.rights .store f.bad f.addr (h.active o.msk) s = .ok (ps, none) s₁ → storable s₁ f ps →
        ∃ t ws, exec f.i s = .next t ∧
          (if f.free && !h.det then ws.Perm (planWrites (runner s₁) f ps) else ws = planWrites (runner s₁) f ps) ∧
          let u := writesDone s₁ f ps ws
          t = { done u ((runner u).addFlags (storeFlags (runner s₁) f ps)) with fresh := t.fresh })

/-- R33, R76, R77, R78: where the translation of an active element fails, the elements below it perform. A load then completes
with vl the failing element, and its queue entry joins the queue, unless that is its first active element; a load of which it is the
first, and every store, takes the cause of the failing element with that element in `sr.evstart`. That the load has then zeroed the
inactive elements below it where MU is 1 is the model's choice (log entry 28). -/
def Sys2Proof.Claims.RunAheadFault : Prop :=
  ∀ (o : FM) (s s₁ : State) (ps : List Placed) (x : PlanFault),
    let h := runner s
    h.en = 0 → h.cut = none → h.start < h.vlen → x.cause ∈ [.pageFault, .prot, .misalign, .stampRegion, .poisonConsumed] →
    (∀ f ∈ loadForms o s, loadReady f h → continues f h →
      planElems f.rights .load f.bad f.addr (h.active o.msk) (opened f s) = .ok (ps, some x) s₁ →
      (∀ p ∈ ps, ∀ y ∈ p.fields, readable s₁ y.2.1 (if tagIsQ4 f.mt then 1 else mtBytes f.mt)) →
        (ps ≠ [] → ∃ t, exec f.i s = .next t ∧ loadDone s₁ t ∧ registersLoaded s₁ t f ps x.e ∧ queuesLoaded s₁ t f ps x.e ∧
          (runner t).vl = BitVec.ofNat 64 x.e ∧ (runner t).fcsr = h.fcsr ||| (loadFlags s₁ f ps).setWidth 64) ∧
        (ps = [] → ∃ u, exec f.i s = .next (u.takeTrap s.cur unitAp x.cause.code x.tval h.pc x.e) ∧
          registersLoaded s₁ u f [] x.e ∧ (runner u).q = h.q)) ∧
    (∀ f ∈ storeForms o s, f.ok → (∀ p ∈ f.faults, p.1 = false) →
      planElems f.rights .store f.bad f.addr (h.active o.msk) s = .ok (ps, some x) s₁ → storable s₁ f ps →
        ∃ u ws, exec f.i s = .next (u.takeTrap s.cur unitAp x.cause.code x.tval h.pc x.e) ∧
          (if f.free && !h.det then ws.Perm (planWrites (runner s₁) f ps) else ws = planWrites (runner s₁) f ps) ∧
          let v := writesDone s₁ f ps ws
          (runner u).sbuf = (runner v).sbuf ∧ (runner u).wcb = (runner v).wcb ∧ (runner u).v = h.v ∧
          ∀ d p, u.byteAt d p = s₁.byteAt d p)

/-- R92, R235: `vamoadd` adds its active elements to their locations by atomics, in element order; with `sr.vstart` at or above vl it
adds none. -/
def Sys2Proof.Claims.ScatterAddResults : Prop :=
  ∀ (o : FM) (s s₁ t : State) (ps : List Placed),
    let h := runner s
    (h.vlen ≤ h.start → exec (.vamoadd o) s = .next (done s h)) ∧
    ((∀ p ∈ destFaults [o.v.toNat] h ++ indexFaults h o.x.toNat, p.1 = false) → h.en = 0 → h.cut = none → h.start < h.vlen →
    planElems (s.rightsOf s.cur) .atomic (misaligned o.mt (fmBase o s)) (indexAddr h o.x.toNat (mtBytes o.mt) (fmBase o s))
      (h.active o.msk) s = .ok (ps, none) s₁ →
    addsInOrder o.mt o.v.toNat ps s₁ t → exec (.vamoadd o) s = .next (done t (runner t)))

/-- R250, R251, Table 11.10: `vldu` of active elements below vl that translate, in their lower and upper parts, and can be read
completes with those elements of vd loaded and FLAGS of their conversions gained. -/
def Sys2Proof.Claims.UnalignedLoadResults : Prop :=
  ∀ (o : F3) (s s₁ s₂ : State) (lo hi : List (Nat × Nat)),
    let h := runner s
    let d := o.d.toNat
    let mt := o.x.extractLsb' 0 5
    let sz := mtBytes mt
    let es := h.masked o.msk
    let va := fun e => h.aReg (aField o.a).toNat + BitVec.ofNat 64 (e * sz)
    let n := fun e => lowerBytes sz (va e)
    h.en = 0 → h.start < h.vlen → sz ≠ 0 → h.isPairHigh (h.rot d) = false → evenPairs h d [] →
    translateParts 0 (es.map fun e => (va e, n e)) s = .ok lo s₁ →
    translateParts 1 (es.map fun e => (va e + BitVec.ofNat 64 (if n e = sz then 0 else n e), sz - n e)) s₁ = .ok hi s₂ →
    (∀ p ∈ lo ++ hi, p.2 ≠ 0 → readable s₂ p.1 p.2) →
      let got := fun k =>
        let bs := bytesRead s₂ (lo.getD k (0, 0)).1 (lo.getD k (0, 0)).2 ++
          (if (hi.getD k (0, 0)).2 = 0 then [] else bytesRead s₂ (hi.getD k (0, 0)).1 (hi.getD k (0, 0)).2)
        loadInto h mt d (valueOf bs, anyPoison bs)
      ∃ t, exec (.vldu o) s = .next t ∧ loadDone s₂ t ∧ (runner t).vl = h.vl ∧ (runner t).q = h.q ∧ (runner t).partQ = h.partQ ∧
        written (runner s₂) (runner t) d 0 h.vlen (fun e => match es.findIdx? (· = e) with
          | some k => some (got k).1
          | none => if o.mu then some 0 else none) ∧
        (runner t).fcsr = h.fcsr ||| ((List.range es.length).foldl (fun (f : Flags) k => f ||| (got k).2) 0).setWidth 64

/-- R32, R33: an elementwise instruction that a pre-emption or interruption stops at k stops at the next whole group of 32
elements, j: its position is (pc, j), the elements below j are written, those at j and above hold their old values, and nothing
else but FLAGS changes. -/
def Sys2Proof.Claims.ResumablePosition : Prop :=
  ∀ (o : F3) (s : State) (k : Nat), ∀ r ∈ elementwiseRows o ((runner s).aReg (o.a.toNat % 64)),
    let h := runner s
    let j := (k + 31) / 32 * 32
    canSend s r.ss → h.laneErr = none → h.en = 0 → h.cut = some k → evenPairs h r.d r.ss → (∀ p ∈ r.faults h, p.1 = false) →
    h.start < k → j < h.vlen → j < 128 →
    ∀ (val : Nat → Nat) (fl : Nat → Flags),
      (∀ e, h.start ≤ e → e < j → (r.mask h).getLsbD e →
        r.res (if r.scaled o then r.through h val e else h) e = .ok (val e, fl e)) →
        ∃ t, exec r.i s = .next t ∧ t = { s.setHart s.cur (runner t) with fresh := t.fresh } ∧
          runner t = { h with v := (runner t).v, fcsr := (runner t).fcsr, vstart := BitVec.ofNat 64 j, cut := none } ∧
          written h (runner t) r.d h.start j (r.masked h val) ∧ gained h (runner t) h.start j (r.mask h) fl

/-- R31 to R33, R63, R76 to R78, R197, R199, R230: where vector instructions trap on their operands, where a vector load stops at an
element, and where an instruction that is stopped resumes.
Choices of the model that it rests on: log entries 9, 19, 24, 28, 68. -/
def Obligations.VectorTraps : Prop := VectorOperandTraps ∧ RunAheadFault ∧ ResumablePosition

/-- R234, R250: `vamoadd` and `vldu`.
Choices of the model that it rests on: log entries 14, 18, 20, 48, 68. -/
def Obligations.ElementAccesses : Prop := ScatterAddResults ∧ UnalignedLoadResults

/-! ### Spill, fill, save, restore and waiting on flags (11_memory R236-R239) -/

namespace Sys2Proof.Claims

/-- The bytes that a list of buffered stores writes, each at its address, in order. -/
def storedCells (ws : List BufStore) : List (Nat × PByte) :=
  ws.flatMap fun w => w.bytes.zipIdx.map fun b => (w.pa + b.2, b.1)

/-- The bytes of the writes of an instruction, each at its address, in order. -/
def writtenCells (ws : List (Nat × List PByte)) : List (Nat × PByte) :=
  ws.flatMap fun w => w.2.zipIdx.map fun b => (w.1 + b.2, b.1)

/-- Bytes laid over the pieces of an area. -/
def areaCells (ps : List AreaPiece) (bytes : List PByte) : List (Nat × PByte) :=
  (ps.flatMap fun p => (List.range p.len).map (p.pa + ·)).zip bytes

/-- An instruction has completed from `s` into `t`, and has stored `bytes` over the pieces of an area, no store across an 8-byte word and
each into the hart's buffer or, in the register window, into a register; latent errors of units that the pieces cover whole are gone;
nothing else differs. -/
def areaStored (s t : State) (ps : List AreaPiece) (bytes : List PByte) : Prop :=
  ∃ ws, writtenCells ws = areaCells ps bytes ∧ (∀ w ∈ ws, w.2 ≠ [] ∧ (w.1 + w.2.length - 1) / 8 = w.1 / 8) ∧
    let u := ws.foldl (fun (s : State) w => s.issueStore s.cur w.1 w.2) (s.forgetErrors (piecesCover ps))
    t = done u (runner u)

/-- Every piece can be written. -/
def piecesWritable (s : State) (ps : List AreaPiece) : Prop := ∀ p ∈ ps, writable s p.pa p.len p.leaf (piecesCover ps)

/-- The address of an area: a[BASE] + sext(OFF) × 64 (R236, R238). -/
def areaAddr (o : FM) (s : State) : Word := (runner s).aReg o.base.toNat + o.off.signExtend 64 * 64

/-- The flags of a `vwait` read from `u` on: `ps` are its active elements, `met` those whose condition had held, `met'` those whose
condition now has (R239). -/
def flagsRead (o : FM) (u : State) (met : Mask) (ps : List Placed) (met' : Mask) (u₂ : State) : Prop :=
  (runner u).start < (runner u).vlen ∧ ∃ u₁, vwaitChecks o (runner u) u = .ok ps u₁ ∧ readFlags o (runner u) ps met u₁ = .ok met' u₂

/-- A `vwait` of hart `n` has completed from `u` into `t` with `unmet` in its mask register. -/
def waitOver (o : FM) (n : Nat) (u t : State) (unmet : Nat → Bool) : Prop :=
  let h := u.hart n
  let h' := t.hart n
  h'.pc = h.pc + 8 ∧ h'.vstart = 0 ∧ h'.wait = h.wait ∧ h'.v = h.v ∧ h'.a = h.a ∧
  (∀ m, m ≠ vwaitMask o → h'.mReg m = h.mReg m) ∧ (vwaitMask o ≠ 0 → ∀ e < 128, (h'.mReg (vwaitMask o)).getLsbD e = unmet e)

/-- The state in which hart `n` looks at its flags again. -/
def lookingAgain (s : State) (n : Nat) : State := { s.setHart n { s.hart n with wait := none } with cur := n }

end Sys2Proof.Claims

/-- R236, R238, Table 11.4: `vspill` stores the elements of v below vl and, in the last 8 bytes of its slot, tag, sat and vl; `vsave`
stores descriptor and 512 bytes of each named register at its place of the area. Both complete once the whole area has
translated and can be written; with `sr.vstart` at or above vl `vspill` stores nothing. -/
def Sys2Proof.Claims.SpillAndSaveResults : Prop :=
  ∀ (o : FM) (s : State),
    let h := runner s
    let a := areaAddr o s
    let p := h.rot o.v.toNat
    let r := h.vreg p
    let n := slotBytes (tagWidth r.tag = 64) h.vlen
    let img := h.image p h.vlen
    (h.vlen ≤ h.start → exec (.vspill o) s = .next (done s h)) ∧
    (h.start < h.vlen → a.toNat % 64 = 0 → h.isPairHigh p = false →
      ∀ s₁ s₂ s₃ all dps eps, translateArea a n .store s = .ok all s₁ → translateArea a img.length .store s₁ = .ok dps s₂ →
        translateArea (a + BitVec.ofNat 64 (n - 8)) 8 .store s₂ = .ok eps s₃ → piecesWritable s₃ (dps ++ eps) →
          ∃ t, exec (.vspill o) s = .next t ∧ areaStored s₃ t (dps ++ eps)
            (img ++ cleanBytes (bytesOf 8 (r.tag.toNat + r.sat.toNat * 2 ^ 5 + h.vlen * 2 ^ 8)))) ∧
    (a.toNat % 64 = 0 →
      ∀ s₁ s₂ ds is,
        collect (savedRegs o) (fun p => translateArea (a + BitVec.ofNat 64 (2 * p)) 2 .store) s = .ok ds s₁ →
        collect (savedRegs o) (fun p => translateArea (a + BitVec.ofNat 64 (0x200 + 512 * p)) 512 .store) s₁ = .ok is s₂ →
        piecesWritable s₂ (ds.flatten ++ is.flatten) →
          ∃ t, exec (.vsave o) s = .next t ∧ areaStored s₂ t (ds.flatten ++ is.flatten)
            (((savedRegs o).map fun p =>
              let r := h.vreg p
              cleanBytes (bytesOf 2 (r.tag.toNat + r.sat.toNat * 2 ^ 5 + r.hw.toNat * 2 ^ 8 + r.dirty.toNat * 2 ^ 15))).flatten ++
              ((savedRegs o).map h.wholeImage).flatten))

/-- R237, R238, Table 11.4: `vfill` gives v the tag and sat of its slot and the stored elements below the lesser of the two vector
lengths, and with `sr.vstart` at or above vl nothing; `vrest` gives every named register the tag, sat, dirty, h and bytes that the area
holds. No other register changes, but for the partner of the last register restored, where that held a 64-bit tag and takes a narrower
one: it is released with tag n32 and contents that nothing fixes (R31). That its saturation bit and its poison are then clear is the
model's choice (log entry 21), and so is that a 64-bit tag for an odd register takes TAG_MISMATCH with that register (log entry 29). -/
def Sys2Proof.Claims.FillAndRestoreResults : Prop :=
  ∀ (o : FM) (s s₁ s₂ : State),
    let h := runner s
    let a := areaAddr o s
    let p := h.rot o.v.toNat
    let wide : Bool := tagWidth (h.vreg p).tag = 64
    (h.vlen ≤ h.start → exec (.vfill o) s = .next (done s h)) ∧
    (h.start < h.vlen → a.toNat % 64 = 0 → h.isPairHigh p = false →
      ∀ ps bs, translateArea a (slotBytes wide h.vlen) .load s = .ok ps s₁ → readArea ps s₁ = .ok bs s₂ →
        let desc := valueOf (bs.drop (bs.length - 8))
        let tag : BitVec 5 := BitVec.ofNat 5 desc
        let w := tagWidth tag
        tagListed tag = true → ((w = 64) ↔ wide = true) → (w = 64 → p % 2 = 0) →
          ∃ t, exec (.vfill o) s = .next t ∧ t = { s₂.setHart s.cur (runner t) with fresh := t.fresh } ∧
            runner t = ({ runner s₂ with v := (runner t).v } : Hart).at (h.pc + 8) ∧
            ((runner t).vreg p).tag = tag ∧ ((runner t).vreg p).sat = (desc / 32 % 2 == 1) ∧
            (∀ e < min (min (desc / 256 % 256) h.vlen) 128,
              (runner t).elem p e = valueOf bs / 2 ^ (e * w) % 2 ^ w ∧ (runner t).elemPoison p e = elemPoisonOf bs w e) ∧
            ∀ n, n ≠ p → ¬(w = 64 ∧ n = p + 1) → (runner t).vreg n = h.vreg n) ∧
    (a.toNat % 64 = 0 →
      ∀ ds is s₃ s₄ descs imgs,
        collect (savedRegs o) (fun p => translateArea (a + BitVec.ofNat 64 (2 * p)) 2 .load) s = .ok ds s₁ →
        collect (savedRegs o) (fun p => translateArea (a + BitVec.ofNat 64 (0x200 + 512 * p)) 512 .load) s₁ = .ok is s₂ →
        collect ds (fun ps => do return valueOf (← readArea ps)) s₂ = .ok descs s₃ →
        (∀ d ∈ descs, tagListed (BitVec.ofNat 5 d) = true) →
        (∀ p, oddPair ((savedRegs o).zip descs) = some p →
          exec (.vrest o) s = .next (trapped s₃ .tagMismatch (BitVec.ofNat 64 p))) ∧
        (oddPair ((savedRegs o).zip descs) = none → collect is readArea s₃ = .ok imgs s₄ →
          ∃ t, exec (.vrest o) s = .next t ∧ t = { s₄.setHart s.cur (runner t) with fresh := t.fresh } ∧
            runner t = ({ runner s₄ with v := (runner t).v } : Hart).at (h.pc + 8) ∧
            (∀ k ≤ o.x.toNat,
              let r := (runner t).vreg (o.v.toNat + k)
              let d := descs.getD k 0
              r.tag = BitVec.ofNat 5 d ∧ r.sat = d.testBit 5 ∧ r.hw = BitVec.ofNat 7 (d / 2 ^ 8) ∧ r.dirty = d.testBit 15 ∧
                r.data = BitVec.ofNat 4096 (valueOf (imgs.getD k []))) ∧
            let last := o.v.toNat + o.x.toNat
            let released := last % 2 = 0 ∧ tagWidth (h.vreg last).tag = 64 ∧ tagWidth (BitVec.ofNat 5 (descs.getLastD 0)) ≠ 64
            (released → let r := (runner t).vreg (last + 1); r.tag = 2 ∧ r.sat = false ∧ r.poison = 0) ∧
            ∀ n, (n < o.v.toNat ∨ last < n) → ¬(released ∧ n = last + 1) → (runner t).vreg n = h.vreg n))

/-- R239: `vwait` completes with its mask register 0 when the condition of every active flag has held once, at its issue or, waiting,
when a flag changes; when its time is over with flags unmet it completes with those elements in the mask; else it goes on
waiting. With vl = 0 it completes at once, and with `sr.vstart` at or above another vl it does nothing.
Choices of the model that it rests on: log entries 30, 68. -/
def Obligations.FlagWaitResults : Prop :=
  ∀ (o : FM) (s : State),
    let h := runner s
    let n := s.ev.hart
    let u := lookingAgain s n
    let unmet := fun (ps : List Placed) (met : Mask) (e : Nat) => ps.any fun p => p.e == e && !met.getLsbD e
    (h.vlen = 0 → ∃ t, exec (.vwait o) s = .next t ∧ waitOver o s.cur s t (fun _ => false)) ∧
    (h.vlen ≠ 0 → h.vlen ≤ h.start → exec (.vwait o) s = .next (done s h)) ∧
    (∀ ps met s₂, flagsRead o s 0 ps met s₂ →
      ((∀ p ∈ ps, met.getLsbD p.e = true) → ∃ t, exec (.vwait o) s = .next t ∧ waitOver o s.cur s t (fun _ => false)) ∧
      ((∃ p ∈ ps, met.getLsbD p.e = false) → (h.aReg o.base.toNat = 0 ∨ s₂.now = s.now) →
        exec (.vwait o) s = .next (s₂.setWait s.cur (.vwait s.now met o)))) ∧
    (∀ start met₀, (s.hart n).wait = some (.vwait start met₀ o) → s.awake n = true → ∀ ps met s₂, flagsRead o u met₀ ps met s₂ →
      ((∀ p ∈ ps, met.getLsbD p.e = true) → ∃ t, exec .vwaitMet s = .next t ∧ waitOver o n u t (fun _ => false)) ∧
      (let time := ((s.hart n).aReg o.base.toNat).toNat
       time ≠ 0 → start + time * 47 ≤ s.now → s₂.now = s.now → (∃ p ∈ ps, met.getLsbD p.e = false) →
         ∃ t, exec .vwaitTimeout s = .next t ∧ waitOver o n u t (unmet ps met)))

/-- R236 to R238: `vspill`, `vsave`, `vfill` and `vrest`.
Choices of the model that it rests on: log entries 21, 29, 48, 68. -/
def Obligations.SpillFillResults : Prop := SpillAndSaveResults ∧ FillAndRestoreResults

/-! ### Reduction packets (11_memory R240-R243, 25_program_reduction R397) -/

namespace Sys2Proof.Claims

/-- The group descriptor that an instruction names (Table 11.5). -/
def descOf (o : FM) (u : State) : RpDesc := rpDescOf ((runner u).aReg o.base.toNat)

/-- The descriptor is one that R240 allows, and the group on the running hart's die is `g`, of the launch that the hart runs; a group that
is unused, or in which no hart of another launch has sent, is fresh (R398). -/
def groupIs (o : FM) (u : State) (g : RGroup) : Prop :=
  let d := descOf o u
  ((runner u).aReg o.base.toNat).extractLsb' 40 24 = 0 ∧ 2 ≤ d.n ∧ d.n ≤ 32 ∧ d.rank < d.n ∧
  match Tbl.get none (u.die (dieOf u.cur)).groups d.grp with
  | none => g = { launch := u.keyLaunch u.cur }
  | some g' => if g'.launch = u.keyLaunch u.cur then g = g' else g'.owned = false ∧ g = { launch := u.keyLaunch u.cur }

/-- The state with that group replaced. -/
def withGroup (o : FM) (u : State) (g : RGroup) : State :=
  let x := dieOf u.cur
  u.setDie x { u.die x with groups := Tbl.set none (u.die x).groups (descOf o u).grp (some g) }

/-- The elements of the packet: an active one rounded into MT under RNE, another the identity (R241). -/
def packetOf (o : FM) (h : Hart) : List Word :=
  (List.range h.vlen).map fun e => BitVec.ofNat 64
    (if (h.maskOf o.msk).getLsbD e then (packetElem h o.mt o.v.toNat e).1 else identityOf (RedOp.ofCode (rpOp o)) o.mt)

/-- The register of a packet instruction is usable: not the upper one of a pair where there are elements, and for a packet without
poison in its active elements; no flag traps. -/
def packetClean (o : FM) (h : Hart) : Prop :=
  h.en = 0 ∧ (h.start < h.vlen → h.isPairHigh (h.rot o.v.toNat) = false ∧
    ∀ e < h.vlen, (h.maskOf o.msk).getLsbD e → VSrc.poison h e (.reg o.v.toNat) = false)

/-- The sending of the running hart's packet from `u` ends in `t` (R241, R397): accepted into the open round, or discarded where the
round was abandoned; FLAGS gain those of its rounding. -/
def sentFrom (o : FM) (u : State) (g : RGroup) (t : State) : Prop :=
  let d := descOf o u
  let fix := rpFix o d (runner u).vlen
  let sent := Tbl.get 0 g.sent d.rank
  let g' := { g with owned := true, sent := Tbl.set 0 g.sent d.rank (sent + 1) }
  let v := if sent < g.round then withGroup o u g'
    else withGroup o u { g' with fixed := some fix, packets := Tbl.set [] g.packets d.rank (packetOf o (runner u)) }
  t = done v ((runner v).addFlags (flagsOver 0 (runner u).vlen ((runner u).maskOf o.msk) fun e =>
    (packetElem (runner u) o.mt o.v.toNat e).2))

/-- The router can take the packet: its round is open or can be opened, or was abandoned (R397). -/
def routerTakes (o : FM) (u : State) (g : RGroup) : Prop :=
  let d := descOf o u
  let sent := Tbl.get 0 g.sent d.rank
  sent ≤ g.round ∧ (sent = g.round → match g.fixed with
    | some f => f = rpFix o d (runner u).vlen
    | none => (u.die (dieOf u.cur)).openRounds < 64)

/-- Element `e` of the round's result converted into the tag of vd, and its flags (R53, R242). -/
def received (o : FM) (h : Hart) (g : RGroup) (f : RpFixed) (e : Nat) : Nat × Flags :=
  let r := h.vreg (h.rot o.v.toNat)
  let v := readAs o.mt (roundElem g f e).1
  ((convert r.tag r.sat h.rm v).1, (roundElem g f e).2 ||| v.x.snan ||| (convert r.tag r.sat h.rm v).2)

/-- The root's receipt of the open round's result from `u` ends in `t` (R241, R242): vd gains the combined elements, the round ends. -/
def receivedFrom (o : FM) (u : State) (g : RGroup) (f : RpFixed) (t : State) : Prop :=
  let h := runner u
  let v := withGroup o u g.ended
  t = { v.setHart u.cur (runner t) with fresh := t.fresh } ∧
  runner t = ({ h with v := (runner t).v, fcsr := (runner t).fcsr } : Hart).at (h.pc + 8) ∧
  written h (runner t) o.v.toNat h.start h.vlen (fun e =>
    if (h.maskOf o.msk).getLsbD e then some (received o h g f e).1 else none) ∧
  gained h (runner t) h.start h.vlen (h.maskOf o.msk) fun e => (received o h g f e).2

/-- The running hart is the root of a round whose packets have all come, and names what the first packet fixed. -/
def resultReady (o : FM) (u : State) (g : RGroup) (f : RpFixed) : Prop :=
  let h := runner u
  groupIs o u g ∧ (descOf o u).rank = 0 ∧ g.fixed = some f ∧ f = rpFix o (descOf o u) h.vlen ∧ h.en = 0 ∧ h.cut = none ∧
  (h.start < h.vlen → h.isPairHigh (h.rot o.v.toNat) = false) ∧ evenPairs h o.v.toNat [] ∧
  ∀ r < f.n, g.round < Tbl.get 0 g.sent r

end Sys2Proof.Claims

/-- R240, R241, R397: `rp.send` completes when the router takes its packet: the packet, its elements rounded into MT, enters the open
round of its group, or is discarded where that round was abandoned; until then the hart waits, and RP_ACCEPT ends the wait. -/
def Sys2Proof.Claims.PacketSendResults : Prop :=
  ∀ (o : FM) (s : State) (g : RGroup), let u := lookingAgain s s.ev.hart
    (groupIs o s g → packetClean o (runner s) →
      (routerTakes o s g → ∃ t, exec (.rpSend o) s = .next t ∧ sentFrom o s g t) ∧
      (g.round < Tbl.get 0 g.sent (descOf o s).rank → exec (.rpSend o) s = .next (s.setWait s.cur (.rpSend o)))) ∧
    ((s.hart s.ev.hart).wait = some (.rpSend o) → s.awake s.ev.hart = true → groupIs o u g → packetClean o (runner u) →
      routerTakes o u g → ∃ t, exec .rpAccept s = .next t ∧ sentFrom o u g t)

/-- R241, R242, R397: `rp.recv` of the root completes when every rank's packet of the round has come: the packets are combined by the
pairwise tree, or the chain, and the round ends. A root that waits takes RP_TIMEOUT, with the missing ranks in `sr.tval`, once the
time of its descriptor is over, and the round is abandoned. -/
def Sys2Proof.Claims.PacketReceiveResults : Prop :=
  ∀ (o : FM) (s : State) (g : RGroup) (f : RpFixed) (start : Nat),
    let n := s.ev.hart
    let u := lookingAgain s n
    (resultReady o s g f → ∃ t, exec (.rpRecv o) s = .next t ∧ receivedFrom o s g f t) ∧
    ((s.hart n).wait = some (.rpRecv start o) → s.awake n = true →
      (resultReady o u g f → ∃ t, exec .rpResult s = .next t ∧ receivedFrom o u g f t) ∧
      (groupIs o u g → Tbl.get none (s.die (dieOf n)).groups (descOf o u).grp = some g →
        start + (descOf o u).tmo * 47000 ≤ s.now → (∃ t, canEnter u n t) → ∀ m : Word, (∃ r < (descOf o u).n, Tbl.get 0 g.sent r ≤ g.round) →
          (∀ r < 64, m.getLsbD r = decide (r < (descOf o u).n ∧ Tbl.get 0 g.sent r ≤ g.round)) →
            exec .rpTimeout s = .next ((withGroup o u g.ended).takeTrap n unitAp Cause.rpTimeout.code m (s.hart n).pc 0)))

/-- R238 to R243, R397: `rp.send` and `rp.recv`, and the events of their rounds.
Choices of the model that it rests on: log entries 32, 75. -/
def Obligations.PacketResults : Prop := PacketSendResults ∧ PacketReceiveResults

/-! ### Paired words (08_encoding R161-R164) -/

namespace Sys2Proof.Claims

/-- EP+EP words by the operation of slot 0 (Table 8.5). -/
def epPairs (s : EpArgs) (p : EpSlot) : List (Instr × BitVec 6) :=
  [(.epSlotVadd s p, 0x00), (.epSlotVsub s p, 0x01), (.epSlotVmul s p, 0x02), (.epSlotVmin s p, 0x03), (.epSlotVmax s p, 0x04),
   (.epSlotVand s p, 0x05), (.epSlotVor s p, 0x06), (.epSlotVxor s p, 0x07), (.epSlotVmov s p, 0x08), (.epSlotVcvt s p, 0x09),
   (.epSlotVslli s p, 0x0A), (.epSlotVsrli s p, 0x0B), (.epSlotVsrai s p, 0x0C), (.epSlotVneg s p, 0x0D), (.epSlotVabs s p, 0x0E),
   (.epSlotVaddi s p, 0x10)]

/-- AP+EP words with the value that slot 0 gives a[D] (Table 8.6). -/
def apPairs (s : ApArgs) (p : EpSlot) (d a : Word) : List (Instr × Word) :=
  [(.apSlotAdd s p, d + a), (.apSlotSub s p, d - a), (.apSlotAnd s p, d &&& a), (.apSlotOr s p, d ||| a), (.apSlotXor s p, d ^^^ a),
   (.apSlotAddi s p, a + s.imm.signExtend 64), (.apSlotSlli s p, a <<< (s.imm.toNat % 64)),
   (.apSlotSrli s p, a >>> (s.imm.toNat % 64)), (.apSlotLdi s p, s.imm.signExtend 64)]

/-- The operation of an EP slot, its operands (Table 8.5). -/
def slotWork (p : EpSlot) : Option EpWork := epWork p.op p.args

/-- A slot can run: its operands fit its class, D and its sources under 64-bit tags are even. -/
def slotReady (h : Hart) (w : EpWork) : Prop :=
  (∀ q ∈ w.cls.faults h w.d w.ss, q.1 = false) ∧ evenPairs h w.d w.ss

/-- Every active element of a slot from `sr.vstart` below vl gives the value and the flags named for it. -/
def slotGives (h : Hart) (w : EpWork) (val : Nat → Nat) (fl : Nat → Flags) : Prop :=
  ∀ e, h.start ≤ e → e < h.vlen → (h.maskOf w.msk).getLsbD e → w.res h e = .ok (val e, fl e)

/-- Register D of a slot after the word: active elements hold their values, the others are undisturbed. -/
def slotWritten (h h' : Hart) (w : EpWork) (val : Nat → Nat) : Prop :=
  ∀ e < 128, h'.elem (h.rot w.d) e =
    if h.start ≤ e ∧ e < h.vlen ∧ (h.maskOf w.msk).getLsbD e then val e % 2 ^ tagWidth (h.vreg (h.rot w.d)).tag
    else h.elem (h.rot w.d) e

/-- The flags of a slot's active elements. -/
def slotFlags (h : Hart) (w : EpWork) (fl : Nat → Flags) : Flags := flagsOver h.start h.vlen (h.maskOf w.msk) fl

/-- Every register keeps its tag and saturation bit. -/
def tagsKept (h h' : Hart) : Prop := ∀ n, (h'.vreg n).tag = (h.vreg n).tag ∧ (h'.vreg n).sat = (h.vreg n).sat

/-- The registers that a slot writes. -/
def slotOwns (h : Hart) (w : EpWork) (n : Nat) : Prop :=
  n = h.rot w.d ∨ (tagWidth (h.vreg (h.rot w.d)).tag = 64 ∧ n = h.rot w.d + 1)

/-- No register of a slot lies in a wrong bank: names 0 and 1 modulo 4 for slot 0, 2 and 3 for slot 1 (R163). -/
def banksFit (s : EpArgs) (p : EpSlot) : Prop :=
  s.d.toNat % 4 < 2 ∧ s.a.toNat % 4 < 2 ∧ 2 ≤ p.args.d.toNat % 4 ∧ 2 ≤ p.args.a.toNat % 4

end Sys2Proof.Claims

/-- R161, R163, Table 8.5: an EP+EP word whose slots lie in their banks and whose operands fit completes as one instruction: each
slot gives its D the values of its active elements, read before either slot writes, FLAGS gain those of both, and nothing else
changes. A register in a wrong bank takes PAIR_BANK with its number, slot 0 first. -/
def Sys2Proof.Claims.EpPairResults : Prop :=
  ∀ (a : EpArgs) (p : EpSlot) (s : State), ∀ x ∈ epPairs a p,
    let h := runner s
    (banksFit a p → ∀ w₀ w₁, epWork x.2 a = some w₀ → slotWork p = some w₁ → slotReady h w₀ → slotReady h w₁ → h.epq < 64 → quiet h →
      ∀ val₀ fl₀ val₁ fl₁, slotGives h w₀ val₀ fl₀ → slotGives h w₁ val₁ fl₁ →
        ∃ t, exec x.1 s = .next t ∧ doneOnPipes s t [] [0, 1] ∧ slotWritten h (runner t) w₀ val₀ ∧ slotWritten h (runner t) w₁ val₁ ∧
          tagsKept h (runner t) ∧ (runner t).fcsr = h.fcsr ||| (slotFlags h w₀ fl₀ ||| slotFlags h w₁ fl₁).setWidth 64 ∧
          ∀ n, ¬slotOwns h w₀ n → ¬slotOwns h w₁ n → (runner t).vreg n = h.vreg n) ∧
    (∀ n, (slotRegs a).find? (2 ≤ · % 4) = some n → exec x.1 s = .next (s.takeTrap s.cur unitEp Cause.pairBank.code (BitVec.ofNat 64 n) h.pc 0)) ∧
    (∀ n, (slotRegs a).find? (2 ≤ · % 4) = none → (slotRegs p.args).find? (· % 4 < 2) = some n →
      exec x.1 s = .next (s.takeTrap s.cur unitEp Cause.pairBank.code (BitVec.ofNat 64 n) h.pc 0))

/-- R161, R162, Tables 8.5 and 8.6: an AP+EP word gives a[D] of its AP slot the value of Table 8.6 and runs its EP slot on any
registers; FLAGS gain those of the EP slot, and nothing else changes. -/
def Sys2Proof.Claims.ApPairResults : Prop :=
  ∀ (a : ApArgs) (p : EpSlot) (s : State), ∀ x ∈ apPairs a p ((runner s).aReg a.d.toNat) ((runner s).aReg a.a.toNat),
    let h := runner s
    ∀ w, slotWork p = some w → slotReady h w → h.epq < 64 → quiet h → ∀ val fl, slotGives h w val fl →
      ∃ t, exec x.1 s = .next t ∧ slotWritten h (runner t) w val ∧ tagsKept h (runner t) ∧
        (∀ n, ¬slotOwns h w n → (runner t).vreg n = h.vreg n) ∧ (runner t).fcsr = h.fcsr ||| (slotFlags h w fl).setWidth 64 ∧
        runner t = ((({ h with v := (runner t).v, fcsr := (runner t).fcsr, epq := h.epq + 1 } : Hart).setA a.d.toNat x.2).at
          (h.pc + 8)) ∧
        t = { (s.tasted [ownPipe s.cur]).setHart s.cur (runner t) with fresh := t.fresh }

/-- R160 to R166: the paired words of both kinds.
Choices of the model that it rests on: log entries 11, 45, 76. -/
def Obligations.PairedWordResults : Prop := EpPairResults ∧ ApPairResults

/-! ### The matrix engine (12_matrix R253-R261, 03 R58-R60, 04 R83) -/

namespace Sys2Proof.Claims

/-- The core of the running hart. -/
def myCoreOf (s : State) : Core := s.core (coreOf s.cur)

/-- A hart reaches a tile: slot 0 has t0 to t3, slot 1 t4 to t7, the last rank of an odd team all eight (R21, R83). -/
def ownsTile (s : State) (t : Nat) : Prop :=
  ((runner s).size % 2 = 1 ∧ (runner s).rank + 1 = (runner s).size) ∨ t / 4 = s.cur % 2

/-- The shape in force, where an instruction of type TY may use it (R257). -/
def shapeIs (s : State) (o : FX) (sh : Shape) : Prop :=
  sh = shapeOf (runner s).mshape ∧ o.ty.toNat = sh.ty ∧ shapeFits sh.ty sh.k sh.n = true

/-- An instruction of the engine has completed from `s` into `t`: pc moves on; of the hart, vector registers and FLAGS may differ,
of its core, Vat and tiles. -/
def engineDone (s t : State) : Prop :=
  let c := myCoreOf t
  t = { (s.setCore (coreOf s.cur) { myCoreOf s with vat := c.vat, tiles := c.tiles }).setHart s.cur (runner t) with fresh := t.fresh } ∧
  runner t = ({ runner s with v := (runner t).v, fcsr := (runner t).fcsr, meq := (runner s).meq + 1 } : Hart).at ((runner s).pc + 8)

/-- A multiplication by its parts: what of its encoding does not fit the shape, operands of a wrong tag, a[k] of row m as the core then
holds its operands. -/
structure MulForm where
  i : Instr
  bad : Bool
  tags : List (Bool × Word)
  term : Core → Nat → Nat → ATerm

/-- `mma`, its A operand in registers or in the Vat, and `mmasp` (R258, R259). -/
def mulForms (o : FX) (s : State) (sh : Shape) : List MulForm :=
  let h := runner s
  let a := o.a.toNat
  let g := groupRows o
  let rho := denseRegs sh
  let sigma := sparseRegs sh
  let t := tyTag sh.ty
  [if o.src then ⟨.mma o, 255 < a + g - 1 || 128 < accCols (accOf sh.ty) * sh.k, [], fun c => vatTerm c t (accOf sh.ty) a⟩
   else ⟨.mma o, 255 < a + g * rho - 1, groupFaults h t (denseNames o sh), fun _ => denseTerm h a rho⟩,
   ⟨.mmasp o, 255 < a + g * sigma + g - 1,
    groupFaults h t (span a (a + g * sigma)) ++ groupFaults h 0 (span (a + g * sigma) (a + g * sigma + g)), fun _ => sparseTerm h a g sigma⟩]

/-- Row m of a multiplication is active in column n. -/
def mulActive (o : FX) (h : Hart) (sh : Shape) (n : Nat) : Prop :=
  n < sh.n ∧ n < h.vlen ∧ (h.maskOf (o.xm.extractLsb' 0 4)).getLsbD n = true

/-- The core before row m of a multiplication: the rows below it hold their results, which a row whose A operand lies in the Vat may
read. -/
def beforeRow (o : FX) (h : Hart) (sh : Shape) (c : Core) (val : Nat → Nat → Nat) (m : Nat) : Core :=
  let u := accCols (accOf sh.ty)
  (span h.start m).foldl (fun c i => c.setVatRow (o.vr.toNat + i)
    (((List.range (min sh.n h.vlen)).filter (h.maskOf (o.xm.extractLsb' 0 4)).getLsbD).foldl
      (fun v n => v.putAcc (accOf sh.ty) (o.vc.toNat + u * n) (val i n)) (c.vatRow (o.vr.toNat + i)))) c

/-- The flags of the rows from `sr.vstart` below G, over the columns that `mk` makes active below `cols`. -/
def rowFlags (h : Hart) (g cols : Nat) (mk : Mask) (fl : Nat → Nat → Flags) : Flags :=
  (span h.start g).foldl (fun (f : Flags) m => f ||| flagsOver 0 cols mk (fl m)) 0

end Sys2Proof.Claims

/-- R257, R258, R259, R58: `mma` and `mmasp` of a shape in force, with operands of its type, a tile of its stamp and no poison in
what they read, complete: the accumulator of each row from `sr.vstart` below G and of each active column gains the sum of products
of R58, every other word of the Vat is kept, and FLAGS gain those of the rows. With vl = 0, or `sr.vstart` at or above G, nothing is
written.
Choices of the model that it rests on: log entries 37, 38, 76. -/
def Obligations.MultiplyResults : Prop :=
  ∀ (o : FX) (s : State) (sh : Shape), shapeIs s o sh → ownsTile s o.t.toNat → ∀ f ∈ mulForms o s sh,
    let h := runner s
    let c := myCoreOf s
    let acc := accOf sh.ty
    let u := accCols acc
    let col := fun n => o.vc.toNat + u * n
    f.bad = false → o.vc.toNat + u * min sh.n h.vlen ≤ 128 →
    (h.vlen = 0 ∨ groupRows o ≤ h.start → exec f.i s = .next (done s { h with meq := h.meq + 1 })) ∧
    (0 < h.vlen → h.start < groupRows o → (∀ p ∈ f.tags, p.1 = false) → (c.tile o.t.toNat).stamp = h.mshape → h.en = 0 → h.cut = none →
      ∀ (as : Nat → List (Option (Exact × Flags))) (val : Nat → Nat → Nat) (fl : Nat → Nat → Flags),
        (∀ m, h.start ≤ m → m < groupRows o →
          aRow (o.xm.getLsbD 4) (f.term (beforeRow o h sh c val m) m) sh.k = some (as m)) →
        (∀ m n, h.start ≤ m → m < groupRows o → mulActive o h sh n →
          mmaColumn sh acc h.rm (c.tile o.t.toNat) (c.vatRow (o.vr.toNat + m)) (col n) n (as m) = some (n, val m n, fl m n)) →
        ∃ t, exec f.i s = .next t ∧ engineDone s t ∧ (runner t).v = h.v ∧ (myCoreOf t).tiles = c.tiles ∧
          (runner t).fcsr = h.fcsr |||
            (rowFlags h (groupRows o) (min sh.n h.vlen) (h.maskOf (o.xm.extractLsb' 0 4)) fl).setWidth 64 ∧
          (∀ m n, h.start ≤ m → m < groupRows o → mulActive o h sh n →
            let r := (myCoreOf t).vatRow (o.vr.toNat + m)
            r.live = true ∧ r.accPoison acc (col n) = false ∧ r.acc acc (col n) = val m n % 2 ^ (32 * u)) ∧
          (∀ m k, h.start ≤ m → m < groupRows o → k < 128 → (∀ n, mulActive o h sh n → ¬(col n ≤ k ∧ k < col n + u)) →
            elemBits ((myCoreOf t).vatRow (o.vr.toNat + m)).data 32 k = elemBits (c.vatRow (o.vr.toNat + m)).data 32 k) ∧
          ∀ r, (r < o.vr.toNat + h.start ∨ o.vr.toNat + groupRows o ≤ r) → (myCoreOf t).vatRow r = c.vatRow r)

/-- R254, R256, R260: `mzero` makes its Vat rows +0 and not live. `mvat2v` converts accumulators into registers and `mv2vat` the
reverse, active columns below vl, another one 0 where MU is 1 and undisturbed otherwise, and FLAGS gain those of the conversions;
`mv2t` and `mt2v` move elements between registers and tile rows unchanged, without a flag; every other register, row and tile is
kept. With no row from `sr.vstart` below G, or vl = 0, nothing is written. `mshape` and `mrdshape` write and read the shape. That
`mrdshape` completes in every state, since a matrix write is done when its instruction is, is the model's choice (log entry 8). -/
def Sys2Proof.Claims.MatrixMoveResults : Prop :=
  ∀ (o : FX) (s : State),
    let h := runner s
    let c := myCoreOf s
    let g := groupRows o
    let acc := accOf o.ty.toNat
    let u := accCols acc
    let col := fun n => o.vc.toNat + u * n
    let d := fun m => h.rot (o.a.toNat + m * rowRegs o.ty)
    let mk := moveMask o h
    let rows := fun m => h.start ≤ m ∧ m < g
    let even := ∀ m < g, tagWidth (h.vreg (d m)).tag = 64 → d m % 2 = 0
    let group := o.a.toNat + (g - 1) * rowRegs o.ty ≤ 255
    let idle := h.vlen = 0 ∨ g ≤ h.start
    let fits := 0 < h.vlen ∧ h.vlen ≤ 128 ∧ h.en = 0 ∧ h.cut = none ∧ group ∧ (∀ n ∈ rowNames o, h.isPairHigh (h.rot n) = false)
    let others := fun (t : State) => ∀ n, (∀ m, rows m → n ≠ d m ∧ ¬(tagWidth (h.vreg (d m)).tag = 64 ∧ n = d m + 1)) →
      (runner t).vreg n = h.vreg n
    (∃ t, exec (.mzero o) s = .next t ∧ engineDone s t ∧ (runner t).v = h.v ∧ (runner t).fcsr = h.fcsr ∧ (myCoreOf t).tiles = c.tiles ∧
      ∀ r, (myCoreOf t).vatRow r = if o.vr.toNat ≤ r ∧ r < o.vr.toNat + g then {} else c.vatRow r) ∧
    (idle → group → o.vc.toNat + u * h.vlen ≤ 128 → ∀ i ∈ [Instr.mvat2v o, .mv2vat o],
      exec i s = .next (done s { h with meq := h.meq + 1 })) ∧
    (fits → even → o.vc.toNat + u * h.vlen ≤ 128 →
      (∀ m n, rows m → n < h.vlen → mk.getLsbD n → (c.vatRow (o.vr.toNat + m)).accPoison acc (col n) = false) →
        let out := fun m n =>
          converted (h.vreg (d m)).tag (h.vreg (d m)).sat h.rm (readAs acc ((c.vatRow (o.vr.toNat + m)).acc acc (col n)))
        ∃ t, exec (.mvat2v o) s = .next t ∧ engineDone s t ∧ (myCoreOf t).vat = c.vat ∧ (myCoreOf t).tiles = c.tiles ∧ others t ∧
          (runner t).fcsr = h.fcsr ||| (rowFlags h g h.vlen mk fun m n => (out m n).2).setWidth 64 ∧
          (∀ m n, rows m → n < 128 → (runner t).elem (d m) n =
            if n < h.vlen ∧ mk.getLsbD n then (out m n).1 % 2 ^ tagWidth (h.vreg (d m)).tag
            else if n < h.vlen ∧ moveZero o then 0 else h.elem (d m) n)) ∧
    (fits → o.vc.toNat + u * h.vlen ≤ 128 →
      (∀ m n, rows m → n < h.vlen → mk.getLsbD n → h.elemPoison (d m) n = false) →
        let out := fun m n => converted acc false h.rm (readAs (h.vreg (d m)).tag (h.elem (d m) n))
        ∃ t, exec (.mv2vat o) s = .next t ∧ engineDone s t ∧ (runner t).v = h.v ∧ (myCoreOf t).tiles = c.tiles ∧
          (runner t).fcsr = h.fcsr ||| (rowFlags h g h.vlen mk fun m n => (out m n).2).setWidth 64 ∧
          (∀ m, rows m → ((myCoreOf t).vatRow (o.vr.toNat + m)).live = true) ∧
          (∀ m n, rows m → n < h.vlen → ((myCoreOf t).vatRow (o.vr.toNat + m)).acc acc (col n) =
            if mk.getLsbD n then (out m n).1 % 2 ^ (32 * u)
            else if moveZero o then 0 else (c.vatRow (o.vr.toNat + m)).acc acc (col n)) ∧
          (∀ m k, rows m → k < 128 → (k < o.vc.toNat ∨ o.vc.toNat + u * h.vlen ≤ k) →
            elemBits ((myCoreOf t).vatRow (o.vr.toNat + m)).data 32 k = elemBits (c.vatRow (o.vr.toNat + m)).data 32 k) ∧
          ∀ r, (∀ m, rows m → r ≠ o.vr.toNat + m) → (myCoreOf t).vatRow r = c.vatRow r) ∧
    (∀ sh, shapeIs s o sh → ownsTile s o.t.toNat → group → firstRow o + g ≤ sh.k →
      (idle → ∀ i ∈ [Instr.mv2t o, .mt2v o], exec i s = .next (done s { h with meq := h.meq + 1 })) ∧
      (fits → even → (∀ m < g, (h.vreg (d m)).tag = tyTag sh.ty) →
      ((∀ m n, rows m → n < min sh.n h.vlen → h.elemPoison (d m) n = false) →
        h.start < g → ∃ t, exec (.mv2t o) s = .next t ∧ engineDone s t ∧ (runner t).v = h.v ∧ (runner t).fcsr = h.fcsr ∧
          (myCoreOf t).vat = c.vat ∧
          let x := (myCoreOf t).tile o.t.toNat
          x.stamp = h.mshape ∧ x.live = true ∧ (∀ i, i ≠ o.t.toNat → (myCoreOf t).tile i = c.tile i) ∧
          ∀ k n, k < sh.k → n < sh.n → x.elem sh k n =
            if firstRow o + h.start ≤ k ∧ k < firstRow o + g ∧ n < h.vlen then h.elem (d (k - firstRow o)) n
            else (c.tile o.t.toNat).elem sh k n) ∧
      ((c.tile o.t.toNat).stamp = h.mshape → (∀ m n, rows m → n < min sh.n h.vlen → (c.tile o.t.toNat).elemPoison sh (firstRow o + m) n = false) →
        ∃ t, exec (.mt2v o) s = .next t ∧ engineDone s t ∧ (myCoreOf t).vat = c.vat ∧ (myCoreOf t).tiles = c.tiles ∧ others t ∧
          (runner t).fcsr = h.fcsr ∧
          ∀ m n, rows m → n < 128 → (runner t).elem (d m) n =
            if n < sh.n ∧ n < h.vlen then (c.tile o.t.toNat).elem sh (firstRow o + m) n else h.elem (d m) n))) ∧
    ∀ (x : FC),
      let ty := (x.x.extractLsb' 0 4).toNat
      let k := (h.aReg x.a.toNat).toNat
      let n := (h.aReg x.b.toNat).toNat
      (shapeFits ty k n = true → exec (.mshape x) s = .next (done s { h with mshape := BitVec.ofNat 64 (ty + k * 2 ^ 16 + n * 2 ^ 32) })) ∧
      (shapeFits ty k n = false → exec (.mshape x) s = .next (trapped s .illegal 0x800)) ∧
      (ownsTile s (tileField x) → exec (.mrdshape x) s = .next (done s (h.setA x.d.toNat (c.tile (tileField x)).stamp)))

/-- A store on path M: it enters the hart's buffer of that path, and no early load of its bytes stands; a register takes it at once. -/
def Sys2Proof.Claims.sentOnM (s : State) (w : Nat × List PByte) : State :=
  if windowOf w.1 = .register then s.storeWindow w.1 w.2
  else s.setHart s.cur { (runner s).dropEarly w.1 w.2.length with
    mbuf := (runner s).mbuf ++ [⟨w.1, w.2, (runner s).epoch, (runner s).fcount⟩] }

/-- R98, R261: `mldt` reads K rows of RB bytes into a tile with the stamp of the shape in force and makes it live, `mldvat` 512 bytes
into each Vat row; `mstt` and `mstvat` store them on path M. Each completes once its whole footprint has translated and can be read
or written; bytes of the tile above the footprint are kept. -/
def Sys2Proof.Claims.MatrixMemoryResults : Prop :=
  ∀ (o : FC) (s : State),
    let h := runner s
    let c := myCoreOf s
    let k := tileField o
    let sh := shapeOf h.mshape
    let s₀ := s.setHart s.cur { h with vstart := 0 }
    let sent := fun (u t : State) (ps : List AreaPiece) (bytes : List PByte) =>
      ∃ ws, writtenCells ws = areaCells ps bytes ∧ (∀ w ∈ ws, w.2 ≠ [] ∧ (w.1 + w.2.length - 1) / 8 = w.1 / 8) ∧
        let v := ws.foldl sentOnM (u.forgetErrors (piecesCover ps))
        t = done v { runner v with meq := (runner v).meq + 1 }
    (∀ ps bs s₁ s₂, ownsTile s k → footprint o sh.k sh.rowBytes .load s₀ = .ok ps s₁ → readPathM ps s₁ = .ok bs s₂ → bs.length ≤ 32768 →
      ∃ t, exec (.mldt o) s = .next t ∧ engineDone s₂ t ∧ (runner t).v = h.v ∧ (myCoreOf t).vat = c.vat ∧
        (∀ i, i ≠ k → (myCoreOf t).tile i = c.tile i) ∧
        let x := (myCoreOf t).tile k
        x.stamp = h.mshape ∧ x.live = true ∧ ∀ i < 32768, (x.data.extractLsb' (8 * i) 8, x.poison.extractLsb' (2 * i) 2) =
          match bs[i]? with
          | some b => (b.val, if b.poi then 3 else 0)
          | none => ((c.tile k).data.extractLsb' (8 * i) 8, (c.tile k).poison.extractLsb' (2 * i) 2)) ∧
    (∀ ps s₁, ownsTile s k → (c.tile k).stamp = h.mshape → footprint o sh.k sh.rowBytes .store s₀ = .ok ps s₁ → piecesWritable s₁ ps →
      ∃ t, exec (.mstt o) s = .next t ∧ sent s₁ t ps ((c.tile k).bytes (sh.k * sh.rowBytes))) ∧
    (∀ ps bs s₁ s₂, footprint o (vatRows o) 512 .load s₀ = .ok ps s₁ → readPathM ps s₁ = .ok bs s₂ →
      ∃ t, exec (.mldvat o) s = .next t ∧ engineDone s₂ t ∧ (runner t).v = h.v ∧ (myCoreOf t).tiles = c.tiles ∧
        ∀ r, (myCoreOf t).vatRow r =
          if vatFirst o ≤ r ∧ r < vatFirst o + vatRows o then vatRowOf ((bs.drop (512 * (r - vatFirst o))).take 512) else c.vatRow r) ∧
    (∀ ps s₁, footprint o (vatRows o) 512 .store s₀ = .ok ps s₁ → piecesWritable s₁ ps →
      ∃ t, exec (.mstvat o) s = .next t ∧
        sent s₁ t ps ((List.range (vatRows o)).flatMap fun i => (c.vatRow (vatFirst o + i)).bytes))

/-- R254, R255, R259 to R261: moves between vector registers, the Vat and tiles, and their loads and stores.
Choices of the model that it rests on: log entries 8, 18, 36, 37, 38, 48, 75, 78. -/
def Obligations.MatrixTransfers : Prop := MatrixMoveResults ∧ MatrixMemoryResults

/-! ### Copies and barriers (12_matrix R262-R266, 04 R84, R86) -/

namespace Sys2Proof.Claims

/-- A copy instruction by its parts: rows, bytes of a row, source and destination stride, 2-D, byte barrier. -/
structure CopyForm where
  i : Instr
  rows : Nat
  len : Nat
  ss : Word
  ds : Word
  twoD : Bool
  bar : Option Nat
  ok : Prop

/-- The copies of Table 12.5; `off` is the Cask offset of the byte barrier of `cpy.bb`. -/
def copyForms (o : FC) (s : State) (off : Nat) : List CopyForm :=
  let h := runner s
  let n := (h.aReg o.c.toNat).toNat
  let len := n % 2 ^ 32
  let rows := n / 2 ^ 32
  let st := h.aReg o.d.toNat
  [⟨.cpy o, if n = 0 then 0 else 1, n, 0, 0, false, none, n < 2 ^ 32⟩,
   ⟨.cpy2d o, if len = 0 then 0 else rows, len, (st.extractLsb' 32 32).signExtend 64, (st.extractLsb' 0 32).signExtend 64, true, none,
    rows * len < 2 ^ 32⟩,
   ⟨.cpyBb o, if n = 0 then 0 else 1, n, 0, 0, false, some off, n < 2 ^ 32 ∧ barrierOffset st s = .ok off s⟩]

/-- The ranges of a copy are ones that it may name (R82, R136, R262). -/
def rangesAllowed (o : FC) (s : State) (f : CopyForm) : Prop :=
  let dst := (runner s).aReg o.a.toNat
  let src := (runner s).aReg o.b.toNat
  checkCaskRange dst f.ds f.rows f.len s = .ok () s ∧ checkCaskRange src f.ss f.rows f.len s = .ok () s ∧
  checkStackRange dst f.ds f.rows f.len s = .ok () s ∧ checkStackRange src f.ss f.rows f.len s = .ok () s

/-- A hart that may have counted a fence (R104). -/
def counted (h : Hart) : Hart := if h.det then { h with fcount := h.fcount + 1 } else h

/-- A hart after a fence: no load stands ahead of its instruction (R95, R104). -/
def fenced (h : Hart) : Hart := { counted h with early := [] }

/-- The Trellis barrier named by X[4:0] exists for the running hart (R265). -/
def barrierExists (o : FC) (s : State) : Prop := barField o < 16 ∨ ∃ l, s.launchOf s.cur = some l ∧ l.resident = true

/-- A barrier after one more arrival, with the arriving hart's key: with the last expected one the phase completes, and the keys of its
arrivals go to the harts that it lets through (R265, R104). -/
def arrivedOnce (b : Barrier) (key : Option DetKey) : Barrier :=
  if b.expected ≤ b.arrived + 1 then
    { b with arrived := 0, gen := b.gen + 1, mark := none, passed := laterKey (laterKey key b.mark) b.passed }
  else { b with arrived := b.arrived + 1, mark := laterKey key b.mark }

/-- A hart that goes on from a barrier, an acquire of what `passed` says: nothing but its fence count changes, which passes that of the
arrivals of its own launch and run (R104), and no load stands ahead of its instruction. -/
def passedBy (s : State) (n : Nat) (passed : Option DetKey) (h' : Hart) : Prop :=
  acquiredHart (s.hart n) h' ∧ ((s.hart n).det = true → (s.hart n).fcount < h'.fcount ∧
    ∀ k, passed = some k → k.launch = s.keyLaunch n → k.run = (s.hart n).tilePos → k.count < h'.fcount)

end Sys2Proof.Claims

/-- R84, R262, Table 12.5: a copy whose ranges are allowed starts on its tag where the tag is free, its bit of `sr.cdone` then 0, and
completes at once where it has no bytes; on a busy tag the hart stalls. `cdone`, `cffr` and `cclr` read, search and clear
`sr.cdone`; the waits complete when any or all of the tags of a[A] are done, and else wait. -/
def Sys2Proof.Claims.CopyInstructions : Prop :=
  ∀ (o : FC) (s : State) (off : Nat),
    let h := runner s
    let c := myCoreOf s
    let t := o.tag.toNat
    let done' := fun (c : Core) => done (s.setCore (coreOf s.cur) c) h
    (∀ f ∈ copyForms o s off, f.ok → rangesAllowed o s f →
      (∀ x, s.copyOn (coreOf s.cur) t = some x → exec f.i s = .next (s.setWait s.cur (.copyTag t))) ∧
      (s.copyOn (coreOf s.cur) t = none →
        (f.rows * f.len = 0 → exec f.i s = .next (done' { c with cdone := c.cdone ||| BitVec.ofNat 64 (2 ^ t) })) ∧
        (f.rows * f.len ≠ 0 → exec f.i s = .next (done' { c with
          cdone := c.cdone &&& ~~~BitVec.ofNat 64 (2 ^ t),
          copies := Tbl.set none c.copies t (some
            { hart := s.cur, src := h.aReg o.b.toNat, dst := h.aReg o.a.toNat, rowLeft := f.len, rowsLeft := f.rows, rowBytes := f.len,
              srcStride := f.ss, dstStride := f.ds, dur := o.x.getLsbD 0, bar := f.bar, twoD := f.twoD, rows := f.rows }) })))) ∧
    exec (.cdone o) s = .next (done s (h.setA o.d.toNat (if c.cdone.getLsbD t then 1 else 0))) ∧
    exec (.cclr o) s = .next (done' { c with cdone := c.cdone &&& ~~~h.aReg o.a.toNat }) ∧
    (let x := c.cdone &&& h.aReg o.a.toNat
     (∀ k < 64, x.getLsbD k = true → (∀ j < k, x.getLsbD j = false) →
       exec (.cffr o) s = .next (done s (h.setA o.d.toNat (BitVec.ofNat 64 k)))) ∧
     (x = 0 → exec (.cffr o) s = .next (done s (h.setA o.d.toNat (BitVec.allOnes 64)))) ∧
     (if x = h.aReg o.a.toNat then exec (.cwaitAll o) s = .next (done s (h.setA o.d.toNat x))
      else exec (.cwaitAll o) s = .next (s.setWait s.cur (.cwait true o))) ∧
     (if h.aReg o.a.toNat = 0 ∨ x ≠ 0 then exec (.cwaitAny o) s = .next (done s (h.setA o.d.toNat x))
      else exec (.cwaitAny o) s = .next (s.setWait s.cur (.cwait false o))))

/-- R79, R84, R86, R98, R113, R262, R263, R400: a line of a copy lands: its bytes, poison with them, go from source to destination and the
byte barrier of `cpy.bb` counts them; where the page has duplicates the line waits. When every row has landed (and for a DUR copy no other
agent's Cellar store is pending) the copy completes and its bit of `sr.cdone` is set. A failing line ends the copy with its cause, of a
DUR copy once what it has landed is durable. A hart waiting for tags or for a free tag goes on. -/
def Sys2Proof.Claims.CopyEvents : Prop :=
  ∀ (s : State) (c : Copy),
    let core := s.ev.core
    let tag := s.ev.tag
    let n := s.ev.hart
    let u := lookingAgain s n
    let p := c.skip s.ev.line
    let settled := c.dur = true → ∀ x ∈ s.cellarPend, x.hart ≠ none
    let first := ∀ k < s.ev.line, c.open k = true → lineFails core (c.skip k) s = false
    (s.copyOn core tag = some c → c.open s.ev.line = true →
      (∀ bs s₁ s₂ pa leaf, copyRead core p p.lineLen s = .ok bs s₁ → translateCopy core p p.dst .store s₁ = .ok (pa, leaf) s₂ →
        (pteDup leaf = true → Tbl.get [] s₂.dups (pteAddr leaf) = []) →
          let got := p.landing p.dst.toNat bs (s₂.mergeErrors (dieOfCore core) pa bs.length (s₂.engineFor p.hart))
          let v := got.2.copyWrite core pa got.1
          let w := match p.bar with
            | some off => v.updateByteBar core off none fun b => { b with landed := (b.landed + got.1.length) % 2 ^ 32 }
            | none => v
          exec .copyLineLand s = .next (w.setCopy core tag (some (c.land s.ev.line)))) ∧
      (∀ f s', moveLine core p s = .ok (.held f) s' →
        let since := match c.held with
          | some h => h.2
          | none => s.now
        (c.held = none → exec .copyLineLand s = .next (s'.setCopy core tag (some { c with held := some (f, s.now) }))) ∧
        (∀ y ys, c.held ≠ none → settled → first → s'.silentHolders f = y :: ys → since + 20000 * 47 ≤ s.now →
          exec .copyFailure s = .next (({ s' with dups := Tbl.set [] s'.dups f (y :: ys) } : State).failCopy core tag c
            ⟨Cause.migrationTimeout.code, p.dst, holderUnit f y⟩))) ∧
      (∀ x va k s', moveLine core p s = .error (.trap x va k) s' → exec .copyLineLand s = .next s ∧
        (settled → first → exec .copyFailure s = .next (s'.failCopy core tag c ⟨x.code, va, coreUnit core unitCopy⟩)) ∧
        (¬first → exec .copyFailure s = .next s))) ∧
    (s.copyOn core tag = some c → c.rowsLeft = 0 → settled →
      ∃ t, exec .copyComplete s = .next t ∧ t.copyOn core tag = none ∧
        t = s.setCore core { s.core core with copies := (t.core core).copies, cdone := (s.core core).cdone ||| BitVec.ofNat 64 (2 ^ tag) }) ∧
    (∀ t, (s.hart n).wait = some (.copyTag t) → s.awake n = true → s.copyOn (coreOf n) t = none →
      exec .copyIssueResume s = .next (s.setHart n { s.hart n with wait := none })) ∧
    ∀ o all, (s.hart n).wait = some (.cwait all o) → s.awake n = true →
      let x := (s.core (coreOf n)).cdone &&& (s.hart n).aReg o.a.toNat
      (if all then x = (s.hart n).aReg o.a.toNat else (s.hart n).aReg o.a.toNat = 0 ∨ x ≠ 0) →
        exec .cwaitWake s = .next (done u ((runner u).setA o.d.toNat x))

/-- R86, R264, Table 12.7: `bb.init`, `bb.expect` and `bb.arrive` update a byte barrier of the team's share as one action, after
the hart's own stores to it, and an arrival while ARR = 0 changes nothing; `bb.test` reads its generation; `bb.wait` completes
once the generation differs from a[B], and else waits for BB_WAKE. -/
def Sys2Proof.Claims.ByteBarrierResults : Prop :=
  ∀ (o : FC) (s s₁ : State) (off : Nat),
    let h := runner s
    let core := coreOf s.cur
    let n := h.aReg o.b.toNat
    let flushed := fun (s : State) => s.flushRange s.cur (caskBase core + off) 16
    let updated := fun (s : State) (f : ByteBar → ByteBar) => (flushed s).updateByteBar core off (flushed s).myKey f
    barrierOffset (h.aReg o.a.toNat) s = .ok off s →
    (1 ≤ n.toNat → n.toNat < 2 ^ 16 →
      let t := updated s fun _ => ⟨0, n.toNat, n.toNat, 0, 0⟩
      exec (.bbInit o) s = .next (done t (runner t))) ∧
    (n.toNat = 0 ∨ 2 ^ 16 ≤ n.toNat → exec (.bbInit o) s = .next (trapped s .illegal 0x800)) ∧
    (let t := updated s fun b => { b with expect := (b.expect + n.toNat) % 2 ^ 32 }
     exec (.bbExpect o) s = .next (done t (runner t))) ∧
    (releaseAt 2 s = .ok () s₁ →
      let b := (flushed s₁).byteBar core off
      let t := if b.arr = 0 then flushed s₁
        else updated s₁ fun b => { b with expect := (b.expect + n.toNat) % 2 ^ 32, arr := b.arr - 1 }
      exec (.bbArrive o) s = .next (done t (runner t))) ∧
    (let t := flushed s
     exec (.bbTest o) s = .next (done t ((runner t).setA o.d.toNat (BitVec.ofNat 64 (t.byteBar core off).gen)))) ∧
    (let t := flushed s
     ((t.byteBar core off).gen ≠ n.toNat % 2 ^ 32 → ∃ h', acquiredHart (runner t) h' ∧ exec (.bbWait o) s = .next (done t h')) ∧
     ((t.byteBar core off).gen = n.toNat % 2 ^ 32 → exec (.bbWait o) s = .next (t.setWait s.cur (.bb o)))) ∧
    ∀ (m k : Nat) (w : State), w.ev.hart = m → (w.hart m).wait = some (.bb o) → w.awake m = true →
      let u := lookingAgain w m
      barrierOffset ((runner u).aReg o.a.toNat) u = .ok k u →
      let t := u.flushRange m (caskBase (coreOf m) + k) 16
      (t.byteBar (coreOf m) k).gen ≠ ((runner u).aReg o.b.toNat).toNat % 2 ^ 32 →
        ∃ h', acquiredHart (runner t) h' ∧ exec .bbWake w = .next (done t h')

/-- R86, Table 4.6: after an update that leaves ARR = 0 and LANDED = EXPECT a byte barrier's generation has gone up by one, ARR is
ARR_INIT and the byte counts are 0; after another the fields are those of the update. Other bytes of memory are kept. -/
def Sys2Proof.Claims.ByteBarrierPhase : Prop :=
  ∀ (s : State) (core off : Nat) (key : Option DetKey) (f : ByteBar → ByteBar),
    let b := f (s.byteBar core off)
    let t := s.updateByteBar core off key f
    b.gen < 2 ^ 32 → b.arrInit < 2 ^ 16 → b.arr < 2 ^ 16 → b.landed < 2 ^ 32 → b.expect < 2 ^ 32 →
      (b.arr = 0 ∧ b.landed = b.expect → t.byteBar core off = ⟨(b.gen + 1) % 2 ^ 32, b.arrInit, b.arrInit, 0, 0⟩) ∧
      (¬(b.arr = 0 ∧ b.landed = b.expect) → t.byteBar core off = b) ∧
      ∀ d pa, ¬(caskBase core + off ≤ pa ∧ pa < caskBase core + off + 16) → t.byteAt d pa = s.byteAt d pa

/-- R265, R266, Table 12.9: `bar.arrive` counts an arrival once its release waits are over, and the last expected one completes the
phase; `bar.wait` and `bar.sync` complete when the generation has changed, and wait else; `bar.mset` sets EXPECTED; `bar.gen` reads
the generation. BAR_WAKE ends a wait whose generation has changed, BAR_TIMEOUT one whose time is over.
Choices of the model that it rests on: log entries 41, 67. -/
def Obligations.TrellisBarrierResults : Prop :=
  ∀ (o : FC) (s s₁ : State), barrierExists o s →
    let h := runner s
    let x := barField o
    let b := s.barrier s.cur x
    let set := fun (s : State) (b : Barrier) => s.setBarrier s.cur x b
    (releaseAt 2 s = .ok () s₁ →
      let t := set s₁ (arrivedOnce (s₁.barrier s.cur x) s₁.myKey)
      exec (.barArrive o) s = .next (done t (runner t)) ∧
      (h.vstart = 0 → (t.barrier s.cur x).gen ≠ (s₁.barrier s.cur x).gen →
        ∃ h', passedBy t s.cur (t.barrier s.cur x).passed h' ∧ exec (.barSync o) s = .next (done t h')) ∧
      (h.vstart = 0 → (t.barrier s.cur x).gen = (s₁.barrier s.cur x).gen →
        exec (.barSync o) s = .next (t.setWait s.cur (.bar true (s₁.barrier s.cur x).gen s₁.now o)))) ∧
    (h.vstart = 1 → exec (.barSync o) s = .next (s.setWait s.cur (.bar true b.gen s.now o))) ∧
    (if b.gen = (h.aReg o.a.toNat).setWidth 32 then exec (.barWait o) s = .next (s.setWait s.cur (.bar false b.gen s.now o))
     else ∃ h', passedBy s s.cur b.passed h' ∧ exec (.barWait o) s = .next (done s h')) ∧
    exec (.barGen o) s = .next (done s (h.setA o.d.toNat (b.gen.setWidth 64))) ∧
    (let n := (h.aReg o.a.toNat).toNat
     (1 ≤ n → n ≤ s.participants s.cur x →
       let t := set s (if n ≤ b.arrived then
           { expected := n, arrived := 0, gen := b.gen + 1, mark := none, passed := laterKey b.mark b.passed }
         else { b with expected := n })
       exec (.barMset o) s = .next (done t (runner t))) ∧
     (n = 0 ∨ s.participants s.cur x < n → exec (.barMset o) s = .next (trapped s .illegal 0x800))) ∧
    ∀ (m : Nat) (sync : Bool) (g : BitVec 32) (start : Nat) (w : State), w.ev.hart = m → (w.hart m).wait = some (.bar sync g start o) →
      w.awake m = true →
        let u := lookingAgain w m
        ((u.barrier m x).gen ≠ g → ∃ h', passedBy u m (u.barrier m x).passed h' ∧ exec .barWake w = .next (done u h')) ∧
        ((u.barrier m x).gen = g → (runner u).aReg o.b.toNat ≠ 0 → start + ((runner u).aReg o.b.toNat).toNat * 47 ≤ w.now →
          exec .barTimeout w = .next (u.takeTrap m unitAp Cause.barTimeout.code (BitVec.ofNat 64 x) (runner u).pc (if sync then 1 else 0)))

/-- R84, R86, R262, R263: the copy instructions, and the landing and end of a copy.
Choices of the model that it rests on: log entries 35, 39, 40, 47. -/
def Obligations.CopyResults : Prop := CopyInstructions ∧ CopyEvents

/-- R86, R264: the instructions of byte barriers, and the completion of a phase.
Choices of the model that it rests on: log entries 41, 67. -/
def Obligations.ByteBarriers : Prop := ByteBarrierResults ∧ ByteBarrierPhase

/-! ### Order, persistence, stamps, clocks (05_ordering, 11_memory R244-R248) -/

namespace Sys2Proof.Claims

/-- The promises of a fence or release of hart `n` at a scope (R95, Table 5.2): from .w on the hart's stores are applied; from .p on every
write that the die has applied is applied on every die, at .f those to the fabric window at the peers too; at .u the hart's Cellar
stores are durable. -/
def promisesHold (s : State) (n scope : Nat) : Prop :=
  let h := s.hart n
  let d := dieOf n
  scope = 0 ∨ (h.sbuf = [] ∧ h.wcb = [] ∧ (∀ e ∈ s.stampq, e.hart ≠ n) ∧
    (3 ≤ scope → ∀ w ∈ s.net, w.seq ≤ (s.clockOf d).getD w.origin 0 →
      ∀ e ∈ w.pend, e = fabricAgent ∧ ¬(scope = 4 ∨ scope = 6)) ∧
    (5 ≤ scope → s.hartDurable n = true))

/-- The state with the running hart's write-combining buffer drained (R103). -/
def drainedState (s : State) : State := s.setHart s.cur (runner s).drainWcb

/-- Instructions that a SPLICE_OK launch may not use are allowed (R136). -/
def notSpliced (s : State) : Prop := ∀ l, s.launchOf s.cur = some l → l.spliceOk = false

/-- The interval of the running hart's die is no wider than WIDTH of `sr.clkw` (R105). -/
def clockNarrow (s : State) : Prop := s.clockWidth (dieOf s.cur) ≤ ((runner s).clkw.extractLsb' 0 32).toNat

/-- A `ld.asof` from `u` that reads: its cell translates in `u₁`, its mark is past S, no queued stamped store to the cell has a
stamp at or below S, and none there is the hart's own; `v` is the value as of S, from the current version or the previous one (R109). -/
def asofReads (o : FC) (u u₁ : State) (pa : Nat) (v : Nat) (t : State) : Prop :=
  let va := (runner u).aReg o.a.toNat
  let stamp := ((runner u).aReg o.b.toNat).toNat
  let d := dieOf u.cur
  notSpliced u ∧ clockNarrow u ∧ va.toNat % 32 = 0 ∧
  ∃ leaf, translateMe va .stampLoad u = .ok (pa, leaf) u₁ ∧ stamp < u₁.markAt (pteStampFabric leaf) pa d ∧
    (∀ e ∈ u₁.stampq, e.pa = pa → stamp < e.stamp ∧ e.hart ≠ u₁.cur) ∧
    t = ((u₁.catchUp (homeOf pa)).catchUp d).findErrors d pa 32 (u₁.readerOf u₁.cur) ∧
    let c := t.cell (homeOf pa) pa
    (c.cstamp ≤ stamp ∧ v = c.cval) ∨ (stamp < c.cstamp ∧ c.pstamp ≤ stamp ∧ v = c.pval)

/-- A stall of hart `n` is over: its instruction runs again to its end. -/
def stallOver (s : State) (n : Nat) : State := s.setHart n { s.hart n with wait := none, released := true }

end Sys2Proof.Claims

/-- R95, R99, R103, R111: `fence`, `fence.path` and `fence.dur` drain the write-combining buffer and complete once their promises
hold, or once their stall has ended; until then the hart stalls. After one that orders later loads no load stands ahead.
FENCE_DONE and FENCE_DUR_DONE end a stall whose promises hold. -/
def Sys2Proof.Claims.FenceResults : Prop :=
  ∀ (o : FC) (s : State),
    let h := runner s
    let scope := (o.x.extractLsb' 0 3).toNat
    let before := o.x.extractLsb' 6 6
    let after := o.x.extractLsb' 0 6
    let u := drainedState s
    let n := s.ev.hart
    (h.released = true ∨ promisesHold u s.cur scope → exec (.fence o) s = .next (done s (fenced h.drainWcb))) ∧
    (h.released = false → ¬promisesHold u s.cur scope → exec (.fence o) s = .next (u.setWait s.cur (.fence scope []))) ∧
    (before = 0 ∨ after = 0 → exec (.fencePath o) s = .next (done s h)) ∧
    (before ≠ 0 → after ≠ 0 →
      (h.released = true ∨ u.pathDone s.cur before = true → exec (.fencePath o) s = .next (done s
        { counted h.drainWcb with early := if after.getLsbD 0 then [] else h.early })) ∧
      (h.released = false → u.pathDone s.cur before = false → exec (.fencePath o) s = .next (u.setWait s.cur (.fencePath before)))) ∧
    (notSpliced s →
      (h.released = true ∨ u.hartDurable s.cur = true → exec .fenceDur s = .next (done s (fenced h.drainWcb))) ∧
      (h.released = false → u.hartDurable s.cur = false → exec .fenceDur s = .next (u.setWait s.cur .fenceDur))) ∧
    (s.awake n = true →
      (∀ k snap, (s.hart n).wait = some (.fence k snap) → s.storesDone n = true →
        (3 ≤ k → s.countedApplied (if snap = [] then s.clockOf (dieOf n) else snap) (k = 4 || k = 6) = true) →
        (k < 5 → exec .fenceDone s = .next (stallOver s n)) ∧
        (5 ≤ k → s.hartDurable n = true → exec .fenceDurDone s = .next (stallOver s n))) ∧
      (∀ b, (s.hart n).wait = some (.fencePath b) → s.pathDone n b = true → exec .fenceDone s = .next (stallOver s n)) ∧
      ((s.hart n).wait = some .fenceDur → s.hartDurable n = true → exec .fenceDurDone s = .next (stallOver s n)))

/-- The oldest of a list of open epochs count once no store of theirs is left to become durable, and the rest stay (R112). -/
def epochsCount (s : State) (n : Nat) (before after : List Nat) (c c' : Word) : Prop :=
  ∃ es, before = es ++ after ∧ c' = c + BitVec.ofNat 64 es.length ∧ (∀ e ∈ es, s.epochOpen n e = false) ∧
    ∀ e ∈ after.head?, s.epochOpen n e = true

/-- R112, R114, R245: `pbar` closes the hart's epoch and completes without a stall; each epoch, once its Cellar stores are durable, counts
in `sr.pcount`, oldest first, for every hart and for what a hart of an ended team has left, when PBAR_COMPLETE happens; nothing else
changes. -/
def Sys2Proof.Claims.PersistBarrierResults : Prop :=
  ∀ (s : State), let h := runner s
    (notSpliced s →
      let t := (s.setHart s.cur { h with epoch := h.epoch + 1, pbars := h.pbars ++ [h.epoch + 1] }).settlePbars
      exec .pbar s = .next (done t (runner t)) ∧ (runner t).epoch = h.epoch + 1 ∧
        (s.hartDurable s.cur = true → (runner t).pbars = [] ∧ (runner t).pcount = h.pcount + BitVec.ofNat 64 (h.pbars.length + 1))) ∧
    let t := s.settlePbars
    exec .pbarComplete s = .next t ∧ t = { s with harts := t.harts, teams := t.teams } ∧
    (∀ m, t.hart m = { s.hart m with pbars := (t.hart m).pbars, pcount := (t.hart m).pcount } ∧
      epochsCount s m (s.hart m).pbars (t.hart m).pbars (s.hart m).pcount (t.hart m).pcount) ∧
    ∀ ti x, s.team ti = some x → ∃ fs, t.team ti = some { x with final := fs } ∧ fs.length = x.final.length ∧
      ∀ r f f', x.final[r]? = some f → fs[r]? = some f' → f' = { f with pbars := f'.pbars, pcount := f'.pcount } ∧
        epochsCount s (orphan ti r) f.pbars f'.pbars f.pcount f'.pcount

/-- R79, R105 to R109, R246, R247: `st.stamp`, once no duplicate of its page and no release holds it, takes the latest value of the
die's clock as its stamp, which goes to D, and queues its store at the cell's home. The least queued store in the order of R106, among
those whose domain's mark is past their stamp, is applied to its cell when COMMIT_WAIT happens, once no duplicate of its page is held.
`ld.asof` completes with the value as of S. -/
def Sys2Proof.Claims.StampResults : Prop :=
  ∀ (o : FC) (s : State),
    let h := runner s
    let n := s.ev.hart
    let u := lookingAgain s n
    let va := h.aReg o.a.toNat
    (∀ s₁ s₂ pa leaf, notSpliced s → clockNarrow s → va.toNat % 32 = 0 → translateMe va .stampStore s = .ok (pa, leaf) s₁ →
      holdForDup va leaf s₁ = .ok () s₁ → releaseAt (stampScope s₁ pa (pteStampFabric leaf)) s₁ = .ok () s₂ →
        let r := runner s₂
        let st := (s₂.interval (dieOf s.cur)).2
        let t := { s₂ with stampq := s₂.stampq ++
          [⟨pa, r.aReg o.b.toNat, st, dieOf s.cur, r.teamIx * r.size + r.rank, s.cur, pteStampFabric leaf, r.epoch, s₂.myKey⟩] }
        exec (.stStamp o) s = .next (done t ({ r with lastStamp := BitVec.ofNat 64 st }.setA o.d.toNat (BitVec.ofNat 64 st)))) ∧
    (let due := fun (e : Stamped) => e ∈ s.stampq ∧ e.stamp < s.markAt e.fabric e.pa e.die
     (∀ e, due e → (∀ x, due x → s.dupAt x.pa 32 = none) → ∃ e', s.dueStamped = some e') ∧
     (s.dueStamped = none → exec .commitWait s = .next s) ∧
     ∀ e, s.dueStamped = some e → due e ∧ s.dupAt e.pa 32 = none ∧ (∀ x, due x → x.lt e = false) ∧
      exec .commitWait s = .next
        ((({ s with stampq := s.stampq.erase e }).applyStamped e).wakeCell (e.pa / 32 * 32)).settlePbars.settleWrites) ∧
    (∀ u₁ pa v t, asofReads o s u₁ pa v t →
      ∃ h', acquiredHart ((runner t).setA o.d.toNat (BitVec.ofNat 64 v)) h' ∧ exec (.ldAsof o) s = .next (done t h')) ∧
    ((s.hart n).wait = some (.ldAsof o) → s.awake n = true → ∀ u₁ pa v t, asofReads o u u₁ pa v t →
      ∃ h', acquiredHart ((runner t).setA o.d.toNat (BitVec.ofNat 64 v)) h' ∧ exec .ldAsofRead s = .next (done t h'))

/-- R108, Table 5.4: a visible stamped store makes the current version of its cell the previous one and its own the current one where
its stamp is no lower than the current one's, replaces the previous version where it lies between the two, and else has no effect. -/
def Sys2Proof.Claims.StampedCellVersions : Prop :=
  ∀ (c : Cell4) (stamp v : Nat),
    (c.cstamp ≤ stamp → c.apply stamp v = some ⟨v, stamp, c.cval, c.cstamp⟩) ∧
    (c.pstamp ≤ stamp → stamp < c.cstamp → c.apply stamp v = some ⟨c.cval, c.cstamp, v, stamp⟩) ∧
    (stamp < c.pstamp → stamp < c.cstamp → c.apply stamp v = none)

/-- R105, R248: `clk.rd` gives the earliest and the latest value of the die's clock; `clk.wait` completes once the earliest is past a[A],
and else waits; CLOCK_WIDE is taken where the interval is wider than `sr.clkw`, also by a hart that waits.
Choices of the model that it rests on: log entry 4. -/
def Obligations.ClockInstructions : Prop :=
  ∀ (o : FC) (s : State),
    let h := runner s
    let n := s.ev.hart
    let u := lookingAgain s n
    let at_ := fun (s : State) => (s.interval (dieOf s.cur)).1 ≤ ((runner s).aReg o.a.toNat).toNat
    exec (.clkRd o) s = .next (done s ((h.setA o.d.toNat (BitVec.ofNat 64 (s.interval (dieOf s.cur)).1)).setA o.b.toNat
      (BitVec.ofNat 64 (s.interval (dieOf s.cur)).2))) ∧
    (clockNarrow s → ¬at_ s → exec (.clkWait o) s = .next (done s h)) ∧
    (clockNarrow s → at_ s → exec (.clkWait o) s = .next (s.setWait s.cur (.clk o))) ∧
    (¬clockNarrow s → exec (.clkWait o) s = .next (trapped s .clockWide (BitVec.ofNat 64 (s.clockWidth (dieOf s.cur))))) ∧
    ((s.hart n).wait = some (.clk o) → s.awake n = true →
      (clockNarrow u → ¬at_ u → exec .clkWaitWake s = .next (done u (runner u))) ∧
      (¬clockNarrow u → (∃ t, canEnter u n t) →
        exec .clockWide s = .next (trapped u .clockWide (BitVec.ofNat 64 (u.clockWidth (dieOf n))))))

/-! ### Code fetch, claims, digests (12_matrix R267, R269, R270, 02 R44) -/

/-- R87, R267: `cfetch` of a translated segment starts its fetch into the slot, unless another slot holds it; CFETCH_LAND makes the slot
hold the 4 KiB as the die has them; `cfwait` gives 1 once the slot has landed, 0 where it is empty, and else waits for CFWAIT_WAKE. -/
def Sys2Proof.Claims.CodeFetchResults : Prop :=
  ∀ (o : FC) (s : State),
    let h := runner s
    let k := codeField o
    let seg := h.aReg o.a.toNat &&& ~~~0xFFF
    let slot := fun (s : State) (core k : Nat) => Tbl.get {} (s.core core).code k
    let n := s.ev.hart
    let u := lookingAgain s n
    (∀ s₁ pa leaf, s.slotCurrent (coreOf s.cur) k = false → translateMe seg .fetch s = .ok (pa, leaf) s₁ →
      let c := myCoreOf s₁
      (c.holdsElsewhere k seg = true → exec (.cfetch o) s = .next (done s₁ (runner s₁))) ∧
      (c.holdsElsewhere k seg = false →
        let t := s₁.setCore (coreOf s.cur) { c with code := Tbl.set {} c.code k { landed := some false, va := seg, pa := pa } }
        exec (.cfetch o) s = .next (done t (runner t)))) ∧
    (s.slotCurrent (coreOf s.cur) k = true → exec (.cfetch o) s = .next (trapped s .illegal (BitVec.ofNat 64 (0x300 + k)))) ∧
    (let core := s.ev.core
     let sl := slot s core s.ev.slot
     let v := s.findErrors (dieOfCore core) sl.pa 4096 (s.engineFor (2 * core))
     sl.landed = some false → ∃ t, exec .cfetchLand s = .next t ∧
       let x := slot t core s.ev.slot
       x.landed = some true ∧ x.va = sl.va ∧ x.pa = sl.pa ∧ (∀ i < 4096, Tbl.get 0 x.bytes i = (v.byteAt (dieOfCore core) (sl.pa + i)).val) ∧
       t = v.setCore core { v.core core with code := Tbl.set {} (v.core core).code s.ev.slot x }) ∧
    (match (slot s (coreOf s.cur) k).landed with
     | some true => exec (.cfwait o) s = .next (done s (h.setA o.d.toNat 1))
     | none => exec (.cfwait o) s = .next (done s (h.setA o.d.toNat 0))
     | some false => exec (.cfwait o) s = .next (s.setWait s.cur (.cfwait o))) ∧
    ((s.hart n).wait = some (.cfwait o) → s.awake n = true → (slot s (coreOf n) k).landed ≠ some false →
      exec .cfwaitWake s = .next (done u ((runner u).setA o.d.toNat (if (slot s (coreOf n) k).landed = some true then 1 else 0))))

/-- R44, R269: `claim` of 1 to 128 takes what is left of a counter up to its limit in one atomic operation at its home, with D the first
number claimed and vl how many; `yield` marks the team as yielding and completes. -/
def Sys2Proof.Claims.ClaimResults : Prop :=
  ∀ (o : FC) (s s₂ : State) (pa : Nat) (leaf : Word) (t : Team),
    let n := (runner s).aReg o.b.toNat
    let va := (runner s).aReg o.a.toNat
    (notSpliced s → 1 ≤ n.toNat → n.toNat ≤ 128 → va.toNat % 16 = 0 → probeAtomic va 16 s = .ok (pa, leaf) s₂ →
      let s₃ := (s₂.setHart s₂.cur ((runner s₂).dropEarly pa 16)).settleFor pa 16
      let old := valueOf (s₃.oldBytes pa 16)
      let next := old % 2 ^ 64
      let limit := old / 2 ^ 64
      let grant := min n.toNat (limit - next)
      let s₄ := if grant = 0 then s₃ else if windowOf pa = .register then s₃.storeWindow pa (cleanBytes (bytesOf 16 (old + grant)))
        else s₃.putAtHome pa (bytesOf 16 (old + grant))
      exec (.claimWork o) s = .next (done s₄ { (runner s₄).setA o.d.toNat (BitVec.ofNat 64 next) with vl := BitVec.ofNat 64 grant })) ∧
    (notSpliced s → n.toNat = 0 ∨ 128 < n.toNat → exec (.claimWork o) s = .next (trapped s .vlIllegal n)) ∧
    (s.teamOf s.cur = some t →
      exec .yield s = .next (done (s.setTeam (runner s).team { t with yielding := true }) (runner s)))

/-- R270: `dig.post` writes the first 8 bytes of the SM3 digest of the buffer, as a little-endian value, and the cell's step plus
one as one release at .f, with the digest in D; `dig.wait` completes once the cell's step has reached a[C], with D 2 where it is
past it, 0 where the digests agree and 1 where they differ, which also leaves a record and an event; below it the hart waits for
DIG_WAIT_WAKE. -/
def Sys2Proof.Claims.DigestResults : Prop :=
  ∀ (o : FC) (s : State),
    let h := runner s
    let cell := h.aReg o.a.toNat
    let n := (h.aReg o.c.toNat).toNat
    (∀ s₁ s₂ s₃ s₄ s₅ s₆ s₇ ps bs x y old, n < 2 ^ 32 → cell.toNat % 16 = 0 →
      translateArea (h.aReg o.b.toNat) n .load s = .ok ps s₁ → translateMe cell .load s₁ = .ok x s₂ →
      translateMe cell .store s₂ = .ok y s₃ → readArea ps s₃ = .ok bs s₄ → clean bs → readPhys y.1 16 s₄ = .ok old s₅ → clean old →
      readyToWrite cell y.1 16 y.2 (fun _ _ => false) s₅ = .ok () s₅ → releaseAt 4 s₅ = .ok () s₆ →
      readyToWrite cell y.1 16 y.2 (fun _ _ => false) s₆ = .ok () s₇ →
        let d := sm3Low (bs.map (·.val))
        let step := (BitVec.ofNat 64 (valueOf (old.drop 8)) + 1 : Word)
        let t := s₇.issueStore s₇.cur y.1 (cleanBytes (bytesOf 8 d.toNat ++ bytesOf 8 step.toNat))
        exec (.digPost o) s = .next (done t ((runner t).drainWcb.setA o.d.toNat d))) ∧
    (∀ (u : State) (i : Instr) (st : State), (u = s ∧ i = .digWait o ∧ st = s) ∨
        (u = lookingAgain s s.ev.hart ∧ i = .digWaitWake ∧ st = s ∧ (s.hart s.ev.hart).wait = some (.dig o) ∧ s.awake s.ev.hart = true) →
      ∀ s₁ s₂ x bs,
        let r := runner u
        let cell := r.aReg o.a.toNat
        let digest : Word := BitVec.ofNat 64 (valueOf (bs.take 8))
        let step : Word := BitVec.ofNat 64 (valueOf (bs.drop 8))
        let want := r.aReg o.c.toNat
        cell.toNat % 16 = 0 → translateMe cell .load u = .ok x s₁ → readPhys x.1 16 s₁ = .ok bs s₂ → clean bs →
          (want.toNat < step.toNat → ∃ h', acquiredHart ((runner s₂).setA o.d.toNat 2) h' ∧ exec i st = .next (done s₂ h')) ∧
          (step = want → digest = r.aReg o.b.toNat →
            ∃ h', acquiredHart ((runner s₂).setA o.d.toNat 0) h' ∧ exec i st = .next (done s₂ h')) ∧
          (step = want → digest ≠ r.aReg o.b.toNat →
            ∃ h', acquiredHart ((runner s₂).setA o.d.toNat 1) h' ∧
              let v := (s₂.setHart u.cur h').digestMismatch u.cur cell (r.aReg o.b.toNat) digest step
              exec i st = .next (done v (runner v))) ∧
          (step.toNat < want.toNat → i = .digWait o → exec i st = .next (s₂.setWait u.cur (.dig o))))

/-- R95 to R99, R111 to R113, R244, R245: the fences and the persist barrier, and the events that end them.
Choices of the model that it rests on: log entries 33, 35. -/
def Obligations.FenceAndPersist : Prop := FenceResults ∧ PersistBarrierResults

/-- R106 to R109, R246, R247: `st.stamp`, `ld.asof`, and the versions that a cell keeps.
Choices of the model that it rests on: log entries 4, 33, 34, 47, 67, 68. -/
def Obligations.StampedStores : Prop := StampResults ∧ StampedCellVersions

/-- R44, R87, R267, R269, R270: code fetch, `claim`, `yield` and the digests.
Choices of the model that it rests on: log entries 14, 42, 43, 44, 48. -/
def Obligations.FetchClaimDigest : Prop := CodeFetchResults ∧ ClaimResults ∧ DigestResults

/-! ### Launches, teams and runs (06_launch, 07_splicing R135, R142, R143, 12_matrix R268) -/

namespace Sys2Proof.Claims

/-- The conditions that reject a launch record, in their order (R118). -/
def rejectionReasons (s : State) (l : Launch) (ds : List SlotDesc) : List Prop :=
  [l.bits 37 27 ≠ 0 ∨ (∃ d ∈ ds, d.acc ≠ 0 ∧ d.bits 496 16 ≠ 0),
   l.entry % 8 ≠ 0 ∨ l.nseg = 0 ∨ 64 < l.nseg,
   ∃ d < 4, l.shape d = 0,
   l.teamSize = 0 ∨ 32 < l.teamSize ∨ l.lcores = 0 ∨ 224 < l.lcores ∨ l.lcores % l.coresPerTeam ≠ 0,
   7 < l.prio ∨ 63 < l.queue ∨ (∃ d ∈ ds, 4 < d.acc ∨ (d.acc ≠ 0 ∧ d.typeListed = false)),
   2 ^ 20 < l.caskb ∨ l.caskb % 64 ≠ 0,
   l.cflag % 16 ≠ 0 ∨ l.slottab % 64 ≠ 0,
   l.resident = true ∧ (s.activeCores l.part).length < l.lcores,
   l.kid = 0 ∨ (s.findKid l.part l.kid).isSome = true,
   (s.part l.part).stackPool < l.teamSize * l.stackKib * 1024]

/-- Teams of a partition that yield now. -/
def yielding (s : State) (p : Nat) : List Nat := ((s.partTeams p).filter (·.2.yielding)).map (·.1)

/-- What an admission opportunity leaves besides its choice: no team yields any more, and ages count for ready launches. -/
def opportunityOver (s v : State) (p : Nat) : State :=
  ((yielding s p).foldl (fun (v : State) ti => match v.team ti with
    | some t => v.setTeam ti { t with yielding := false }
    | none => v) v).markReady p

/-- Hart `h` is rank `r` of a team at the start of a run of launch `l` (R22, R40, Table 2.5): every register of the table and, at
zero, what it does not list. -/
def atStart (h : Hart) (tm : Team) (l : Launch) (r : Nat) : Prop :=
  let k := if l.tileBody then tm.stageTile % l.nteams else tm.ix
  let tile : Word := if l.tileBody then BitVec.ofNat 64 tm.stageTile else if l.dynamic then BitVec.allOnes 64 else BitVec.ofNat 64 tm.ix
  let top := tm.stackBase + r * (l.stackKib * 1024) + l.stackKib * 1024
  h.status = .running ∧ h.wait = none ∧ h.pc = BitVec.ofNat 64 l.entry ∧
  h.aReg 1 = l.addr ∧ h.aReg 2 = BitVec.ofNat 64 k ∧ h.aReg 3 = BitVec.ofNat 64 r ∧ h.aReg 4 = BitVec.ofNat 64 tm.size ∧
  h.aReg 5 = BitVec.ofNat 64 (k * tm.size + r) ∧ h.aReg 6 = tile ∧
  h.aReg 61 = (if l.stackKib = 0 then 0 else BitVec.ofNat 64 top) ∧ (∀ i, i ∉ [1, 2, 3, 4, 5, 6, 61] → h.aReg i = 0) ∧
  (∀ n, let v := h.vreg n; v.data = 0 ∧ v.tag = 2 ∧ v.sat = false ∧ v.dirty = false ∧ v.hw = 0 ∧ v.poison = 0) ∧
  (∀ n, h.mReg n = if n = 0 then BitVec.allOnes 128 else 0) ∧ h.q = [] ∧ h.partQ = none ∧
  h.vl = 0 ∧ h.vstart = 0 ∧ h.rrb = 0 ∧ h.lc = 0 ∧ h.ec = 0 ∧ h.pcount = 0 ∧ h.fcsr = 0 ∧ h.clkw = 0x3E8 ∧
  h.mshape = 0x0000008000800002 ∧ h.det = l.det ∧ h.supv = false ∧ h.kid = BitVec.ofNat 64 l.kid ∧ h.slots = BitVec.ofNat 64 l.slottab ∧
  h.cause = 0 ∧ h.tval = 0 ∧ h.epc = 0 ∧ h.evstart = 0 ∧ h.ftab = 0 ∧ h.lastStamp = 0 ∧
  h.sbuf = [] ∧ h.wcb = [] ∧ h.mbuf = [] ∧ h.early = [] ∧ h.pbars = [] ∧ h.copyFails = []

/-- The harts of team `ti` stand at the start of a run of stage `l`: the team's cores hold no tile, no Vat row and no completed tag, and
of an unspliced launch the Cask share reads as zero (R22, R40, R82, R121, Table 2.5). -/
def runBegun (t : State) (ti : Nat) (tm : Team) (l : Launch) : Prop :=
  (∃ tm', t.team ti = some tm' ∧ tm'.status = .running) ∧ (∀ r < tm.size, atStart (t.hart (tm.hartOf r)) tm l r) ∧
  ∀ c ∈ tm.cores, (t.core c).tiles = [] ∧ (t.core c).vat = [] ∧ (t.core c).cdone = 0 ∧ (t.core c).share = l.caskb ∧
    (t.launch tm.launch = some l → l.chain.length ≤ 1 → l.caskb ≤ 2 ^ 20 →
      ∀ i < l.caskb, t.casks.get (caskBase c + i) = ⟨0, false⟩)

end Sys2Proof.Claims

/-- R268: `lnch` of an 8-aligned record waits, once its release waits are over, for the lead slice; LNCH_ANSWER completes it with D the
rejection code of the record, which is read through the L2 of the hart's die, or 0 for one that is queued (R18). -/
def Sys2Proof.Claims.LaunchInstruction : Prop :=
  ∀ (o : FC) (s : State),
    let n := s.ev.hart
    let u := lookingAgain s n
    let va := (runner u).aReg o.a.toNat
    (∀ s₁, ((runner s).aReg o.a.toNat).toNat % 8 = 0 → releaseAt 3 s = .ok () s₁ → exec (.lnch o) s = .next (s₁.setWait s.cur (.lnch o))) ∧
    (∀ u₁ v bs code, (s.hart n).wait = some (.lnch o) → (s.hart n).status = .running →
      readVirtual (u.partOf n) (dieOf n) none none leadRights va 128 u = .ok bs u₁ → clean bs →
      handleRecord (u.partOf n) va bs u₁ = .ok code v → v.cur = n → (v.hart n).wait = none →
        exec .lnchAnswer s = .next (done v ((runner v).setA o.d.toNat (BitVec.ofNat 64 code))))

/-- R118: the rejection code of a launch record is the number of the first of ten conditions that holds, and 0 where none does. -/
def Sys2Proof.Claims.LaunchRejection : Prop :=
  ∀ (s : State) (l : Launch) (ds : List SlotDesc),
    (∀ k (h : k < (rejectionReasons s l ds).length), (rejectionReasons s l ds)[k] → (∀ j (hj : j < k), ¬(rejectionReasons s l ds)[j]) →
      s.rejection l ds = k + 1) ∧
    ((∀ r ∈ rejectionReasons s l ds, ¬r) → s.rejection l ds = 0)

/-- R121, R122, R125, R128: an admission opportunity makes the queue of its first candidate the pointer of its priority and places
that one's teams where there is room; every place is on a die
that the partition has, on as many cores as a team needs, all of them free. A whole millisecond more of readiness ages a launch. A
stopped team that may be saved is saved. -/
def Sys2Proof.Claims.AdmissionResults : Prop :=
  ∀ (s : State),
    (let p := s.ev.idx
     let effs := s.effs p
     ∀ x xs ps v, (s.part p).state = 1 → (∀ t ∈ s.svc.selftests, ∀ d ∈ s.diesOf t.1, d ∉ s.diesOf p) → s.candidates p effs = x :: xs →
       s.findPlaces x.launch (s.needsOf x.li x.launch) (s.diesOf p) = .ok ps →
         seatAll x.li ps (s.setPart p { s.part p with rr := Tbl.set 63 (s.part p).rr x.eff x.launch.queue }) = .ok () v →
         exec .admitTeam s = .next (opportunityOver s v p) ∧
         ∀ pl ∈ ps, pl.die ∈ s.diesOf p ∧ pl.cores.length = x.launch.coresPerTeam ∧ ∀ c ∈ pl.cores, c ∈ s.freeOn pl.die) ∧
    (∀ l r, s.launch s.ev.launch = some l → l.readyAt = some r → r + (l.age + 1) * 47000000 ≤ s.now →
      exec .ageTick s = .next (s.setLaunch s.ev.launch { l with age := l.age + 1 })) ∧
    (∀ t l area, s.team s.ev.team = some t → s.launch t.launch = some l → t.save = some area → t.status = .stopping →
      s.savable t = true → s.allHalted t = false →
        exec .saveComplete s = .next ((s.saveTeam s.ev.team area t l).markReady t.part))

/-- R22, R121, R135, R143: a team whose segments have landed, or whose last run is over with another to follow, starts its run: its
harts stand at the entry of their stage with the registers of Table 2.5. -/
def Sys2Proof.Claims.RunStartResults : Prop :=
  ∀ (s w t : State) (tm tm' : Team) (l : Launch) (r : Nat × Nat),
    let ti := s.ev.team
    s.team ti = some tm → tm.harts.Nodup →
    (tm.status = .fetching → (∀ c ∈ tm.cores, (s.core c).fetching = false) → s.startAcquired tm = true →
      s.launch (s.stageLaunchIx tm) = some l → refillShare tm s = .ok none w → beginRun ti w = .ok () t → exec .hartStart s = .next t ∧ runBegun t ti tm l) ∧
    (let u := s.toRun ti tm r
     s.runOver ti = some (tm, r) → s.spliced tm = false → u.team ti = some tm' → u.launch (u.stageLaunchIx tm') = some l →
       beginRun ti u = .ok () t → exec .tileRunStart s = .next t ∧ runBegun t ti tm' l) ∧
    (tm.status = .switching → (∀ c ∈ tm.cores, (s.core c).fetching = false) → s.missingEntry tm = none →
      s.launch (s.stageLaunchIx tm) = some l → beginRun ti s = .ok () t → exec .stageSwitch s = .next t ∧ runBegun t ti tm l)

/-- R43, R119, R123, R124, R346, R347: a team ends once its harts have halted, its stores and copies are complete and no run
follows, and its cores are then free. The other teams of a faulted launch stop. A launch that ends, alone in its partition, leaves
the table once its completion is written, and counts among the launches that its queue has completed. -/
def Sys2Proof.Claims.EndResults : Prop :=
  ∀ (s : State),
    (∀ t, s.team s.ev.team = some t → (t.status = .running ∨ t.status = .stopping) → s.allHalted t = true → s.teamQuiet t = true →
      s.nextRun t = none → ∃ u, exec .teamEnd s = .next u ∧ (∃ t', u.team s.ev.team = some t' ∧ t'.status = .ended) ∧
        ∀ c ∈ t.cores, (u.core c).team = none) ∧
    (let li := s.ev.launch
     (∀ l, s.launch li = some l → l.faulted = true → s.liveTeams li ≠ [] → exec .launchComplete s = .next (s.stopFaulted li)) ∧
     ∀ l st w v, s.launch li = some l → (l.faulted = true → s.liveTeams li = []) → s.endsAs li l = some st →
       completionHeld li l s = .ok false w → l.chain.length ≤ 1 → launchesOf s l.part = [(li, l)] →
       (s.part l.part).w3 = 0 → writeCompletion l st w = .ok () v → v.launches = s.launches → v.parts = s.parts →
         ∃ u, exec .launchComplete s = .next u ∧ u.launch li = none ∧
           (∀ q, Tbl.get 0 (u.part l.part).completed q = Tbl.get 0 (s.part l.part).completed q + (if q = l.queue then 1 else 0)))

/-- R348, R353, R354: when a supervisor segment has landed the core's slot holds its bytes as the die has them, and every hart of the
core that waited for it enters the routine with the cause that it waited with. -/
def Sys2Proof.Claims.SupervisorSlotResults : Prop :=
  ∀ (s : State),
    let core := s.ev.core
    let c := s.core core
    c.sup.landed = some false → ∃ t, exec .supervisorSlotLanded s = .next t ∧
      let v := s.findErrors (dieOfCore core) c.sup.pa 4096 (s.engineFor (2 * core))
      (t.core core).sup.landed = some true ∧
      (∀ i < 4096, Tbl.get 0 (t.core core).sup.bytes i = (v.byteAt (dieOfCore core) (c.sup.pa + i)).val) ∧
      ∀ n ∈ [2 * core, 2 * core + 1], ∀ cause tval epc start unit, (s.hart n).wait = some (.trapEntry cause tval epc start unit) →
        let h := t.hart n
        h.supv = true ∧ h.cause = cause.setWidth 64 ∧ h.tval = tval ∧ h.epc = epc ∧ h.evstart = start ∧ h.wait = none ∧
          h.pc = BitVec.ofNat 64 (s.part (s.partOf n)).supSeg

/-- R342, R348: an uncorrectable error in a unit that partitions share stops each of them that runs: every team of its launches ends,
its launches that have started a team become FAULTED, and its queued ones CANCELLED. -/
def Sys2Proof.Claims.MachineCheckStopsPartitions : Prop :=
  ∀ (s : State), (s.ev.cause = 0x19 ∨ s.ev.cause = 0x1A) → ∃ t, exec .machineCheck s = .next t ∧
    ∀ p < 8,
      let hit := p ∈ s.servedBy s.ev.unit.toNat s.ev.dies ∧ (s.part p).state = 1
      (t.part p).state = (if hit then 2 else (s.part p).state) ∧
      (hit → ∀ li l, s.launch li = some l → l.part = p → ∃ l', t.launch li = some l' ∧
        (l.nextTeam ≠ 0 → l'.faulted = true ∧ l'.checked = true ∧
          ∀ ti x, s.team ti = some x → x.launch = li → ∃ x', t.team ti = some x' ∧ x'.status = .ended) ∧
        (l.nextTeam = 0 → l.status = .queued → l'.status = .cancelled))

/-- R116, R118, R268: `lnch` and the answer to a launch record.
Choices of the model that it rests on: log entry 50. -/
def Obligations.LaunchRecords : Prop := LaunchInstruction ∧ LaunchRejection

/-- R121 to R128, R135, R139 to R148: a team's admission, the start of its harts and tile runs, and its end and its launch's.
Choices of the model that it rests on: log entries 50, 51, 52, 53, 54, 57, 70, 73. -/
def Obligations.TeamLife : Prop := AdmissionResults ∧ RunStartResults ∧ EndResults

/-- R348, R353: the landing of the supervisor slot, and a machine check.
Choices of the model that it rests on: log entries 53, 65. -/
def Obligations.RoutineAndCheck : Prop := SupervisorSlotResults ∧ MachineCheckStopsPartitions

/-! ### Events of the memory system (02 R25, R28; 04 R79; 05 R90-R92, R111, R400; 21 R359) -/

/-- R25, R28, R33: a free entry of the EP queue ends a stall for room there, and the finishing of the hart's vector and matrix
instructions ends a resynchronising stall, as it does of a hart that a pre-emption stops; the instruction that stalled runs again. -/
def Sys2Proof.Claims.PipelineResumes : Prop :=
  ∀ (s : State), let n := s.ev.hart
    let h := s.hart n
    (h.status = .running → (∃ t, s.teamOf n = some t ∧ t.status = .stopping) → exec .apResync s = .next (s.setHart n
      { h with epq := 0, meq := 0, wait := if h.wait = some .resync then none else h.wait })) ∧
    (s.awake n = true →
    (0 < h.epq → exec .apDecodeResume s = .next (s.setHart n
      { h with epq := h.epq - 1, wait := if h.wait = some .epFull then none else h.wait })) ∧
    (h.wait = some .resync → exec .apResync s = .next (s.setHart n { h with epq := 0, meq := 0, wait := none })))

/-- R79, R90, R91, R92, R111: a buffered store outside deterministic mode is applied at its hart's die alone, once no duplicate of its
page is held; a write on its way to another
die that is not its home, with no place in home order yet, is applied there; a pending Cellar store that its home has placed, with none to
the same bytes placed before it and none of an earlier epoch of its hart left, becomes durable. Each then reads there as written. -/
def Sys2Proof.Claims.WriteEvents : Prop :=
  ∀ (s : State),
    let n := s.ev.hart
    let h := s.hart n
    let d := dieOf n
    (∀ e, h.det = false → h.sbuf[s.ev.idx]? = some e → mayApplyStore h.sbuf s.ev.idx = true →
      s.dupAt e.pa e.bytes.length = none → e.pa + e.bytes.length ≤ 2 ^ 48 → homeOf e.pa ≠ fabricAgent → d < 8 →
      ∃ t, exec .storeAppliedToL2 s = .next t ∧ t.hart n = { h with sbuf := h.sbuf.eraseIdx s.ev.idx } ∧
        (∀ i (hi : i < e.bytes.length), t.byteAt d (e.pa + i) = e.bytes[i]) ∧
        (∀ p, ¬(e.pa ≤ p ∧ p < e.pa + e.bytes.length) → t.byteAt d p = s.byteAt d p) ∧
        ∀ d', d' ≠ d → ∀ p, t.byteAt d' p = s.byteAt d' p) ∧
    (∀ e f, h.sbuf[s.ev.idx]? = some e → s.dupAt e.pa e.bytes.length = some f → exec .storeAppliedToL2 s = .next s) ∧
    (∀ w, s.net[s.ev.idx]? = some w → s.mayApply w s.ev.die = true → w.homeSeq = none → s.ev.die < 8 →
      homeOf w.pa ≠ s.ev.die → w.pa + w.bytes.length ≤ 2 ^ 48 →
      ∃ t, exec .writeApply s = .next t ∧ (∀ i (hi : i < w.bytes.length), t.byteAt s.ev.die (w.pa + i) = w.bytes[i]) ∧
        t.seenBy s.ev.die w.origin = max (s.seenBy s.ev.die w.origin) w.seq ∧
        ∀ d', d' ≠ s.ev.die → ∀ p, t.byteAt d' p = s.byteAt d' p) ∧
    (∀ c q, s.cellarPend[s.ev.idx]? = some c → c.place = some q →
      (∀ e ∈ s.cellarPend, rangesMeet e.pa e.bytes.length c.pa c.bytes.length = true → ∀ q', e.place = some q' → q ≤ q') →
      (∀ m, c.hart = some m → s.epochOpen m c.epoch = false) →
      ∃ t, exec .cellarAccept s = .next t ∧ t.cellarPend = s.cellarPend.eraseIdx s.ev.idx ∧
        (∀ i (hi : i < c.bytes.length), t.media.get (c.pa + i) = c.bytes[i]) ∧
        ∀ p, ¬(c.pa ≤ p ∧ p < c.pa + c.bytes.length) → t.media.get p = s.media.get p)

/-- R79, R92, R359: a fabric peer's read, write or atomic of HBM or the Cellar is performed at the home of the location, once no
page that it reaches moves and, for one that writes, no duplicate of the page is held; a write that waited for duplicates may
perform once they are invalid; after 20 µs with silent holders a waiting hart takes MIGRATION_TIMEOUT, the silent holders stay
and the write, a hart's or a peer's, is not performed: every byte reads as before.
Choices of the model that it rests on: log entries 7, 14, 46, 47, 49. -/
def Obligations.SharedPageEvents : Prop :=
  ∀ (s : State),
    let pa := s.ev.pa
    let home := homeOf pa
    let n := s.ev.hart
    let free := fun (n : Nat) => s.movesAt pa n = false ∧ s.dupAt pa n = none
    (∀ len, s.ev.fop = .read len → peerReaches pa len = true → s.movesAt pa len = false →
      exec .fabricWindowAccess s = .next ((s.catchUp home).findErrors home pa len {})) ∧
    (∀ bs, s.ev.fop = .write bs → peerReaches pa bs.length = true → inRecovery (pa + bs.length - 1) = false → free bs.length →
      exec .fabricWindowAccess s = .next ((s.mergeErrors home pa bs.length {}).updateAtHomes pa (cleanBytes bs))) ∧
    (∀ k d64 b c i x, s.ev.fop = .amo k d64 b c → (atomicNew (if d64 then 8 else 4) 0 0 0)[i]? = some x → k.toNat = i →
      let w := if d64 then 8 else 4
      let u := (s.catchUp home).findErrors home pa w {}
      let old := (u.viewOf home).peek pa w
      peerReaches pa w = true → pa % w = 0 → inRecovery pa = false → free w → clean old →
        ∀ y, (atomicNew w (valueOf old) (b.toNat % 2 ^ (8 * w)) (c.toNat % 2 ^ (8 * w)))[i]? = some y →
          exec .fabricWindowAccess s = .next (match y.2 with
            | some new => u.updateAtHome home none 0 none pa (cleanBytes (bytesOf w new))
            | none => u)) ∧
    (∀ bs f, s.ev.fop = .write bs → peerReaches pa bs.length = true → inRecovery (pa + bs.length - 1) = false →
      s.movesAt pa bs.length = false → s.dupAt pa bs.length = some f →
        (Tbl.get none s.peerHeld f = none →
          exec .fabricWindowAccess s = .next { s with peerHeld := Tbl.set none s.peerHeld f (some s.now) }) ∧
        ∀ since x xs, Tbl.get none s.peerHeld f = some since → s.silentHolders f = x :: xs → since + 940000 ≤ s.now →
          ∃ t, exec .fabricWindowAccess s = .next t ∧ Tbl.get [] t.dups f = x :: xs ∧ Tbl.get none t.peerHeld f = none ∧
            ∀ d p, t.byteAt d p = s.byteAt d p) ∧
    (∀ f, s.heldFrame = some f → ∃ t, exec .dupWritePerform s = .next t ∧ Tbl.get [] t.dups f = [] ∧ Tbl.get none t.peerHeld f = none ∧
      ∀ m start va, (s.hart m).wait = some (.dup f start va) → (t.hart m).wait = none) ∧
    (∀ f start va x xs t, (s.hart n).wait = some (.dup f start va) → (s.hart n).status = .running → start + 940000 ≤ s.now →
      (Tbl.get [] s.dups f).filter (fun x => if x < 8 then !s.ev.dies.getLsbD x else !s.ev.idx.testBit (x - 8)) = x :: xs →
      canEnter s n t → ∃ u, exec .migrationTimeout s = .next u ∧ Tbl.get [] u.dups f = x :: xs ∧
        (∀ d p, u.byteAt d p = s.byteAt d p) ∧
        u.hart n = entered (s.hart n) Cause.migrationTimeout.code va (s.hart n).pc (s.hart n).start (s.part t.part).supSeg)

/-- R25, R28, R90 to R92, R111: the ends of pipeline stalls, and where a store is applied on its way.
Choices of the model that it rests on: log entries 7, 8, 35, 47, 67, 78. -/
def Obligations.BufferEvents : Prop := PipelineResumes ∧ WriteEvents

/-! ### The service die (15 R313-R321, R325-R327, R403, R404; 20 R343) -/

namespace Sys2Proof.Claims

/-- The commands with their codes and how many operand words each uses (Table 15.2). -/
def commandTable : List (Instr × Nat × Nat) :=
  [(.launch, 1, 2), (.read, 2, 2), (.write, 3, 2), (.supvecWrite, 3, 2), (.logbaseWrite, 3, 2), (.loglenWrite, 3, 2),
   (.tailWrite, 3, 2), (.dropClear, 3, 2), (.evtailWrite, 3, 2), (.evdropClear, 3, 2), (.claim, 4, 0), (.handover, 5, 1),
   (.freeze, 6, 1), (.unfreeze, 7, 1), (.partition, 8, 7), (.selftest, 9, 1), (.attest, 0xA, 4), (.recover, 0xB, 0)]

/-- The current record's port could carry its master: a master id of 0 to 15, and when it arrived the port was bound to no other
(R325). -/
def carries (s : State) : Prop := s.cmd.master.toNat ≤ 15 ∧ s.cmd.alien = false

/-- The master is frozen. -/
def isFrozen (s : State) : Bool := s.svc.frozen.getLsbD s.cmd.master.toNat

/-- The record of code `code` with `words` operands is one that its master may issue: the port carries it, the master is not frozen
unless it reads the status window, it is the owner, under the owner's term for an owner command, or the command is one that any
master may issue; and its unused words are 0 (R314, R317, R325). -/
def permitted (s : State) (code words : Nat) : Prop :=
  carries s ∧ (isFrozen s = true → readsStatus s.cmd code = true) ∧ unusedZero s.cmd words = true ∧
  if s.svc.owner = some s.cmd.master.toNat then (ownerCommand code = true → s.cmd.term = s.svc.term)
  else code = 4 ∨ code = 0xA ∨ readsPublished s.cmd code = true

/-- The record is answered with a status and a value (R313). -/
def answered (s t : State) (st : Nat) (v : Word := 0) : Host.Outcome State Fault Refusal := .next (t.respond s.cmd st v)

/-- A register write of the owner: the record writes the first word of its data buffer. -/
def registerWord (s : State) : Word := s.dataWord s.cmd 0

end Sys2Proof.Claims

/-- R313, R314, R317, R325: what answers a record before its command is looked at: a port that cannot carry it (BAD_COMMAND), a frozen
master (FROZEN), a former owner's record (NOT_OWNER), a record outside its master's rights (FROZEN, and the master is frozen), an
owner's record under another term (STALE_TERM), and a non-zero unused word of a record that its master may issue, the owner or
another (BAD_COMMAND). None has another effect.
Choices of the model that it rests on: log entries 58, 59. -/
def Obligations.CommandRights : Prop :=
  ∀ (s : State) (i : Instr) (code words : Nat),
    (i, code, words) ∈ commandTable ∨ (i, code, words) = (.unlistedCommandCode, s.cmd.code.toNat, 7) →
    let m := s.cmd.master.toNat
    (¬carries s → exec i s = answered s s 0x13) ∧
    (carries s → isFrozen s = true → readsStatus s.cmd code = false → exec i s = answered s s 0x11) ∧
    (carries s → isFrozen s = false → s.svc.owner ≠ some m → code ≠ 4 → code ≠ 0xA → readsPublished s.cmd code = false →
      exec i s = (if ownerCommand code && s.cmd.term < s.svc.term then answered s s 0x10
        else answered s (s.freezeMaster m s.cmd.port (if code = 2 ∨ code = 3 then s.cmd.w0.toNat else 0) code) 0x11)) ∧
    (carries s → isFrozen s = false → s.svc.owner = some m → ownerCommand code = true → s.cmd.term ≠ s.svc.term →
      exec i s = answered s s 0x12) ∧
    (carries s → (isFrozen s = true → readsStatus s.cmd code = true) →
      (if s.svc.owner = some m then ownerCommand code = true → s.cmd.term = s.svc.term
       else code = 4 ∨ code = 0xA ∨ readsPublished s.cmd code = true) →
      unusedZero s.cmd words = false → exec i s = answered s s 0x13)

/-- R314, R315, R316, R317: CLAIM, HANDOVER, FREEZE and UNFREEZE, and a code that is not listed.
Choices of the model that it rests on: log entry 59. -/
def Obligations.OwnershipCommands : Prop :=
  ∀ (s : State),
    let m := s.cmd.master.toNat
    let w := s.cmd.w0.toNat
    (permitted s s.cmd.code.toNat 7 → exec .unlistedCommandCode s = answered s s 0x13) ∧
    (permitted s 4 0 → exec .claim s =
      if s.svc.owner ≠ none then answered s s 0x10
      else if s.cmd.term ≤ s.svc.lastTerm then answered s s 0x12
      else answered s { s with svc := { s.svc with owner := some m, term := s.cmd.term, lastTerm := s.cmd.term,
                                                   frozen := s.svc.frozen &&& ~~~(BitVec.twoPow 16 m) } } 0) ∧
    (permitted s 5 1 → exec .handover s =
      if 15 < w then answered s s 0x13
      else answered s { s with svc := { s.svc with owner := some w, term := s.svc.term + 1, lastTerm := s.svc.term + 1,
                                                   frozen := s.svc.frozen &&& ~~~(BitVec.twoPow 16 w) } } 0) ∧
    (permitted s 6 1 → ∃ u, exec .freeze s = answered s u (if 15 < w then 0x13 else 0) ∧
      (w ≤ 15 → s.svc.owner ≠ some w → u.svc = { s.svc with frozen := s.svc.frozen ||| BitVec.twoPow 16 w }) ∧
      (15 < w ∨ s.svc.owner = some w → u = s)) ∧
    (permitted s 7 1 → exec .unfreeze s =
      if 15 < w then answered s s 0x13
      else answered s { s with svc := { s.svc with frozen := s.svc.frozen &&& ~~~(BitVec.twoPow 16 w) } } 0)

/-- R79, R314, R316, R320, R321, R326, R391, R400, R403: LAUNCH, READ, WRITE and ATTEST. A WRITE goes to memory, waiting while its
page has duplicates and answered once Cellar bytes are durable, to registers, to the port's own window, or to the firmware
controls, from which the golden image takes a signed image.
Choices of the model that it rests on: log entries 47, 50, 58, 61, 63. -/
def Obligations.AccessCommands : Prop :=
  ∀ (s : State),
    let r := s.cmd
    let p := r.w0.toNat
    let a := r.w0.toNat
    let n := r.w1.toNat
    let lenOk := 8 ≤ n ∧ n ≤ 4096 ∧ n % 8 = 0
    (permitted s 1 2 →
      (7 < p ∨ (s.part p).state = 0 → exec .launch s = answered s s 0x13) ∧
      (p ≤ 7 → (s.part p).state ≠ 0 → (s.part p).state ≠ 1 → exec .launch s = answered s s 0x14) ∧
      (p ≤ 7 → (s.part p).state = 1 → r.w1 &&& 7 ≠ 0 → exec .launch s = answered s s 0x13) ∧
      (∀ u, p ≤ 7 → (s.part p).state = 1 → r.w1 &&& 7 = 0 → leadRead p r.w1 128 s = .ok none u →
        exec .launch s = answered s u 0x13 r.w1) ∧
      (∀ u f, p ≤ 7 → (s.part p).state = 1 → r.w1 &&& 7 = 0 → leadRead p r.w1 128 s = .error (.fault f) u →
        exec .launch s = answered s u 0x13 r.w1) ∧
      ∀ u bs v st, p ≤ 7 → (s.part p).state = 1 → r.w1 &&& 7 = 0 → leadRead p r.w1 128 s = .ok (some bs) u →
        handleRecord p r.w1 bs u = .ok st v → exec .launch s = answered s v st) ∧
    (permitted s 2 2 →
      (¬lenOk → exec .read s = answered s s 0x13) ∧
      (lenOk → exec .read s = match s.readRange r.port a n with
        | none => answered s s 0x13
        | some (bs, u) => answered s (u.fillData r.port r.slot 0 bs) 0)) ∧
    (permitted s 3 2 →
      (¬lenOk → exec .write s = answered s s 0x13) ∧
      (lenOk → inRecovery (a + n - 1) = true → memoryRange a n = true → exec .write s = answered s s 0x13) ∧
      (lenOk → memoryRange a n = true → inRecovery (a + n - 1) = false →
        let home := if homeOf a = fabricAgent then 0 else homeOf a
        let u := (({ s with svc := { s.svc with held := none } } : State).mergeErrors home a n {}).updateAtHomes a
          (cleanBytes (s.dataBytes r n))
        (s.dupAt a n = none →
          (inCellar a = false → exec .write s = answered s u 0) ∧
          (inCellar a = true →
            exec .write s = .next ({ u with svc := { u.svc with writes := u.svc.writes ++ [r] } } : State).settleWrites)) ∧
        (∀ f, s.dupAt a n = some f → s.svc.held = none →
          exec .write s = .next { s with cmdq := r :: s.cmdq, svc := { s.svc with held := some (f, s.now) } }) ∧
        ∀ f g since x xs, s.dupAt a n = some f → s.svc.held = some (g, since) → s.silentHolders f = x :: xs →
          since + 940000 ≤ s.now → ∃ v, exec .write s = answered s v 0x14 ∧ Tbl.get [] v.dups f = x :: xs ∧
            ∀ d p, v.byteAt d p = s.byteAt d p) ∧
      (lenOk → 0x700000000000 ≤ a → a + n ≤ 0x700000030000 → a % 8 = 0 →
        let w := s.writeRegs r (List.range (n / 8))
        exec .write s = answered s w.2 w.1) ∧
      (lenOk → portWindow r.port ≤ a → a + n ≤ portWindow r.port + 0x10000 → r.port < 24 →
        exec .write s = answered s (s.writeWindow r.port (a - portWindow r.port) (s.dataBytes r n)) 0) ∧
      (lenOk → 0x700000100000 ≤ a → a + n ≤ 0x700000200000 →
        let u := s.writeControls (a - 0x700000100000) (s.dataBytes r n)
        (u.takesImage = false → exec .write s = answered s u 0) ∧
        (u.takesImage = true → ∃ v, exec .write s = answered s v 0 ∧ v.svc.firmware = some u.svc.image ∧
          v.svc.booted = false ∧ v.svc.golden = false ∧ v.svc.ownerKeys = s.svc.ownerKeys))) ∧
    (permitted s 0xA 4 →
      let body := (bytesOf 8 r.w0.toNat ++ bytesOf 8 r.w1.toNat ++ bytesOf 8 r.w2.toNat ++ bytesOf 8 r.w3.toNat) ++
        bytesOf 64 (Config.identityKey 0).toNat ++ sm3Bytes s.svc.running ++ sm3Bytes (Config.recordBytes s.configuration)
      let sig := Config.identitySign (sm3 body).value
      body.length = 160 ∧
      exec .attest s = answered s (s.fillData r.port r.slot 0 (body ++ bytesOf 32 sig.1.toNat ++ bytesOf 32 sig.2.toNat)) 0)

/-- R327, R343, R352, R404: WRITE of SUPVEC, LOGBASE, LOGLEN, TAIL, DROP, EVTAIL and EVDROP.
Choices of the model that it rests on: log entries 58, 65. -/
def Obligations.RegisterCommands : Prop :=
  ∀ (s : State), permitted s 3 2 →
    let v := registerWord s
    let off := s.cmd.w0.toNat - 0x700000000000
    let p := (off - 0x800) / 8
    let k := (off - 0x10020) / 8
    (launchesOf s p ≠ [] → exec .supvecWrite s = answered s s 0x14) ∧
    (launchesOf s p = [] → ∃ u, exec .supvecWrite s = answered s u 0 ∧
      u.part p = { s.part p with supvec := v &&& 0x000FFFFFFFFFF000 } ∧
      ∀ c ∈ s.coresIn p, (s.part p).state ≠ 0 → (u.core c).sup = {}) ∧
    (exec .logbaseWrite s =
      if v.toNat % 64 = 0 ∧ (v = 0 ∨ (inHbm v.toNat = true ∧ inHbm (v.toNat + 64 * s.log.len.toNat - 1) = true)) then
        answered s { s with log := { s.log with base := v, written := none } } 0
      else answered s s 0x13) ∧
    ((∃ e, 6 ≤ e ∧ e ≤ 20 ∧ v.toNat = 2 ^ e) →
      exec .loglenWrite s = answered s { s with log := { s.log with len := v, head := 0, tail := 0, written := none } } 0) ∧
    ((¬∃ e, 6 ≤ e ∧ e ≤ 20 ∧ v.toNat = 2 ^ e) → exec .loglenWrite s = answered s s 0x13) ∧
    (exec .tailWrite s = answered s (if v ≤ s.log.head then { s with log := { s.log with tail := v } } else s) 0) ∧
    (exec .dropClear s = answered s
      { s with log := { s.log with drops := Tbl.set 0 s.log.drops k (Tbl.get 0 s.log.drops k &&& ~~~v) } } 0) ∧
    (exec .evtailWrite s = answered s (if v ≤ s.events.head then { s with events := { s.events with tail := v } } else s) 0) ∧
    exec .evdropClear s = answered s { s with events := { s.events with drop := s.events.drop &&& ~~~v } } 0

/-- R318, R321, R390: PARTITION, SELFTEST and RECOVER, and the end of a self-test.
Choices of the model that it rests on: log entries 60, 62. -/
def Obligations.PartitionCommands : Prop :=
  ∀ (s : State),
    let r := s.cmd
    let p := r.w0.toNat
    let slot := r.w1.toNat
    (permitted s 8 7 →
      (diesFor p slot = none → exec .partition s = answered s s 0x13) ∧
      (∀ dies, diesFor p slot = some dies → poolsOk r = false → exec .partition s = answered s s 0x13) ∧
      (∀ dies, diesFor p slot = some dies → poolsOk r = true → s.holdsLaunch dies = true →
        exec .partition s = answered s s 0x14) ∧
      ∀ dies, diesFor p slot = some dies → poolsOk r = true → s.holdsLaunch dies = false →
        ∃ u, exec .partition s = answered s u 0 ∧
          u.part slot = { level := p, state := 1, w2 := r.w2, w3 := r.w3, w4 := r.w4, w5 := r.w5, w6 := r.w6,
                          supvec := (s.part slot).supvec } ∧
          ∀ q, q < 8 → q ≠ slot → (s.part q).state ≠ 0 → (∃ d ∈ s.diesOf q, d ∈ dies) → (u.part q).state = 0) ∧
    (permitted s 9 1 →
      (7 < p ∨ (s.part p).state = 0 → exec .selftest s = answered s s 0x13) ∧
      (p ≤ 7 → (s.part p).state ≠ 0 → s.holdsLaunch (s.diesOf p) = true → exec .selftest s = answered s s 0x14) ∧
      (p ≤ 7 → (s.part p).state ≠ 0 → s.holdsLaunch (s.diesOf p) = false →
        exec .selftest s = .next { s with svc := { s.svc with selftests := s.svc.selftests ++ [(p, r)] } })) ∧
    (permitted s 0xB 0 → ∃ u, exec .recover s = answered s u 0 ∧ u.svc.golden = true ∧ u.svc.owner = none ∧ u.launches = [] ∧
      u.media = s.drain.media ∧ u.svc.lastTerm = s.svc.lastTerm) ∧
    (∀ q rec, s.svc.selftests.find? (·.1 == s.ev.idx) = some (q, rec) →
      ∃ (u : State) (v : Word), exec .selftestComplete s = .next (u.respond rec 0 v) ∧ u.svc.selftests = s.svc.selftests.erase (q, rec) ∧
        v.toNat / 2 ^ 48 = 0 ∧
        (((s.ev.failing.map (·.toNat)).filter fun x => (s.diesOf q).contains (unitDie x)).eraseDups.length < 2 ^ 16 →
          v.toNat % 2 ^ 16 = ((s.ev.failing.map (·.toNat)).filter fun x => (s.diesOf q).contains (unitDie x)).eraseDups.length ∧
          v.toNat % 2 ^ 16 = v.toNat / 2 ^ 16 % 2 ^ 16 + v.toNat / 2 ^ 32 % 2 ^ 16))

/-! ### Clocks, the drain, boot, and reliability (01 R14, R16; 02 R36; 05 R105; 15 R315, R325, R327; 17 R330; 20 R343; 23 R380-R388) -/

namespace Sys2Proof.Claims

/-- At its last beat the clock of every die bounded true time, and the package mark has not passed true time. -/
def clocksTrue (s : State) : Prop :=
  (∀ d, d < 8 → (s.die d).clock.lo * 47 ≤ (s.die d).clock.beat ∧ (s.die d).clock.beat ≤ (s.die d).clock.hi * 47 ∧
    (s.die d).clock.beat ≤ s.now) ∧
  s.packageMark * 47 ≤ s.now

/-- The least of eight numbers, by cases. -/
def isLeast (m : Nat) (f : Nat → Nat) : Prop := (∀ d, d < 8 → m ≤ f d) ∧ ∃ d, d < 8 ∧ f d = m

end Sys2Proof.Claims

/-- R16, R36, R105 (with the model's choice, logged, that time passes by a cycle of 50/47 ns at each update of the package mark): a
beat narrows a die's interval; an update takes the least earliest value as the package mark, for every die, unless the mark is past
it, and the other teams of faulted launches stop first; an exchange takes the least mark of the group, lowered by the delay bound,
as the fabric mark unless that is past it; and a change of the cap sets CAP of the named dies. While every beat has been true, each
interval contains true time, and these events keep that so.
Choices of the model that it rests on: log entries 4, 64. -/
def Obligations.ClockEvents : Prop :=
  ∀ (s : State),
    (clocksTrue s → ∀ d, d < 8 → (s.interval d).1 * 47 ≤ s.now ∧ s.now ≤ (s.interval d).2 * 47) ∧
    (∀ t, clocksTrue s → (exec .syncBeat s = .next t ∨ exec .packageMarkUpdate s = .next t ∨ exec .fabricMarkExchange s = .next t) →
      clocksTrue t) ∧
    (let d := s.ev.die
     d < 8 → s.ev.lo * 47 ≤ s.now → s.now ≤ s.ev.hi * 47 → ∃ t, exec .syncBeat s = .next t ∧
      t = s.setDie d { s.die d with clock := ⟨max (s.interval d).1 s.ev.lo, min (s.interval d).2 s.ev.hi, s.now⟩ } ∧
      (t.interval d).1 = max (s.interval d).1 s.ev.lo ∧ (t.interval d).2 = min (s.interval d).2 s.ev.hi) ∧
    (let u := (s.launches.map (·.1)).foldl State.stopFaulted s
     ((∀ li l, s.launch li = some l → l.faulted = true → s.liveTeams li = []) → u = s) ∧
     ∃ t m, exec .packageMarkUpdate s = .next t ∧ isLeast m (fun d => (({ u with now := s.now + 50 } : State).interval d).1) ∧
      t = { u with now := s.now + 50, packageMark := max s.packageMark m, dies := t.dies } ∧
      ∀ d, d < 8 → t.die d = { u.die d with mark := t.packageMark }) ∧
    (∃ t, exec .fabricMarkExchange s = .next t ∧ t.fabricMark = max s.fabricMark (min s.ev.lo s.packageMark - s.ev.hi) ∧
      (∀ d, d < 8 → t.die d = { s.die d with fmark := t.fabricMark }) ∧ t.harts = s.harts ∧ t.packageMark = s.packageMark) ∧
    (s.ev.cap = 128 ∨ s.ev.cap = 96 ∨ s.ev.cap = 64 ∨ s.ev.cap = 32 → s.ev.dies ≠ 0 → ∃ t, exec .vlcapChange s = .next t ∧
      (∀ d, d < 8 → t.die d = if s.ev.dies.getLsbD d then { s.die d with vlcap := s.ev.cap } else s.die d) ∧
      t.harts = s.harts ∧ t.events.pending.length = s.events.pending.length + 1)

/-- R114, R315, R321, R325, R327, R330, R388: a power failure drains and resets the module; the Cellar's media then hold a Recovery
Page of every partition, with format 1 and the cut, the stamped cells that the drain settles, and for the rest what they held before.
Boot ends a reset, with the golden image where no key verifies the firmware's signature, under the strap, or after RECOVER; a spare map
or an owner-term section that fails its check gives way to its last copy. A port with no active lane is unbound, and the owner lapses with
its last port.
Choices of the model that it rests on: log entries 59, 61, 62, 63. -/
def Obligations.DrainAndBoot : Prop :=
  ∀ (s : State),
    (s.svc.powered = true → ∃ t, exec .powerFailDrain s = .next t ∧ t.svc.powered = false ∧ t.svc.booted = false ∧
      t.svc.owner = none ∧ t.launches = [] ∧ t.teams = [] ∧ t.harts = [] ∧ t.net = [] ∧ t.cellarPend = [] ∧ t.stampq = [] ∧
      t.media = s.drain.media ∧
      (∀ p, inRecovery p = false → (∀ e ∈ s.stampq, ¬(e.pa ≤ p ∧ p < e.pa + 32)) →
        (∀ c ∈ s.cellarPend, c.pa ≤ p → p < c.pa + c.bytes.length → ∀ e ∈ s.stampq, rangesMeet c.pa c.bytes.length e.pa 32 = false) →
        t.media.get p = s.media.get p) ∧
      ∀ p, p < 8 → (s.part p).state ≠ 0 → t.media.peek (recoveryPage p) 2 = field 2 1 ∧
        t.media.peek (recoveryPage p + 16) 8 = field 8 s.packageMark) ∧
    (s.svc.powered = false → exec .powerFailDrain s = .next s) ∧
    (s.svc.booted = false →
      let u := s.takeRecord
      let up := s.ev.badTerm.toNat
      u.svc.term = s.svc.term + BitVec.ofNat 32 up ∧ u.svc.lastTerm = s.svc.lastTerm + BitVec.ofNat 32 up ∧
      (s.svc.drained = none → exec .boot s = .next { u with svc := { u.svc with
        booted := true, powered := true,
        golden := s.svc.golden || s.ev.strap || !(s.ev.good || s.svc.ownerSigned (s.svc.firmware.getD Config.firstImage)) } }) ∧
      (s.ev.badMap = false → u = { s with svc := { s.svc with term := u.svc.term, lastTerm := u.svc.lastTerm } }) ∧
      (s.ev.badMap = true → u.svc.coreMap = s.svc.lastMap.cores ∧ u.spare.remapped = s.svc.lastMap.rows)) ∧
    (∀ g, s.svc.booted = false → s.svc.drained = some g → ∃ t, exec .boot s = .next t ∧ t.svc.booted = true ∧
      t.svc.drained = none ∧ t.events.pending.length = s.events.pending.length + 1) ∧
    (let p := s.port s.ev.port
     let t := s.setPort s.ev.port { p with bound := none }
     exec .portNoActiveLane s = .next (if p.bound ≠ none ∧ s.svc.owner = p.bound ∧ (∀ e ∈ t.ports, e.2.bound ≠ p.bound) then
       { t with svc := { s.svc with owner := none } } else t))

/-- What a corrected error of row `row` of bank `bank` of an HBM stack leaves, where the row's three bits of the filter are set already
(R380, R381): its count in the repeat table goes up, a new row stands last and takes the place of the first of those with the lowest
count where 256 stand there; and at its fourth repeat the row leaves the table and is to be spared, which begins its copy where it has
none under way and fewer than 64 rows of its bank have been spared. -/
def Sys2Proof.Claims.repeatCounted (s : State) (stack bank row : Nat) : Prop :=
  let k := bank * 2 ^ 24 + row
  let id := stack * 2 ^ 40 + k
  let t := Tbl.get [] s.spare.repeats stack
  let next := fun (t' : List (Nat × Nat)) => ({ s with spare := { s.spare with repeats := Tbl.set [] s.spare.repeats stack t' } } : State)
  let out := fun (u : State) => exec .scrubBurst s = .next u
  (∀ c, t.find? (·.1 == k) = some (k, c) → c ≠ 3 → out (next (t.map fun x => if x.1 = k then (k, x.2 + 1) else x))) ∧
  (t.find? (·.1 == k) = none → t.length < 256 → out (next (t ++ [(k, 1)]))) ∧
  (∀ pre old post, t.find? (·.1 == k) = none → 256 ≤ t.length → t = pre ++ old :: post → (∀ x ∈ t, old.2 ≤ x.2) →
    (∀ x ∈ pre, x.2 ≠ old.2) → out (next (pre ++ post ++ [(k, 1)]))) ∧
  (t.find? (·.1 == k) = some (k, 3) → (∀ e ∈ s.spare.copying, e.1 ≠ id) →
    (s.spare.remapped.filter fun r => r / 2 ^ 24 = id / 2 ^ 24).length +
      (s.spare.copying.filter fun e => e.1 / 2 ^ 24 = id / 2 ^ 24).length < 64 →
    out { next (t.filter fun x => x.1 ≠ k) with
      spare := { (next (t.filter fun x => x.1 ≠ k)).spare with copying := s.spare.copying ++ [(id, 0)] } })

/-- R379, R380, R381, R382, R385, R387: scrubbing, the filters and the repeat table, row and lane sparing, which the golden image does
not do, and wear-levelling. -/
def Sys2Proof.Claims.SparingEvents : Prop :=
  ∀ (s : State),
    (∀ u n unc, unitOf s.ev.pa = some (u, n) → s.latentAt u = some unc → ∃ t, exec .scrubBurst s = .next t ∧
      t.latentAt u = none ∧ t.log.pending.length = s.log.pending.length + 1) ∧
    (∀ u n, unitOf s.ev.pa = some (u, n) → s.latentAt u = none → s.ev.good = false → exec .scrubBurst s = .next s) ∧
    (∀ u n, unitOf s.ev.pa = some (u, n) → s.latentAt u = none → s.ev.good = true → inHbm u = true →
      let k := s.ev.bank * 2 ^ 24 + s.ev.row % 2 ^ 24
      let h := fun c => k * c % 2 ^ 32 / 2 ^ 16
      let f := Tbl.get 0 s.spare.filter (stackOf u)
      let three := [h 0x9E3779B1, h 0x85EBCA77, h 0xC2B2AE3D]
      (three.all f.getLsbD = true → repeatCounted s (stackOf u) s.ev.bank (s.ev.row % 2 ^ 24)) ∧
      (three.all f.getLsbD = false → ∃ t, exec .scrubBurst s = .next t ∧ t.log.pending.length = s.log.pending.length + 1 ∧
        ∀ b, b < 65536 → (Tbl.get 0 t.spare.filter (stackOf u)).getLsbD b = (f.getLsbD b || three.contains b))) ∧
    exec .filterClear s = .next { s with spare := { s.spare with filter := [], repeats := [] } } ∧
    (∀ id n, s.spare.copying[s.ev.idx]? = some (id, n) →
      exec .rowSpareBurst s = .next { s with spare := { s.spare with copying := s.spare.copying.set s.ev.idx (id, n + 1) } } ∧
      (s.svc.golden = true → exec .rowSpareRemap s = .next s) ∧
      (0 < n → s.svc.golden = false → ∃ t, exec .rowSpareRemap s = .next t ∧
        t.spare = { s.spare with copying := s.spare.copying.eraseIdx s.ev.idx, remapped := s.spare.remapped ++ [id] } ∧
        t.log.pending.length = s.log.pending.length + 1)) ∧
    exec .wearLevelMove s = .next s ∧
    (let c := s.core s.ev.core
     let p := c.pipe s.ev.pipe
     ∀ lane, p.failing.head? = some lane ∨ (p.failing = [] ∧ p.worn = some lane) →
       (p.spareFor = none → s.svc.golden = true → exec .laneSpareSwitch s = .next s) ∧
       (p.spareFor = none → s.svc.golden = false → ∃ t, exec .laneSpareSwitch s = .next t ∧
         (let p' := (t.core s.ev.core).pipe s.ev.pipe
          p'.spareFor = some lane ∧ p'.failing = p.failing.filter (· ≠ lane)) ∧ t.log.pending.length = s.log.pending.length + 1) ∧
       (p.spareFor ≠ none → ∃ t, exec .laneSpareSwitch s = .next t ∧ (t.core s.ev.core).degraded = true ∧ t.log = s.log))

/-- R327, R343: the logging engine writes record k at LOGBASE + 64 (k mod LOGLEN), and counts it in HEAD once its bytes are applied
everywhere; a record that has no place is dropped and counted by its severity. A MACHINE_CHECK event enters the queue with its record's
number then, or with 0 where that is dropped. The next event enters the ring at EVHEAD mod 256
and is signalled on every port bound to the owner, or is dropped and counted where 256 stand unread. -/
def Sys2Proof.Claims.LogAndEventWrites : Prop :=
  ∀ (s : State),
    let l := s.log
    let q := s.events
    let a := l.base.toNat + 64 * (l.head.toNat % l.len.toNat)
    (∀ r rest, l.pending = r :: rest → l.written = none →
      l.base = 0 ∨ l.len.toNat ≤ l.head.toNat - l.tail.toNat →
      exec .logWrite s = .next { s with
        log := { l with pending := rest, drops := Tbl.set 0 l.drops (sevOf r) (Tbl.get 0 l.drops (sevOf r) + 1) }
        events := q.counted 0 }) ∧
    (∀ r rest, l.pending = r :: rest → l.written = none → l.base ≠ 0 → l.head.toNat - l.tail.toNat < l.len.toNat →
      inHbm (a + 63) = true → a % 64 = 0 → ∃ t, exec .logWrite s = .next t ∧
        (t.viewOf (homeOf a)).peek a 64 = cleanBytes (bytesOf 64 (r.toNat + (l.head.toNat + 1) % 2 ^ 32)) ∧
        t.log.head = l.head ∧ t.log.pending = l.pending) ∧
    (∀ r rest clock, l.pending = r :: rest → l.written = some clock → s.countedApplied clock false = true →
      exec .logWrite s = .next { s with
        log := { l with pending := rest, written := none, head := l.head + 1 }
        events := q.counted (l.head.toNat + 1) }) ∧
    (∀ k e, q.held = [(k, e)] → ∀ seq, (k ≠ 1 → q.counted seq = { q with held := [(k - 1, e)] }) ∧
      (k = 1 → q.counted seq = { q with held := [], pending := q.pending ++ [e ||| BitVec.ofNat 512 (seq % 2 ^ 32 * 2 ^ 128)] })) ∧
    (∀ e rest, q.pending = e :: rest →
      (256 ≤ q.head.toNat - q.tail.toNat →
        exec .eventWrite s = .next { s with events := { q with pending := rest, drop := q.drop + 1 } }) ∧
      (q.head.toNat - q.tail.toNat < 256 → exec .eventWrite s = .next { s with
        events := { q with pending := rest, head := q.head + 1, ring := Tbl.set 0 q.ring (q.head.toNat % 256) e }
        ports := s.ports.map fun x =>
          (x.1, if x.2.bound ≠ none ∧ x.2.bound = s.svc.owner then { x.2 with msgs := x.2.msgs ++ [.event (q.head + 1)] } else x.2) }))

/-- R327, R343, R380, R381, R385, R387: scrubbing and sparing, the log and the event queue.
Choices of the model that it rests on: log entries 10, 65, 66. -/
def Obligations.UpkeepEvents : Prop := SparingEvents ∧ LogAndEventWrites

/-! ### Words (08 R152-R168, 22 R370) -/

namespace Sys2Proof.Claims

/-- The word decodes to the instruction. -/
def reads (w : Word) (i : Instr) : Prop := decode w = .ok i

/-- What a step of hart `n` adds after its instruction: a copy failure that was kept back for the instruction's end is raised (R263). -/
def thenRaised (n : Nat) : Host.Outcome State Fault Refusal → Host.Outcome State Fault Refusal
  | .next t => .next (t.raiseCopyFail n)
  | o => o

/-- Full majors with the first bit and the width of their function code and its listed values (Tables 8.8, 8.9, 22.3). -/
def functionTable : List (Nat × Nat × Nat × List Nat) :=
  [(0x01, 48, 8, List.range 0x1C), (0x02, 52, 4, List.range 0xC), (0x08, 48, 8, List.range 0x14),
   (0x09, 48, 7, List.range 0x0B), (0x0C, 52, 4, List.range 8), (0x0D, 48, 8, List.range 4), (0x0E, 52, 4, [0, 1, 2, 3, 8, 9]),
   (0x10, 48, 8, List.range 0x0A), (0x18, 48, 8, List.range 0x1F), (0x19, 48, 8, List.range 2), (0x1A, 48, 8, List.range 9),
   (0x1B, 48, 8, List.range 6), (0x1C, 48, 8, List.range 8), (0x1D, 48, 8, List.range 3), (0x1E, 48, 8, List.range 0x0A),
   (0x20, 50, 6, [0, 1, 2, 3, 4, 5, 8, 9, 0xA, 0xB, 0xC, 0xD, 0x10, 0x11, 0x12, 0x13, 0x14]), (0x21, 50, 6, [0, 1]),
   (0x28, 50, 6, List.range 7), (0x29, 48, 8, List.range 6), (0x30, 48, 8, List.range 8), (0x31, 48, 8, List.range 5),
   (0x32, 48, 8, List.range 5), (0x38, 48, 8, List.range 8), (0x39, 48, 8, List.range 7), (0x7E, 48, 8, List.range 4)]

/-- The operations of the service die, and the word that is no instruction: they have no encoding. -/
def wordless : List Instr := commandTable.map (·.1) ++ [.unlistedCommandCode, .reservedEncoding]

/-- The HINT bits of an instruction that has no operand, which are never more than a hint (R160). -/
def looseBits (i : Instr) : Word :=
  if i = .ret then 0xF00000
  else if i ∈ [Instr.nop, .eret, .halt, .syncAe, .pbar, .fenceDur, .yield] then 0x3C000 else 0

end Sys2Proof.Claims

/-- Words that the spec works out (Tables 8.2, 8.7, 9.3, 9.5, 11.7, 12.4, 12.17 and the shapes of 09, 11, 14 and 16), one or more of
each format, read as the instructions it gives for them, and its undecodable words (22, after R370) give their classes. -/
def Obligations.WorkedWords : Prop :=
  reads 0x0100F7D240000000 (.add ⟨61, 61, 9, 0, 0, 0⟩) ∧
  reads 0x011A28B00000220C (.bext ⟨10, 11, 0, 0, 0, 0x220C⟩) ∧
  reads 0x08021C5000000010 (.ld 2 ⟨7, 5, 0, 0, 0, 16⟩) ∧
  reads 0x09891CC20900001B (.amoCas true ⟨7, 12, 8, 9, 0, 0x1B⟩) ∧
  reads 0x0201040FFFFFFFFD (.addi ⟨4, 4, 0, 0xFFFFFFFFD⟩) ∧
  reads 0x0C10C00FFFFFFFFC (.bne ⟨3, 0, 0, 0xFFFFFFFFC⟩) ∧
  reads 0x0D0201400003A5C1 (.callt ⟨0, 20, 0, 0, 0, 0x3A5C1⟩) ∧
  reads 0x18040802023C4000 (.vfma ⟨8, 2, 2, 3, true, true, false, false, 4, 0⟩) ∧
  reads 0x1B00141000400002 (.vred ⟨20, 16, 0, 4, false, false, false, false, 0, 2⟩) ∧
  reads 0x2000409002180504 (.vld ⟨16, 9, 0, 2, false, 1, true, 0, 0, 0x0A, 4⟩) ∧
  reads 0x210054A000000600 (.rpSend ⟨21, 10, 0, 0, false, 0, false, 0, 0, 0x0C, 0⟩) ∧
  reads 0x2800819100060000 (.mma ⟨32, 3, 1, 16, 0, 3, false, 0, 0, 0⟩) ∧
  reads 0x1003140000000000 (.srd ⟨5, 0, 0, 0, 0, 0, 0⟩) ∧
  reads 0x100400B000000003 (.swrFcsr ⟨0, 11, 0, 0, 0, 0, 3⟩) ∧
  reads 0x2901008240000001 (.mldt ⟨0, 8, 9, 0, 0, 0, 1⟩) ∧
  reads 0x300234A2CC1C0000 (.cpyBb ⟨13, 10, 11, 12, 7, 0, 0⟩) ∧
  reads 0x3801000000000081 (.fencePath ⟨0, 0, 0, 0, 0, 0, 0x81⟩) ∧
  reads 0x3803000000000000 .fenceDur ∧
  reads 0x8001040004040C00 (.epSlotVadd ⟨1, 4, 0, 0⟩ ⟨2, 2, 6, 0, 0⟩) ∧
  reads 0xD0249020140A0E02 (.apSlotAddi ⟨9, 9, 64⟩ ⟨0x0A, 5, 7, 0, 2⟩) ∧
  decode 0x0300000000000000 = .error .reservedMajor ∧ decode 0 = .error .reservedMajor ∧
  decode 0x281C038000000000 = .error (.reservedFunction false) ∧
  decode 0x1800040506010000 = .error (.unusedField false) ∧
  decode 0x800104001E040C00 = .error (.reservedFunction true)

/-- R152 to R162: decoding the word of any well-formed instruction gives that instruction back, with every operand, and every
well-formed instruction has a word but the operations of the service die and the events of the module. -/
def Obligations.DecodeOfEncode : Prop :=
  ∀ (i : Instr),
    (encode i = none ↔ (isEvent i = true ∨ i ∈ wordless)) ∧
    ∀ w, i.wellFormed = true → encode i = some w → decode w = .ok i

/-- R160, R167, R168: a word that decodes is the word of the well-formed instruction it decodes to, in every bit but the HINT of an
instruction without operands; so no two instructions share a word, and no bit of a word is dropped. -/
def Obligations.EncodeOfDecode : Prop :=
  ∀ (w : Word) (i : Instr), decode w = .ok i → i.wellFormed = true ∧ encode i = some (w &&& ~~~looseBits i)

/-- R152, R153, R167, R370: a full word of a major that Table 8.8 does not list is of class 0x400, and one whose function code
Table 22.3 reserves is of class 0x401, whatever its other bits; every other word that does not decode has another class. A hart
with room in its EP queue that fetches a word that does not decode takes ILLEGAL with its class in `sr.tval`; a copy failure that it
kept back would follow (R263). -/
def Obligations.ReservedWords : Prop :=
  DecodeError.reservedMajor.tval = 0x400 ∧ (DecodeError.reservedFunction false).tval = 0x401 ∧
  (∀ s, exec .reservedEncoding s = .next (trapped s .illegal s.badClass)) ∧
  (∀ (s : State) (n : Nat) (rest : List Action) (w : Word) (e : DecodeError), s.runnable n = true →
    (s.hart n).epq < 64 →
    let u : State := { s with agenda := rest, cur := n }
    u.fetchWord n = .ok w → decode w = .error e →
      step { s with agenda := .run n :: rest } = .next ((trapped { u with badClass := e.tval } .illegal e.tval).raiseCopyFail n)) ∧
  ∀ (w : Word), w.getLsbD 63 = false →
    let maj := (w.extractLsb' 56 7).toNat
    ((∀ e ∈ functionTable, e.1 ≠ maj) ↔ decode w = .error .reservedMajor) ∧
    ∀ e ∈ functionTable, e.1 = maj →
      ((w.toNat / 2 ^ e.2.1 % 2 ^ e.2.2.1) ∉ e.2.2.2 ↔ decode w = .error (.reservedFunction false))

/-! ### The step (02 R42; 08 R152, R167; 15 R313) -/

/-- R25, R87, R152, R167: when the agenda asks for a hart that can run and whose EP queue has a free entry, the eight bytes at its
pc in the landed segment, lowest first, are its word; the step runs the instruction that they decode to, on the state in which
that hart is the one that runs, or ILLEGAL with the word's class, and then raises a copy failure kept back for the instruction's end,
where there is one (R263); with the queue full it waits for an entry. The step of an event
runs that event, and the step of the service die the operation of its oldest record.
Choices of the model that it rests on: log entries 5, 6, 8, 40, 58. -/
def Obligations.StepRunsDecoded : Prop :=
  ∀ (s : State) (rest : List Action),
    (∀ n, s.agenda = .run n :: rest → s.runnable n = true → 64 ≤ (s.hart n).epq →
      step s = .next (({ s with agenda := rest } : State).setWait n .epFull)) ∧
    (∀ n sl j, s.agenda = .run n :: rest → s.runnable n = true → (s.hart n).epq < 64 → (s.hart n).pc &&& 7 = 0 → (s.hart n).inSeg (s.hart n).pc = true →
      (s.hart n).supv = false → (s.core (coreOf n)).slotOf (s.hart n).pc = some (j, sl) → sl.landed = some true →
      (∀ p ∈ sl.poison, p / 8 ≠ (s.hart n).pc.toNat % 4096 / 8) →
      let w := wordOfBytes ((List.range 8).map fun i => Tbl.get 0 sl.bytes ((s.hart n).pc.toNat % 4096 + i))
      (∀ i, decode w = .ok i → step s = thenRaised n (exec i { s with agenda := rest, cur := n })) ∧
      ∀ e, decode w = .error e → step s = thenRaised n (exec .reservedEncoding { s with agenda := rest, cur := n, badClass := e.tval })) ∧
    (∀ n (t : State), (t.hart n).copyFails = [] ∨ (t.hart n).supv = true ∨ (t.hart n).status ≠ .running → t.raiseCopyFail n = t) ∧
    (∀ i ev, s.agenda = .event i ev :: rest → isEvent i = true → step s = exec i { s with agenda := rest, ev := ev }) ∧
    ∀ r q, s.agenda = .takeCommand :: rest → s.cmdq = r :: q → s.commandReady r = true →
      step s = exec (decodeCommand r) { s with agenda := rest, cmdq := q, cmd := r }

/-! ### Reset and memory (00 R5; 02 Table 2.2; 15 R315; 20 Table 20.3) -/

/-- R315, Tables 2.2, 11.8, 12.1, 20.3: after reset there is no owner, no partition, no launch, no team and no running hart; the
registers with a reset value hold it. The clauses that every A register and `sr.slots` hold 0 are the model's choice: no field map gives
them a reset value (log 1).
Choices of the model that it rests on: log entry 1. -/
def Obligations.ResetValues : Prop :=
  let s := State.reset
  s.svc.owner = none ∧ s.svc.frozen = 0 ∧ s.launches = [] ∧ s.teams = [] ∧
  (∀ p, (s.part p).state = 0 ∧ (s.part p).supvec = 0) ∧ (∀ d, (s.die d).vlcap = 0x80) ∧
  (∀ n, (s.hart n).status = .unused ∧ (s.hart n).clkw = 0x3E8 ∧ (s.hart n).mshape = 0x0000008000800002 ∧
    (s.hart n).fcsr = 0 ∧ (s.hart n).supv = false ∧ (s.hart n).rrb = 0 ∧ (s.hart n).slots = 0 ∧ ∀ a, (s.hart n).aReg a = 0) ∧
  s.log.base = 0 ∧ s.log.len = 0x40 ∧ s.log.head = 0 ∧ s.log.tail = 0 ∧ (∀ k, Tbl.get 0 s.log.drops k = 0) ∧
  s.events.head = 0 ∧ s.events.tail = 0 ∧ s.events.drop = 0

/-- The memory of the state after reset is in canonical form.
Choices of the model that it rests on: log entries 2, 13. -/
def Obligations.ResetMemoryCanonical : Prop := Memory.wf State.reset = true

/-- Every step keeps memory in canonical form: equal memories are equal data in every state that a step gives from one that has it.
(The model's own form; the spec has no such rule.)
Choices of the model that it rests on: log entries 2, 13. -/
def Obligations.StepKeepsMemoryCanonical : Prop :=
  ∀ (s s' : State), Memory.wf s = true → step s = .next s' → Memory.wf s' = true
end

