-- ==== Sys2Proof/Laws/Table.lean ====
section
/-! SUPPORT. Sparse tables: what is read after a write, and the canonical form that every write keeps. -/

namespace Sys2Proof

theorem Tbl.get_erase_same {α : Type} (d : α) (t : Tbl α) (k : Nat) : Tbl.get d (Tbl.erase t k) k = d := by
  induction t with
  | nil => rfl
  | cons e t ih =>
    obtain ⟨k', v⟩ := e
    by_cases h : k = k' <;> simp [Tbl.erase, Tbl.get, h, ih] <;> simpa [h] using ih

theorem Tbl.get_erase_ne {α : Type} (d : α) (t : Tbl α) {k j : Nat} (h : j ≠ k) :
    Tbl.get d (Tbl.erase t k) j = Tbl.get d t j := by
  induction t with
  | nil => rfl
  | cons e t ih =>
    obtain ⟨k', v⟩ := e
    by_cases e₁ : k = k'
    · subst e₁; simp [Tbl.erase, Tbl.get, h, ih]
    · by_cases e₂ : j = k' <;> simp [Tbl.erase, Tbl.get, e₁, e₂, ih]

theorem Tbl.get_insert_same {α : Type} (d : α) (t : Tbl α) (k : Nat) (v : α) (h : Tbl.get d t k = d) (hv : ∀ e ∈ t, e.1 ≠ k) :
    Tbl.get d (Tbl.insert t k v) k = v := by
  induction t with
  | nil => simp [Tbl.insert, Tbl.get]
  | cons e t ih =>
    obtain ⟨k', v'⟩ := e
    have hk : k ≠ k' := fun e => hv (k', v') (by simp) e.symm
    simp only [Tbl.insert]
    split
    · simp [Tbl.get]
    · simp only [Tbl.get, hk, if_false] at h ⊢
      exact ih h fun e he => hv e (by simp [he])

theorem Tbl.get_insert_ne {α : Type} (d : α) (t : Tbl α) {k j : Nat} (v : α) (h : j ≠ k) :
    Tbl.get d (Tbl.insert t k v) j = Tbl.get d t j := by
  induction t with
  | nil => simp [Tbl.insert, Tbl.get, h]
  | cons e t ih =>
    obtain ⟨k', v'⟩ := e
    simp only [Tbl.insert]
    split
    · simp [Tbl.get, h]
    · simp [Tbl.get, ih]

/-- Erasing a key leaves its entries out. -/
theorem Tbl.erase_eq_filter {α : Type} (t : Tbl α) (k : Nat) : Tbl.erase t k = t.filter fun e => e.1 != k := by
  induction t with
  | nil => rfl
  | cons e t ih =>
    simp only [Tbl.erase, List.filter_cons, ih, bne_iff_ne, ne_eq, eq_comm (a := k)]
    split <;> simp_all

theorem Tbl.mem_erase {α : Type} (t : Tbl α) (k : Nat) (e : Nat × α) : e ∈ Tbl.erase t k ↔ e ∈ t ∧ e.1 ≠ k := by
  simp [Tbl.erase_eq_filter]

/-- What was written is read. -/
@[simp] theorem Tbl.get_set_same {α : Type} [DecidableEq α] (d : α) (t : Tbl α) (k : Nat) (v : α) :
    Tbl.get d (Tbl.set d t k v) k = v := by
  unfold Tbl.set
  split
  · simp [Tbl.get_erase_same, *]
  · exact Tbl.get_insert_same d _ k v (Tbl.get_erase_same d t k) fun e he => ((Tbl.mem_erase t k e).1 he).2

/-- Every other key keeps its value. -/
theorem Tbl.get_set_ne {α : Type} [DecidableEq α] (d : α) (t : Tbl α) {k j : Nat} (v : α) (h : j ≠ k) :
    Tbl.get d (Tbl.set d t k v) j = Tbl.get d t j := by
  unfold Tbl.set
  split
  · exact Tbl.get_erase_ne d t h
  · rw [Tbl.get_insert_ne d _ v h, Tbl.get_erase_ne d t h]

theorem Tbl.erase_erase {α : Type} (t : Tbl α) (k : Nat) : Tbl.erase (Tbl.erase t k) k = Tbl.erase t k := by
  simp [Tbl.erase_eq_filter]

theorem Tbl.erase_insert {α : Type} (t : Tbl α) (k : Nat) (v : α) :
    Tbl.erase (Tbl.insert t k v) k = Tbl.erase t k := by
  induction t with
  | nil => simp [Tbl.insert, Tbl.erase]
  | cons e t ih =>
    obtain ⟨k', v'⟩ := e
    simp only [Tbl.insert]
    split
    · simp [Tbl.erase]
    · by_cases h : k = k' <;> simp [Tbl.erase, h, ih] <;> simpa [h] using ih

/-- A second write to a key replaces the first. -/
@[simp] theorem Tbl.set_set_same {α : Type} [DecidableEq α] (d : α) (t : Tbl α) (k : Nat) (v w : α) :
    Tbl.set d (Tbl.set d t k v) k w = Tbl.set d t k w := by
  simp only [Tbl.set]
  split <;> split <;> simp [Tbl.erase_insert, Tbl.erase_erase]

theorem Tbl.wfFrom_mono {α : Type} [DecidableEq α] (d : α) (t : Tbl α) {lo lo' : Nat} (h : lo' ≤ lo)
    (w : Tbl.wfFrom d lo t = true) : Tbl.wfFrom d lo' t = true := by
  cases t with
  | nil => rfl
  | cons e t =>
    obtain ⟨k, v⟩ := e
    simp only [Tbl.wfFrom, Bool.and_eq_true, decide_eq_true_eq] at w ⊢
    exact ⟨⟨by omega, w.1.2⟩, w.2⟩

theorem Tbl.wfFrom_filter {α : Type} [DecidableEq α] (d : α) (t : Tbl α) (p : Nat × α → Bool) (lo : Nat)
    (w : Tbl.wfFrom d lo t = true) : Tbl.wfFrom d lo (t.filter p) = true := by
  induction t generalizing lo with
  | nil => rfl
  | cons e t ih =>
    obtain ⟨k, v⟩ := e
    simp only [Tbl.wfFrom, Bool.and_eq_true, decide_eq_true_eq] at w
    simp only [List.filter_cons]
    split
    · simp only [Tbl.wfFrom, Bool.and_eq_true, decide_eq_true_eq]
      exact ⟨w.1, ih _ w.2⟩
    · exact Tbl.wfFrom_mono d _ (by omega) (ih _ w.2)

theorem Tbl.wfFrom_erase {α : Type} [DecidableEq α] (d : α) (t : Tbl α) (k lo : Nat)
    (w : Tbl.wfFrom d lo t = true) : Tbl.wfFrom d lo (Tbl.erase t k) = true := by
  rw [Tbl.erase_eq_filter]
  exact Tbl.wfFrom_filter d t _ lo w

theorem Tbl.wfFrom_insert {α : Type} [DecidableEq α] (d : α) (t : Tbl α) (k lo : Nat) (v : α) (hv : v ≠ d) (hk : lo ≤ k)
    (hn : ∀ e ∈ t, e.1 ≠ k) (w : Tbl.wfFrom d lo t = true) : Tbl.wfFrom d lo (Tbl.insert t k v) = true := by
  induction t generalizing lo with
  | nil => simp [Tbl.insert, Tbl.wfFrom, hv, hk]
  | cons e t ih =>
    obtain ⟨k', v'⟩ := e
    simp only [Tbl.wfFrom, Bool.and_eq_true, decide_eq_true_eq] at w
    have hne : k' ≠ k := hn (k', v') (by simp)
    simp only [Tbl.insert]
    split
    · simp only [Tbl.wfFrom, Bool.and_eq_true, decide_eq_true_eq]
      exact ⟨⟨hk, hv⟩, ⟨by omega, w.1.2⟩, w.2⟩
    · simp only [Tbl.wfFrom, Bool.and_eq_true, decide_eq_true_eq]
      exact ⟨w.1, ih _ (by omega) (fun e he => hn e (by simp [he])) w.2⟩

/-- Writing keeps the canonical form. -/
theorem Tbl.wf_set {α : Type} [DecidableEq α] (d : α) (t : Tbl α) (k : Nat) (v : α) (w : Tbl.wf d t = true) :
    Tbl.wf d (Tbl.set d t k v) = true := by
  unfold Tbl.set
  split
  · exact Tbl.wfFrom_erase d t k 0 w
  · exact Tbl.wfFrom_insert d _ k 0 v ‹_› (Nat.zero_le _) (fun e he => ((Tbl.mem_erase t k e).1 he).2)
      (Tbl.wfFrom_erase d t k 0 w)

/-- Erasing keeps the canonical form. -/
theorem Tbl.wf_erase {α : Type} [DecidableEq α] (d : α) (t : Tbl α) (k : Nat) (w : Tbl.wf d t = true) :
    Tbl.wf d (Tbl.erase t k) = true := Tbl.wfFrom_erase d t k 0 w

/-- Leaving entries out keeps the canonical form. -/
theorem Tbl.wf_filter {α : Type} [DecidableEq α] (d : α) (t : Tbl α) (p : Nat × α → Bool) (w : Tbl.wf d t = true) :
    Tbl.wf d (t.filter p) = true := Tbl.wfFrom_filter d t p 0 w

end Sys2Proof
end

