-- ==== Sys2Proof/Laws/State.lean ====
section
/-! SUPPORT. What each update of the state and of a hart leaves alone, field by field, and what it changes. -/

namespace Sys2Proof.Machine

/-! ### `State.setHart` changes the table `harts` alone -/

@[simp] theorem State.setHart_cur (s : State) (n : Nat) (h : Hart) : (s.setHart n h).cur = s.cur := rfl
@[simp] theorem State.setHart_agenda (s : State) (n : Nat) (h : Hart) : (s.setHart n h).agenda = s.agenda := rfl
@[simp] theorem State.setHart_ev (s : State) (n : Nat) (h : Hart) : (s.setHart n h).ev = s.ev := rfl
@[simp] theorem State.setHart_cmd (s : State) (n : Nat) (h : Hart) : (s.setHart n h).cmd = s.cmd := rfl
@[simp] theorem State.setHart_cmdq (s : State) (n : Nat) (h : Hart) : (s.setHart n h).cmdq = s.cmdq := rfl
@[simp] theorem State.setHart_badClass (s : State) (n : Nat) (h : Hart) : (s.setHart n h).badClass = s.badClass := rfl
@[simp] theorem State.setHart_fresh (s : State) (n : Nat) (h : Hart) : (s.setHart n h).fresh = s.fresh := rfl
@[simp] theorem State.setHart_now (s : State) (n : Nat) (h : Hart) : (s.setHart n h).now = s.now := rfl
@[simp] theorem State.setHart_cores (s : State) (n : Nat) (h : Hart) : (s.setHart n h).cores = s.cores := rfl
@[simp] theorem State.setHart_dies (s : State) (n : Nat) (h : Hart) : (s.setHart n h).dies = s.dies := rfl
@[simp] theorem State.setHart_peers (s : State) (n : Nat) (h : Hart) : (s.setHart n h).peers = s.peers := rfl
@[simp] theorem State.setHart_casks (s : State) (n : Nat) (h : Hart) : (s.setHart n h).casks = s.casks := rfl
@[simp] theorem State.setHart_media (s : State) (n : Nat) (h : Hart) : (s.setHart n h).media = s.media := rfl
@[simp] theorem State.setHart_net (s : State) (n : Nat) (h : Hart) : (s.setHart n h).net = s.net := rfl
@[simp] theorem State.setHart_homeSeq (s : State) (n : Nat) (h : Hart) : (s.setHart n h).homeSeq = s.homeSeq := rfl
@[simp] theorem State.setHart_detKeys (s : State) (n : Nat) (h : Hart) : (s.setHart n h).detKeys = s.detKeys := rfl
@[simp] theorem State.setHart_cellarPend (s : State) (n : Nat) (h : Hart) : (s.setHart n h).cellarPend = s.cellarPend := rfl
@[simp] theorem State.setHart_stampq (s : State) (n : Nat) (h : Hart) : (s.setHart n h).stampq = s.stampq := rfl
@[simp] theorem State.setHart_packageMark (s : State) (n : Nat) (h : Hart) : (s.setHart n h).packageMark = s.packageMark := rfl
@[simp] theorem State.setHart_fabricMark (s : State) (n : Nat) (h : Hart) : (s.setHart n h).fabricMark = s.fabricMark := rfl
@[simp] theorem State.setHart_dups (s : State) (n : Nat) (h : Hart) : (s.setHart n h).dups = s.dups := rfl
@[simp] theorem State.setHart_dupSizes (s : State) (n : Nat) (h : Hart) : (s.setHart n h).dupSizes = s.dupSizes := rfl
@[simp] theorem State.setHart_peerHeld (s : State) (n : Nat) (h : Hart) : (s.setHart n h).peerHeld = s.peerHeld := rfl
@[simp] theorem State.setHart_moving (s : State) (n : Nat) (h : Hart) : (s.setHart n h).moving = s.moving := rfl
@[simp] theorem State.setHart_latent (s : State) (n : Nat) (h : Hart) : (s.setHart n h).latent = s.latent := rfl
@[simp] theorem State.setHart_sramLog (s : State) (n : Nat) (h : Hart) : (s.setHart n h).sramLog = s.sramLog := rfl
@[simp] theorem State.setHart_launches (s : State) (n : Nat) (h : Hart) : (s.setHart n h).launches = s.launches := rfl
@[simp] theorem State.setHart_nextLaunch (s : State) (n : Nat) (h : Hart) : (s.setHart n h).nextLaunch = s.nextLaunch := rfl
@[simp] theorem State.setHart_teams (s : State) (n : Nat) (h : Hart) : (s.setHart n h).teams = s.teams := rfl
@[simp] theorem State.setHart_nextTeam (s : State) (n : Nat) (h : Hart) : (s.setHart n h).nextTeam = s.nextTeam := rfl
@[simp] theorem State.setHart_seq (s : State) (n : Nat) (h : Hart) : (s.setHart n h).seq = s.seq := rfl
@[simp] theorem State.setHart_parts (s : State) (n : Nat) (h : Hart) : (s.setHart n h).parts = s.parts := rfl
@[simp] theorem State.setHart_ports (s : State) (n : Nat) (h : Hart) : (s.setHart n h).ports = s.ports := rfl
@[simp] theorem State.setHart_log (s : State) (n : Nat) (h : Hart) : (s.setHart n h).log = s.log := rfl
@[simp] theorem State.setHart_events (s : State) (n : Nat) (h : Hart) : (s.setHart n h).events = s.events := rfl
@[simp] theorem State.setHart_svc (s : State) (n : Nat) (h : Hart) : (s.setHart n h).svc = s.svc := rfl
@[simp] theorem State.setHart_spare (s : State) (n : Nat) (h : Hart) : (s.setHart n h).spare = s.spare := rfl

/-! ### `State.setCore` changes the table `cores` alone -/

@[simp] theorem State.setCore_cur (s : State) (n : Nat) (c : Core) : (s.setCore n c).cur = s.cur := rfl
@[simp] theorem State.setCore_agenda (s : State) (n : Nat) (c : Core) : (s.setCore n c).agenda = s.agenda := rfl
@[simp] theorem State.setCore_ev (s : State) (n : Nat) (c : Core) : (s.setCore n c).ev = s.ev := rfl
@[simp] theorem State.setCore_cmd (s : State) (n : Nat) (c : Core) : (s.setCore n c).cmd = s.cmd := rfl
@[simp] theorem State.setCore_cmdq (s : State) (n : Nat) (c : Core) : (s.setCore n c).cmdq = s.cmdq := rfl
@[simp] theorem State.setCore_badClass (s : State) (n : Nat) (c : Core) : (s.setCore n c).badClass = s.badClass := rfl
@[simp] theorem State.setCore_fresh (s : State) (n : Nat) (c : Core) : (s.setCore n c).fresh = s.fresh := rfl
@[simp] theorem State.setCore_now (s : State) (n : Nat) (c : Core) : (s.setCore n c).now = s.now := rfl
@[simp] theorem State.setCore_harts (s : State) (n : Nat) (c : Core) : (s.setCore n c).harts = s.harts := rfl
@[simp] theorem State.setCore_dies (s : State) (n : Nat) (c : Core) : (s.setCore n c).dies = s.dies := rfl
@[simp] theorem State.setCore_peers (s : State) (n : Nat) (c : Core) : (s.setCore n c).peers = s.peers := rfl
@[simp] theorem State.setCore_casks (s : State) (n : Nat) (c : Core) : (s.setCore n c).casks = s.casks := rfl
@[simp] theorem State.setCore_media (s : State) (n : Nat) (c : Core) : (s.setCore n c).media = s.media := rfl
@[simp] theorem State.setCore_net (s : State) (n : Nat) (c : Core) : (s.setCore n c).net = s.net := rfl
@[simp] theorem State.setCore_homeSeq (s : State) (n : Nat) (c : Core) : (s.setCore n c).homeSeq = s.homeSeq := rfl
@[simp] theorem State.setCore_detKeys (s : State) (n : Nat) (c : Core) : (s.setCore n c).detKeys = s.detKeys := rfl
@[simp] theorem State.setCore_cellarPend (s : State) (n : Nat) (c : Core) : (s.setCore n c).cellarPend = s.cellarPend := rfl
@[simp] theorem State.setCore_stampq (s : State) (n : Nat) (c : Core) : (s.setCore n c).stampq = s.stampq := rfl
@[simp] theorem State.setCore_packageMark (s : State) (n : Nat) (c : Core) : (s.setCore n c).packageMark = s.packageMark := rfl
@[simp] theorem State.setCore_fabricMark (s : State) (n : Nat) (c : Core) : (s.setCore n c).fabricMark = s.fabricMark := rfl
@[simp] theorem State.setCore_dups (s : State) (n : Nat) (c : Core) : (s.setCore n c).dups = s.dups := rfl
@[simp] theorem State.setCore_dupSizes (s : State) (n : Nat) (c : Core) : (s.setCore n c).dupSizes = s.dupSizes := rfl
@[simp] theorem State.setCore_peerHeld (s : State) (n : Nat) (c : Core) : (s.setCore n c).peerHeld = s.peerHeld := rfl
@[simp] theorem State.setCore_moving (s : State) (n : Nat) (c : Core) : (s.setCore n c).moving = s.moving := rfl
@[simp] theorem State.setCore_latent (s : State) (n : Nat) (c : Core) : (s.setCore n c).latent = s.latent := rfl
@[simp] theorem State.setCore_sramLog (s : State) (n : Nat) (c : Core) : (s.setCore n c).sramLog = s.sramLog := rfl
@[simp] theorem State.setCore_launches (s : State) (n : Nat) (c : Core) : (s.setCore n c).launches = s.launches := rfl
@[simp] theorem State.setCore_nextLaunch (s : State) (n : Nat) (c : Core) : (s.setCore n c).nextLaunch = s.nextLaunch := rfl
@[simp] theorem State.setCore_teams (s : State) (n : Nat) (c : Core) : (s.setCore n c).teams = s.teams := rfl
@[simp] theorem State.setCore_nextTeam (s : State) (n : Nat) (c : Core) : (s.setCore n c).nextTeam = s.nextTeam := rfl
@[simp] theorem State.setCore_seq (s : State) (n : Nat) (c : Core) : (s.setCore n c).seq = s.seq := rfl
@[simp] theorem State.setCore_parts (s : State) (n : Nat) (c : Core) : (s.setCore n c).parts = s.parts := rfl
@[simp] theorem State.setCore_ports (s : State) (n : Nat) (c : Core) : (s.setCore n c).ports = s.ports := rfl
@[simp] theorem State.setCore_log (s : State) (n : Nat) (c : Core) : (s.setCore n c).log = s.log := rfl
@[simp] theorem State.setCore_events (s : State) (n : Nat) (c : Core) : (s.setCore n c).events = s.events := rfl
@[simp] theorem State.setCore_svc (s : State) (n : Nat) (c : Core) : (s.setCore n c).svc = s.svc := rfl
@[simp] theorem State.setCore_spare (s : State) (n : Nat) (c : Core) : (s.setCore n c).spare = s.spare := rfl

/-! ### `State.setDie` changes the table `dies` alone -/

@[simp] theorem State.setDie_cur (s : State) (n : Nat) (d : Die) : (s.setDie n d).cur = s.cur := rfl
@[simp] theorem State.setDie_agenda (s : State) (n : Nat) (d : Die) : (s.setDie n d).agenda = s.agenda := rfl
@[simp] theorem State.setDie_ev (s : State) (n : Nat) (d : Die) : (s.setDie n d).ev = s.ev := rfl
@[simp] theorem State.setDie_cmd (s : State) (n : Nat) (d : Die) : (s.setDie n d).cmd = s.cmd := rfl
@[simp] theorem State.setDie_cmdq (s : State) (n : Nat) (d : Die) : (s.setDie n d).cmdq = s.cmdq := rfl
@[simp] theorem State.setDie_badClass (s : State) (n : Nat) (d : Die) : (s.setDie n d).badClass = s.badClass := rfl
@[simp] theorem State.setDie_fresh (s : State) (n : Nat) (d : Die) : (s.setDie n d).fresh = s.fresh := rfl
@[simp] theorem State.setDie_now (s : State) (n : Nat) (d : Die) : (s.setDie n d).now = s.now := rfl
@[simp] theorem State.setDie_harts (s : State) (n : Nat) (d : Die) : (s.setDie n d).harts = s.harts := rfl
@[simp] theorem State.setDie_cores (s : State) (n : Nat) (d : Die) : (s.setDie n d).cores = s.cores := rfl
@[simp] theorem State.setDie_peers (s : State) (n : Nat) (d : Die) : (s.setDie n d).peers = s.peers := rfl
@[simp] theorem State.setDie_casks (s : State) (n : Nat) (d : Die) : (s.setDie n d).casks = s.casks := rfl
@[simp] theorem State.setDie_media (s : State) (n : Nat) (d : Die) : (s.setDie n d).media = s.media := rfl
@[simp] theorem State.setDie_net (s : State) (n : Nat) (d : Die) : (s.setDie n d).net = s.net := rfl
@[simp] theorem State.setDie_homeSeq (s : State) (n : Nat) (d : Die) : (s.setDie n d).homeSeq = s.homeSeq := rfl
@[simp] theorem State.setDie_detKeys (s : State) (n : Nat) (d : Die) : (s.setDie n d).detKeys = s.detKeys := rfl
@[simp] theorem State.setDie_cellarPend (s : State) (n : Nat) (d : Die) : (s.setDie n d).cellarPend = s.cellarPend := rfl
@[simp] theorem State.setDie_stampq (s : State) (n : Nat) (d : Die) : (s.setDie n d).stampq = s.stampq := rfl
@[simp] theorem State.setDie_packageMark (s : State) (n : Nat) (d : Die) : (s.setDie n d).packageMark = s.packageMark := rfl
@[simp] theorem State.setDie_fabricMark (s : State) (n : Nat) (d : Die) : (s.setDie n d).fabricMark = s.fabricMark := rfl
@[simp] theorem State.setDie_dups (s : State) (n : Nat) (d : Die) : (s.setDie n d).dups = s.dups := rfl
@[simp] theorem State.setDie_dupSizes (s : State) (n : Nat) (d : Die) : (s.setDie n d).dupSizes = s.dupSizes := rfl
@[simp] theorem State.setDie_peerHeld (s : State) (n : Nat) (d : Die) : (s.setDie n d).peerHeld = s.peerHeld := rfl
@[simp] theorem State.setDie_moving (s : State) (n : Nat) (d : Die) : (s.setDie n d).moving = s.moving := rfl
@[simp] theorem State.setDie_latent (s : State) (n : Nat) (d : Die) : (s.setDie n d).latent = s.latent := rfl
@[simp] theorem State.setDie_sramLog (s : State) (n : Nat) (d : Die) : (s.setDie n d).sramLog = s.sramLog := rfl
@[simp] theorem State.setDie_launches (s : State) (n : Nat) (d : Die) : (s.setDie n d).launches = s.launches := rfl
@[simp] theorem State.setDie_nextLaunch (s : State) (n : Nat) (d : Die) : (s.setDie n d).nextLaunch = s.nextLaunch := rfl
@[simp] theorem State.setDie_teams (s : State) (n : Nat) (d : Die) : (s.setDie n d).teams = s.teams := rfl
@[simp] theorem State.setDie_nextTeam (s : State) (n : Nat) (d : Die) : (s.setDie n d).nextTeam = s.nextTeam := rfl
@[simp] theorem State.setDie_seq (s : State) (n : Nat) (d : Die) : (s.setDie n d).seq = s.seq := rfl
@[simp] theorem State.setDie_parts (s : State) (n : Nat) (d : Die) : (s.setDie n d).parts = s.parts := rfl
@[simp] theorem State.setDie_ports (s : State) (n : Nat) (d : Die) : (s.setDie n d).ports = s.ports := rfl
@[simp] theorem State.setDie_log (s : State) (n : Nat) (d : Die) : (s.setDie n d).log = s.log := rfl
@[simp] theorem State.setDie_events (s : State) (n : Nat) (d : Die) : (s.setDie n d).events = s.events := rfl
@[simp] theorem State.setDie_svc (s : State) (n : Nat) (d : Die) : (s.setDie n d).svc = s.svc := rfl
@[simp] theorem State.setDie_spare (s : State) (n : Nat) (d : Die) : (s.setDie n d).spare = s.spare := rfl

/-! ### `State.setTeam` changes the table `teams` alone -/

@[simp] theorem State.setTeam_cur (s : State) (n : Nat) (t : Team) : (s.setTeam n t).cur = s.cur := rfl
@[simp] theorem State.setTeam_agenda (s : State) (n : Nat) (t : Team) : (s.setTeam n t).agenda = s.agenda := rfl
@[simp] theorem State.setTeam_ev (s : State) (n : Nat) (t : Team) : (s.setTeam n t).ev = s.ev := rfl
@[simp] theorem State.setTeam_cmd (s : State) (n : Nat) (t : Team) : (s.setTeam n t).cmd = s.cmd := rfl
@[simp] theorem State.setTeam_cmdq (s : State) (n : Nat) (t : Team) : (s.setTeam n t).cmdq = s.cmdq := rfl
@[simp] theorem State.setTeam_badClass (s : State) (n : Nat) (t : Team) : (s.setTeam n t).badClass = s.badClass := rfl
@[simp] theorem State.setTeam_fresh (s : State) (n : Nat) (t : Team) : (s.setTeam n t).fresh = s.fresh := rfl
@[simp] theorem State.setTeam_now (s : State) (n : Nat) (t : Team) : (s.setTeam n t).now = s.now := rfl
@[simp] theorem State.setTeam_harts (s : State) (n : Nat) (t : Team) : (s.setTeam n t).harts = s.harts := rfl
@[simp] theorem State.setTeam_cores (s : State) (n : Nat) (t : Team) : (s.setTeam n t).cores = s.cores := rfl
@[simp] theorem State.setTeam_dies (s : State) (n : Nat) (t : Team) : (s.setTeam n t).dies = s.dies := rfl
@[simp] theorem State.setTeam_peers (s : State) (n : Nat) (t : Team) : (s.setTeam n t).peers = s.peers := rfl
@[simp] theorem State.setTeam_casks (s : State) (n : Nat) (t : Team) : (s.setTeam n t).casks = s.casks := rfl
@[simp] theorem State.setTeam_media (s : State) (n : Nat) (t : Team) : (s.setTeam n t).media = s.media := rfl
@[simp] theorem State.setTeam_net (s : State) (n : Nat) (t : Team) : (s.setTeam n t).net = s.net := rfl
@[simp] theorem State.setTeam_homeSeq (s : State) (n : Nat) (t : Team) : (s.setTeam n t).homeSeq = s.homeSeq := rfl
@[simp] theorem State.setTeam_detKeys (s : State) (n : Nat) (t : Team) : (s.setTeam n t).detKeys = s.detKeys := rfl
@[simp] theorem State.setTeam_cellarPend (s : State) (n : Nat) (t : Team) : (s.setTeam n t).cellarPend = s.cellarPend := rfl
@[simp] theorem State.setTeam_stampq (s : State) (n : Nat) (t : Team) : (s.setTeam n t).stampq = s.stampq := rfl
@[simp] theorem State.setTeam_packageMark (s : State) (n : Nat) (t : Team) : (s.setTeam n t).packageMark = s.packageMark := rfl
@[simp] theorem State.setTeam_fabricMark (s : State) (n : Nat) (t : Team) : (s.setTeam n t).fabricMark = s.fabricMark := rfl
@[simp] theorem State.setTeam_dups (s : State) (n : Nat) (t : Team) : (s.setTeam n t).dups = s.dups := rfl
@[simp] theorem State.setTeam_dupSizes (s : State) (n : Nat) (t : Team) : (s.setTeam n t).dupSizes = s.dupSizes := rfl
@[simp] theorem State.setTeam_peerHeld (s : State) (n : Nat) (t : Team) : (s.setTeam n t).peerHeld = s.peerHeld := rfl
@[simp] theorem State.setTeam_moving (s : State) (n : Nat) (t : Team) : (s.setTeam n t).moving = s.moving := rfl
@[simp] theorem State.setTeam_latent (s : State) (n : Nat) (t : Team) : (s.setTeam n t).latent = s.latent := rfl
@[simp] theorem State.setTeam_sramLog (s : State) (n : Nat) (t : Team) : (s.setTeam n t).sramLog = s.sramLog := rfl
@[simp] theorem State.setTeam_launches (s : State) (n : Nat) (t : Team) : (s.setTeam n t).launches = s.launches := rfl
@[simp] theorem State.setTeam_nextLaunch (s : State) (n : Nat) (t : Team) : (s.setTeam n t).nextLaunch = s.nextLaunch := rfl
@[simp] theorem State.setTeam_nextTeam (s : State) (n : Nat) (t : Team) : (s.setTeam n t).nextTeam = s.nextTeam := rfl
@[simp] theorem State.setTeam_seq (s : State) (n : Nat) (t : Team) : (s.setTeam n t).seq = s.seq := rfl
@[simp] theorem State.setTeam_parts (s : State) (n : Nat) (t : Team) : (s.setTeam n t).parts = s.parts := rfl
@[simp] theorem State.setTeam_ports (s : State) (n : Nat) (t : Team) : (s.setTeam n t).ports = s.ports := rfl
@[simp] theorem State.setTeam_log (s : State) (n : Nat) (t : Team) : (s.setTeam n t).log = s.log := rfl
@[simp] theorem State.setTeam_events (s : State) (n : Nat) (t : Team) : (s.setTeam n t).events = s.events := rfl
@[simp] theorem State.setTeam_svc (s : State) (n : Nat) (t : Team) : (s.setTeam n t).svc = s.svc := rfl
@[simp] theorem State.setTeam_spare (s : State) (n : Nat) (t : Team) : (s.setTeam n t).spare = s.spare := rfl

/-! ### `State.setLaunch` changes the table `launches` alone -/

@[simp] theorem State.setLaunch_cur (s : State) (n : Nat) (l : Launch) : (s.setLaunch n l).cur = s.cur := rfl
@[simp] theorem State.setLaunch_agenda (s : State) (n : Nat) (l : Launch) : (s.setLaunch n l).agenda = s.agenda := rfl
@[simp] theorem State.setLaunch_ev (s : State) (n : Nat) (l : Launch) : (s.setLaunch n l).ev = s.ev := rfl
@[simp] theorem State.setLaunch_cmd (s : State) (n : Nat) (l : Launch) : (s.setLaunch n l).cmd = s.cmd := rfl
@[simp] theorem State.setLaunch_cmdq (s : State) (n : Nat) (l : Launch) : (s.setLaunch n l).cmdq = s.cmdq := rfl
@[simp] theorem State.setLaunch_badClass (s : State) (n : Nat) (l : Launch) : (s.setLaunch n l).badClass = s.badClass := rfl
@[simp] theorem State.setLaunch_fresh (s : State) (n : Nat) (l : Launch) : (s.setLaunch n l).fresh = s.fresh := rfl
@[simp] theorem State.setLaunch_now (s : State) (n : Nat) (l : Launch) : (s.setLaunch n l).now = s.now := rfl
@[simp] theorem State.setLaunch_harts (s : State) (n : Nat) (l : Launch) : (s.setLaunch n l).harts = s.harts := rfl
@[simp] theorem State.setLaunch_cores (s : State) (n : Nat) (l : Launch) : (s.setLaunch n l).cores = s.cores := rfl
@[simp] theorem State.setLaunch_dies (s : State) (n : Nat) (l : Launch) : (s.setLaunch n l).dies = s.dies := rfl
@[simp] theorem State.setLaunch_peers (s : State) (n : Nat) (l : Launch) : (s.setLaunch n l).peers = s.peers := rfl
@[simp] theorem State.setLaunch_casks (s : State) (n : Nat) (l : Launch) : (s.setLaunch n l).casks = s.casks := rfl
@[simp] theorem State.setLaunch_media (s : State) (n : Nat) (l : Launch) : (s.setLaunch n l).media = s.media := rfl
@[simp] theorem State.setLaunch_net (s : State) (n : Nat) (l : Launch) : (s.setLaunch n l).net = s.net := rfl
@[simp] theorem State.setLaunch_homeSeq (s : State) (n : Nat) (l : Launch) : (s.setLaunch n l).homeSeq = s.homeSeq := rfl
@[simp] theorem State.setLaunch_detKeys (s : State) (n : Nat) (l : Launch) : (s.setLaunch n l).detKeys = s.detKeys := rfl
@[simp] theorem State.setLaunch_cellarPend (s : State) (n : Nat) (l : Launch) : (s.setLaunch n l).cellarPend = s.cellarPend := rfl
@[simp] theorem State.setLaunch_stampq (s : State) (n : Nat) (l : Launch) : (s.setLaunch n l).stampq = s.stampq := rfl
@[simp] theorem State.setLaunch_packageMark (s : State) (n : Nat) (l : Launch) : (s.setLaunch n l).packageMark = s.packageMark := rfl
@[simp] theorem State.setLaunch_fabricMark (s : State) (n : Nat) (l : Launch) : (s.setLaunch n l).fabricMark = s.fabricMark := rfl
@[simp] theorem State.setLaunch_dups (s : State) (n : Nat) (l : Launch) : (s.setLaunch n l).dups = s.dups := rfl
@[simp] theorem State.setLaunch_dupSizes (s : State) (n : Nat) (l : Launch) : (s.setLaunch n l).dupSizes = s.dupSizes := rfl
@[simp] theorem State.setLaunch_peerHeld (s : State) (n : Nat) (l : Launch) : (s.setLaunch n l).peerHeld = s.peerHeld := rfl
@[simp] theorem State.setLaunch_moving (s : State) (n : Nat) (l : Launch) : (s.setLaunch n l).moving = s.moving := rfl
@[simp] theorem State.setLaunch_latent (s : State) (n : Nat) (l : Launch) : (s.setLaunch n l).latent = s.latent := rfl
@[simp] theorem State.setLaunch_sramLog (s : State) (n : Nat) (l : Launch) : (s.setLaunch n l).sramLog = s.sramLog := rfl
@[simp] theorem State.setLaunch_nextLaunch (s : State) (n : Nat) (l : Launch) : (s.setLaunch n l).nextLaunch = s.nextLaunch := rfl
@[simp] theorem State.setLaunch_teams (s : State) (n : Nat) (l : Launch) : (s.setLaunch n l).teams = s.teams := rfl
@[simp] theorem State.setLaunch_nextTeam (s : State) (n : Nat) (l : Launch) : (s.setLaunch n l).nextTeam = s.nextTeam := rfl
@[simp] theorem State.setLaunch_seq (s : State) (n : Nat) (l : Launch) : (s.setLaunch n l).seq = s.seq := rfl
@[simp] theorem State.setLaunch_parts (s : State) (n : Nat) (l : Launch) : (s.setLaunch n l).parts = s.parts := rfl
@[simp] theorem State.setLaunch_ports (s : State) (n : Nat) (l : Launch) : (s.setLaunch n l).ports = s.ports := rfl
@[simp] theorem State.setLaunch_log (s : State) (n : Nat) (l : Launch) : (s.setLaunch n l).log = s.log := rfl
@[simp] theorem State.setLaunch_events (s : State) (n : Nat) (l : Launch) : (s.setLaunch n l).events = s.events := rfl
@[simp] theorem State.setLaunch_svc (s : State) (n : Nat) (l : Launch) : (s.setLaunch n l).svc = s.svc := rfl
@[simp] theorem State.setLaunch_spare (s : State) (n : Nat) (l : Launch) : (s.setLaunch n l).spare = s.spare := rfl

/-! ### `State.setPart` changes the table `parts` alone -/

@[simp] theorem State.setPart_cur (s : State) (p : Nat) (q : Part) : (s.setPart p q).cur = s.cur := rfl
@[simp] theorem State.setPart_agenda (s : State) (p : Nat) (q : Part) : (s.setPart p q).agenda = s.agenda := rfl
@[simp] theorem State.setPart_ev (s : State) (p : Nat) (q : Part) : (s.setPart p q).ev = s.ev := rfl
@[simp] theorem State.setPart_cmd (s : State) (p : Nat) (q : Part) : (s.setPart p q).cmd = s.cmd := rfl
@[simp] theorem State.setPart_cmdq (s : State) (p : Nat) (q : Part) : (s.setPart p q).cmdq = s.cmdq := rfl
@[simp] theorem State.setPart_badClass (s : State) (p : Nat) (q : Part) : (s.setPart p q).badClass = s.badClass := rfl
@[simp] theorem State.setPart_fresh (s : State) (p : Nat) (q : Part) : (s.setPart p q).fresh = s.fresh := rfl
@[simp] theorem State.setPart_now (s : State) (p : Nat) (q : Part) : (s.setPart p q).now = s.now := rfl
@[simp] theorem State.setPart_harts (s : State) (p : Nat) (q : Part) : (s.setPart p q).harts = s.harts := rfl
@[simp] theorem State.setPart_cores (s : State) (p : Nat) (q : Part) : (s.setPart p q).cores = s.cores := rfl
@[simp] theorem State.setPart_dies (s : State) (p : Nat) (q : Part) : (s.setPart p q).dies = s.dies := rfl
@[simp] theorem State.setPart_peers (s : State) (p : Nat) (q : Part) : (s.setPart p q).peers = s.peers := rfl
@[simp] theorem State.setPart_casks (s : State) (p : Nat) (q : Part) : (s.setPart p q).casks = s.casks := rfl
@[simp] theorem State.setPart_media (s : State) (p : Nat) (q : Part) : (s.setPart p q).media = s.media := rfl
@[simp] theorem State.setPart_net (s : State) (p : Nat) (q : Part) : (s.setPart p q).net = s.net := rfl
@[simp] theorem State.setPart_homeSeq (s : State) (p : Nat) (q : Part) : (s.setPart p q).homeSeq = s.homeSeq := rfl
@[simp] theorem State.setPart_detKeys (s : State) (p : Nat) (q : Part) : (s.setPart p q).detKeys = s.detKeys := rfl
@[simp] theorem State.setPart_cellarPend (s : State) (p : Nat) (q : Part) : (s.setPart p q).cellarPend = s.cellarPend := rfl
@[simp] theorem State.setPart_stampq (s : State) (p : Nat) (q : Part) : (s.setPart p q).stampq = s.stampq := rfl
@[simp] theorem State.setPart_packageMark (s : State) (p : Nat) (q : Part) : (s.setPart p q).packageMark = s.packageMark := rfl
@[simp] theorem State.setPart_fabricMark (s : State) (p : Nat) (q : Part) : (s.setPart p q).fabricMark = s.fabricMark := rfl
@[simp] theorem State.setPart_dups (s : State) (p : Nat) (q : Part) : (s.setPart p q).dups = s.dups := rfl
@[simp] theorem State.setPart_dupSizes (s : State) (p : Nat) (q : Part) : (s.setPart p q).dupSizes = s.dupSizes := rfl
@[simp] theorem State.setPart_peerHeld (s : State) (p : Nat) (q : Part) : (s.setPart p q).peerHeld = s.peerHeld := rfl
@[simp] theorem State.setPart_moving (s : State) (p : Nat) (q : Part) : (s.setPart p q).moving = s.moving := rfl
@[simp] theorem State.setPart_latent (s : State) (p : Nat) (q : Part) : (s.setPart p q).latent = s.latent := rfl
@[simp] theorem State.setPart_sramLog (s : State) (p : Nat) (q : Part) : (s.setPart p q).sramLog = s.sramLog := rfl
@[simp] theorem State.setPart_launches (s : State) (p : Nat) (q : Part) : (s.setPart p q).launches = s.launches := rfl
@[simp] theorem State.setPart_nextLaunch (s : State) (p : Nat) (q : Part) : (s.setPart p q).nextLaunch = s.nextLaunch := rfl
@[simp] theorem State.setPart_teams (s : State) (p : Nat) (q : Part) : (s.setPart p q).teams = s.teams := rfl
@[simp] theorem State.setPart_nextTeam (s : State) (p : Nat) (q : Part) : (s.setPart p q).nextTeam = s.nextTeam := rfl
@[simp] theorem State.setPart_seq (s : State) (p : Nat) (q : Part) : (s.setPart p q).seq = s.seq := rfl
@[simp] theorem State.setPart_ports (s : State) (p : Nat) (q : Part) : (s.setPart p q).ports = s.ports := rfl
@[simp] theorem State.setPart_log (s : State) (p : Nat) (q : Part) : (s.setPart p q).log = s.log := rfl
@[simp] theorem State.setPart_events (s : State) (p : Nat) (q : Part) : (s.setPart p q).events = s.events := rfl
@[simp] theorem State.setPart_svc (s : State) (p : Nat) (q : Part) : (s.setPart p q).svc = s.svc := rfl
@[simp] theorem State.setPart_spare (s : State) (p : Nat) (q : Part) : (s.setPart p q).spare = s.spare := rfl

/-! ### `State.setPort` changes the table `ports` alone -/

@[simp] theorem State.setPort_cur (s : State) (p : Nat) (q : Port) : (s.setPort p q).cur = s.cur := rfl
@[simp] theorem State.setPort_agenda (s : State) (p : Nat) (q : Port) : (s.setPort p q).agenda = s.agenda := rfl
@[simp] theorem State.setPort_ev (s : State) (p : Nat) (q : Port) : (s.setPort p q).ev = s.ev := rfl
@[simp] theorem State.setPort_cmd (s : State) (p : Nat) (q : Port) : (s.setPort p q).cmd = s.cmd := rfl
@[simp] theorem State.setPort_cmdq (s : State) (p : Nat) (q : Port) : (s.setPort p q).cmdq = s.cmdq := rfl
@[simp] theorem State.setPort_badClass (s : State) (p : Nat) (q : Port) : (s.setPort p q).badClass = s.badClass := rfl
@[simp] theorem State.setPort_fresh (s : State) (p : Nat) (q : Port) : (s.setPort p q).fresh = s.fresh := rfl
@[simp] theorem State.setPort_now (s : State) (p : Nat) (q : Port) : (s.setPort p q).now = s.now := rfl
@[simp] theorem State.setPort_harts (s : State) (p : Nat) (q : Port) : (s.setPort p q).harts = s.harts := rfl
@[simp] theorem State.setPort_cores (s : State) (p : Nat) (q : Port) : (s.setPort p q).cores = s.cores := rfl
@[simp] theorem State.setPort_dies (s : State) (p : Nat) (q : Port) : (s.setPort p q).dies = s.dies := rfl
@[simp] theorem State.setPort_peers (s : State) (p : Nat) (q : Port) : (s.setPort p q).peers = s.peers := rfl
@[simp] theorem State.setPort_casks (s : State) (p : Nat) (q : Port) : (s.setPort p q).casks = s.casks := rfl
@[simp] theorem State.setPort_media (s : State) (p : Nat) (q : Port) : (s.setPort p q).media = s.media := rfl
@[simp] theorem State.setPort_net (s : State) (p : Nat) (q : Port) : (s.setPort p q).net = s.net := rfl
@[simp] theorem State.setPort_homeSeq (s : State) (p : Nat) (q : Port) : (s.setPort p q).homeSeq = s.homeSeq := rfl
@[simp] theorem State.setPort_detKeys (s : State) (p : Nat) (q : Port) : (s.setPort p q).detKeys = s.detKeys := rfl
@[simp] theorem State.setPort_cellarPend (s : State) (p : Nat) (q : Port) : (s.setPort p q).cellarPend = s.cellarPend := rfl
@[simp] theorem State.setPort_stampq (s : State) (p : Nat) (q : Port) : (s.setPort p q).stampq = s.stampq := rfl
@[simp] theorem State.setPort_packageMark (s : State) (p : Nat) (q : Port) : (s.setPort p q).packageMark = s.packageMark := rfl
@[simp] theorem State.setPort_fabricMark (s : State) (p : Nat) (q : Port) : (s.setPort p q).fabricMark = s.fabricMark := rfl
@[simp] theorem State.setPort_dups (s : State) (p : Nat) (q : Port) : (s.setPort p q).dups = s.dups := rfl
@[simp] theorem State.setPort_dupSizes (s : State) (p : Nat) (q : Port) : (s.setPort p q).dupSizes = s.dupSizes := rfl
@[simp] theorem State.setPort_peerHeld (s : State) (p : Nat) (q : Port) : (s.setPort p q).peerHeld = s.peerHeld := rfl
@[simp] theorem State.setPort_moving (s : State) (p : Nat) (q : Port) : (s.setPort p q).moving = s.moving := rfl
@[simp] theorem State.setPort_latent (s : State) (p : Nat) (q : Port) : (s.setPort p q).latent = s.latent := rfl
@[simp] theorem State.setPort_sramLog (s : State) (p : Nat) (q : Port) : (s.setPort p q).sramLog = s.sramLog := rfl
@[simp] theorem State.setPort_launches (s : State) (p : Nat) (q : Port) : (s.setPort p q).launches = s.launches := rfl
@[simp] theorem State.setPort_nextLaunch (s : State) (p : Nat) (q : Port) : (s.setPort p q).nextLaunch = s.nextLaunch := rfl
@[simp] theorem State.setPort_teams (s : State) (p : Nat) (q : Port) : (s.setPort p q).teams = s.teams := rfl
@[simp] theorem State.setPort_nextTeam (s : State) (p : Nat) (q : Port) : (s.setPort p q).nextTeam = s.nextTeam := rfl
@[simp] theorem State.setPort_seq (s : State) (p : Nat) (q : Port) : (s.setPort p q).seq = s.seq := rfl
@[simp] theorem State.setPort_parts (s : State) (p : Nat) (q : Port) : (s.setPort p q).parts = s.parts := rfl
@[simp] theorem State.setPort_log (s : State) (p : Nat) (q : Port) : (s.setPort p q).log = s.log := rfl
@[simp] theorem State.setPort_events (s : State) (p : Nat) (q : Port) : (s.setPort p q).events = s.events := rfl
@[simp] theorem State.setPort_svc (s : State) (p : Nat) (q : Port) : (s.setPort p q).svc = s.svc := rfl
@[simp] theorem State.setPort_spare (s : State) (p : Nat) (q : Port) : (s.setPort p q).spare = s.spare := rfl

/-! ### `Hart.setV` -/

@[simp] theorem Hart.setV_status (h : Hart) (n : Nat) (r : VReg) : (h.setV n r).status = h.status := rfl
@[simp] theorem Hart.setV_wait (h : Hart) (n : Nat) (r : VReg) : (h.setV n r).wait = h.wait := rfl
@[simp] theorem Hart.setV_released (h : Hart) (n : Nat) (r : VReg) : (h.setV n r).released = h.released := rfl
@[simp] theorem Hart.setV_finishing (h : Hart) (n : Nat) (r : VReg) : (h.setV n r).finishing = h.finishing := rfl
@[simp] theorem Hart.setV_team (h : Hart) (n : Nat) (r : VReg) : (h.setV n r).team = h.team := rfl
@[simp] theorem Hart.setV_rank (h : Hart) (n : Nat) (r : VReg) : (h.setV n r).rank = h.rank := rfl
@[simp] theorem Hart.setV_size (h : Hart) (n : Nat) (r : VReg) : (h.setV n r).size = h.size := rfl
@[simp] theorem Hart.setV_teamIx (h : Hart) (n : Nat) (r : VReg) : (h.setV n r).teamIx = h.teamIx := rfl
@[simp] theorem Hart.setV_lcore (h : Hart) (n : Nat) (r : VReg) : (h.setV n r).lcore = h.lcore := rfl
@[simp] theorem Hart.setV_pc (h : Hart) (n : Nat) (r : VReg) : (h.setV n r).pc = h.pc := rfl
@[simp] theorem Hart.setV_seg (h : Hart) (n : Nat) (r : VReg) : (h.setV n r).seg = h.seg := rfl
@[simp] theorem Hart.setV_a (h : Hart) (n : Nat) (r : VReg) : (h.setV n r).a = h.a := rfl
@[simp] theorem Hart.setV_m (h : Hart) (n : Nat) (r : VReg) : (h.setV n r).m = h.m := rfl
@[simp] theorem Hart.setV_q (h : Hart) (n : Nat) (r : VReg) : (h.setV n r).q = h.q := rfl
@[simp] theorem Hart.setV_partQ (h : Hart) (n : Nat) (r : VReg) : (h.setV n r).partQ = h.partQ := rfl
@[simp] theorem Hart.setV_vl (h : Hart) (n : Nat) (r : VReg) : (h.setV n r).vl = h.vl := rfl
@[simp] theorem Hart.setV_vstart (h : Hart) (n : Nat) (r : VReg) : (h.setV n r).vstart = h.vstart := rfl
@[simp] theorem Hart.setV_fcsr (h : Hart) (n : Nat) (r : VReg) : (h.setV n r).fcsr = h.fcsr := rfl
@[simp] theorem Hart.setV_supv (h : Hart) (n : Nat) (r : VReg) : (h.setV n r).supv = h.supv := rfl
@[simp] theorem Hart.setV_det (h : Hart) (n : Nat) (r : VReg) : (h.setV n r).det = h.det := rfl
@[simp] theorem Hart.setV_cause (h : Hart) (n : Nat) (r : VReg) : (h.setV n r).cause = h.cause := rfl
@[simp] theorem Hart.setV_tval (h : Hart) (n : Nat) (r : VReg) : (h.setV n r).tval = h.tval := rfl
@[simp] theorem Hart.setV_epc (h : Hart) (n : Nat) (r : VReg) : (h.setV n r).epc = h.epc := rfl
@[simp] theorem Hart.setV_evstart (h : Hart) (n : Nat) (r : VReg) : (h.setV n r).evstart = h.evstart := rfl
@[simp] theorem Hart.setV_ftab (h : Hart) (n : Nat) (r : VReg) : (h.setV n r).ftab = h.ftab := rfl
@[simp] theorem Hart.setV_slots (h : Hart) (n : Nat) (r : VReg) : (h.setV n r).slots = h.slots := rfl
@[simp] theorem Hart.setV_lc (h : Hart) (n : Nat) (r : VReg) : (h.setV n r).lc = h.lc := rfl
@[simp] theorem Hart.setV_ec (h : Hart) (n : Nat) (r : VReg) : (h.setV n r).ec = h.ec := rfl
@[simp] theorem Hart.setV_rrb (h : Hart) (n : Nat) (r : VReg) : (h.setV n r).rrb = h.rrb := rfl
@[simp] theorem Hart.setV_kid (h : Hart) (n : Nat) (r : VReg) : (h.setV n r).kid = h.kid := rfl
@[simp] theorem Hart.setV_clkw (h : Hart) (n : Nat) (r : VReg) : (h.setV n r).clkw = h.clkw := rfl
@[simp] theorem Hart.setV_pcount (h : Hart) (n : Nat) (r : VReg) : (h.setV n r).pcount = h.pcount := rfl
@[simp] theorem Hart.setV_mshape (h : Hart) (n : Nat) (r : VReg) : (h.setV n r).mshape = h.mshape := rfl
@[simp] theorem Hart.setV_sva (h : Hart) (n : Nat) (r : VReg) : (h.setV n r).sva = h.sva := rfl
@[simp] theorem Hart.setV_lastStamp (h : Hart) (n : Nat) (r : VReg) : (h.setV n r).lastStamp = h.lastStamp := rfl
@[simp] theorem Hart.setV_fcount (h : Hart) (n : Nat) (r : VReg) : (h.setV n r).fcount = h.fcount := rfl
@[simp] theorem Hart.setV_tilePos (h : Hart) (n : Nat) (r : VReg) : (h.setV n r).tilePos = h.tilePos := rfl
@[simp] theorem Hart.setV_desc (h : Hart) (n : Nat) (r : VReg) : (h.setV n r).desc = h.desc := rfl
@[simp] theorem Hart.setV_epq (h : Hart) (n : Nat) (r : VReg) : (h.setV n r).epq = h.epq := rfl
@[simp] theorem Hart.setV_meq (h : Hart) (n : Nat) (r : VReg) : (h.setV n r).meq = h.meq := rfl
@[simp] theorem Hart.setV_sbuf (h : Hart) (n : Nat) (r : VReg) : (h.setV n r).sbuf = h.sbuf := rfl
@[simp] theorem Hart.setV_wcb (h : Hart) (n : Nat) (r : VReg) : (h.setV n r).wcb = h.wcb := rfl
@[simp] theorem Hart.setV_mbuf (h : Hart) (n : Nat) (r : VReg) : (h.setV n r).mbuf = h.mbuf := rfl
@[simp] theorem Hart.setV_early (h : Hart) (n : Nat) (r : VReg) : (h.setV n r).early = h.early := rfl
@[simp] theorem Hart.setV_epoch (h : Hart) (n : Nat) (r : VReg) : (h.setV n r).epoch = h.epoch := rfl
@[simp] theorem Hart.setV_pbars (h : Hart) (n : Nat) (r : VReg) : (h.setV n r).pbars = h.pbars := rfl
@[simp] theorem Hart.setV_copyFails (h : Hart) (n : Nat) (r : VReg) : (h.setV n r).copyFails = h.copyFails := rfl
@[simp] theorem Hart.setV_laneErr (h : Hart) (n : Nat) (r : VReg) : (h.setV n r).laneErr = h.laneErr := rfl
@[simp] theorem Hart.setV_cut (h : Hart) (n : Nat) (r : VReg) : (h.setV n r).cut = h.cut := rfl
@[simp] theorem Hart.setV_elemIter (h : Hart) (n : Nat) (r : VReg) : (h.setV n r).elemIter = h.elemIter := rfl
@[simp] theorem Hart.setV_memErr (h : Hart) (n : Nat) (r : VReg) : (h.setV n r).memErr = h.memErr := rfl
@[simp] theorem Hart.setV_trapIter (h : Hart) (n : Nat) (r : VReg) : (h.setV n r).trapIter = h.trapIter := rfl
@[simp] theorem Hart.setV_trapErr (h : Hart) (n : Nat) (r : VReg) : (h.setV n r).trapErr = h.trapErr := rfl
@[simp] theorem Hart.setV_routine (h : Hart) (n : Nat) (r : VReg) : (h.setV n r).routine = h.routine := rfl
@[simp] theorem Hart.setV_stackLo (h : Hart) (n : Nat) (r : VReg) : (h.setV n r).stackLo = h.stackLo := rfl
@[simp] theorem Hart.setV_stackLen (h : Hart) (n : Nat) (r : VReg) : (h.setV n r).stackLen = h.stackLen := rfl

/-! ### `Hart.addFlags` -/

@[simp] theorem Hart.addFlags_status (h : Hart) (f : Flags) : (h.addFlags f).status = h.status := rfl
@[simp] theorem Hart.addFlags_wait (h : Hart) (f : Flags) : (h.addFlags f).wait = h.wait := rfl
@[simp] theorem Hart.addFlags_released (h : Hart) (f : Flags) : (h.addFlags f).released = h.released := rfl
@[simp] theorem Hart.addFlags_finishing (h : Hart) (f : Flags) : (h.addFlags f).finishing = h.finishing := rfl
@[simp] theorem Hart.addFlags_team (h : Hart) (f : Flags) : (h.addFlags f).team = h.team := rfl
@[simp] theorem Hart.addFlags_rank (h : Hart) (f : Flags) : (h.addFlags f).rank = h.rank := rfl
@[simp] theorem Hart.addFlags_size (h : Hart) (f : Flags) : (h.addFlags f).size = h.size := rfl
@[simp] theorem Hart.addFlags_teamIx (h : Hart) (f : Flags) : (h.addFlags f).teamIx = h.teamIx := rfl
@[simp] theorem Hart.addFlags_lcore (h : Hart) (f : Flags) : (h.addFlags f).lcore = h.lcore := rfl
@[simp] theorem Hart.addFlags_pc (h : Hart) (f : Flags) : (h.addFlags f).pc = h.pc := rfl
@[simp] theorem Hart.addFlags_seg (h : Hart) (f : Flags) : (h.addFlags f).seg = h.seg := rfl
@[simp] theorem Hart.addFlags_a (h : Hart) (f : Flags) : (h.addFlags f).a = h.a := rfl
@[simp] theorem Hart.addFlags_v (h : Hart) (f : Flags) : (h.addFlags f).v = h.v := rfl
@[simp] theorem Hart.addFlags_m (h : Hart) (f : Flags) : (h.addFlags f).m = h.m := rfl
@[simp] theorem Hart.addFlags_q (h : Hart) (f : Flags) : (h.addFlags f).q = h.q := rfl
@[simp] theorem Hart.addFlags_partQ (h : Hart) (f : Flags) : (h.addFlags f).partQ = h.partQ := rfl
@[simp] theorem Hart.addFlags_vl (h : Hart) (f : Flags) : (h.addFlags f).vl = h.vl := rfl
@[simp] theorem Hart.addFlags_vstart (h : Hart) (f : Flags) : (h.addFlags f).vstart = h.vstart := rfl
@[simp] theorem Hart.addFlags_supv (h : Hart) (f : Flags) : (h.addFlags f).supv = h.supv := rfl
@[simp] theorem Hart.addFlags_det (h : Hart) (f : Flags) : (h.addFlags f).det = h.det := rfl
@[simp] theorem Hart.addFlags_cause (h : Hart) (f : Flags) : (h.addFlags f).cause = h.cause := rfl
@[simp] theorem Hart.addFlags_tval (h : Hart) (f : Flags) : (h.addFlags f).tval = h.tval := rfl
@[simp] theorem Hart.addFlags_epc (h : Hart) (f : Flags) : (h.addFlags f).epc = h.epc := rfl
@[simp] theorem Hart.addFlags_evstart (h : Hart) (f : Flags) : (h.addFlags f).evstart = h.evstart := rfl
@[simp] theorem Hart.addFlags_ftab (h : Hart) (f : Flags) : (h.addFlags f).ftab = h.ftab := rfl
@[simp] theorem Hart.addFlags_slots (h : Hart) (f : Flags) : (h.addFlags f).slots = h.slots := rfl
@[simp] theorem Hart.addFlags_lc (h : Hart) (f : Flags) : (h.addFlags f).lc = h.lc := rfl
@[simp] theorem Hart.addFlags_ec (h : Hart) (f : Flags) : (h.addFlags f).ec = h.ec := rfl
@[simp] theorem Hart.addFlags_rrb (h : Hart) (f : Flags) : (h.addFlags f).rrb = h.rrb := rfl
@[simp] theorem Hart.addFlags_kid (h : Hart) (f : Flags) : (h.addFlags f).kid = h.kid := rfl
@[simp] theorem Hart.addFlags_clkw (h : Hart) (f : Flags) : (h.addFlags f).clkw = h.clkw := rfl
@[simp] theorem Hart.addFlags_pcount (h : Hart) (f : Flags) : (h.addFlags f).pcount = h.pcount := rfl
@[simp] theorem Hart.addFlags_mshape (h : Hart) (f : Flags) : (h.addFlags f).mshape = h.mshape := rfl
@[simp] theorem Hart.addFlags_sva (h : Hart) (f : Flags) : (h.addFlags f).sva = h.sva := rfl
@[simp] theorem Hart.addFlags_lastStamp (h : Hart) (f : Flags) : (h.addFlags f).lastStamp = h.lastStamp := rfl
@[simp] theorem Hart.addFlags_fcount (h : Hart) (f : Flags) : (h.addFlags f).fcount = h.fcount := rfl
@[simp] theorem Hart.addFlags_tilePos (h : Hart) (f : Flags) : (h.addFlags f).tilePos = h.tilePos := rfl
@[simp] theorem Hart.addFlags_desc (h : Hart) (f : Flags) : (h.addFlags f).desc = h.desc := rfl
@[simp] theorem Hart.addFlags_epq (h : Hart) (f : Flags) : (h.addFlags f).epq = h.epq := rfl
@[simp] theorem Hart.addFlags_meq (h : Hart) (f : Flags) : (h.addFlags f).meq = h.meq := rfl
@[simp] theorem Hart.addFlags_sbuf (h : Hart) (f : Flags) : (h.addFlags f).sbuf = h.sbuf := rfl
@[simp] theorem Hart.addFlags_wcb (h : Hart) (f : Flags) : (h.addFlags f).wcb = h.wcb := rfl
@[simp] theorem Hart.addFlags_mbuf (h : Hart) (f : Flags) : (h.addFlags f).mbuf = h.mbuf := rfl
@[simp] theorem Hart.addFlags_early (h : Hart) (f : Flags) : (h.addFlags f).early = h.early := rfl
@[simp] theorem Hart.addFlags_epoch (h : Hart) (f : Flags) : (h.addFlags f).epoch = h.epoch := rfl
@[simp] theorem Hart.addFlags_pbars (h : Hart) (f : Flags) : (h.addFlags f).pbars = h.pbars := rfl
@[simp] theorem Hart.addFlags_copyFails (h : Hart) (f : Flags) : (h.addFlags f).copyFails = h.copyFails := rfl
@[simp] theorem Hart.addFlags_laneErr (h : Hart) (f : Flags) : (h.addFlags f).laneErr = h.laneErr := rfl
@[simp] theorem Hart.addFlags_cut (h : Hart) (f : Flags) : (h.addFlags f).cut = h.cut := rfl
@[simp] theorem Hart.addFlags_elemIter (h : Hart) (f : Flags) : (h.addFlags f).elemIter = h.elemIter := rfl
@[simp] theorem Hart.addFlags_memErr (h : Hart) (f : Flags) : (h.addFlags f).memErr = h.memErr := rfl
@[simp] theorem Hart.addFlags_trapIter (h : Hart) (f : Flags) : (h.addFlags f).trapIter = h.trapIter := rfl
@[simp] theorem Hart.addFlags_trapErr (h : Hart) (f : Flags) : (h.addFlags f).trapErr = h.trapErr := rfl
@[simp] theorem Hart.addFlags_routine (h : Hart) (f : Flags) : (h.addFlags f).routine = h.routine := rfl
@[simp] theorem Hart.addFlags_stackLo (h : Hart) (f : Flags) : (h.addFlags f).stackLo = h.stackLo := rfl
@[simp] theorem Hart.addFlags_stackLen (h : Hart) (f : Flags) : (h.addFlags f).stackLen = h.stackLen := rfl

/-! ### `Hart.setBase` -/

@[simp] theorem Hart.setBase_status (h : Hart) (b : Nat) : (h.setBase b).status = h.status := rfl
@[simp] theorem Hart.setBase_wait (h : Hart) (b : Nat) : (h.setBase b).wait = h.wait := rfl
@[simp] theorem Hart.setBase_released (h : Hart) (b : Nat) : (h.setBase b).released = h.released := rfl
@[simp] theorem Hart.setBase_finishing (h : Hart) (b : Nat) : (h.setBase b).finishing = h.finishing := rfl
@[simp] theorem Hart.setBase_team (h : Hart) (b : Nat) : (h.setBase b).team = h.team := rfl
@[simp] theorem Hart.setBase_rank (h : Hart) (b : Nat) : (h.setBase b).rank = h.rank := rfl
@[simp] theorem Hart.setBase_size (h : Hart) (b : Nat) : (h.setBase b).size = h.size := rfl
@[simp] theorem Hart.setBase_teamIx (h : Hart) (b : Nat) : (h.setBase b).teamIx = h.teamIx := rfl
@[simp] theorem Hart.setBase_lcore (h : Hart) (b : Nat) : (h.setBase b).lcore = h.lcore := rfl
@[simp] theorem Hart.setBase_pc (h : Hart) (b : Nat) : (h.setBase b).pc = h.pc := rfl
@[simp] theorem Hart.setBase_seg (h : Hart) (b : Nat) : (h.setBase b).seg = h.seg := rfl
@[simp] theorem Hart.setBase_a (h : Hart) (b : Nat) : (h.setBase b).a = h.a := rfl
@[simp] theorem Hart.setBase_v (h : Hart) (b : Nat) : (h.setBase b).v = h.v := rfl
@[simp] theorem Hart.setBase_m (h : Hart) (b : Nat) : (h.setBase b).m = h.m := rfl
@[simp] theorem Hart.setBase_q (h : Hart) (b : Nat) : (h.setBase b).q = h.q := rfl
@[simp] theorem Hart.setBase_partQ (h : Hart) (b : Nat) : (h.setBase b).partQ = h.partQ := rfl
@[simp] theorem Hart.setBase_vl (h : Hart) (b : Nat) : (h.setBase b).vl = h.vl := rfl
@[simp] theorem Hart.setBase_vstart (h : Hart) (b : Nat) : (h.setBase b).vstart = h.vstart := rfl
@[simp] theorem Hart.setBase_fcsr (h : Hart) (b : Nat) : (h.setBase b).fcsr = h.fcsr := rfl
@[simp] theorem Hart.setBase_supv (h : Hart) (b : Nat) : (h.setBase b).supv = h.supv := rfl
@[simp] theorem Hart.setBase_det (h : Hart) (b : Nat) : (h.setBase b).det = h.det := rfl
@[simp] theorem Hart.setBase_cause (h : Hart) (b : Nat) : (h.setBase b).cause = h.cause := rfl
@[simp] theorem Hart.setBase_tval (h : Hart) (b : Nat) : (h.setBase b).tval = h.tval := rfl
@[simp] theorem Hart.setBase_epc (h : Hart) (b : Nat) : (h.setBase b).epc = h.epc := rfl
@[simp] theorem Hart.setBase_evstart (h : Hart) (b : Nat) : (h.setBase b).evstart = h.evstart := rfl
@[simp] theorem Hart.setBase_ftab (h : Hart) (b : Nat) : (h.setBase b).ftab = h.ftab := rfl
@[simp] theorem Hart.setBase_slots (h : Hart) (b : Nat) : (h.setBase b).slots = h.slots := rfl
@[simp] theorem Hart.setBase_lc (h : Hart) (b : Nat) : (h.setBase b).lc = h.lc := rfl
@[simp] theorem Hart.setBase_ec (h : Hart) (b : Nat) : (h.setBase b).ec = h.ec := rfl
@[simp] theorem Hart.setBase_kid (h : Hart) (b : Nat) : (h.setBase b).kid = h.kid := rfl
@[simp] theorem Hart.setBase_clkw (h : Hart) (b : Nat) : (h.setBase b).clkw = h.clkw := rfl
@[simp] theorem Hart.setBase_pcount (h : Hart) (b : Nat) : (h.setBase b).pcount = h.pcount := rfl
@[simp] theorem Hart.setBase_mshape (h : Hart) (b : Nat) : (h.setBase b).mshape = h.mshape := rfl
@[simp] theorem Hart.setBase_sva (h : Hart) (b : Nat) : (h.setBase b).sva = h.sva := rfl
@[simp] theorem Hart.setBase_lastStamp (h : Hart) (b : Nat) : (h.setBase b).lastStamp = h.lastStamp := rfl
@[simp] theorem Hart.setBase_fcount (h : Hart) (b : Nat) : (h.setBase b).fcount = h.fcount := rfl
@[simp] theorem Hart.setBase_tilePos (h : Hart) (b : Nat) : (h.setBase b).tilePos = h.tilePos := rfl
@[simp] theorem Hart.setBase_desc (h : Hart) (b : Nat) : (h.setBase b).desc = h.desc := rfl
@[simp] theorem Hart.setBase_epq (h : Hart) (b : Nat) : (h.setBase b).epq = h.epq := rfl
@[simp] theorem Hart.setBase_meq (h : Hart) (b : Nat) : (h.setBase b).meq = h.meq := rfl
@[simp] theorem Hart.setBase_sbuf (h : Hart) (b : Nat) : (h.setBase b).sbuf = h.sbuf := rfl
@[simp] theorem Hart.setBase_wcb (h : Hart) (b : Nat) : (h.setBase b).wcb = h.wcb := rfl
@[simp] theorem Hart.setBase_mbuf (h : Hart) (b : Nat) : (h.setBase b).mbuf = h.mbuf := rfl
@[simp] theorem Hart.setBase_early (h : Hart) (b : Nat) : (h.setBase b).early = h.early := rfl
@[simp] theorem Hart.setBase_epoch (h : Hart) (b : Nat) : (h.setBase b).epoch = h.epoch := rfl
@[simp] theorem Hart.setBase_pbars (h : Hart) (b : Nat) : (h.setBase b).pbars = h.pbars := rfl
@[simp] theorem Hart.setBase_copyFails (h : Hart) (b : Nat) : (h.setBase b).copyFails = h.copyFails := rfl
@[simp] theorem Hart.setBase_laneErr (h : Hart) (b : Nat) : (h.setBase b).laneErr = h.laneErr := rfl
@[simp] theorem Hart.setBase_cut (h : Hart) (b : Nat) : (h.setBase b).cut = h.cut := rfl
@[simp] theorem Hart.setBase_elemIter (h : Hart) (b : Nat) : (h.setBase b).elemIter = h.elemIter := rfl
@[simp] theorem Hart.setBase_memErr (h : Hart) (b : Nat) : (h.setBase b).memErr = h.memErr := rfl
@[simp] theorem Hart.setBase_trapIter (h : Hart) (b : Nat) : (h.setBase b).trapIter = h.trapIter := rfl
@[simp] theorem Hart.setBase_trapErr (h : Hart) (b : Nat) : (h.setBase b).trapErr = h.trapErr := rfl
@[simp] theorem Hart.setBase_routine (h : Hart) (b : Nat) : (h.setBase b).routine = h.routine := rfl
@[simp] theorem Hart.setBase_stackLo (h : Hart) (b : Nat) : (h.setBase b).stackLo = h.stackLo := rfl
@[simp] theorem Hart.setBase_stackLen (h : Hart) (b : Nat) : (h.setBase b).stackLen = h.stackLen := rfl

/-! ### `Hart.dropEarly` -/

@[simp] theorem Hart.dropEarly_status (h : Hart) (pa n : Nat) : (h.dropEarly pa n).status = h.status := rfl
@[simp] theorem Hart.dropEarly_wait (h : Hart) (pa n : Nat) : (h.dropEarly pa n).wait = h.wait := rfl
@[simp] theorem Hart.dropEarly_released (h : Hart) (pa n : Nat) : (h.dropEarly pa n).released = h.released := rfl
@[simp] theorem Hart.dropEarly_finishing (h : Hart) (pa n : Nat) : (h.dropEarly pa n).finishing = h.finishing := rfl
@[simp] theorem Hart.dropEarly_team (h : Hart) (pa n : Nat) : (h.dropEarly pa n).team = h.team := rfl
@[simp] theorem Hart.dropEarly_rank (h : Hart) (pa n : Nat) : (h.dropEarly pa n).rank = h.rank := rfl
@[simp] theorem Hart.dropEarly_size (h : Hart) (pa n : Nat) : (h.dropEarly pa n).size = h.size := rfl
@[simp] theorem Hart.dropEarly_teamIx (h : Hart) (pa n : Nat) : (h.dropEarly pa n).teamIx = h.teamIx := rfl
@[simp] theorem Hart.dropEarly_lcore (h : Hart) (pa n : Nat) : (h.dropEarly pa n).lcore = h.lcore := rfl
@[simp] theorem Hart.dropEarly_pc (h : Hart) (pa n : Nat) : (h.dropEarly pa n).pc = h.pc := rfl
@[simp] theorem Hart.dropEarly_seg (h : Hart) (pa n : Nat) : (h.dropEarly pa n).seg = h.seg := rfl
@[simp] theorem Hart.dropEarly_a (h : Hart) (pa n : Nat) : (h.dropEarly pa n).a = h.a := rfl
@[simp] theorem Hart.dropEarly_v (h : Hart) (pa n : Nat) : (h.dropEarly pa n).v = h.v := rfl
@[simp] theorem Hart.dropEarly_m (h : Hart) (pa n : Nat) : (h.dropEarly pa n).m = h.m := rfl
@[simp] theorem Hart.dropEarly_q (h : Hart) (pa n : Nat) : (h.dropEarly pa n).q = h.q := rfl
@[simp] theorem Hart.dropEarly_partQ (h : Hart) (pa n : Nat) : (h.dropEarly pa n).partQ = h.partQ := rfl
@[simp] theorem Hart.dropEarly_vl (h : Hart) (pa n : Nat) : (h.dropEarly pa n).vl = h.vl := rfl
@[simp] theorem Hart.dropEarly_vstart (h : Hart) (pa n : Nat) : (h.dropEarly pa n).vstart = h.vstart := rfl
@[simp] theorem Hart.dropEarly_fcsr (h : Hart) (pa n : Nat) : (h.dropEarly pa n).fcsr = h.fcsr := rfl
@[simp] theorem Hart.dropEarly_supv (h : Hart) (pa n : Nat) : (h.dropEarly pa n).supv = h.supv := rfl
@[simp] theorem Hart.dropEarly_det (h : Hart) (pa n : Nat) : (h.dropEarly pa n).det = h.det := rfl
@[simp] theorem Hart.dropEarly_cause (h : Hart) (pa n : Nat) : (h.dropEarly pa n).cause = h.cause := rfl
@[simp] theorem Hart.dropEarly_tval (h : Hart) (pa n : Nat) : (h.dropEarly pa n).tval = h.tval := rfl
@[simp] theorem Hart.dropEarly_epc (h : Hart) (pa n : Nat) : (h.dropEarly pa n).epc = h.epc := rfl
@[simp] theorem Hart.dropEarly_evstart (h : Hart) (pa n : Nat) : (h.dropEarly pa n).evstart = h.evstart := rfl
@[simp] theorem Hart.dropEarly_ftab (h : Hart) (pa n : Nat) : (h.dropEarly pa n).ftab = h.ftab := rfl
@[simp] theorem Hart.dropEarly_slots (h : Hart) (pa n : Nat) : (h.dropEarly pa n).slots = h.slots := rfl
@[simp] theorem Hart.dropEarly_lc (h : Hart) (pa n : Nat) : (h.dropEarly pa n).lc = h.lc := rfl
@[simp] theorem Hart.dropEarly_ec (h : Hart) (pa n : Nat) : (h.dropEarly pa n).ec = h.ec := rfl
@[simp] theorem Hart.dropEarly_rrb (h : Hart) (pa n : Nat) : (h.dropEarly pa n).rrb = h.rrb := rfl
@[simp] theorem Hart.dropEarly_kid (h : Hart) (pa n : Nat) : (h.dropEarly pa n).kid = h.kid := rfl
@[simp] theorem Hart.dropEarly_clkw (h : Hart) (pa n : Nat) : (h.dropEarly pa n).clkw = h.clkw := rfl
@[simp] theorem Hart.dropEarly_pcount (h : Hart) (pa n : Nat) : (h.dropEarly pa n).pcount = h.pcount := rfl
@[simp] theorem Hart.dropEarly_mshape (h : Hart) (pa n : Nat) : (h.dropEarly pa n).mshape = h.mshape := rfl
@[simp] theorem Hart.dropEarly_sva (h : Hart) (pa n : Nat) : (h.dropEarly pa n).sva = h.sva := rfl
@[simp] theorem Hart.dropEarly_lastStamp (h : Hart) (pa n : Nat) : (h.dropEarly pa n).lastStamp = h.lastStamp := rfl
@[simp] theorem Hart.dropEarly_fcount (h : Hart) (pa n : Nat) : (h.dropEarly pa n).fcount = h.fcount := rfl
@[simp] theorem Hart.dropEarly_tilePos (h : Hart) (pa n : Nat) : (h.dropEarly pa n).tilePos = h.tilePos := rfl
@[simp] theorem Hart.dropEarly_desc (h : Hart) (pa n : Nat) : (h.dropEarly pa n).desc = h.desc := rfl
@[simp] theorem Hart.dropEarly_epq (h : Hart) (pa n : Nat) : (h.dropEarly pa n).epq = h.epq := rfl
@[simp] theorem Hart.dropEarly_meq (h : Hart) (pa n : Nat) : (h.dropEarly pa n).meq = h.meq := rfl
@[simp] theorem Hart.dropEarly_sbuf (h : Hart) (pa n : Nat) : (h.dropEarly pa n).sbuf = h.sbuf := rfl
@[simp] theorem Hart.dropEarly_wcb (h : Hart) (pa n : Nat) : (h.dropEarly pa n).wcb = h.wcb := rfl
@[simp] theorem Hart.dropEarly_mbuf (h : Hart) (pa n : Nat) : (h.dropEarly pa n).mbuf = h.mbuf := rfl
@[simp] theorem Hart.dropEarly_epoch (h : Hart) (pa n : Nat) : (h.dropEarly pa n).epoch = h.epoch := rfl
@[simp] theorem Hart.dropEarly_pbars (h : Hart) (pa n : Nat) : (h.dropEarly pa n).pbars = h.pbars := rfl
@[simp] theorem Hart.dropEarly_copyFails (h : Hart) (pa n : Nat) : (h.dropEarly pa n).copyFails = h.copyFails := rfl
@[simp] theorem Hart.dropEarly_laneErr (h : Hart) (pa n : Nat) : (h.dropEarly pa n).laneErr = h.laneErr := rfl
@[simp] theorem Hart.dropEarly_cut (h : Hart) (pa n : Nat) : (h.dropEarly pa n).cut = h.cut := rfl
@[simp] theorem Hart.dropEarly_elemIter (h : Hart) (pa n : Nat) : (h.dropEarly pa n).elemIter = h.elemIter := rfl
@[simp] theorem Hart.dropEarly_memErr (h : Hart) (pa n : Nat) : (h.dropEarly pa n).memErr = h.memErr := rfl
@[simp] theorem Hart.dropEarly_trapIter (h : Hart) (pa n : Nat) : (h.dropEarly pa n).trapIter = h.trapIter := rfl
@[simp] theorem Hart.dropEarly_trapErr (h : Hart) (pa n : Nat) : (h.dropEarly pa n).trapErr = h.trapErr := rfl
@[simp] theorem Hart.dropEarly_routine (h : Hart) (pa n : Nat) : (h.dropEarly pa n).routine = h.routine := rfl
@[simp] theorem Hart.dropEarly_stackLo (h : Hart) (pa n : Nat) : (h.dropEarly pa n).stackLo = h.stackLo := rfl
@[simp] theorem Hart.dropEarly_stackLen (h : Hart) (pa n : Nat) : (h.dropEarly pa n).stackLen = h.stackLen := rfl

/-! ### `Hart.drainWcb` -/

@[simp] theorem Hart.drainWcb_status (h : Hart) : (h.drainWcb).status = h.status := rfl
@[simp] theorem Hart.drainWcb_wait (h : Hart) : (h.drainWcb).wait = h.wait := rfl
@[simp] theorem Hart.drainWcb_released (h : Hart) : (h.drainWcb).released = h.released := rfl
@[simp] theorem Hart.drainWcb_finishing (h : Hart) : (h.drainWcb).finishing = h.finishing := rfl
@[simp] theorem Hart.drainWcb_team (h : Hart) : (h.drainWcb).team = h.team := rfl
@[simp] theorem Hart.drainWcb_rank (h : Hart) : (h.drainWcb).rank = h.rank := rfl
@[simp] theorem Hart.drainWcb_size (h : Hart) : (h.drainWcb).size = h.size := rfl
@[simp] theorem Hart.drainWcb_teamIx (h : Hart) : (h.drainWcb).teamIx = h.teamIx := rfl
@[simp] theorem Hart.drainWcb_lcore (h : Hart) : (h.drainWcb).lcore = h.lcore := rfl
@[simp] theorem Hart.drainWcb_pc (h : Hart) : (h.drainWcb).pc = h.pc := rfl
@[simp] theorem Hart.drainWcb_seg (h : Hart) : (h.drainWcb).seg = h.seg := rfl
@[simp] theorem Hart.drainWcb_a (h : Hart) : (h.drainWcb).a = h.a := rfl
@[simp] theorem Hart.drainWcb_v (h : Hart) : (h.drainWcb).v = h.v := rfl
@[simp] theorem Hart.drainWcb_m (h : Hart) : (h.drainWcb).m = h.m := rfl
@[simp] theorem Hart.drainWcb_q (h : Hart) : (h.drainWcb).q = h.q := rfl
@[simp] theorem Hart.drainWcb_partQ (h : Hart) : (h.drainWcb).partQ = h.partQ := rfl
@[simp] theorem Hart.drainWcb_vl (h : Hart) : (h.drainWcb).vl = h.vl := rfl
@[simp] theorem Hart.drainWcb_vstart (h : Hart) : (h.drainWcb).vstart = h.vstart := rfl
@[simp] theorem Hart.drainWcb_fcsr (h : Hart) : (h.drainWcb).fcsr = h.fcsr := rfl
@[simp] theorem Hart.drainWcb_supv (h : Hart) : (h.drainWcb).supv = h.supv := rfl
@[simp] theorem Hart.drainWcb_det (h : Hart) : (h.drainWcb).det = h.det := rfl
@[simp] theorem Hart.drainWcb_cause (h : Hart) : (h.drainWcb).cause = h.cause := rfl
@[simp] theorem Hart.drainWcb_tval (h : Hart) : (h.drainWcb).tval = h.tval := rfl
@[simp] theorem Hart.drainWcb_epc (h : Hart) : (h.drainWcb).epc = h.epc := rfl
@[simp] theorem Hart.drainWcb_evstart (h : Hart) : (h.drainWcb).evstart = h.evstart := rfl
@[simp] theorem Hart.drainWcb_ftab (h : Hart) : (h.drainWcb).ftab = h.ftab := rfl
@[simp] theorem Hart.drainWcb_slots (h : Hart) : (h.drainWcb).slots = h.slots := rfl
@[simp] theorem Hart.drainWcb_lc (h : Hart) : (h.drainWcb).lc = h.lc := rfl
@[simp] theorem Hart.drainWcb_ec (h : Hart) : (h.drainWcb).ec = h.ec := rfl
@[simp] theorem Hart.drainWcb_rrb (h : Hart) : (h.drainWcb).rrb = h.rrb := rfl
@[simp] theorem Hart.drainWcb_kid (h : Hart) : (h.drainWcb).kid = h.kid := rfl
@[simp] theorem Hart.drainWcb_clkw (h : Hart) : (h.drainWcb).clkw = h.clkw := rfl
@[simp] theorem Hart.drainWcb_pcount (h : Hart) : (h.drainWcb).pcount = h.pcount := rfl
@[simp] theorem Hart.drainWcb_mshape (h : Hart) : (h.drainWcb).mshape = h.mshape := rfl
@[simp] theorem Hart.drainWcb_sva (h : Hart) : (h.drainWcb).sva = h.sva := rfl
@[simp] theorem Hart.drainWcb_lastStamp (h : Hart) : (h.drainWcb).lastStamp = h.lastStamp := rfl
@[simp] theorem Hart.drainWcb_fcount (h : Hart) : (h.drainWcb).fcount = h.fcount := rfl
@[simp] theorem Hart.drainWcb_tilePos (h : Hart) : (h.drainWcb).tilePos = h.tilePos := rfl
@[simp] theorem Hart.drainWcb_desc (h : Hart) : (h.drainWcb).desc = h.desc := rfl
@[simp] theorem Hart.drainWcb_epq (h : Hart) : (h.drainWcb).epq = h.epq := rfl
@[simp] theorem Hart.drainWcb_meq (h : Hart) : (h.drainWcb).meq = h.meq := rfl
@[simp] theorem Hart.drainWcb_mbuf (h : Hart) : (h.drainWcb).mbuf = h.mbuf := rfl
@[simp] theorem Hart.drainWcb_early (h : Hart) : (h.drainWcb).early = h.early := rfl
@[simp] theorem Hart.drainWcb_epoch (h : Hart) : (h.drainWcb).epoch = h.epoch := rfl
@[simp] theorem Hart.drainWcb_pbars (h : Hart) : (h.drainWcb).pbars = h.pbars := rfl
@[simp] theorem Hart.drainWcb_copyFails (h : Hart) : (h.drainWcb).copyFails = h.copyFails := rfl
@[simp] theorem Hart.drainWcb_laneErr (h : Hart) : (h.drainWcb).laneErr = h.laneErr := rfl
@[simp] theorem Hart.drainWcb_cut (h : Hart) : (h.drainWcb).cut = h.cut := rfl
@[simp] theorem Hart.drainWcb_elemIter (h : Hart) : (h.drainWcb).elemIter = h.elemIter := rfl
@[simp] theorem Hart.drainWcb_memErr (h : Hart) : (h.drainWcb).memErr = h.memErr := rfl
@[simp] theorem Hart.drainWcb_trapIter (h : Hart) : (h.drainWcb).trapIter = h.trapIter := rfl
@[simp] theorem Hart.drainWcb_trapErr (h : Hart) : (h.drainWcb).trapErr = h.trapErr := rfl
@[simp] theorem Hart.drainWcb_routine (h : Hart) : (h.drainWcb).routine = h.routine := rfl
@[simp] theorem Hart.drainWcb_stackLo (h : Hart) : (h.drainWcb).stackLo = h.stackLo := rfl
@[simp] theorem Hart.drainWcb_stackLen (h : Hart) : (h.drainWcb).stackLen = h.stackLen := rfl

/-! ### `Hart.setA` -/

@[simp] theorem Hart.setA_status (h : Hart) (i : Nat) (x : Word) : (h.setA i x).status = h.status := by unfold Hart.setA; split <;> rfl
@[simp] theorem Hart.setA_wait (h : Hart) (i : Nat) (x : Word) : (h.setA i x).wait = h.wait := by unfold Hart.setA; split <;> rfl
@[simp] theorem Hart.setA_released (h : Hart) (i : Nat) (x : Word) : (h.setA i x).released = h.released := by unfold Hart.setA; split <;> rfl
@[simp] theorem Hart.setA_finishing (h : Hart) (i : Nat) (x : Word) : (h.setA i x).finishing = h.finishing := by unfold Hart.setA; split <;> rfl
@[simp] theorem Hart.setA_team (h : Hart) (i : Nat) (x : Word) : (h.setA i x).team = h.team := by unfold Hart.setA; split <;> rfl
@[simp] theorem Hart.setA_rank (h : Hart) (i : Nat) (x : Word) : (h.setA i x).rank = h.rank := by unfold Hart.setA; split <;> rfl
@[simp] theorem Hart.setA_size (h : Hart) (i : Nat) (x : Word) : (h.setA i x).size = h.size := by unfold Hart.setA; split <;> rfl
@[simp] theorem Hart.setA_teamIx (h : Hart) (i : Nat) (x : Word) : (h.setA i x).teamIx = h.teamIx := by unfold Hart.setA; split <;> rfl
@[simp] theorem Hart.setA_lcore (h : Hart) (i : Nat) (x : Word) : (h.setA i x).lcore = h.lcore := by unfold Hart.setA; split <;> rfl
@[simp] theorem Hart.setA_pc (h : Hart) (i : Nat) (x : Word) : (h.setA i x).pc = h.pc := by unfold Hart.setA; split <;> rfl
@[simp] theorem Hart.setA_seg (h : Hart) (i : Nat) (x : Word) : (h.setA i x).seg = h.seg := by unfold Hart.setA; split <;> rfl
@[simp] theorem Hart.setA_v (h : Hart) (i : Nat) (x : Word) : (h.setA i x).v = h.v := by unfold Hart.setA; split <;> rfl
@[simp] theorem Hart.setA_m (h : Hart) (i : Nat) (x : Word) : (h.setA i x).m = h.m := by unfold Hart.setA; split <;> rfl
@[simp] theorem Hart.setA_q (h : Hart) (i : Nat) (x : Word) : (h.setA i x).q = h.q := by unfold Hart.setA; split <;> rfl
@[simp] theorem Hart.setA_partQ (h : Hart) (i : Nat) (x : Word) : (h.setA i x).partQ = h.partQ := by unfold Hart.setA; split <;> rfl
@[simp] theorem Hart.setA_vl (h : Hart) (i : Nat) (x : Word) : (h.setA i x).vl = h.vl := by unfold Hart.setA; split <;> rfl
@[simp] theorem Hart.setA_vstart (h : Hart) (i : Nat) (x : Word) : (h.setA i x).vstart = h.vstart := by unfold Hart.setA; split <;> rfl
@[simp] theorem Hart.setA_fcsr (h : Hart) (i : Nat) (x : Word) : (h.setA i x).fcsr = h.fcsr := by unfold Hart.setA; split <;> rfl
@[simp] theorem Hart.setA_supv (h : Hart) (i : Nat) (x : Word) : (h.setA i x).supv = h.supv := by unfold Hart.setA; split <;> rfl
@[simp] theorem Hart.setA_det (h : Hart) (i : Nat) (x : Word) : (h.setA i x).det = h.det := by unfold Hart.setA; split <;> rfl
@[simp] theorem Hart.setA_cause (h : Hart) (i : Nat) (x : Word) : (h.setA i x).cause = h.cause := by unfold Hart.setA; split <;> rfl
@[simp] theorem Hart.setA_tval (h : Hart) (i : Nat) (x : Word) : (h.setA i x).tval = h.tval := by unfold Hart.setA; split <;> rfl
@[simp] theorem Hart.setA_epc (h : Hart) (i : Nat) (x : Word) : (h.setA i x).epc = h.epc := by unfold Hart.setA; split <;> rfl
@[simp] theorem Hart.setA_evstart (h : Hart) (i : Nat) (x : Word) : (h.setA i x).evstart = h.evstart := by unfold Hart.setA; split <;> rfl
@[simp] theorem Hart.setA_ftab (h : Hart) (i : Nat) (x : Word) : (h.setA i x).ftab = h.ftab := by unfold Hart.setA; split <;> rfl
@[simp] theorem Hart.setA_slots (h : Hart) (i : Nat) (x : Word) : (h.setA i x).slots = h.slots := by unfold Hart.setA; split <;> rfl
@[simp] theorem Hart.setA_lc (h : Hart) (i : Nat) (x : Word) : (h.setA i x).lc = h.lc := by unfold Hart.setA; split <;> rfl
@[simp] theorem Hart.setA_ec (h : Hart) (i : Nat) (x : Word) : (h.setA i x).ec = h.ec := by unfold Hart.setA; split <;> rfl
@[simp] theorem Hart.setA_rrb (h : Hart) (i : Nat) (x : Word) : (h.setA i x).rrb = h.rrb := by unfold Hart.setA; split <;> rfl
@[simp] theorem Hart.setA_kid (h : Hart) (i : Nat) (x : Word) : (h.setA i x).kid = h.kid := by unfold Hart.setA; split <;> rfl
@[simp] theorem Hart.setA_clkw (h : Hart) (i : Nat) (x : Word) : (h.setA i x).clkw = h.clkw := by unfold Hart.setA; split <;> rfl
@[simp] theorem Hart.setA_pcount (h : Hart) (i : Nat) (x : Word) : (h.setA i x).pcount = h.pcount := by unfold Hart.setA; split <;> rfl
@[simp] theorem Hart.setA_mshape (h : Hart) (i : Nat) (x : Word) : (h.setA i x).mshape = h.mshape := by unfold Hart.setA; split <;> rfl
@[simp] theorem Hart.setA_sva (h : Hart) (i : Nat) (x : Word) : (h.setA i x).sva = h.sva := by unfold Hart.setA; split <;> rfl
@[simp] theorem Hart.setA_lastStamp (h : Hart) (i : Nat) (x : Word) : (h.setA i x).lastStamp = h.lastStamp := by unfold Hart.setA; split <;> rfl
@[simp] theorem Hart.setA_fcount (h : Hart) (i : Nat) (x : Word) : (h.setA i x).fcount = h.fcount := by unfold Hart.setA; split <;> rfl
@[simp] theorem Hart.setA_tilePos (h : Hart) (i : Nat) (x : Word) : (h.setA i x).tilePos = h.tilePos := by unfold Hart.setA; split <;> rfl
@[simp] theorem Hart.setA_desc (h : Hart) (i : Nat) (x : Word) : (h.setA i x).desc = h.desc := by unfold Hart.setA; split <;> rfl
@[simp] theorem Hart.setA_epq (h : Hart) (i : Nat) (x : Word) : (h.setA i x).epq = h.epq := by unfold Hart.setA; split <;> rfl
@[simp] theorem Hart.setA_meq (h : Hart) (i : Nat) (x : Word) : (h.setA i x).meq = h.meq := by unfold Hart.setA; split <;> rfl
@[simp] theorem Hart.setA_sbuf (h : Hart) (i : Nat) (x : Word) : (h.setA i x).sbuf = h.sbuf := by unfold Hart.setA; split <;> rfl
@[simp] theorem Hart.setA_wcb (h : Hart) (i : Nat) (x : Word) : (h.setA i x).wcb = h.wcb := by unfold Hart.setA; split <;> rfl
@[simp] theorem Hart.setA_mbuf (h : Hart) (i : Nat) (x : Word) : (h.setA i x).mbuf = h.mbuf := by unfold Hart.setA; split <;> rfl
@[simp] theorem Hart.setA_epoch (h : Hart) (i : Nat) (x : Word) : (h.setA i x).epoch = h.epoch := by unfold Hart.setA; split <;> rfl
@[simp] theorem Hart.setA_pbars (h : Hart) (i : Nat) (x : Word) : (h.setA i x).pbars = h.pbars := by unfold Hart.setA; split <;> rfl
@[simp] theorem Hart.setA_copyFails (h : Hart) (i : Nat) (x : Word) : (h.setA i x).copyFails = h.copyFails := by unfold Hart.setA; split <;> rfl
@[simp] theorem Hart.setA_laneErr (h : Hart) (i : Nat) (x : Word) : (h.setA i x).laneErr = h.laneErr := by unfold Hart.setA; split <;> rfl
@[simp] theorem Hart.setA_cut (h : Hart) (i : Nat) (x : Word) : (h.setA i x).cut = h.cut := by unfold Hart.setA; split <;> rfl
@[simp] theorem Hart.setA_elemIter (h : Hart) (i : Nat) (x : Word) : (h.setA i x).elemIter = h.elemIter := by unfold Hart.setA; split <;> rfl
@[simp] theorem Hart.setA_memErr (h : Hart) (i : Nat) (x : Word) : (h.setA i x).memErr = h.memErr := by unfold Hart.setA; split <;> rfl
@[simp] theorem Hart.setA_trapIter (h : Hart) (i : Nat) (x : Word) : (h.setA i x).trapIter = h.trapIter := by unfold Hart.setA; split <;> rfl
@[simp] theorem Hart.setA_trapErr (h : Hart) (i : Nat) (x : Word) : (h.setA i x).trapErr = h.trapErr := by unfold Hart.setA; split <;> rfl
@[simp] theorem Hart.setA_routine (h : Hart) (i : Nat) (x : Word) : (h.setA i x).routine = h.routine := by unfold Hart.setA; split <;> rfl
@[simp] theorem Hart.setA_stackLo (h : Hart) (i : Nat) (x : Word) : (h.setA i x).stackLo = h.stackLo := by unfold Hart.setA; split <;> rfl
@[simp] theorem Hart.setA_stackLen (h : Hart) (i : Nat) (x : Word) : (h.setA i x).stackLen = h.stackLen := by unfold Hart.setA; split <;> rfl

/-! ### `Hart.setM` -/

@[simp] theorem Hart.setM_status (h : Hart) (i : Nat) (x : Mask) : (h.setM i x).status = h.status := by unfold Hart.setM; split <;> rfl
@[simp] theorem Hart.setM_wait (h : Hart) (i : Nat) (x : Mask) : (h.setM i x).wait = h.wait := by unfold Hart.setM; split <;> rfl
@[simp] theorem Hart.setM_released (h : Hart) (i : Nat) (x : Mask) : (h.setM i x).released = h.released := by unfold Hart.setM; split <;> rfl
@[simp] theorem Hart.setM_finishing (h : Hart) (i : Nat) (x : Mask) : (h.setM i x).finishing = h.finishing := by unfold Hart.setM; split <;> rfl
@[simp] theorem Hart.setM_team (h : Hart) (i : Nat) (x : Mask) : (h.setM i x).team = h.team := by unfold Hart.setM; split <;> rfl
@[simp] theorem Hart.setM_rank (h : Hart) (i : Nat) (x : Mask) : (h.setM i x).rank = h.rank := by unfold Hart.setM; split <;> rfl
@[simp] theorem Hart.setM_size (h : Hart) (i : Nat) (x : Mask) : (h.setM i x).size = h.size := by unfold Hart.setM; split <;> rfl
@[simp] theorem Hart.setM_teamIx (h : Hart) (i : Nat) (x : Mask) : (h.setM i x).teamIx = h.teamIx := by unfold Hart.setM; split <;> rfl
@[simp] theorem Hart.setM_lcore (h : Hart) (i : Nat) (x : Mask) : (h.setM i x).lcore = h.lcore := by unfold Hart.setM; split <;> rfl
@[simp] theorem Hart.setM_pc (h : Hart) (i : Nat) (x : Mask) : (h.setM i x).pc = h.pc := by unfold Hart.setM; split <;> rfl
@[simp] theorem Hart.setM_seg (h : Hart) (i : Nat) (x : Mask) : (h.setM i x).seg = h.seg := by unfold Hart.setM; split <;> rfl
@[simp] theorem Hart.setM_a (h : Hart) (i : Nat) (x : Mask) : (h.setM i x).a = h.a := by unfold Hart.setM; split <;> rfl
@[simp] theorem Hart.setM_v (h : Hart) (i : Nat) (x : Mask) : (h.setM i x).v = h.v := by unfold Hart.setM; split <;> rfl
@[simp] theorem Hart.setM_q (h : Hart) (i : Nat) (x : Mask) : (h.setM i x).q = h.q := by unfold Hart.setM; split <;> rfl
@[simp] theorem Hart.setM_partQ (h : Hart) (i : Nat) (x : Mask) : (h.setM i x).partQ = h.partQ := by unfold Hart.setM; split <;> rfl
@[simp] theorem Hart.setM_vl (h : Hart) (i : Nat) (x : Mask) : (h.setM i x).vl = h.vl := by unfold Hart.setM; split <;> rfl
@[simp] theorem Hart.setM_vstart (h : Hart) (i : Nat) (x : Mask) : (h.setM i x).vstart = h.vstart := by unfold Hart.setM; split <;> rfl
@[simp] theorem Hart.setM_fcsr (h : Hart) (i : Nat) (x : Mask) : (h.setM i x).fcsr = h.fcsr := by unfold Hart.setM; split <;> rfl
@[simp] theorem Hart.setM_supv (h : Hart) (i : Nat) (x : Mask) : (h.setM i x).supv = h.supv := by unfold Hart.setM; split <;> rfl
@[simp] theorem Hart.setM_det (h : Hart) (i : Nat) (x : Mask) : (h.setM i x).det = h.det := by unfold Hart.setM; split <;> rfl
@[simp] theorem Hart.setM_cause (h : Hart) (i : Nat) (x : Mask) : (h.setM i x).cause = h.cause := by unfold Hart.setM; split <;> rfl
@[simp] theorem Hart.setM_tval (h : Hart) (i : Nat) (x : Mask) : (h.setM i x).tval = h.tval := by unfold Hart.setM; split <;> rfl
@[simp] theorem Hart.setM_epc (h : Hart) (i : Nat) (x : Mask) : (h.setM i x).epc = h.epc := by unfold Hart.setM; split <;> rfl
@[simp] theorem Hart.setM_evstart (h : Hart) (i : Nat) (x : Mask) : (h.setM i x).evstart = h.evstart := by unfold Hart.setM; split <;> rfl
@[simp] theorem Hart.setM_ftab (h : Hart) (i : Nat) (x : Mask) : (h.setM i x).ftab = h.ftab := by unfold Hart.setM; split <;> rfl
@[simp] theorem Hart.setM_slots (h : Hart) (i : Nat) (x : Mask) : (h.setM i x).slots = h.slots := by unfold Hart.setM; split <;> rfl
@[simp] theorem Hart.setM_lc (h : Hart) (i : Nat) (x : Mask) : (h.setM i x).lc = h.lc := by unfold Hart.setM; split <;> rfl
@[simp] theorem Hart.setM_ec (h : Hart) (i : Nat) (x : Mask) : (h.setM i x).ec = h.ec := by unfold Hart.setM; split <;> rfl
@[simp] theorem Hart.setM_rrb (h : Hart) (i : Nat) (x : Mask) : (h.setM i x).rrb = h.rrb := by unfold Hart.setM; split <;> rfl
@[simp] theorem Hart.setM_kid (h : Hart) (i : Nat) (x : Mask) : (h.setM i x).kid = h.kid := by unfold Hart.setM; split <;> rfl
@[simp] theorem Hart.setM_clkw (h : Hart) (i : Nat) (x : Mask) : (h.setM i x).clkw = h.clkw := by unfold Hart.setM; split <;> rfl
@[simp] theorem Hart.setM_pcount (h : Hart) (i : Nat) (x : Mask) : (h.setM i x).pcount = h.pcount := by unfold Hart.setM; split <;> rfl
@[simp] theorem Hart.setM_mshape (h : Hart) (i : Nat) (x : Mask) : (h.setM i x).mshape = h.mshape := by unfold Hart.setM; split <;> rfl
@[simp] theorem Hart.setM_sva (h : Hart) (i : Nat) (x : Mask) : (h.setM i x).sva = h.sva := by unfold Hart.setM; split <;> rfl
@[simp] theorem Hart.setM_lastStamp (h : Hart) (i : Nat) (x : Mask) : (h.setM i x).lastStamp = h.lastStamp := by unfold Hart.setM; split <;> rfl
@[simp] theorem Hart.setM_fcount (h : Hart) (i : Nat) (x : Mask) : (h.setM i x).fcount = h.fcount := by unfold Hart.setM; split <;> rfl
@[simp] theorem Hart.setM_tilePos (h : Hart) (i : Nat) (x : Mask) : (h.setM i x).tilePos = h.tilePos := by unfold Hart.setM; split <;> rfl
@[simp] theorem Hart.setM_desc (h : Hart) (i : Nat) (x : Mask) : (h.setM i x).desc = h.desc := by unfold Hart.setM; split <;> rfl
@[simp] theorem Hart.setM_epq (h : Hart) (i : Nat) (x : Mask) : (h.setM i x).epq = h.epq := by unfold Hart.setM; split <;> rfl
@[simp] theorem Hart.setM_meq (h : Hart) (i : Nat) (x : Mask) : (h.setM i x).meq = h.meq := by unfold Hart.setM; split <;> rfl
@[simp] theorem Hart.setM_sbuf (h : Hart) (i : Nat) (x : Mask) : (h.setM i x).sbuf = h.sbuf := by unfold Hart.setM; split <;> rfl
@[simp] theorem Hart.setM_wcb (h : Hart) (i : Nat) (x : Mask) : (h.setM i x).wcb = h.wcb := by unfold Hart.setM; split <;> rfl
@[simp] theorem Hart.setM_mbuf (h : Hart) (i : Nat) (x : Mask) : (h.setM i x).mbuf = h.mbuf := by unfold Hart.setM; split <;> rfl
@[simp] theorem Hart.setM_early (h : Hart) (i : Nat) (x : Mask) : (h.setM i x).early = h.early := by unfold Hart.setM; split <;> rfl
@[simp] theorem Hart.setM_epoch (h : Hart) (i : Nat) (x : Mask) : (h.setM i x).epoch = h.epoch := by unfold Hart.setM; split <;> rfl
@[simp] theorem Hart.setM_pbars (h : Hart) (i : Nat) (x : Mask) : (h.setM i x).pbars = h.pbars := by unfold Hart.setM; split <;> rfl
@[simp] theorem Hart.setM_copyFails (h : Hart) (i : Nat) (x : Mask) : (h.setM i x).copyFails = h.copyFails := by unfold Hart.setM; split <;> rfl
@[simp] theorem Hart.setM_laneErr (h : Hart) (i : Nat) (x : Mask) : (h.setM i x).laneErr = h.laneErr := by unfold Hart.setM; split <;> rfl
@[simp] theorem Hart.setM_cut (h : Hart) (i : Nat) (x : Mask) : (h.setM i x).cut = h.cut := by unfold Hart.setM; split <;> rfl
@[simp] theorem Hart.setM_elemIter (h : Hart) (i : Nat) (x : Mask) : (h.setM i x).elemIter = h.elemIter := by unfold Hart.setM; split <;> rfl
@[simp] theorem Hart.setM_memErr (h : Hart) (i : Nat) (x : Mask) : (h.setM i x).memErr = h.memErr := by unfold Hart.setM; split <;> rfl
@[simp] theorem Hart.setM_trapIter (h : Hart) (i : Nat) (x : Mask) : (h.setM i x).trapIter = h.trapIter := by unfold Hart.setM; split <;> rfl
@[simp] theorem Hart.setM_trapErr (h : Hart) (i : Nat) (x : Mask) : (h.setM i x).trapErr = h.trapErr := by unfold Hart.setM; split <;> rfl
@[simp] theorem Hart.setM_routine (h : Hart) (i : Nat) (x : Mask) : (h.setM i x).routine = h.routine := by unfold Hart.setM; split <;> rfl
@[simp] theorem Hart.setM_stackLo (h : Hart) (i : Nat) (x : Mask) : (h.setM i x).stackLo = h.stackLo := by unfold Hart.setM; split <;> rfl
@[simp] theorem Hart.setM_stackLen (h : Hart) (i : Nat) (x : Mask) : (h.setM i x).stackLen = h.stackLen := by unfold Hart.setM; split <;> rfl

/-! ### A unit read after a unit was written -/

@[simp] theorem State.hart_setHart_same (s : State) (n : Nat) (h : Hart) : (s.setHart n h).hart n = h :=
  Tbl.get_set_same _ _ _ _
theorem State.hart_setHart_ne (s : State) {n m : Nat} (h : Hart) (e : m ≠ n) : (s.setHart n h).hart m = s.hart m :=
  Tbl.get_set_ne _ _ _ e
@[simp] theorem State.core_setCore_same (s : State) (n : Nat) (c : Core) : (s.setCore n c).core n = c :=
  Tbl.get_set_same _ _ _ _
theorem State.core_setCore_ne (s : State) {n m : Nat} (c : Core) (e : m ≠ n) : (s.setCore n c).core m = s.core m :=
  Tbl.get_set_ne _ _ _ e
@[simp] theorem State.die_setDie_same (s : State) (n : Nat) (d : Die) : (s.setDie n d).die n = d :=
  Tbl.get_set_same _ _ _ _
theorem State.die_setDie_ne (s : State) {n m : Nat} (d : Die) (e : m ≠ n) : (s.setDie n d).die m = s.die m :=
  Tbl.get_set_ne _ _ _ e
@[simp] theorem State.team_setTeam_same (s : State) (n : Nat) (t : Team) : (s.setTeam n t).team n = some t := by
  simp [State.team, State.setTeam]
@[simp] theorem State.launch_setLaunch_same (s : State) (n : Nat) (l : Launch) : (s.setLaunch n l).launch n = some l := by
  simp [State.launch, State.setLaunch]
@[simp] theorem State.part_setPart_same (s : State) (p : Nat) (q : Part) : (s.setPart p q).part p = q :=
  Tbl.get_set_same _ _ _ _
@[simp] theorem State.port_setPort_same (s : State) (p : Nat) (q : Port) : (s.setPort p q).port p = q :=
  Tbl.get_set_same _ _ _ _
@[simp] theorem State.core_setHart (s : State) (n m : Nat) (h : Hart) : (s.setHart n h).core m = s.core m := rfl
@[simp] theorem State.die_setHart (s : State) (n m : Nat) (h : Hart) : (s.setHart n h).die m = s.die m := rfl
@[simp] theorem State.team_setHart (s : State) (n m : Nat) (h : Hart) : (s.setHart n h).team m = s.team m := rfl
@[simp] theorem State.launch_setHart (s : State) (n m : Nat) (h : Hart) : (s.setHart n h).launch m = s.launch m := rfl
@[simp] theorem State.part_setHart (s : State) (n m : Nat) (h : Hart) : (s.setHart n h).part m = s.part m := rfl
@[simp] theorem State.hart_setCore (s : State) (n m : Nat) (c : Core) : (s.setCore n c).hart m = s.hart m := rfl
@[simp] theorem State.die_setCore (s : State) (n m : Nat) (c : Core) : (s.setCore n c).die m = s.die m := rfl
@[simp] theorem State.hart_setDie (s : State) (n m : Nat) (d : Die) : (s.setDie n d).hart m = s.hart m := rfl
@[simp] theorem State.core_setDie (s : State) (n m : Nat) (d : Die) : (s.setDie n d).core m = s.core m := rfl

/-- Two updates of one hart are the second. -/
@[simp] theorem State.setHart_setHart (s : State) (n : Nat) (h k : Hart) : (s.setHart n h).setHart n k = s.setHart n k := by
  simp only [State.setHart, Tbl.set_set_same]

/-! ### Registers of a hart -/

@[simp] theorem Hart.aReg_zero (h : Hart) : h.aReg 0 = 0 := rfl
theorem Hart.aReg_setA_same (h : Hart) {i : Nat} (v : Word) (e : i ≠ 0) : (h.setA i v).aReg i = v := by
  simp [Hart.setA, Hart.aReg, e, Tbl.get_set_same]
theorem Hart.aReg_setA_ne (h : Hart) {i j : Nat} (v : Word) (e : j ≠ i) : (h.setA i v).aReg j = h.aReg j := by
  unfold Hart.setA Hart.aReg
  by_cases h₁ : i = 0
  · simp [h₁]
  · simp [h₁, Tbl.get_set_ne _ _ v e]
@[simp] theorem Hart.setA_zero (h : Hart) (v : Word) : h.setA 0 v = h := rfl
@[simp] theorem Hart.mReg_zero (h : Hart) : h.mReg 0 = BitVec.allOnes 128 := rfl
theorem Hart.mReg_setM_same (h : Hart) {i : Nat} (v : Mask) (e : i ≠ 0) : (h.setM i v).mReg i = v := by
  simp [Hart.setM, Hart.mReg, e, Tbl.get_set_same]
theorem Hart.mReg_setM_ne (h : Hart) {i j : Nat} (v : Mask) (e : j ≠ i) : (h.setM i v).mReg j = h.mReg j := by
  unfold Hart.setM Hart.mReg
  by_cases h₁ : i = 0
  · simp [h₁]
  · simp [h₁, Tbl.get_set_ne _ _ v e]
@[simp] theorem Hart.vreg_setV_same (h : Hart) (n : Nat) (r : VReg) : (h.setV n r).vreg n = r := Tbl.get_set_same _ _ _ _
theorem Hart.vreg_setV_ne (h : Hart) {n m : Nat} (r : VReg) (e : m ≠ n) : (h.setV n r).vreg m = h.vreg m :=
  Tbl.get_set_ne _ _ _ e
@[simp] theorem Hart.vreg_addFlags (h : Hart) (f : Flags) (n : Nat) : (h.addFlags f).vreg n = h.vreg n := rfl
@[simp] theorem Hart.aReg_addFlags (h : Hart) (f : Flags) (n : Nat) : (h.addFlags f).aReg n = h.aReg n := rfl
@[simp] theorem Hart.mReg_addFlags (h : Hart) (f : Flags) (n : Nat) : (h.addFlags f).mReg n = h.mReg n := rfl

end Sys2Proof.Machine
end

