-- ==== Sys2Proof/Laws/Memory.lean ====
section
/-! SUPPORT. Memory: a byte reads as it was last written, and every operation on memory keeps its canonical form. -/

namespace Sys2Proof.Machine

/-! ### Reading after writing -/

@[simp] theorem View.set_base (v : View) (a : Nat) (b : PByte) : (v.set a b).base = v.base := rfl

@[simp] theorem View.baseAt_set (v : View) (a : Nat) (b : PByte) (p : Nat) : (v.set a b).baseAt p = v.baseAt p := rfl

@[simp] theorem View.get_set_same (v : View) (a : Nat) (b : PByte) : (v.set a b).get a = b := by
  simp [View.get, View.set, BitVec.xor_assoc, View.baseAt]

theorem View.get_set_ne (v : View) {a p : Nat} (b : PByte) (h : p ≠ a) : (v.set a b).get p = v.get p := by
  simp [View.get, View.set, View.baseAt, Tbl.get_set_ne _ _ _ h]

@[simp] theorem View.get_mark (v : View) (a p : Nat) (k : Option DetKey) : (v.mark a k).get p = v.get p := rfl

theorem View.get_poke_outside (v : View) (a p : Nat) (bs : List PByte) (h : ¬(a ≤ p ∧ p < a + bs.length)) :
    (v.poke a bs).get p = v.get p := by
  induction bs generalizing v a with
  | nil => rfl
  | cons b bs ih =>
    simp only [View.poke, List.length_cons] at *
    rw [ih _ _ (by omega), View.get_set_ne _ _ (by omega)]

theorem View.get_poke_inside (v : View) (a i : Nat) (bs : List PByte) (h : i < bs.length) :
    (v.poke a bs).get (a + i) = bs[i] := by
  induction bs generalizing v a i with
  | nil => simp at h
  | cons b bs ih =>
    simp only [View.poke]
    cases i with
    | zero => rw [View.get_poke_outside _ _ _ _ (by omega)]; simp
    | succ i =>
      have := ih (v.set a b) (a + 1) i (by simpa using h)
      simpa [Nat.add_assoc, Nat.add_comm 1 i] using this

theorem View.peek_poke_same (v : View) (a : Nat) (bs : List PByte) : (v.poke a bs).peek a bs.length = bs := by
  apply List.ext_getElem
  · simp [View.peek]
  · intro i h _
    simp only [View.peek, List.getElem_map, List.getElem_range]
    exact View.get_poke_inside _ _ _ _ (by simpa [View.peek] using h)

theorem View.peek_poke_apart (v : View) (a p n : Nat) (bs : List PByte) (h : p + n ≤ a ∨ a + bs.length ≤ p) :
    (v.poke a bs).peek p n = v.peek p n := by
  simp only [View.peek]
  apply List.map_congr_left
  intro i hi
  rw [List.mem_range] at hi
  exact View.get_poke_outside _ _ _ _ (by omega)

/-! ### Canonical form of a view -/

theorem View.wf_set {v : View} (h : v.wf = true) (a : Nat) (b : PByte) : (v.set a b).wf = true := by
  simp only [View.wf, Bool.and_eq_true] at *
  exact ⟨Tbl.wf_set _ _ _ _ h.1, Tbl.wf_set _ _ _ _ h.2⟩

theorem View.wf_poke {v : View} (h : v.wf = true) (a : Nat) (bs : List PByte) : (v.poke a bs).wf = true := by
  induction bs generalizing v a with
  | nil => exact h
  | cons b bs ih => exact ih (View.wf_set h _ _) _

theorem View.wf_mark {v : View} (h : v.wf = true) (a : Nat) (k : Option DetKey) : (v.mark a k).wf = true := h

theorem View.wf_pokeKeyed {v : View} (h : v.wf = true) (k : Option DetKey) (a : Nat) (bs : List PByte) :
    (v.pokeKeyed k a bs).wf = true := by
  induction bs generalizing v a with
  | nil => exact h
  | cons b bs ih => exact ih (View.wf_mark (View.wf_set h a b) a k) _

theorem View.wf_poisonRange {v : View} (h : v.wf = true) (a n : Nat) : (v.poisonRange a n).wf = true := by
  induction n generalizing v a with
  | zero => exact h
  | succ n ih => exact ih (View.wf_set h _ _) _

/-- The bytes that a predicate on addresses keeps. -/
theorem View.wf_filter {v : View} (h : v.wf = true) (p : Nat × Byte → Bool) (q : Nat × Bool → Bool) (base : Tbl Nat)
    (keys : Tbl (Option DetKey)) : (⟨v.bytes.filter p, v.poison.filter q, base, keys⟩ : View).wf = true := by
  simp only [View.wf, Bool.and_eq_true] at *
  exact ⟨Tbl.wf_filter _ _ _ h.1, Tbl.wf_filter _ _ _ h.2⟩

theorem Tbl.wf_foldl_set {α β : Type} [DecidableEq α] (d : α) (l : List β) (k : β → Nat) (x : β → α) (t : Tbl α)
    (h : Tbl.wf d t = true) : Tbl.wf d (l.foldl (fun t e => Tbl.set d t (k e) (x e)) t) = true :=
  List.foldlRecOn (motive := fun t => Tbl.wf d t = true) l _ h fun t h _ _ => Tbl.wf_set d t _ _ h

/-! ### Canonical form of memory -/

theorem Tbl.all_set {α : Type} [DecidableEq α] (d : α) (p : Nat × α → Bool) (t : Tbl α) (k : Nat) (v : α) (h : t.all p = true)
    (hv : p (k, v) = true) : (Tbl.set d t k v).all p = true := by
  have he : (Tbl.erase t k).all p = true := by
    rw [List.all_eq_true] at *
    exact fun e he => h e ((Tbl.mem_erase t k e).1 he).1
  unfold Tbl.set
  split
  · exact he
  · clear h
    revert he
    generalize Tbl.erase t k = u
    intro he
    induction u with
    | nil => simp [Tbl.insert, hv]
    | cons e u ih =>
      obtain ⟨k', v'⟩ := e
      simp only [List.all_cons, Bool.and_eq_true] at he
      simp only [Tbl.insert]
      split
      · simp [hv, he.1, he.2]
      · simp [he.1, ih he.2]

theorem Tbl.get_of_all {α : Type} (d : α) (p : α → Bool) (t : Tbl α) (k : Nat) (h : t.all (fun e => p e.2) = true)
    (hd : p d = true) : p (Tbl.get d t k) = true := by
  induction t with
  | nil => exact hd
  | cons e t ih =>
    obtain ⟨k', v⟩ := e
    simp only [List.all_cons, Bool.and_eq_true] at h
    simp only [Tbl.get]
    split
    · exact h.1
    · exact ih h.2

/-- The parts of memory. -/
theorem Memory.wf_iff (s : State) : Memory.wf s = true ↔
    s.dies.all (fun d => d.2.view.wf) = true ∧ s.peers.wf = true ∧ s.casks.wf = true ∧ s.media.wf = true := by
  simp [Memory.wf, Bool.and_assoc]

/-- What leaves every view alone keeps the form. -/
theorem Memory.wf_congr {s t : State} (hd : t.dies = s.dies) (hp : t.peers = s.peers) (hc : t.casks = s.casks)
    (hm : t.media = s.media) (h : Memory.wf s = true) : Memory.wf t = true := by
  simpa [Memory.wf, hd, hp, hc, hm] using h

theorem Memory.wf_reset : Memory.wf State.reset = true := by decide

section keep
variable {s : State} (h : Memory.wf s = true)
include h

theorem keep_die (d : Nat) : (s.die d).view.wf = true :=
  Tbl.get_of_all ({} : Die) (fun x => x.view.wf) s.dies d ((Memory.wf_iff s).1 h).1 (by decide)

theorem keep_peers : s.peers.wf = true := ((Memory.wf_iff s).1 h).2.1
theorem keep_casks : s.casks.wf = true := ((Memory.wf_iff s).1 h).2.2.1
theorem keep_media : s.media.wf = true := ((Memory.wf_iff s).1 h).2.2.2

theorem keep_viewOf (d : Nat) : (s.viewOf d).wf = true := by
  unfold State.viewOf
  split
  · exact keep_peers h
  · exact keep_die h d

theorem keep_setDie (d : Nat) {x : Die} (hx : x.view.wf = true) : Memory.wf (s.setDie d x) = true := by
  rw [Memory.wf_iff] at *
  exact ⟨Tbl.all_set _ _ _ _ _ h.1 hx, h.2⟩

theorem keep_setPeers {v : View} (hv : v.wf = true) : Memory.wf { s with peers := v } = true := by
  rw [Memory.wf_iff] at *
  exact ⟨h.1, hv, h.2.2⟩

theorem keep_setCasks {v : View} (hv : v.wf = true) : Memory.wf { s with casks := v } = true := by
  rw [Memory.wf_iff] at *
  exact ⟨h.1, h.2.1, hv, h.2.2.2⟩

theorem keep_setMedia {v : View} (hv : v.wf = true) : Memory.wf { s with media := v } = true := by
  rw [Memory.wf_iff] at *
  exact ⟨h.1, h.2.1, h.2.2.1, hv⟩

theorem keep_setView (d : Nat) {v : View} (hv : v.wf = true) : Memory.wf (s.setView d v) = true := by
  unfold State.setView
  split
  · exact keep_setPeers h hv
  · exact keep_setDie h d hv

theorem keep_setHart (n : Nat) (x : Hart) : Memory.wf (s.setHart n x) = true := h
theorem keep_setCore (n : Nat) (x : Core) : Memory.wf (s.setCore n x) = true := h
theorem keep_setTeam (n : Nat) (x : Team) : Memory.wf (s.setTeam n x) = true := h
theorem keep_setLaunch (n : Nat) (x : Launch) : Memory.wf (s.setLaunch n x) = true := h
theorem keep_setPart (n : Nat) (x : Part) : Memory.wf (s.setPart n x) = true := h
theorem keep_setPort (n : Nat) (x : Port) : Memory.wf (s.setPort n x) = true := h
theorem keep_setWait (n : Nat) (w : Wait) : Memory.wf (s.setWait n w) = true := h
theorem keep_bufferStore (n pa : Nat) (bs : List PByte) : Memory.wf (s.bufferStore n pa bs) = true := h
theorem keep_record (d : Nat) (f : RecordFields) : Memory.wf (s.record d f) = true := h
theorem keep_raiseEvent (d c sl p : Nat) : Memory.wf (s.raiseEvent d c sl p) = true := h
theorem keep_raiseCheck (d sl u : Nat) : Memory.wf (s.raiseCheck d sl u) = true := h

end keep

/-- A fold of steps that each keep the form keeps it. -/
theorem keep_foldl {β : Type} (l : List β) (f : State → β → State) {s : State} (h : Memory.wf s = true)
    (hf : ∀ s x, Memory.wf s = true → Memory.wf (f s x) = true) : Memory.wf (l.foldl f s) = true :=
  List.foldlRecOn (motive := fun s => Memory.wf s = true) l f h fun s hs x _ => hf s x hs

/-- As `keep_foldl`, where a result is carried beside the state. -/
theorem keep_foldl_snd {α β : Type} (l : List β) (f : α × State → β → α × State) {s : α × State} (h : Memory.wf s.2 = true)
    (hf : ∀ s x, Memory.wf s.2 = true → Memory.wf (f s x).2 = true) : Memory.wf (l.foldl f s).2 = true :=
  List.foldlRecOn (motive := fun s => Memory.wf s.2 = true) l f h fun s hs x _ => hf s x hs

section keep
variable {s : State} (h : Memory.wf s = true)
include h

theorem keep_settle (d pa n : Nat) : Memory.wf (s.settle d pa n) = true := by
  unfold State.settle
  split
  · exact h
  · exact keep_setDie h d (keep_die h d)

theorem keep_pokeWhere (d : Nat) (ok : Nat → Bool) (k : Option DetKey) (n : Option Nat) (pa : Nat) (bs : List PByte) :
    Memory.wf (s.pokeWhere d ok k n pa bs) = true := by
  induction bs generalizing s pa with
  | nil => exact h
  | cons b bs ih =>
    simp only [State.pokeWhere]
    apply ih
    split
    · have h1 : Memory.wf (s.setView d (((s.viewOf d).set pa b).mark pa k)) = true :=
        keep_setView h d (View.wf_set (keep_viewOf h d) _ _)
      cases n with
      | none => exact h1
      | some q => exact keep_settle h1 _ _ _
    · exact h

theorem keep_takeBack (e home pa : Nat) : Memory.wf (s.takeBack e home pa) = true :=
  keep_settle (keep_setView h e (View.wf_mark (View.wf_set (keep_viewOf h e) _ _) _ _)) _ _ _

theorem keep_forgetErrors (gone : Nat → Nat → Bool) : Memory.wf (s.forgetErrors gone) = true := h

theorem keep_keepKeys (k : DetKey) (pa n : Nat) : Memory.wf (s.keepKeys k pa n) = true :=
  keep_foldl _ _ h fun _ _ h => h

theorem keep_mapViews {f : View → View} (hf : ∀ v, v.wf = true → (f v).wf = true) : Memory.wf (s.mapViews f) = true :=
  keep_foldl _ _ h fun _ d h => keep_setView h d (hf _ (keep_viewOf h d))

theorem keep_caskWrite (key : Option DetKey) (compared : Bool) (pa : Nat) (bs : List PByte) :
    Memory.wf (s.caskWrite key compared pa bs) = true := by
  induction bs generalizing s pa with
  | nil => exact h
  | cons b bs ih =>
    refine ih ?_ _
    split
    · exact h
    · have h1 := keep_setCasks h (View.wf_mark (View.wf_set (keep_casks h) pa b) (s.keyAddr pa) key)
      split
      · split
        · exact keep_keepKeys h1 _ _ _
        · exact h1
      · exact h1

theorem keep_pokeCasks (a : Nat) (bs : List PByte) : Memory.wf (s.pokeCasks a bs) = true := keep_caskWrite h _ _ _ _

theorem keep_pokeMedia (a : Nat) (bs : List PByte) : Memory.wf (s.pokeMedia a bs) = true :=
  keep_setMedia h (View.wf_poke (keep_media h) _ _)

theorem keep_poisonUnit (u n : Nat) : Memory.wf (s.poisonUnit u n) = true := by
  unfold State.poisonUnit
  refine keep_mapViews ?_ fun _ h => View.wf_poisonRange h _ _
  rw [Memory.wf_iff] at *
  refine ⟨h.1, h.2.1, h.2.2.1, ?_⟩
  show (if inCellar u = true then s.media.poisonRange u n else s.media).wf = true
  split
  · exact View.wf_poisonRange h.2.2.2 _ _
  · exact h.2.2.2

theorem keep_findError (d pa : Nat) (r : Reader) : Memory.wf (s.findError d pa r) = true := by
  unfold State.findError
  split
  · exact keep_record (keep_poisonUnit h _ _) _ _
  · exact h

theorem keep_findErrors (d pa len : Nat) (r : Reader) : Memory.wf (s.findErrors d pa len r) = true :=
  keep_foldl _ _ h fun _ _ h => keep_findError h _ _ _

theorem keep_mergeErrors (d pa n : Nat) (r : Reader) : Memory.wf (s.mergeErrors d pa n r) = true :=
  keep_foldl _ _ h fun _ _ h => keep_findError h _ _ _

theorem keep_applyAtHome (w : NetWrite) : Memory.wf (s.applyAtHome w).1 = true := by
  unfold State.applyAtHome
  refine keep_foldl _ _ (keep_pokeWhere ?_ _ _ _ _ _ _) fun s e h =>
    keep_foldl _ _ (keep_pokeWhere h _ _ _ _ _ _) fun _ _ h => keep_takeBack h _ _ _
  split
  · split
    · exact keep_foldl _ _ (by exact h) fun _ _ h => keep_keepKeys h _ _ _
    · exact h
  · exact h

theorem keep_applyAtDie (w : NetWrite) (e : Nat) : Memory.wf (s.applyAtDie w e).1 = true := keep_pokeWhere h _ _ _ _ _ _

theorem keep_deliver (i e : Nat) : Memory.wf (s.deliver i e) = true := by
  unfold State.deliver
  split
  · exact h
  · rename_i w _
    split
    · exact h
    · have h1 : Memory.wf (if e = homeOf w.pa then s.applyAtHome w else s.applyAtDie w e).1 = true := by
        split
        · exact keep_applyAtHome h w
        · exact keep_applyAtDie h w e
      generalize (if e = homeOf w.pa then s.applyAtHome w else s.applyAtDie w e) = x at h1
      obtain ⟨u, w'⟩ := x
      show Memory.wf { (if e = fabricAgent then u else _) with net := _ } = true
      split
      · exact h1
      · exact keep_setDie h1 e (keep_die h1 e)

theorem keep_catchUpFrom (e k i : Nat) : Memory.wf (s.catchUpFrom e k i) = true := by
  induction k generalizing s i with
  | zero => exact h
  | succ k ih => exact ih (keep_deliver h _ _) _

theorem keep_catchUp (e : Nat) : Memory.wf (s.catchUp e) = true := keep_catchUpFrom h _ _ _

theorem keep_cellarSend (n : Option Nat) (e d k pa : Nat) (bs : List PByte) :
    Memory.wf (s.cellarSend n e d k pa bs) = true := by
  unfold State.cellarSend
  split <;> exact h

theorem keep_coverUnits (pa n : Nat) : Memory.wf (s.coverUnits pa n) = true := h

theorem keep_spoilCask (a n : Nat) : Memory.wf (s.spoilCask a n) = true := by
  induction n generalizing s a with
  | zero => exact h
  | succ n ih => exact ih (keep_setCasks (s := { s with fresh := s.fresh + 1 }) h (View.wf_set (keep_casks h) _ _)) _

theorem keep_spoilBarriers (pa n : Nat) : Memory.wf (s.spoilBarriers pa n) = true := by
  refine keep_foldl _ _ h fun s e h => ?_
  split
  · split
    · split
      · exact keep_spoilCask h _ _
      · exact h
    · exact h
  · exact h

theorem keep_setSeen (d j n : Nat) :
    Memory.wf (s.setDie d { s.die d with seen := Tbl.set 0 (s.die d).seen j n }) = true :=
  keep_setDie h d (by exact keep_die h d)

theorem keep_originate (d : Nat) (n : Option Nat) (e : Nat) (key : Option DetKey) (c : Bool) (pa : Nat) (bs : List PByte) :
    Memory.wf (s.originate d n e key c pa bs) = true := by
  unfold State.originate
  split
  · exact keep_spoilBarriers (keep_caskWrite h _ _ _ _) _ _
  · have h1 := keep_setSeen (keep_cellarSend (keep_coverUnits h pa bs.length) n e d (s.seenBy d d + 1) pa bs) d d (s.seenBy d d + 1)
    have h2 : ∀ t, Memory.wf t = true → ∀ w, Memory.wf (if homeOf pa = d then t.applyAtHome w else (t, w)).1 = true := by
      intro t ht w
      split
      · exact keep_applyAtHome ht w
      · exact ht
    refine h2 _ ?_ _
    split
    · exact h1
    · exact keep_setView h1 d (View.wf_pokeKeyed (keep_viewOf h1 d) _ _ _)

theorem keep_updateAtHome (d : Nat) (n : Option Nat) (e : Nat) (key : Option DetKey) (pa : Nat) (bs : List PByte) :
    Memory.wf (s.updateAtHome d n e key pa bs) = true := by
  unfold State.updateAtHome
  split
  · exact keep_caskWrite h _ _ _ _
  · exact keep_catchUp (keep_originate (keep_catchUp (keep_catchUp h _) _) _ _ _ _ _ _ _) _

theorem keep_originateAll (d pa : Nat) (bs : List PByte) : Memory.wf (s.originateAll d pa bs) = true :=
  keep_foldl _ _ h fun _ _ h => keep_originate h _ _ _ _ _ _ _

theorem keep_updateAtHomes (pa : Nat) (bs : List PByte) : Memory.wf (s.updateAtHomes pa bs) = true :=
  keep_foldl _ _ h fun _ _ h => keep_updateAtHome h _ _ _ _ _ _

theorem keep_applyStore (n : Nat) (e : BufStore) : Memory.wf (s.applyStore n e) = true := keep_originate h _ _ _ _ _ _ _

theorem keep_flushRange (n pa len : Nat) : Memory.wf (s.flushRange n pa len) = true :=
  keep_foldl _ _ (keep_setHart h _ _) fun _ _ h => keep_applyStore h _ _

theorem keep_performDrained (pa len : Nat) : Memory.wf (s.performDrained pa len) = true :=
  keep_foldl _ _ h fun _ _ h => keep_foldl _ _ (keep_setHart h _ _) fun _ _ h => keep_applyStore h _ _

theorem keep_settleFor (pa len : Nat) : Memory.wf (s.settleFor pa len) = true := by
  unfold State.settleFor
  split
  · exact keep_flushRange h _ _ _
  · exact keep_catchUp (keep_catchUp (keep_flushRange h _ _ _) _) _

theorem keep_putAtHome (pa : Nat) (bs : List Byte) : Memory.wf (s.putAtHome pa bs) = true :=
  keep_updateAtHome h _ _ _ _ _ _

end keep

end Sys2Proof.Machine
end

