-- ==== Sys2Proof/Laws/Run.lean ====
section
/-! SUPPORT. Running the stop monad: what each basic action answers in a state, and what a whole instruction answers once its
actions are known. -/

namespace Sys2Proof.Machine

@[simp] theorem bind_apply {α β : Type} (m : M α) (f : α → M β) (s : State) :
    (m >>= f) s = match m s with
      | .ok a t => f a t
      | .error e t => .error e t := by
  show EStateM.bind m f s = _
  unfold EStateM.bind
  cases m s <;> rfl
@[simp] theorem pure_apply {α : Type} (a : α) (s : State) : (pure a : M α) s = .ok a s := rfl
@[simp] theorem get_apply (s : State) : (get : M State) s = .ok s s := rfl
@[simp] theorem set_apply (t s : State) : (set t : M PUnit) s = .ok ⟨⟩ t := rfl
@[simp] theorem modify_apply (f : State → State) (s : State) : (modify f : M PUnit) s = .ok ⟨⟩ (f s) := rfl
@[simp] theorem throw_apply {α : Type} (e : Stop) (s : State) : (throw e : M α) s = .error e s := rfl
@[simp] theorem raise_apply {α : Type} (c : Cause) (t : Word) (s : State) : (raise c t : M α) s = .error (.trap c t 0) s := rfl
@[simp] theorem illegal_apply {α : Type} (t : Word) (s : State) : (illegal t : M α) s = .error (.trap .illegal t 0) s := rfl
@[simp] theorem raiseIf_apply (b : Bool) (c : Cause) (t : Word) (s : State) :
    raiseIf b c t s = if b then .error (.trap c t 0) s else .ok () s := by
  cases b <;> rfl
@[simp] theorem me_apply (s : State) : me s = .ok s.cur s := rfl
@[simp] theorem myHart_apply (s : State) : myHart s = .ok (s.hart s.cur) s := rfl
@[simp] theorem myCore_apply (s : State) : myCore s = .ok (s.core (coreOf s.cur)) s := rfl
@[simp] theorem modifyHart_apply (f : Hart → Hart) (s : State) :
    modifyHart f s = .ok () (s.setHart s.cur (f (s.hart s.cur))) := rfl
@[simp] theorem modifyCore_apply (f : Core → Core) (s : State) :
    modifyCore f s = .ok () (s.setCore (coreOf s.cur) (f (s.core (coreOf s.cur)))) := rfl
@[simp] theorem rdA_apply (i : BitVec 6) (s : State) : rdA i s = .ok ((s.hart s.cur).aReg i.toNat) s := rfl
@[simp] theorem wrA_apply (i : BitVec 6) (v : Word) (s : State) :
    wrA i v s = .ok () (s.setHart s.cur ((s.hart s.cur).setA i.toNat v)) := rfl
@[simp] theorem freshWord_apply (s : State) :
    freshWord s = .ok (Config.freeWord s.fresh) { s with fresh := s.fresh + 1 } := rfl
@[simp] theorem freshReg_apply (s : State) :
    freshReg s = .ok (Config.freeReg s.fresh) { s with fresh := s.fresh + 1 } := rfl
@[simp] theorem ite_apply_state {α : Type} (c : Prop) [Decidable c] (m n : M α) (s : State) :
    (if c then m else n) s = if c then m s else n s := by split <;> rfl
@[simp] theorem forEach_nil_apply {α : Type} (f : α → M Unit) (s : State) : forEach [] f s = .ok () s := rfl
@[simp] theorem forEach_cons_apply {α : Type} (x : α) (xs : List α) (f : α → M Unit) (s : State) :
    forEach (x :: xs) f s = match f x s with
      | .ok _ t => forEach xs f t
      | .error e t => .error e t := by
  show (f x >>= fun _ => forEach xs f) s = _
  rw [bind_apply]
  cases f x s <;> rfl

@[simp] theorem completeAt_apply (pc' : Word) (s : State) :
    completeAt pc' s = .ok () (s.setHart s.cur ((s.hart s.cur).at pc')) := rfl
@[simp] theorem advance_apply (s : State) :
    advance s = .ok () (s.setHart s.cur ((s.hart s.cur).at ((s.hart s.cur).pc + 8))) := rfl

/-- An instruction whose action answers a state has that next state. -/
theorem runIn_ok {u : Nat} {b : Bool} {m : M Unit} {s t : State} (h : m s = .ok () t) : runIn u b m s = .next t := by
  simp [runIn, h]
/-- An instruction that raises a cause takes it (R354). -/
theorem runIn_trap {u : Nat} {b : Bool} {m : M Unit} {s t : State} {c : Cause} {v : Word} {k : Nat}
    (h : m s = .error (.trap c v k) t) :
    runIn u b m s = .next (t.takeTrap s.cur u (if b then c.code ||| 0x80 else c.code) v
      (if c = .trap then (t.hart s.cur).pc + 8 else (t.hart s.cur).pc) k) := by
  simp [runIn, h]
/-- An instruction that has to wait stays where it is (R41). -/
theorem runIn_cut {u : Nat} {b : Bool} {m : M Unit} {s t : State} {k : Nat} (h : m s = .error (.cut k) t) :
    runIn u b m s = .next (t.setHart s.cur { t.hart s.cur with vstart := BitVec.ofNat 64 k, cut := none }) := by
  simp [runIn, h]

theorem runIn_wait {u : Nat} {b : Bool} {m : M Unit} {s t : State} {w : Wait} (h : m s = .error (.wait w) t) :
    runIn u b m s = .next (t.setWait s.cur w) := by
  simp [runIn, h]
/-- An access-processor instruction whose action answers a state completes there. -/
theorem ap_ok {m : M Unit} {s t : State} (h : m s = .ok () t) :
    ap m s = .next (t.setHart t.cur ((t.hart t.cur).at ((t.hart t.cur).pc + 8))) := by
  simp [ap, runIn, h]

end Sys2Proof.Machine
end

