-- ==== Sys2Proof/Laws/Keep.lean ====
section
/-! SUPPORT. The canonical form of memory under the operations that are built on those of `Laws.Memory`, and a way to say it of
an action: `Keeps m`. -/

namespace Sys2Proof.Machine

/-! ### Actions -/

/-- From a state whose memory has its form, the action leaves memory in it, whether it answers or stops. -/
def Keeps {α : Type} (m : M α) : Prop := ∀ s, Memory.wf s = true → match m s with
  | .ok _ t => Memory.wf t = true
  | .error _ t => Memory.wf t = true

theorem keeps_pure {α : Type} (a : α) : Keeps (pure a : M α) := fun _ h => h
theorem keeps_throw {α : Type} (e : Stop) : Keeps (throw e : M α) := fun _ h => h
theorem keeps_get : Keeps (get : M State) := fun _ h => h
theorem keeps_set {t : State} (h : Memory.wf t = true) : Keeps (set t : M PUnit) := fun _ _ => h
theorem keeps_modify {f : State → State} (hf : ∀ s, Memory.wf s = true → Memory.wf (f s) = true) :
    Keeps (modify f : M PUnit) := fun s h => hf s h

theorem keeps_bind {α β : Type} {m : M α} {f : α → M β} (hm : Keeps m) (hf : ∀ a, Keeps (f a)) : Keeps (m >>= f) := by
  intro s h
  rw [bind_apply]
  have := hm s h
  cases hx : m s with
  | ok a t => rw [hx] at this; exact hf a t this
  | error e t => rw [hx] at this; exact this

/-- After `get` the rest may rest on the form of the state that was read. -/
theorem keeps_get_bind {β : Type} {f : State → M β} (hf : ∀ s, Memory.wf s = true → Keeps (f s)) : Keeps (get >>= f) :=
  fun s h => hf s h s h

theorem keeps_ite {α : Type} {c : Prop} [Decidable c] {m n : M α} (hm : Keeps m) (hn : Keeps n) : Keeps (if c then m else n) := by
  split
  · exact hm
  · exact hn

theorem keeps_forEach {α : Type} (l : List α) (f : α → M Unit) (hf : ∀ a, Keeps (f a)) : Keeps (forEach l f) := by
  induction l with
  | nil => exact keeps_pure ()
  | cons x l ih => exact keeps_bind (hf x) fun _ => ih

theorem keeps_attempt {α : Type} {m : M α} (hm : Keeps m) : Keeps (attempt m) := by
  intro s h
  have := hm s h
  unfold attempt
  cases hx : m s <;> simpa [hx] using this

theorem keeps_raise {α : Type} (c : Cause) (t : Word) : Keeps (raise c t : M α) := keeps_throw _
theorem keeps_illegal {α : Type} (t : Word) : Keeps (illegal t : M α) := keeps_throw _
theorem keeps_raiseIf (b : Bool) (c : Cause) (t : Word) : Keeps (raiseIf b c t) := keeps_ite (keeps_raise _ _) (keeps_pure _)
theorem keeps_me : Keeps me := fun _ h => h
theorem keeps_myHart : Keeps myHart := fun _ h => h
theorem keeps_myCore : Keeps myCore := fun _ h => h
theorem keeps_modifyHart (f : Hart → Hart) : Keeps (modifyHart f) := fun _ h => h
theorem keeps_modifyCore (f : Core → Core) : Keeps (modifyCore f) := fun _ h => h
theorem keeps_rdA (i : BitVec 6) : Keeps (rdA i) := fun _ h => h
theorem keeps_wrA (i : BitVec 6) (v : Word) : Keeps (wrA i v) := fun _ h => h
theorem keeps_freshWord : Keeps freshWord := fun _ h => h
theorem keeps_freshReg : Keeps freshReg := fun _ h => h
theorem keeps_completeAt (pc' : Word) : Keeps (completeAt pc') := fun _ h => h
theorem keeps_advance : Keeps advance := fun _ h => h

/-! ### Translation and accesses -/

theorem keeps_walkFrom (part d va lvl node : Nat) : Keeps (walkFrom part d va lvl node) := by
  induction lvl generalizing node with
  | zero =>
    unfold walkFrom
    repeat' first
      | with_reducible exact keeps_pure _
      | with_reducible exact keeps_throw _
      | with_reducible exact keeps_raise _ _
      | with_reducible refine keeps_get_bind fun _ _ => ?_
      | with_reducible refine keeps_bind ?_ fun _ => ?_
      | with_reducible refine keeps_ite ?_ ?_
  | succ l ih =>
    unfold walkFrom
    repeat' first
      | with_reducible exact ih _
      | with_reducible exact keeps_pure _
      | with_reducible exact keeps_throw _
      | with_reducible exact keeps_raise _ _
      | with_reducible refine keeps_get_bind fun _ _ => ?_
      | with_reducible refine keeps_bind ?_ fun _ => ?_
      | with_reducible refine keeps_ite ?_ ?_
theorem keeps_findLeaf (part d : Nat) (core : Option Nat) (va : Nat) : Keeps (findLeaf part d core va) := by
  unfold findLeaf
  repeat' first
    | with_reducible exact keeps_pure _
    | with_reducible exact keeps_walkFrom _ _ _ _ _
    | with_reducible refine keeps_get_bind fun _ _ => ?_
    | with_reducible refine keeps_bind ?_ fun _ => ?_
    | with_reducible refine keeps_modify fun s h => ?_
    | dsimp only
    | split
    | exact keep_setDie (by assumption) d (by exact keep_die (by assumption) d)
    | assumption

theorem keeps_touchLeaf (d : Nat) (core : Option Nat) (e : TlbEntry) (w : Bool) : Keeps (touchLeaf d core e w) := by
  unfold touchLeaf
  with_reducible refine keeps_ite (keeps_pure _) (keeps_get_bind fun _ _ => ?_)
  dsimp only
  with_reducible refine keeps_ite (keeps_bind (keeps_throw _) fun _ => keeps_modify fun s h => ?_) (keeps_modify fun s h => ?_)
  all_goals
    have h1 := keep_updateAtHome (keep_catchUp (keep_catchUp h (homeOf e.leafPa)) d) d none 0 none e.leafPa
      (cleanBytes (bytesOf 8 (valueOf (((s.catchUp (homeOf e.leafPa)).catchUp d).wordAt d e.leafPa) |||
        (2 ^ 56 + (if w then 2 ^ 57 else 0)))))
    cases core with
    | none => exact keep_setDie h1 d (by exact keep_die h1 d)
    | some c => exact keep_setCore (keep_setDie h1 d (by exact keep_die h1 d)) _ _

theorem keeps_translate (part d : Nat) (core : Option Nat) (r : Rights) (va : Word) (acc : Access) :
    Keeps (translate part d core r va acc) := by
  unfold translate
  repeat' first
    | with_reducible exact keeps_pure _
    | with_reducible exact keeps_throw _
    | with_reducible exact keeps_raise _ _
    | with_reducible exact keeps_raiseIf _ _ _
    | with_reducible exact keeps_findLeaf _ _ _ _
    | with_reducible exact keeps_touchLeaf _ _ _ _
    | with_reducible refine keeps_get_bind fun _ _ => ?_
    | with_reducible refine keeps_bind ?_ fun _ => ?_
    | with_reducible refine keeps_ite ?_ ?_
    | dsimp only
    | split

theorem keeps_translateWith (r : Rights) (va : Word) (acc : Access) : Keeps (translateWith r va acc) :=
  keeps_get_bind fun _ _ => keeps_translate _ _ _ _ _ _

theorem keeps_translateMe (va : Word) (acc : Access) : Keeps (translateMe va acc) :=
  keeps_get_bind fun _ _ => keeps_translateWith _ _ _

theorem keep_windowBytes {s : State} (h : Memory.wf s = true) (pa n : Nat) : Memory.wf (windowBytes pa n s).2 = true := by
  induction n generalizing pa s with
  | zero => exact h
  | succ n ih =>
    unfold windowBytes
    have h1 : Memory.wf (if published pa = true then (s.regByte pa, s)
        else (Config.freeByte s.fresh, { s with fresh := s.fresh + 1 })).2 = true := by split <;> exact h
    exact ih h1 _

theorem keeps_registerAccess (pa len : Nat) : Keeps (registerAccess pa len) := fun _ h => keep_windowBytes h pa len

theorem keeps_holdForCell (pa len : Nat) : Keeps (holdForCell pa len) :=
  keeps_get_bind fun s _ => by split <;> first | exact keeps_pure _ | exact keeps_throw _

theorem keeps_readPhys (pa len : Nat) : Keeps (readPhys pa len) :=
  keeps_ite (keeps_registerAccess _ _) (keeps_bind (keeps_holdForCell _ _) fun _ => keeps_bind (keeps_modifyHart _) fun _ =>
    keeps_bind (keeps_modify fun _ h => keep_findErrors h _ _ _ _) fun _ => keeps_get_bind fun _ _ => keeps_pure _)

theorem keeps_readAhead (base : BitVec 6) (pa len : Nat) : Keeps (readAhead base pa len) := by
  refine keeps_bind keeps_myHart fun x => ?_
  cases x.early.find? _
  · exact keeps_readPhys _ _
  · exact keeps_bind (keeps_holdForCell _ _) fun _ => keeps_bind (keeps_modifyHart _) fun _ => keeps_pure _

theorem keeps_loadWith (r : Rights) (va : Word) (len : Nat) : Keeps (loadWith r va len) :=
  keeps_bind (keeps_translateWith _ _ _) fun _ => keeps_readPhys _ _

theorem keeps_loadBytes (va : Word) (len : Nat) : Keeps (loadBytes va len) := keeps_get_bind fun _ _ => keeps_loadWith _ _ _

theorem keeps_holdForDup (va leaf : Word) : Keeps (holdForDup va leaf) :=
  keeps_get_bind fun _ _ => keeps_ite (keeps_throw _) (keeps_pure _)

theorem keeps_mergeUnit (va : Word) (pa : Nat) (whole : Nat → Nat → Bool) : Keeps (mergeUnit va pa whole) := by
  unfold mergeUnit
  refine keeps_get_bind fun s h => ?_
  split
  · split
    · exact keeps_pure _
    · exact keeps_bind (keeps_set h) fun _ => keeps_bind (keeps_modifyHart _) fun _ => keeps_raise _ _
  · exact keeps_pure _

theorem keeps_checkMerge (va : Word) (pa len : Nat) (whole : Nat → Nat → Bool) : Keeps (checkMerge va pa len whole) :=
  keeps_forEach _ _ fun _ => keeps_mergeUnit _ _ _

theorem keeps_readyToWrite (va : Word) (pa len : Nat) (leaf : Word) (whole : Nat → Nat → Bool) :
    Keeps (readyToWrite va pa len leaf whole) :=
  keeps_ite (keeps_pure _) (keeps_bind (keeps_holdForCell _ _) fun _ => keeps_bind (keeps_holdForDup _ _) fun _ =>
    keeps_checkMerge _ _ _ _)

/-- A register of the published windows that is written leaves memory alone. -/
theorem keep_writeReg {s : State} (h : Memory.wf s = true) (off : Nat) (v : Word) : Memory.wf (s.writeReg off v).2 = true := by
  have hs : ∀ p, Memory.wf (s.writeSupvec p v).2 = true := by
    intro p
    unfold State.writeSupvec
    dsimp only
    repeat' split
    · exact h
    · exact h
    · exact keep_foldl _ _ (by exact h) fun _ _ h => h
  unfold State.writeReg State.writeLogbase State.writeLoglen State.writeTail State.writeEvtail
  dsimp only
  repeat' split
  all_goals first | exact hs _ | exact h

theorem keep_storeReg {s : State} (h : Memory.wf s = true) (off i : Nat) (bs : List PByte) : Memory.wf (s.storeReg off i bs) = true := by
  unfold State.storeReg
  split <;> exact h

theorem keep_storeWindow {s : State} (h : Memory.wf s = true) (pa : Nat) (bs : List PByte) : Memory.wf (s.storeWindow pa bs) = true := by
  refine keep_foldl _ _ h fun s w h => ?_
  split
  · exact keep_storeReg h _ _ _
  · split <;> exact h

theorem keep_issueStore {s : State} (h : Memory.wf s = true) (n pa : Nat) (bs : List PByte) :
    Memory.wf (s.issueStore n pa bs) = true := by
  unfold State.issueStore
  split
  · exact keep_storeWindow h _ _
  · exact keep_bufferStore h _ _ _

theorem keeps_writePhys (va : Word) (pa : Nat) (leaf : Word) (bs : List PByte) (whole : Nat → Nat → Bool) :
    Keeps (writePhys va pa leaf bs whole) :=
  keeps_bind (keeps_readyToWrite _ _ _ _ _) fun _ => keeps_modify fun _ h => keep_issueStore h _ _ _

theorem keeps_storeBytes (va : Word) (bs : List Byte) : Keeps (storeBytes va bs) :=
  keeps_bind (keeps_translateMe _ _) fun _ => keeps_writePhys _ _ _ _ _

theorem keeps_probeAtomic (va : Word) (len : Nat) : Keeps (probeAtomic va len) :=
  keeps_bind (keeps_translateMe _ _) fun _ => keeps_bind (keeps_readyToWrite _ _ _ _ _) fun _ => keeps_get_bind fun _ _ =>
    keeps_bind (keeps_raiseIf _ _ _) fun _ => keeps_pure _

theorem keeps_atomicAt (va : Word) (len : Nat) (op : Nat → Option Nat) : Keeps (atomicAt va len op) := by
  unfold atomicAt
  refine keeps_bind (keeps_probeAtomic _ _) fun x => keeps_bind (keeps_modifyHart _) fun _ =>
    keeps_bind (keeps_modify fun _ h => keep_settleFor h _ _) fun _ => keeps_get_bind fun _ _ => ?_
  dsimp only
  split
  · split
    · exact keeps_bind (keeps_modify fun _ h => keep_storeWindow h _ _) fun _ => keeps_pure _
    · exact keeps_bind (keeps_modify fun _ h => keep_putAtHome h _ _) fun _ => keeps_pure _
  · exact keeps_bind (keeps_pure _) fun _ => keeps_pure _

theorem keeps_acquiredKeys (keys : List DetKey) : Keeps (acquiredKeys keys) := keeps_get_bind fun _ _ => keeps_modifyHart _

theorem keeps_acquired (pa len : Nat) : Keeps (acquired pa len) := keeps_get_bind fun _ _ => keeps_acquiredKeys _

theorem keeps_releaseAt (scope : Nat) : Keeps (releaseAt scope) :=
  keeps_bind (keeps_modifyHart _) fun _ => keeps_bind keeps_myHart fun _ => keeps_get_bind fun _ _ =>
    keeps_ite (keeps_modifyHart _) (keeps_throw _)

theorem keeps_resync : Keeps resync := keeps_bind keeps_myHart fun _ => keeps_ite (keeps_pure _) (keeps_throw _)

theorem keeps_notInSplice : Keeps notInSplice := by
  refine keeps_get_bind fun _ _ => ?_
  split
  · exact keeps_ite (keeps_illegal _) (keeps_pure _)
  · exact keeps_pure _

theorem keeps_supervisorOnly : Keeps supervisorOnly :=
  keeps_bind keeps_myHart fun _ => keeps_ite (keeps_pure _) (keeps_raise _ _)

theorem keeps_requireInSeg (va : Word) : Keeps (requireInSeg va) := keeps_bind keeps_myHart fun _ => keeps_raiseIf _ _ _
theorem keeps_requireLanded (va : Word) : Keeps (requireLanded va) :=
  keeps_bind (keeps_raiseIf _ _ _) fun _ => keeps_bind keeps_myCore fun _ => keeps_raiseIf _ _ _
theorem keeps_jumpTo (va : Word) : Keeps (jumpTo va) := keeps_bind (keeps_completeAt _) fun _ => keeps_modifyHart _

/-! ### Teams that stop, traps and machine checks -/

section keep
variable {s : State} (h : Memory.wf s = true)
include h

theorem keep_applyAll (n : Nat) : Memory.wf (s.applyAll n) = true :=
  keep_foldl _ _ (keep_setHart h _ _) fun _ _ h => keep_applyStore h _ _

theorem keep_freeCores (ti : Nat) (t : Team) : Memory.wf (s.freeCores ti t) = true :=
  keep_foldl _ _ (keep_foldl _ _ h fun _ _ h => h) fun _ _ h => h

theorem keep_countRun (t : Team) : Memory.wf (s.countRun t) = true := by
  unfold State.countRun
  dsimp only
  split <;> exact h

theorem keep_killTeam (ti : Nat) : Memory.wf (s.killTeam ti) = true := by
  unfold State.killTeam
  split
  · exact h
  · rename_i t _
    split
    · exact h
    · dsimp only
      have h1 : ∀ c : Prop, ∀ _ : Decidable c, Memory.wf (if c then s.countRun t else s) = true := by
        intro c _
        split
        · exact keep_countRun h _
        · exact h
      have h2 : ∀ u, Memory.wf u = true → ∀ c : Prop, ∀ _ : Decidable c,
          Memory.wf (if c then u else (t.harts.foldl State.applyAll u).freeCores ti t) = true := by
        intro u hu c _
        split
        · exact hu
        · exact keep_freeCores (keep_foldl _ _ hu fun _ _ h => keep_applyAll h _) _ _
      split
      · exact keep_setLaunch (keep_setTeam (h2 _ (h1 _ _) _ _) _ _) _ _
      · exact keep_setTeam (h2 _ (h1 _ _) _ _) _ _

theorem keep_teamFault (ti d : Nat) (f : RecordFields) : Memory.wf (s.teamFault ti d f) = true := by
  unfold State.teamFault
  split
  · exact h
  · split
    · exact h
    · split
      · exact keep_killTeam h _
      · refine keep_killTeam ?_ _
        split <;> exact h

theorem keep_stopFaulted (li : Nat) : Memory.wf (s.stopFaulted li) = true := by
  unfold State.stopFaulted
  split
  · split
    · exact keep_foldl _ _ h fun _ _ h => keep_killTeam h _
    · exact h
  · exact h

theorem keep_enterTrap (n : Nat) (c : BitVec 8) (tv e ev : Word) : Memory.wf (s.enterTrap n c tv e ev) = true := h

theorem keep_machineCheck (p : Nat) (e : Latent) (unit pa : Nat) : Memory.wf (s.machineCheck p e unit pa) = true := by
  unfold State.machineCheck
  split
  · exact h
  · refine keep_foldl _ _ h fun s e h => ?_
    dsimp only
    split
    · exact h
    · rename_i l _
      split
      · split
        · exact keep_setLaunch h _ _
        · exact h
      · refine keep_foldl _ _ ?_ fun _ _ h => keep_killTeam h _
        split
        · exact h
        · exact keep_setLaunch h _ _

theorem keep_nodeCheck (p pa : Nat) : Memory.wf (s.nodeCheck p pa) = true :=
  keep_foldl _ _ h fun _ _ h => keep_machineCheck h _ _ _ _

/-- Every state that a fetch of the supervisor segment gives has its memory in the form. -/
theorem keep_fetchSup (core p : Nat) : match s.fetchSup core p with
    | .coming t | .later t | .checked t => Memory.wf t = true
    | .failed => True := by
  have hk := keeps_translate p (dieOfCore core) (some core) supRights (BitVec.ofNat 64 (s.part p).supSeg) .fetch s h
  unfold State.fetchSup
  dsimp only
  cases hx : translate p (dieOfCore core) (some core) supRights (BitVec.ofNat 64 (s.part p).supSeg) .fetch s with
  | ok a t =>
    rw [hx] at hk
    dsimp only
    cases pteSup a.2 <;> first | exact hk | trivial
  | error e t =>
    rw [hx] at hk
    cases e <;> first | exact keep_nodeCheck hk _ _ | exact hk | trivial

theorem keep_takeTrapWith (n : Nat) (f : RecordFields) (c : BitVec 8) (tv e : Word) (k : Nat) :
    Memory.wf (s.takeTrapWith n f c tv e k) = true := by
  have hf := keep_teamFault h (s.hart n).team (dieOf n) f
  have hs : Memory.wf (if loggedCause (c.toNat % 128) then s.record (dieOf n) f else s) = true := by split <;> exact h
  unfold State.takeTrapWith
  dsimp only
  split
  · exact h
  · rename_i t _
    have hu := keep_fetchSup hs (coreOf n) t.part
    repeat' split
    all_goals first | exact h | exact hf | exact hs | skip
    all_goals rename_i hx; rw [hx] at hu; exact hu

theorem keep_takeTrap (n u : Nat) (c : BitVec 8) (tv e : Word) (k : Nat) : Memory.wf (s.takeTrap n u c tv e k) = true :=
  keep_takeTrapWith h _ _ _ _ _ _

end keep

/-- An instruction whose action keeps the form keeps it, whatever its outcome. -/
theorem keep_runIn {u : Nat} {b : Bool} {m : M Unit} (hm : Keeps m) {s t : State} (h : Memory.wf s = true)
    (ht : runIn u b m s = .next t) : Memory.wf t = true := by
  have := hm s h
  unfold runIn at ht
  cases hx : m s with
  | ok a s' => rw [hx] at ht this; cases ht; exact this
  | error e s' =>
    rw [hx] at ht this
    cases e <;> simp only [Host.Outcome.next.injEq, reduceCtorEq] at ht
    · subst ht; exact keep_takeTrap this _ _ _ _ _ _
    · subst ht; exact this
    · subst ht; exact this
    · subst ht; exact keep_nodeCheck this _ _

theorem keep_ap {m : M Unit} (hm : Keeps m) {s t : State} (h : Memory.wf s = true) (ht : ap m s = .next t) : Memory.wf t = true :=
  keep_runIn (keeps_bind hm fun _ => keeps_advance) h ht

/-! ### Barriers, copies, stamped stores, pages, and the drain -/

theorem Tbl.wfFrom_append {α : Type} [DecidableEq α] (d : α) (t u : Tbl α) (lo m : Nat) (ht : Tbl.wfFrom d lo t = true)
    (hm : ∀ e ∈ t, e.1 < m) (hlo : lo ≤ m) (hu : Tbl.wfFrom d m u = true) : Tbl.wfFrom d lo (t ++ u) = true := by
  induction t generalizing lo with
  | nil => exact Tbl.wfFrom_mono d u hlo hu
  | cons e t ih =>
    obtain ⟨k, v⟩ := e
    simp only [Tbl.wfFrom, Bool.and_eq_true, decide_eq_true_eq, List.cons_append] at *
    exact ⟨ht.1, ih _ ht.2 (fun e he => hm e (List.mem_cons_of_mem _ he)) (hm (k, v) (List.mem_cons_self ..))⟩

theorem Tbl.wfFrom_of_bound {α : Type} [DecidableEq α] (d : α) (t : Tbl α) (lo m : Nat) (ht : Tbl.wfFrom d lo t = true)
    (hm : ∀ e ∈ t, m ≤ e.1) : Tbl.wfFrom d m t = true := by
  cases t with
  | nil => rfl
  | cons e t =>
    obtain ⟨k, v⟩ := e
    simp only [Tbl.wfFrom, Bool.and_eq_true, decide_eq_true_eq] at *
    exact ⟨⟨hm (k, v) (List.mem_cons_self ..), ht.1.2⟩, ht.2⟩

/-- The entries of one table below a bound, and of another at or above it. -/
theorem Tbl.wf_split {α : Type} [DecidableEq α] (d : α) (t u : Tbl α) (m : Nat) (ht : Tbl.wf d t = true)
    (hu : Tbl.wf d u = true) :
    Tbl.wf d ((t.filter fun e => !decide (m ≤ e.1)) ++ u.filter fun e => decide (m ≤ e.1)) = true := by
  refine Tbl.wfFrom_append d _ _ 0 m (Tbl.wf_filter d t _ ht) ?_ (Nat.zero_le m)
    (Tbl.wfFrom_of_bound d _ 0 m (Tbl.wf_filter d u _ hu) ?_)
  · intro e he
    have := (List.mem_filter.1 he).2
    simpa using this
  · intro e he
    simpa using (List.mem_filter.1 he).2

theorem View.wf_copyRange {v : View} (h : v.wf = true) (src dst n : Nat) : (v.copyRange src dst n).wf = true := by
  unfold View.copyRange
  split
  · simp only [View.wf, Bool.and_eq_true, copyCells] at *
    exact ⟨Tbl.wf_foldl_set _ _ _ _ _ (Tbl.wf_filter _ _ _ h.1), Tbl.wf_foldl_set _ _ _ _ _ (Tbl.wf_filter _ _ _ h.2)⟩
  · exact List.foldlRecOn (motive := fun w => View.wf w = true) _ _ h fun w hw i _ => View.wf_mark (View.wf_set hw _ _) _ _

theorem View.wf_renew {v : View} (h : v.wf = true) (r : List Nat) (g : Nat) : (v.renew r g).wf = true := View.wf_filter h _ _ _ _

section keep
variable {s : State} (h : Memory.wf s = true)
include h

theorem keep_setByteBar (core off : Nat) (key : Option DetKey) (b : ByteBar) : Memory.wf (s.setByteBar core off key b) = true :=
  keep_caskWrite h _ _ _ _

theorem keep_updateByteBar (core off : Nat) (key : Option DetKey) (f : ByteBar → ByteBar) :
    Memory.wf (s.updateByteBar core off key f) = true := keep_setByteBar h _ _ _ _

theorem keep_landing (c : Copy) (va : Nat) (bs : List PByte) : Memory.wf (c.landing va bs s).2 = true := by
  induction bs generalizing va s with
  | nil => exact h
  | cons b bs ih =>
    unfold Copy.landing
    split
    · exact ih (s := { s with fresh := s.fresh + 1 }) h _
    · exact ih h _

theorem keep_fillCask (a : Nat) (bs : List PByte) : Memory.wf (s.fillCask a bs) = true :=
  keep_setCasks h (View.wf_poke (keep_casks h) _ _)

theorem keep_copyWrite (core pa : Nat) (bs : List PByte) : Memory.wf (s.copyWrite core pa bs) = true := by
  unfold State.copyWrite
  split
  · exact keep_pokeCasks h _ _
  · split
    · exact keep_storeWindow h _ _
    · exact keep_originate h _ _ _ _ _ _ _

theorem keep_acceptRange (pa n : Nat) : Memory.wf (s.acceptRange pa n) = true :=
  keep_foldl _ _ h fun _ _ h => keep_pokeMedia h _ _

theorem keep_applyStamped (e : Stamped) : Memory.wf (s.applyStamped e) = true := by
  unfold State.applyStamped
  dsimp only
  split
  · exact keep_catchUp h _
  · split
    · exact keep_acceptRange (keep_updateAtHome (keep_catchUp h _) _ _ _ _ _ _) _ _
    · exact keep_updateAtHome (keep_catchUp h _) _ _ _ _ _ _

theorem keep_areaWrite (p pa : Nat) (bs : List PByte) : Memory.wf (s.areaWrite p pa bs) = true := keep_originateAll h _ _ _

theorem keep_peerStore (pa : Nat) (bs : List Byte) : Memory.wf (s.peerStore pa bs) = true := by
  unfold State.peerStore
  split
  · have h1 : ∀ n, Memory.wf ({ s with homeSeq := n } : State) = true := fun _ => h
    exact keep_foldl _ _ (keep_pokeWhere (h1 _) _ _ _ _ _ _) fun _ _ h => keep_pokeWhere h _ _ _ _ _ _
  · exact h

theorem keep_loadEarly (n base pa len : Nat) : Memory.wf (s.loadEarly n base pa len) = true := by
  unfold State.loadEarly
  split
  · exact h
  · exact keep_setHart (keep_findErrors h _ _ _ _) _ _

theorem keep_mediaFrom (v : View) (dst size : Nat) : Memory.wf (s.mediaFrom v dst size) = true := by
  refine keep_setMedia h ?_
  have hm := keep_media h
  simp only [View.wf, Bool.and_eq_true] at hm ⊢
  exact ⟨Tbl.wf_foldl_set _ _ _ _ _ (Tbl.wf_filter _ _ _ hm.1), Tbl.wf_foldl_set _ _ _ _ _ (Tbl.wf_filter _ _ _ hm.2)⟩

theorem keep_copyFrame (d src dst size : Nat) : Memory.wf (s.copyFrame d src dst size) = true := by
  have h1 : ∀ l : List Nat, Memory.wf ((l.foldl (fun s u => s.findError d u {}) s).mapViews (·.copyRange src dst size)) = true :=
    fun l => keep_mapViews (keep_foldl _ _ h fun _ _ h => keep_findError h _ _ _) fun _ h => View.wf_copyRange h _ _ _
  have h2 : ∀ (u : State) (l : Tbl (Option Latent)), Memory.wf u = true → Memory.wf { u with latent := l } = true := fun _ _ h => h
  unfold State.copyFrame
  extract_lets bad t u v
  have hv : Memory.wf v = true := h2 u _ (h1 _)
  clear_value v
  split
  · exact hv
  · split
    · exact keep_setMedia hv (View.wf_copyRange (keep_media hv) _ _ _)
    · exact keep_mediaFrom hv _ _ _

theorem keep_finishPbars (n : Nat) : Memory.wf (s.finishPbars n) = true := h

theorem keep_settlePbars : Memory.wf s.settlePbars = true := by
  have h1 : ∀ l : List Nat, Memory.wf (l.foldl State.finishPbars s) = true := fun l =>
    keep_foldl l _ h fun _ _ h => keep_finishPbars h _
  have h2 : ∀ (u : State) (t : Tbl (Option Team)), Memory.wf u = true → Memory.wf { u with teams := t } = true := fun _ _ h => h
  exact h2 _ _ (h1 _)

theorem keep_respond (r : CmdRec) (st : Nat) (v : Word) : Memory.wf (s.respond r st v) = true := h

theorem keep_settleWrites : Memory.wf s.settleWrites = true := by
  refine keep_foldl _ _ h fun s r h => ?_
  split
  · exact h
  · exact keep_respond (s := { s with svc := _ }) h r 0 0

theorem keep_settleStamps (k : Nat) : Memory.wf (s.settleStamps k) = true := by
  induction k generalizing s with
  | zero => exact h
  | succ k ih =>
    have h2 : ∀ q, Memory.wf { s with stampq := q } = true := fun _ => h
    unfold State.settleStamps
    split
    · exact h
    · rename_i e _
      exact ih (keep_applyStamped (h2 (s.stampq.erase e)) e)

theorem keep_writeRecovery (f p : Nat) : Memory.wf (s.writeRecovery f p) = true := by
  unfold State.writeRecovery
  exact keep_pokeMedia (keep_coverUnits (keep_mergeErrors h _ _ _ _) _ _) _ _

theorem keep_drain : Memory.wf s.drain = true := by
  have h1 : ∀ u : State, Memory.wf u = true → Memory.wf { u with cellarPend := [], stampq := [] } = true := fun _ h => h
  have h2 : ∀ (u : State) (v : Service), Memory.wf u = true → Memory.wf { u with svc := v } = true := fun _ _ h => h
  unfold State.drain
  exact h2 _ _ (keep_foldl (β := Nat) _ _ (h1 _ (keep_settlePbars (keep_settleStamps h _))) fun _ _ h => keep_writeRecovery h _ _)

theorem keep_viewAfterReset (g : Nat) : (s.viewAfterReset g).wf = true := by
  have hm := keep_media h
  have hp := keep_peers h
  simp only [View.wf, Bool.and_eq_true, State.viewAfterReset] at *
  exact ⟨Tbl.wf_split _ _ _ _ hm.1 hp.1, Tbl.wf_split _ _ _ _ hm.2 hp.2⟩

theorem keep_afterReset : Memory.wf s.afterReset = true := by
  have hd : ∀ v : View, v.wf = true → ((List.range 8).map fun d => (d, ({ view := v } : Die))).all (fun d => d.2.view.wf) = true := by
    intro v hv
    simp [List.all_eq_true, hv]
  have hv := keep_viewAfterReset h (s.fresh + 1)
  have hm : s.media.wf = true := keep_media h
  unfold State.afterReset
  refine keep_foldl _ _ ?_ fun _ _ h => keep_respond h _ _ _
  rw [Memory.wf_iff]
  exact ⟨hd _ hv, hv, by simp [View.wf, Tbl.wf, Tbl.wfFrom], hm⟩

theorem keep_loseContents (dies : List Nat) : Memory.wf (s.loseContents dies) = true := by
  have h1 : ∀ (l : List Nat) (g : Nat), Memory.wf ((l.foldl State.catchUp (s.catchUp fabricAgent)).mapViews (·.renew dies g)) = true :=
    fun l g => keep_mapViews (keep_foldl _ _ (keep_catchUp h _) fun _ _ h => keep_catchUp h _) fun _ h => View.wf_renew h _ _
  have h2 : ∀ (u : State) (v : View) (g : Nat) (l : Tbl (Option Latent)), Memory.wf u = true → v.wf = true →
      Memory.wf { u with casks := v, fresh := g, latent := l } = true := fun _ _ _ _ h hv => keep_setCasks h hv
  unfold State.loseContents
  exact h2 _ _ _ _ (h1 _ _) (View.wf_renew (keep_casks (h1 _ _)) _ _)

/-- An upset of SRAM poisons bytes in place. -/
theorem keep_poisonWord (u : Sram) : Memory.wf (s.poisonWord u) = true := by
  cases u with
  | l2 d pa => exact keep_setView h d (View.wf_poisonRange (keep_viewOf h d) _ _)
  | cask c off => exact keep_setCasks h (View.wf_poisonRange (keep_casks h) _ _)
  | code c k off =>
    unfold State.poisonWord
    dsimp only
    split <;> exact h
  | _ => exact h

theorem keep_sramUpset (u : Sram) (x : BitVec 32) (bad : Bool) : Memory.wf (s.sramUpset u x bad) = true := by
  have h2 : ∀ (t : State) (l : Tbl (Option (Nat × Nat))), Memory.wf t = true → Memory.wf { t with sramLog := l } = true := fun _ _ h => h
  unfold State.sramUpset
  split
  · exact h
  · dsimp only
    repeat' split
    all_goals first | exact h | exact keep_record (h2 _ _ (keep_poisonWord h _)) _ _

end keep

end Sys2Proof.Machine
end

