-- ==== Sys2Proof/Laws/PerInstr.lean ====
section
/-! SUPPORT. One lemma per instruction: the fields of its word choose that instruction (R153, Tables 8.8 and 8.9). -/

namespace Sys2Proof.Laws.Selection

/-- The major and function code that the encoder gives a well-formed instruction select that instruction and no other, with every
operand. An operation of the service die and an event have no word, and the statement is empty of them. -/
def Statement (i : Instr) : Prop := i.wellFormed = true → ∀ r, i.raw = some r → r.select = some i

/-- The statement of an instruction whose fields are written out. -/
theorem of_raw (i : Instr) (r : Raw) (h : i.raw = some r) (hs : r.select = some i) : Statement i := by
  intro _ r' h'
  rw [h] at h'
  cases h'
  exact hs

/-- The statement of an instruction without a word. -/
theorem of_none (i : Instr) (h : i.raw = none) : Statement i := by
  intro _ r' h'
  rw [h] at h'
  cases h'

/-- The kind and the size code of a function code of major 0x08 (R178). -/
theorem fr08 (k : BitVec 6) (z : BitVec 2) : (k ++ z).extractLsb' 2 6 = k ∧ (k ++ z).extractLsb' 0 2 = z := by
  revert k z
  decide

/-- The statement of a form of `swr`. -/
theorem of_swr (i : Instr) (o : FC) (h : i.raw = some (.fc 0x10 0x04 o)) (hs : i.wellFormed = true → selectSwr o = i) : Statement i := by
  intro hw r' h'
  rw [h] at h'
  cases h'
  rw [show Raw.select (.fc 0x10 0x04 o) = some (selectSwr o) from rfl, hs hw]

theorem add (o : FR) : Statement (.add o) := of_raw _ _ rfl rfl
theorem sub (o : FR) : Statement (.sub o) := of_raw _ _ rfl rfl
theorem mul (o : FR) : Statement (.mul o) := of_raw _ _ rfl rfl
theorem mulh (o : FR) : Statement (.mulh o) := of_raw _ _ rfl rfl
theorem mulhu (o : FR) : Statement (.mulhu o) := of_raw _ _ rfl rfl
theorem div (o : FR) : Statement (.div o) := of_raw _ _ rfl rfl
theorem divu (o : FR) : Statement (.divu o) := of_raw _ _ rfl rfl
theorem rem (o : FR) : Statement (.rem o) := of_raw _ _ rfl rfl
theorem remu (o : FR) : Statement (.remu o) := of_raw _ _ rfl rfl
theorem and (o : FR) : Statement (.and o) := of_raw _ _ rfl rfl
theorem or (o : FR) : Statement (.or o) := of_raw _ _ rfl rfl
theorem xor (o : FR) : Statement (.xor o) := of_raw _ _ rfl rfl
theorem andn (o : FR) : Statement (.andn o) := of_raw _ _ rfl rfl
theorem sll (o : FR) : Statement (.sll o) := of_raw _ _ rfl rfl
theorem srl (o : FR) : Statement (.srl o) := of_raw _ _ rfl rfl
theorem sra (o : FR) : Statement (.sra o) := of_raw _ _ rfl rfl
theorem slt (o : FR) : Statement (.slt o) := of_raw _ _ rfl rfl
theorem sltu (o : FR) : Statement (.sltu o) := of_raw _ _ rfl rfl
theorem min (o : FR) : Statement (.min o) := of_raw _ _ rfl rfl
theorem max (o : FR) : Statement (.max o) := of_raw _ _ rfl rfl
theorem minu (o : FR) : Statement (.minu o) := of_raw _ _ rfl rfl
theorem maxu (o : FR) : Statement (.maxu o) := of_raw _ _ rfl rfl
theorem cmov (o : FR) : Statement (.cmov o) := of_raw _ _ rfl rfl
theorem clz (o : FR) : Statement (.clz o) := of_raw _ _ rfl rfl
theorem ctz (o : FR) : Statement (.ctz o) := of_raw _ _ rfl rfl
theorem popc (o : FR) : Statement (.popc o) := of_raw _ _ rfl rfl
theorem bext (o : FR) : Statement (.bext o) := of_raw _ _ rfl rfl
theorem bins (o : FR) : Statement (.bins o) := of_raw _ _ rfl rfl
theorem addi (o : FI) : Statement (.addi o) := of_raw _ _ rfl rfl
theorem andi (o : FI) : Statement (.andi o) := of_raw _ _ rfl rfl
theorem ori (o : FI) : Statement (.ori o) := of_raw _ _ rfl rfl
theorem xori (o : FI) : Statement (.xori o) := of_raw _ _ rfl rfl
theorem slli (o : FI) : Statement (.slli o) := of_raw _ _ rfl rfl
theorem srli (o : FI) : Statement (.srli o) := of_raw _ _ rfl rfl
theorem srai (o : FI) : Statement (.srai o) := of_raw _ _ rfl rfl
theorem slti (o : FI) : Statement (.slti o) := of_raw _ _ rfl rfl
theorem sltiu (o : FI) : Statement (.sltiu o) := of_raw _ _ rfl rfl
theorem ldi (o : FI) : Statement (.ldi o) := of_raw _ _ rfl rfl
theorem ldhi (o : FI) : Statement (.ldhi o) := of_raw _ _ rfl rfl
theorem adpc (o : FI) : Statement (.adpc o) := of_raw _ _ rfl rfl
theorem ld (sz : BitVec 2) (o : FR) : Statement (.ld sz o) := of_raw _ _ rfl (by
  show selectFr08 _ o = _
  unfold selectFr08
  rw [(fr08 0#6 sz).1, (fr08 0#6 sz).2]
  rfl)
theorem ldz (sz : BitVec 2) (o : FR) : Statement (.ldz sz o) := of_raw _ _ rfl (by
  show selectFr08 _ o = _
  unfold selectFr08
  rw [(fr08 1#6 sz).1, (fr08 1#6 sz).2]
  rfl)
theorem st (sz : BitVec 2) (o : FR) : Statement (.st sz o) := of_raw _ _ rfl (by
  show selectFr08 _ o = _
  unfold selectFr08
  rw [(fr08 2#6 sz).1, (fr08 2#6 sz).2]
  rfl)
theorem ldAcq (sz : BitVec 2) (o : FR) : Statement (.ldAcq sz o) := of_raw _ _ rfl (by
  show selectFr08 _ o = _
  unfold selectFr08
  rw [(fr08 3#6 sz).1, (fr08 3#6 sz).2]
  rfl)
theorem stRel (sz : BitVec 2) (o : FR) : Statement (.stRel sz o) := of_raw _ _ rfl (by
  show selectFr08 _ o = _
  unfold selectFr08
  rw [(fr08 4#6 sz).1, (fr08 4#6 sz).2]
  rfl)
theorem amoAdd (d64 : Bool) (o : FR) : Statement (.amoAdd d64 o) := of_raw _ _ rfl (by cases d64 <;> rfl)
theorem amoAnd (d64 : Bool) (o : FR) : Statement (.amoAnd d64 o) := of_raw _ _ rfl (by cases d64 <;> rfl)
theorem amoOr (d64 : Bool) (o : FR) : Statement (.amoOr d64 o) := of_raw _ _ rfl (by cases d64 <;> rfl)
theorem amoXor (d64 : Bool) (o : FR) : Statement (.amoXor d64 o) := of_raw _ _ rfl (by cases d64 <;> rfl)
theorem amoMin (d64 : Bool) (o : FR) : Statement (.amoMin d64 o) := of_raw _ _ rfl (by cases d64 <;> rfl)
theorem amoMax (d64 : Bool) (o : FR) : Statement (.amoMax d64 o) := of_raw _ _ rfl (by cases d64 <;> rfl)
theorem amoMinu (d64 : Bool) (o : FR) : Statement (.amoMinu d64 o) := of_raw _ _ rfl (by cases d64 <;> rfl)
theorem amoMaxu (d64 : Bool) (o : FR) : Statement (.amoMaxu d64 o) := of_raw _ _ rfl (by cases d64 <;> rfl)
theorem amoSwap (d64 : Bool) (o : FR) : Statement (.amoSwap d64 o) := of_raw _ _ rfl (by cases d64 <;> rfl)
theorem amoCas (d64 : Bool) (o : FR) : Statement (.amoCas d64 o) := of_raw _ _ rfl (by cases d64 <;> rfl)
theorem amoFadd (d64 : Bool) (o : FR) : Statement (.amoFadd d64 o) := of_raw _ _ rfl (by cases d64 <;> rfl)
theorem beq (o : FB) : Statement (.beq o) := of_raw _ _ rfl rfl
theorem bne (o : FB) : Statement (.bne o) := of_raw _ _ rfl rfl
theorem blt (o : FB) : Statement (.blt o) := of_raw _ _ rfl rfl
theorem bge (o : FB) : Statement (.bge o) := of_raw _ _ rfl rfl
theorem bltu (o : FB) : Statement (.bltu o) := of_raw _ _ rfl rfl
theorem bgeu (o : FB) : Statement (.bgeu o) := of_raw _ _ rfl rfl
theorem jmp (o : FB) : Statement (.jmp o) := of_raw _ _ rfl rfl
theorem call (o : FB) : Statement (.call o) := of_raw _ _ rfl rfl
theorem jr (o : FR) : Statement (.jr o) := of_raw _ _ rfl rfl
theorem jmpF (o : FR) : Statement (.jmpF o) := of_raw _ _ rfl rfl
theorem callt (o : FR) : Statement (.callt o) := of_raw _ _ rfl rfl
theorem bvAny (o : FB) : Statement (.bvAny o) := of_raw _ _ rfl rfl
theorem bvNone (o : FB) : Statement (.bvNone o) := of_raw _ _ rfl rfl
theorem bvAll (o : FB) : Statement (.bvAll o) := of_raw _ _ rfl rfl
theorem bvNall (o : FB) : Statement (.bvNall o) := of_raw _ _ rfl rfl
theorem brot (o : FB) : Statement (.brot o) := of_raw _ _ rfl rfl
theorem bloop (o : FB) : Statement (.bloop o) := of_raw _ _ rfl rfl
theorem trap (o : FC) : Statement (.trap o) := of_raw _ _ rfl rfl
theorem srd (o : FC) : Statement (.srd o) := of_raw _ _ rfl rfl
theorem swr (o : FC) : Statement (.swr o) := of_swr _ o rfl (by simp [Instr.wellFormed])
theorem swrFcsr (o : FC) : Statement (.swrFcsr o) := of_swr _ o rfl (by simp [Instr.wellFormed])
theorem swrSlots (o : FC) : Statement (.swrSlots o) := of_swr _ o rfl (by simp [Instr.wellFormed])
theorem swrVl (o : FC) : Statement (.swrVl o) := of_swr _ o rfl (by simp [Instr.wellFormed])
theorem swrRrb (o : FC) : Statement (.swrRrb o) := of_swr _ o rfl (by simp [Instr.wellFormed])
theorem swrEc (o : FC) : Statement (.swrEc o) := of_swr _ o rfl (by simp [Instr.wellFormed])
theorem brk (o : FC) : Statement (.brk o) := of_raw _ _ rfl rfl
theorem tlbinv (o : FC) : Statement (.tlbinv o) := of_raw _ _ rfl rfl
theorem pgmig (o : FC) : Statement (.pgmig o) := of_raw _ _ rfl rfl
theorem vadd (o : F3) : Statement (.vadd o) := of_raw _ _ rfl rfl
theorem vsub (o : F3) : Statement (.vsub o) := of_raw _ _ rfl rfl
theorem vmul (o : F3) : Statement (.vmul o) := of_raw _ _ rfl rfl
theorem vmulh (o : F3) : Statement (.vmulh o) := of_raw _ _ rfl rfl
theorem vfma (o : F3) : Statement (.vfma o) := of_raw _ _ rfl rfl
theorem vfms (o : F3) : Statement (.vfms o) := of_raw _ _ rfl rfl
theorem vfnma (o : F3) : Statement (.vfnma o) := of_raw _ _ rfl rfl
theorem vdiv (o : F3) : Statement (.vdiv o) := of_raw _ _ rfl rfl
theorem vrem (o : F3) : Statement (.vrem o) := of_raw _ _ rfl rfl
theorem vsqrt (o : F3) : Statement (.vsqrt o) := of_raw _ _ rfl rfl
theorem vrcp (o : F3) : Statement (.vrcp o) := of_raw _ _ rfl rfl
theorem vrsqrt (o : F3) : Statement (.vrsqrt o) := of_raw _ _ rfl rfl
theorem vmin (o : F3) : Statement (.vmin o) := of_raw _ _ rfl rfl
theorem vmax (o : F3) : Statement (.vmax o) := of_raw _ _ rfl rfl
theorem vabs (o : F3) : Statement (.vabs o) := of_raw _ _ rfl rfl
theorem vneg (o : F3) : Statement (.vneg o) := of_raw _ _ rfl rfl
theorem vand (o : F3) : Statement (.vand o) := of_raw _ _ rfl rfl
theorem vor (o : F3) : Statement (.vor o) := of_raw _ _ rfl rfl
theorem vxor (o : F3) : Statement (.vxor o) := of_raw _ _ rfl rfl
theorem vandn (o : F3) : Statement (.vandn o) := of_raw _ _ rfl rfl
theorem vnot (o : F3) : Statement (.vnot o) := of_raw _ _ rfl rfl
theorem vsll (o : F3) : Statement (.vsll o) := of_raw _ _ rfl rfl
theorem vsrl (o : F3) : Statement (.vsrl o) := of_raw _ _ rfl rfl
theorem vsra (o : F3) : Statement (.vsra o) := of_raw _ _ rfl rfl
theorem vclz (o : F3) : Statement (.vclz o) := of_raw _ _ rfl rfl
theorem vpopc (o : F3) : Statement (.vpopc o) := of_raw _ _ rfl rfl
theorem vcvt (o : F3) : Statement (.vcvt o) := of_raw _ _ rfl rfl
theorem vmov (o : F3) : Statement (.vmov o) := of_raw _ _ rfl rfl
theorem vsel (o : F3) : Statement (.vsel o) := of_raw _ _ rfl rfl
theorem vexp2 (o : F3) : Statement (.vexp2 o) := of_raw _ _ rfl rfl
theorem vlog2 (o : F3) : Statement (.vlog2 o) := of_raw _ _ rfl rfl
theorem vcmp (o : F3) : Statement (.vcmp o) := of_raw _ _ rfl rfl
theorem vclass (o : F3) : Statement (.vclass o) := of_raw _ _ rfl rfl
theorem mand (o : F3) : Statement (.mand o) := of_raw _ _ rfl rfl
theorem mor (o : F3) : Statement (.mor o) := of_raw _ _ rfl rfl
theorem mxor (o : F3) : Statement (.mxor o) := of_raw _ _ rfl rfl
theorem mandn (o : F3) : Statement (.mandn o) := of_raw _ _ rfl rfl
theorem mnot (o : F3) : Statement (.mnot o) := of_raw _ _ rfl rfl
theorem mpopc (o : F3) : Statement (.mpopc o) := of_raw _ _ rfl rfl
theorem mfirst (o : F3) : Statement (.mfirst o) := of_raw _ _ rfl rfl
theorem mset (o : F3) : Statement (.mset o) := of_raw _ _ rfl rfl
theorem vmsk (o : F3) : Statement (.vmsk o) := of_raw _ _ rfl rfl
theorem vred (o : F3) : Statement (.vred o) := of_raw _ _ rfl rfl
theorem vscan (o : F3) : Statement (.vscan o) := of_raw _ _ rfl rfl
theorem vdot (o : F3) : Statement (.vdot o) := of_raw _ _ rfl rfl
theorem vdotg (o : F3) : Statement (.vdotg o) := of_raw _ _ rfl rfl
theorem vsac (o : F3) : Statement (.vsac o) := of_raw _ _ rfl rfl
theorem vsacb (o : F3) : Statement (.vsacb o) := of_raw _ _ rfl rfl
theorem vslup (o : F3) : Statement (.vslup o) := of_raw _ _ rfl rfl
theorem vsldn (o : F3) : Statement (.vsldn o) := of_raw _ _ rfl rfl
theorem vperm (o : F3) : Statement (.vperm o) := of_raw _ _ rfl rfl
theorem vcompress (o : F3) : Statement (.vcompress o) := of_raw _ _ rfl rfl
theorem vexpand (o : F3) : Statement (.vexpand o) := of_raw _ _ rfl rfl
theorem vzip (o : F3) : Statement (.vzip o) := of_raw _ _ rfl rfl
theorem vunzip (o : F3) : Statement (.vunzip o) := of_raw _ _ rfl rfl
theorem vrev (o : F3) : Statement (.vrev o) := of_raw _ _ rfl rfl
theorem vpack4 (o : F3) : Statement (.vpack4 o) := of_raw _ _ rfl rfl
theorem vunpk4 (o : F3) : Statement (.vunpk4 o) := of_raw _ _ rfl rfl
theorem vbscale (o : F3) : Statement (.vbscale o) := of_raw _ _ rfl rfl
theorem vcfg (o : F3) : Statement (.vcfg o) := of_raw _ _ rfl rfl
theorem vsetl (o : F3) : Statement (.vsetl o) := of_raw _ _ rfl rfl
theorem vlq (o : F3) : Statement (.vlq o) := of_raw _ _ rfl rfl
theorem vtag (o : F3) : Statement (.vtag o) := of_raw _ _ rfl rfl
theorem vrotb (o : F3) : Statement (.vrotb o) := of_raw _ _ rfl rfl
theorem vdead (o : F3) : Statement (.vdead o) := of_raw _ _ rfl rfl
theorem vmvAe (o : F3) : Statement (.vmvAe o) := of_raw _ _ rfl rfl
theorem vmvEa (o : F3) : Statement (.vmvEa o) := of_raw _ _ rfl rfl
theorem vbcast (o : F3) : Statement (.vbcast o) := of_raw _ _ rfl rfl
theorem vid (o : F3) : Statement (.vid o) := of_raw _ _ rfl rfl
theorem vld (o : FM) : Statement (.vld o) := of_raw _ _ rfl rfl
theorem vlds (o : FM) : Statement (.vlds o) := of_raw _ _ rfl rfl
theorem vldx (o : FM) : Statement (.vldx o) := of_raw _ _ rfl rfl
theorem vldseg (o : FM) : Statement (.vldseg o) := of_raw _ _ rfl rfl
theorem vldm (o : FM) : Statement (.vldm o) := of_raw _ _ rfl rfl
theorem vpref (o : FM) : Statement (.vpref o) := of_raw _ _ rfl rfl
theorem vst (o : FM) : Statement (.vst o) := of_raw _ _ rfl rfl
theorem vsts (o : FM) : Statement (.vsts o) := of_raw _ _ rfl rfl
theorem vstx (o : FM) : Statement (.vstx o) := of_raw _ _ rfl rfl
theorem vstseg (o : FM) : Statement (.vstseg o) := of_raw _ _ rfl rfl
theorem vstm (o : FM) : Statement (.vstm o) := of_raw _ _ rfl rfl
theorem vamoadd (o : FM) : Statement (.vamoadd o) := of_raw _ _ rfl rfl
theorem vspill (o : FM) : Statement (.vspill o) := of_raw _ _ rfl rfl
theorem vfill (o : FM) : Statement (.vfill o) := of_raw _ _ rfl rfl
theorem vwait (o : FM) : Statement (.vwait o) := of_raw _ _ rfl rfl
theorem vsave (o : FM) : Statement (.vsave o) := of_raw _ _ rfl rfl
theorem vrest (o : FM) : Statement (.vrest o) := of_raw _ _ rfl rfl
theorem rpSend (o : FM) : Statement (.rpSend o) := of_raw _ _ rfl rfl
theorem rpRecv (o : FM) : Statement (.rpRecv o) := of_raw _ _ rfl rfl
theorem mma (o : FX) : Statement (.mma o) := of_raw _ _ rfl rfl
theorem mmasp (o : FX) : Statement (.mmasp o) := of_raw _ _ rfl rfl
theorem mzero (o : FX) : Statement (.mzero o) := of_raw _ _ rfl rfl
theorem mvat2v (o : FX) : Statement (.mvat2v o) := of_raw _ _ rfl rfl
theorem mv2vat (o : FX) : Statement (.mv2vat o) := of_raw _ _ rfl rfl
theorem mv2t (o : FX) : Statement (.mv2t o) := of_raw _ _ rfl rfl
theorem mt2v (o : FX) : Statement (.mt2v o) := of_raw _ _ rfl rfl
theorem mshape (o : FC) : Statement (.mshape o) := of_raw _ _ rfl rfl
theorem mldt (o : FC) : Statement (.mldt o) := of_raw _ _ rfl rfl
theorem mstt (o : FC) : Statement (.mstt o) := of_raw _ _ rfl rfl
theorem mldvat (o : FC) : Statement (.mldvat o) := of_raw _ _ rfl rfl
theorem mstvat (o : FC) : Statement (.mstvat o) := of_raw _ _ rfl rfl
theorem mrdshape (o : FC) : Statement (.mrdshape o) := of_raw _ _ rfl rfl
theorem cpy (o : FC) : Statement (.cpy o) := of_raw _ _ rfl rfl
theorem cpy2d (o : FC) : Statement (.cpy2d o) := of_raw _ _ rfl rfl
theorem cpyBb (o : FC) : Statement (.cpyBb o) := of_raw _ _ rfl rfl
theorem cwaitAny (o : FC) : Statement (.cwaitAny o) := of_raw _ _ rfl rfl
theorem cwaitAll (o : FC) : Statement (.cwaitAll o) := of_raw _ _ rfl rfl
theorem cffr (o : FC) : Statement (.cffr o) := of_raw _ _ rfl rfl
theorem cdone (o : FC) : Statement (.cdone o) := of_raw _ _ rfl rfl
theorem cclr (o : FC) : Statement (.cclr o) := of_raw _ _ rfl rfl
theorem bbInit (o : FC) : Statement (.bbInit o) := of_raw _ _ rfl rfl
theorem bbExpect (o : FC) : Statement (.bbExpect o) := of_raw _ _ rfl rfl
theorem bbArrive (o : FC) : Statement (.bbArrive o) := of_raw _ _ rfl rfl
theorem bbWait (o : FC) : Statement (.bbWait o) := of_raw _ _ rfl rfl
theorem bbTest (o : FC) : Statement (.bbTest o) := of_raw _ _ rfl rfl
theorem barArrive (o : FC) : Statement (.barArrive o) := of_raw _ _ rfl rfl
theorem barWait (o : FC) : Statement (.barWait o) := of_raw _ _ rfl rfl
theorem barSync (o : FC) : Statement (.barSync o) := of_raw _ _ rfl rfl
theorem barMset (o : FC) : Statement (.barMset o) := of_raw _ _ rfl rfl
theorem barGen (o : FC) : Statement (.barGen o) := of_raw _ _ rfl rfl
theorem fence (o : FC) : Statement (.fence o) := of_raw _ _ rfl rfl
theorem fencePath (o : FC) : Statement (.fencePath o) := of_raw _ _ rfl rfl
theorem stStamp (o : FC) : Statement (.stStamp o) := of_raw _ _ rfl rfl
theorem ldAsof (o : FC) : Statement (.ldAsof o) := of_raw _ _ rfl rfl
theorem clkRd (o : FC) : Statement (.clkRd o) := of_raw _ _ rfl rfl
theorem clkWait (o : FC) : Statement (.clkWait o) := of_raw _ _ rfl rfl
theorem cfetch (o : FC) : Statement (.cfetch o) := of_raw _ _ rfl rfl
theorem cfwait (o : FC) : Statement (.cfwait o) := of_raw _ _ rfl rfl
theorem lnch (o : FC) : Statement (.lnch o) := of_raw _ _ rfl rfl
theorem claimWork (o : FC) : Statement (.claimWork o) := of_raw _ _ rfl rfl
theorem digPost (o : FC) : Statement (.digPost o) := of_raw _ _ rfl rfl
theorem digWait (o : FC) : Statement (.digWait o) := of_raw _ _ rfl rfl
theorem vmac (o : F3) : Statement (.vmac o) := of_raw _ _ rfl rfl
theorem vrecip (o : F3) : Statement (.vrecip o) := of_raw _ _ rfl rfl
theorem vsum (o : F3) : Statement (.vsum o) := of_raw _ _ rfl rfl
theorem vldu (o : F3) : Statement (.vldu o) := of_raw _ _ rfl rfl
theorem epSlotVadd (s : EpArgs) (p : EpSlot) : Statement (.epSlotVadd s p) := of_raw _ _ rfl rfl
theorem epSlotVsub (s : EpArgs) (p : EpSlot) : Statement (.epSlotVsub s p) := of_raw _ _ rfl rfl
theorem epSlotVmul (s : EpArgs) (p : EpSlot) : Statement (.epSlotVmul s p) := of_raw _ _ rfl rfl
theorem epSlotVmin (s : EpArgs) (p : EpSlot) : Statement (.epSlotVmin s p) := of_raw _ _ rfl rfl
theorem epSlotVmax (s : EpArgs) (p : EpSlot) : Statement (.epSlotVmax s p) := of_raw _ _ rfl rfl
theorem epSlotVand (s : EpArgs) (p : EpSlot) : Statement (.epSlotVand s p) := of_raw _ _ rfl rfl
theorem epSlotVor (s : EpArgs) (p : EpSlot) : Statement (.epSlotVor s p) := of_raw _ _ rfl rfl
theorem epSlotVxor (s : EpArgs) (p : EpSlot) : Statement (.epSlotVxor s p) := of_raw _ _ rfl rfl
theorem epSlotVmov (s : EpArgs) (p : EpSlot) : Statement (.epSlotVmov s p) := of_raw _ _ rfl rfl
theorem epSlotVcvt (s : EpArgs) (p : EpSlot) : Statement (.epSlotVcvt s p) := of_raw _ _ rfl rfl
theorem epSlotVslli (s : EpArgs) (p : EpSlot) : Statement (.epSlotVslli s p) := of_raw _ _ rfl rfl
theorem epSlotVsrli (s : EpArgs) (p : EpSlot) : Statement (.epSlotVsrli s p) := of_raw _ _ rfl rfl
theorem epSlotVsrai (s : EpArgs) (p : EpSlot) : Statement (.epSlotVsrai s p) := of_raw _ _ rfl rfl
theorem epSlotVneg (s : EpArgs) (p : EpSlot) : Statement (.epSlotVneg s p) := of_raw _ _ rfl rfl
theorem epSlotVabs (s : EpArgs) (p : EpSlot) : Statement (.epSlotVabs s p) := of_raw _ _ rfl rfl
theorem epSlotVaddi (s : EpArgs) (p : EpSlot) : Statement (.epSlotVaddi s p) := of_raw _ _ rfl rfl
theorem apSlotAdd (s : ApArgs) (p : EpSlot) : Statement (.apSlotAdd s p) := of_raw _ _ rfl rfl
theorem apSlotSub (s : ApArgs) (p : EpSlot) : Statement (.apSlotSub s p) := of_raw _ _ rfl rfl
theorem apSlotAnd (s : ApArgs) (p : EpSlot) : Statement (.apSlotAnd s p) := of_raw _ _ rfl rfl
theorem apSlotOr (s : ApArgs) (p : EpSlot) : Statement (.apSlotOr s p) := of_raw _ _ rfl rfl
theorem apSlotXor (s : ApArgs) (p : EpSlot) : Statement (.apSlotXor s p) := of_raw _ _ rfl rfl
theorem apSlotAddi (s : ApArgs) (p : EpSlot) : Statement (.apSlotAddi s p) := of_raw _ _ rfl rfl
theorem apSlotSlli (s : ApArgs) (p : EpSlot) : Statement (.apSlotSlli s p) := of_raw _ _ rfl rfl
theorem apSlotSrli (s : ApArgs) (p : EpSlot) : Statement (.apSlotSrli s p) := of_raw _ _ rfl rfl
theorem apSlotLdi (s : ApArgs) (p : EpSlot) : Statement (.apSlotLdi s p) := of_raw _ _ rfl rfl
theorem reservedEncoding : Statement .reservedEncoding := of_none _ rfl
theorem nop : Statement .nop := of_raw _ _ rfl rfl
theorem eret : Statement .eret := of_raw _ _ rfl rfl
theorem halt : Statement .halt := of_raw _ _ rfl rfl
theorem syncAe : Statement .syncAe := of_raw _ _ rfl rfl
theorem ret : Statement .ret := of_raw _ _ rfl rfl
theorem pbar : Statement .pbar := of_raw _ _ rfl rfl
theorem fenceDur : Statement .fenceDur := of_raw _ _ rfl rfl
theorem yield : Statement .yield := of_raw _ _ rfl rfl
theorem launch : Statement .launch := of_none _ rfl
theorem read : Statement .read := of_none _ rfl
theorem write : Statement .write := of_none _ rfl
theorem claim : Statement .claim := of_none _ rfl
theorem handover : Statement .handover := of_none _ rfl
theorem freeze : Statement .freeze := of_none _ rfl
theorem unfreeze : Statement .unfreeze := of_none _ rfl
theorem partition : Statement .partition := of_none _ rfl
theorem selftest : Statement .selftest := of_none _ rfl
theorem attest : Statement .attest := of_none _ rfl
theorem recover : Statement .recover := of_none _ rfl
theorem supvecWrite : Statement .supvecWrite := of_none _ rfl
theorem evtailWrite : Statement .evtailWrite := of_none _ rfl
theorem evdropClear : Statement .evdropClear := of_none _ rfl
theorem logbaseWrite : Statement .logbaseWrite := of_none _ rfl
theorem loglenWrite : Statement .loglenWrite := of_none _ rfl
theorem tailWrite : Statement .tailWrite := of_none _ rfl
theorem dropClear : Statement .dropClear := of_none _ rfl
theorem selftestComplete : Statement .selftestComplete := of_none _ rfl
theorem boot : Statement .boot := of_none _ rfl
theorem powerFailDrain : Statement .powerFailDrain := of_none _ rfl
theorem portNoActiveLane : Statement .portNoActiveLane := of_none _ rfl
theorem syncBeat : Statement .syncBeat := of_none _ rfl
theorem packageMarkUpdate : Statement .packageMarkUpdate := of_none _ rfl
theorem fabricMarkExchange : Statement .fabricMarkExchange := of_none _ rfl
theorem vlcapChange : Statement .vlcapChange := of_none _ rfl
theorem admitTeam : Statement .admitTeam := of_none _ rfl
theorem ageTick : Statement .ageTick := of_none _ rfl
theorem saveComplete : Statement .saveComplete := of_none _ rfl
theorem hartStart : Statement .hartStart := of_none _ rfl
theorem tileRunStart : Statement .tileRunStart := of_none _ rfl
theorem stageSwitch : Statement .stageSwitch := of_none _ rfl
theorem teamEnd : Statement .teamEnd := of_none _ rfl
theorem launchComplete : Statement .launchComplete := of_none _ rfl
theorem supervisorSlotLanded : Statement .supervisorSlotLanded := of_none _ rfl
theorem machineCheck : Statement .machineCheck := of_none _ rfl
theorem copyFailure : Statement .copyFailure := of_none _ rfl
theorem copyLineLand : Statement .copyLineLand := of_none _ rfl
theorem copyComplete : Statement .copyComplete := of_none _ rfl
theorem copyIssueResume : Statement .copyIssueResume := of_none _ rfl
theorem cfetchLand : Statement .cfetchLand := of_none _ rfl
theorem apDecodeResume : Statement .apDecodeResume := of_none _ rfl
theorem apResync : Statement .apResync := of_none _ rfl
theorem vwaitMet : Statement .vwaitMet := of_none _ rfl
theorem vwaitTimeout : Statement .vwaitTimeout := of_none _ rfl
theorem barWake : Statement .barWake := of_none _ rfl
theorem barTimeout : Statement .barTimeout := of_none _ rfl
theorem bbWake : Statement .bbWake := of_none _ rfl
theorem cwaitWake : Statement .cwaitWake := of_none _ rfl
theorem cfwaitWake : Statement .cfwaitWake := of_none _ rfl
theorem clkWaitWake : Statement .clkWaitWake := of_none _ rfl
theorem clockWide : Statement .clockWide := of_none _ rfl
theorem rpAccept : Statement .rpAccept := of_none _ rfl
theorem rpResult : Statement .rpResult := of_none _ rfl
theorem rpTimeout : Statement .rpTimeout := of_none _ rfl
theorem ldAsofRead : Statement .ldAsofRead := of_none _ rfl
theorem digWaitWake : Statement .digWaitWake := of_none _ rfl
theorem fenceDone : Statement .fenceDone := of_none _ rfl
theorem fenceDurDone : Statement .fenceDurDone := of_none _ rfl
theorem pbarComplete : Statement .pbarComplete := of_none _ rfl
theorem commitWait : Statement .commitWait := of_none _ rfl
theorem lnchAnswer : Statement .lnchAnswer := of_none _ rfl
theorem tlbinvComplete : Statement .tlbinvComplete := of_none _ rfl
theorem pgmigComplete : Statement .pgmigComplete := of_none _ rfl
theorem writeApply : Statement .writeApply := of_none _ rfl
theorem dupWritePerform : Statement .dupWritePerform := of_none _ rfl
theorem migrationTimeout : Statement .migrationTimeout := of_none _ rfl
theorem cellarAccept : Statement .cellarAccept := of_none _ rfl
theorem scrubBurst : Statement .scrubBurst := of_none _ rfl
theorem filterClear : Statement .filterClear := of_none _ rfl
theorem rowSpareBurst : Statement .rowSpareBurst := of_none _ rfl
theorem rowSpareRemap : Statement .rowSpareRemap := of_none _ rfl
theorem wearLevelMove : Statement .wearLevelMove := of_none _ rfl
theorem laneSpareSwitch : Statement .laneSpareSwitch := of_none _ rfl
theorem logWrite : Statement .logWrite := of_none _ rfl
theorem eventWrite : Statement .eventWrite := of_none _ rfl
theorem unlistedCommandCode : Statement .unlistedCommandCode := of_none _ rfl
theorem storeAppliedToL2 : Statement .storeAppliedToL2 := of_none _ rfl
theorem fabricWindowAccess : Statement .fabricWindowAccess := of_none _ rfl

end Sys2Proof.Laws.Selection
end

