-- ==== Sys2Proof/Laws/Scalar.lean ====
section
/-! SUPPORT. Everything that the shared scalar operations can do. -/

namespace Sys2Proof.Machine

/-- A two-source operation completes in every state. -/
theorem frOp_next (f : Word → Word → Word) (o : FR) (s : State) :
    frOp f o s = .next (s.setHart s.cur
      (((s.hart s.cur).setA o.d.toNat (f ((s.hart s.cur).aReg o.a.toNat) ((s.hart s.cur).aReg o.b.toNat))).at
        ((s.hart s.cur).pc + 8))) := by
  simp [frOp, ap, runIn]

/-- An immediate operation completes in every state. -/
theorem fiOp_next (f : Word → FI → Word) (o : FI) (s : State) :
    fiOp f o s = .next (s.setHart s.cur
      (((s.hart s.cur).setA o.d.toNat (f ((s.hart s.cur).aReg o.a.toNat) o)).at ((s.hart s.cur).pc + 8))) := by
  simp [fiOp, ap, runIn]

/-- A division by a value other than 0 completes; a division by 0 takes INT_DIV0. -/
theorem frDiv_cases (f : Word → Word → Word) (o : FR) (s : State) :
    frDiv f o s =
      if (s.hart s.cur).aReg o.b.toNat = 0 then
        .next (s.takeTrap s.cur unitAp Cause.intDiv0.code 0 (s.hart s.cur).pc 0)
      else .next (s.setHart s.cur
        (((s.hart s.cur).setA o.d.toNat (f ((s.hart s.cur).aReg o.a.toNat) ((s.hart s.cur).aReg o.b.toNat))).at
          ((s.hart s.cur).pc + 8))) := by
  by_cases h : (s.hart s.cur).aReg o.b.toNat = 0#64 <;> simp [frDiv, ap, runIn, h]

end Sys2Proof.Machine
end

