-- ==== Sys2Proof/Tests/Slice0.lean ====
section
/-! SUPPORT. Tests of the model, and a witness for the hypotheses of each statement. Expected values come from the spec's tables and
worked examples, or from hand calculation by its rules. -/

namespace Sys2Proof.Tests

set_option Elab.async false

open Sys2Proof Sys2Proof.Machine Sys2Proof.Claims

/-! ### A small state: hart 0 of a team of one on core 0, with a supervisor routine, one mapped page and a Cask share -/

/-- A leaf with PRES, LEAF, RDP, WRT, EXE, ACC, DTY and the further bits `more` (Table 4.4). -/
def leafFor (frame : Nat) (more : Nat := 0) : Word :=
  BitVec.ofNat 64 (frame + 7 + 2 ^ 48 + 2 ^ 49 + 2 ^ 56 + 2 ^ 57 + more)

/-- Pages that the core's TLB holds: 0x100000 plain, 0x200000 stamped, 0x300000 for the supervisor, 0x400000 read-only, 0x500000
in the Cellar. -/
def pages : List TlbEntry :=
  [⟨0, 0x100000, 0x10000, leafFor 0x40000, 0x1000⟩, ⟨0, 0x200000, 0x10000, leafFor 0x50000 (2 ^ 53), 0x1008⟩,
   ⟨0, 0x300000, 0x10000, leafFor 0x60000 (2 ^ 50), 0x1010⟩, ⟨0, 0x400000, 0x10000, leafFor 0x70000 - 2 ^ 48, 0x1018⟩,
   ⟨0, 0x500000, 0x10000, leafFor 0x400000000000 (2 ^ 55), 0x1020⟩]

def team0 : Team := { launch := 0, part := 0, ix := 0, die := 0, cores := [0], size := 1, status := .running }

/-- A launch of one tile: E = D = 1, S = 1, L = 1, priority 0, queue 0. -/
def launch0 : Launch :=
  { part := 0, addr := 0x100000, status := .running, nextTeam := 1
    raw := 0x1000100010001000100010000000100000001000000010000000100000000000000000000000000000007 }

def core0 : Core :=
  { team := some 0, share := 0x10000, code := [(0, { landed := some true, va := 0x1000 })],
    sup := { landed := some true, va := 0x300000 }, tlb := pages }

def hart0 : Hart :=
  { status := .running, size := 1, pc := 0x1010, seg := 0x1000, vl := 8, kid := 7,
    a := [(1, 0xFFFFFFFFFFFFFFF8), (2, 3), (3, 9), (4, 0x100040)] }

def base : State :=
  { State.reset with
    harts := [(0, hart0)], cores := [(0, core0)], teams := [(0, some team0)], nextTeam := 1
    launches := [(0, some launch0)], nextLaunch := 1
    parts := [(0, { level := 1, state := 1, w2 := 0x10000, supvec := 0x300001 })]
    svc := { State.reset.svc with booted := true } }

/-- The state in which hart 0 is changed. -/
def st (f : Hart → Hart) : State := base.setHart 0 (f hart0)

/-- The bits of what follows the instruction. -/
def after (i : Instr) (s : State) (p : State → Bool) : Bool := match exec i s with
  | .next t => p t
  | _ => false

/-- The instruction completes, at the next word, and a[5] is the value. -/
def gives (i : Instr) (s : State) (v : Word) : Bool :=
  after i s fun t => (t.hart 0).aReg 5 == v && (t.hart 0).pc == (s.hart 0).pc + 8

/-- The instruction enters the supervisor routine with the cause and `sr.tval`, and its own pc saved. -/
def traps (i : Instr) (s : State) (c : Cause) (tval : Word) (k : Nat := 0) : Bool :=
  after i s fun t => (t.hart 0).cause == c.code.setWidth 64 && (t.hart 0).tval == tval && (t.hart 0).supv &&
    (t.hart 0).pc == 0x300000 && (t.hart 0).epc == (s.hart 0).pc && (t.hart 0).evstart == BitVec.ofNat 64 k

/-- A result of the stop monad that is fine, with what it must hold. -/
def fine {α : Type} (r : EStateM.Result Stop State α) (p : α → State → Bool) : Bool := match r with
  | .ok x s => p x s
  | .error _ _ => false

/-- The state in which hart 0 waits. -/
def waitsIn (s : State) (w : Wait) : State := s.setHart 0 { s.hart 0 with wait := some w }

/-- What `fine` says: there is a result, and it has the property. -/
theorem fine_elim {α : Type} {r : EStateM.Result Stop State α} {p : α → State → Bool} (h : fine r p = true) : ∃ x s, r = .ok x s ∧ p x s = true := by
  cases r with
  | ok x s => exact ⟨x, s, rfl, h⟩
  | error e s => simp [fine] at h

/-! ### Well-formedness: one ill-formed term for each check (R167, R368; Tables 8.10, 22.4 and 22.5), with the class that it reports. -/

/-- The instruction is ill formed and its word reports the class. -/
def refusedAs (c : Word) (is : List Instr) : Bool :=
  is.all fun i => !i.wellFormed && (fieldError i).map DecodeError.tval == some c

/-- Format F3 with D, A, B, mask, MU and X. -/
def f3 (d a b : BitVec 8) (m : BitVec 4 := 0) (mu : Bool := false) (x : BitVec 12 := 0) : F3 :=
  ⟨d, a, b, m, mu, false, false, false, 0, x⟩

/-- Format FM with V, BASE, X, MT and OFF. -/
def fm (v : BitVec 8) (b : BitVec 6) (x : BitVec 8) (mt : BitVec 5) (off : BitVec 7 := 0) : FM :=
  ⟨v, b, x, 0, false, 0, false, 0, 0, mt, off⟩

/-- Format FC with D, A, B and X. -/
def fc (d a b : BitVec 6) (x : BitVec 14 := 0) : FC := ⟨d, a, b, 0, 0, 0, x⟩

/-- Format FX with A, GF, T, VR, VC, TY. -/
def fx (a : BitVec 8) (gf t : BitVec 3) (vr : BitVec 8) (vc : BitVec 7) (ty : BitVec 4) (xm : BitVec 8 := 0) : FX :=
  ⟨a, gf, t, vr, vc, ty, false, 0, 0, xm⟩

theorem test_illFormed_access : refusedAs 0x402 [
    .bext ⟨1, 2, 0, 0, 0, 0x0000⟩, .bext ⟨1, 2, 0, 0, 0, 0x0860⟩, .bins ⟨1, 2, 0, 0, 0, 0x1001⟩,
    .tlbinv (fc 0 5 0 2), .pgmig (fc 3 4 5 3)] = true := by decide +kernel

theorem test_illFormed_scope : refusedAs 6 [.ldAcq 0 ⟨1, 2, 0, 0, 0, 6⟩, .amoAdd true ⟨1, 2, 3, 0, 0, 6⟩, .fence (fc 0 0 0 6)] = true ∧
    refusedAs 7 [.stRel 3 ⟨0, 2, 1, 0, 0, 7⟩, .amoCas false ⟨1, 2, 3, 4, 0, 7⟩] = true := by decide +kernel

theorem test_illFormed_accessUnused : refusedAs 0x403 [
    .add ⟨1, 2, 3, 1, 0, 0⟩, .cmov ⟨1, 2, 3, 4, 0, 1⟩, .clz ⟨1, 2, 3, 0, 0, 0⟩, .bext ⟨1, 2, 0, 0, 0, 0x4200⟩, .bins ⟨1, 2, 0, 0, 0, 0x2200⟩,
    .slli ⟨1, 2, 0, 64⟩, .ldi ⟨1, 2, 0, 5⟩, .adpc ⟨1, 2, 0, 5⟩, .ld 3 ⟨1, 2, 3, 0, 0, 0⟩, .st 3 ⟨1, 2, 3, 0, 0, 0⟩,
    .ldAcq 2 ⟨1, 2, 0, 0, 0, 8⟩, .stRel 2 ⟨1, 2, 3, 0, 0, 0⟩, .amoAdd true ⟨1, 2, 3, 4, 0, 0⟩, .amoSwap true ⟨1, 2, 3, 0, 0, 32⟩,
    .amoCas true ⟨1, 2, 3, 4, 0, 0x20⟩, .jmp ⟨1, 0, 0, 5⟩, .bloop ⟨0, 1, 0, 5⟩, .jr ⟨0, 2, 0, 0, 0, 1⟩, .callt ⟨1, 2, 0, 0, 0, 0⟩,
    .bvAny ⟨16, 0, 0, 1⟩, .bvAll ⟨0, 16, 0, 1⟩] = true := by decide +kernel

theorem test_illFormed_system : refusedAs 0x403 [
    .trap ⟨0, 1, 0, 0, 0, 0, 0⟩, .brk ⟨1, 0, 0, 0, 0, 0, 0⟩, .srd (fc 1 0 0 0x1000), .swr (fc 0 1 0 0x2003), .swrFcsr (fc 1 2 0 3),
    .tlbinv (fc 0 5 0 0x10), .pgmig (fc 3 4 5 4), .cdone (fc 1 2 0), .cclr (fc 1 2 0), .cwaitAny (fc 1 2 3), .cpy (fc 1 2 3),
    .cpy2d (fc 1 2 3 2), .bbInit (fc 1 2 3), .bbTest (fc 1 2 3), .barArrive (fc 0 1 0), .barWait (fc 1 0 0), .barSync (fc 0 1 0),
    .barMset (fc 0 0 1), .barGen (fc 1 1 0), .fence (fc 0 0 0 8), .fencePath (fc 0 0 0 0x1000), .stStamp (fc 1 2 3 1), .clkRd (fc 1 1 2),
    .clkWait (fc 1 1 0), .cfetch (fc 0 1 0 64), .cfwait (fc 1 1 0), .lnch (fc 1 2 3), .claimWork (fc 1 2 3 1), .digPost (fc 1 2 3 1),
    .digWait (fc 1 2 3 1)] = true := by decide +kernel

theorem test_illFormed_vector : refusedAs 0x402 [
    .vadd ⟨1, 8, 0, 0, false, true, false, false, 0, 0⟩, .vmov ⟨1, 255, 0, 0, false, true, false, false, 0, 0⟩,
    .vfma ⟨1, 0, 8, 0, false, false, true, false, 0, 0⟩, .vsel (f3 1 2 3 1 true), .vcmp (f3 0 2 3), .vcmp (f3 16 2 3), .mand (f3 0 1 2),
    .mor (f3 1 16 2), .mnot (f3 1 16 0), .mpopc (f3 1 16 0), .mset (f3 0 0 0 0 false 4), .mset (f3 1 0 0 0 false 129), .vmsk (f3 0 1 0),
    .vred (f3 1 2 0 0 false 6), .vred (f3 1 2 0 0 true), .vred (f3 2 2 0), .vscan (f3 1 2 0 0 false 7), .vscan (f3 2 2 0),
    .vdot (f3 1 2 3 0 true), .vdot (f3 3 2 3), .vdotg (f3 1 2 3), .vdotg (f3 1 2 3 1 true 1), .vsacb (f3 1 2 3 0 true), .vmac (f3 1 2 3 0 true),
    .vsum (f3 1 2 0 0 true), .vsum (f3 2 2 0), .vslup (f3 2 2 0), .vperm (f3 2 1 2), .vzip (f3 2 2 1), .vcompress (f3 2 2 0), .vunzip (f3 2 2 1)]
    = true := by decide +kernel

theorem test_illFormed_configuration : refusedAs 0x402 [
    .vcfg (f3 250 0 0 0 false (6 * 64)), .vcfg (f3 250 0 0 0 false (3 * 64 + 13)), .vsetl (f3 64 1 0), .vsetl (f3 1 64 0), .vlq (f3 1 128 0),
    .vtag (f3 1 64 0), .vdead (f3 250 0 0 0 false 6), .vmvAe (f3 1 64 0), .vmvAe (f3 1 2 0 0 false 0x180), .vmvEa (f3 64 1 0),
    .vmvEa (f3 1 2 0 0 false 0x180), .vbcast (f3 1 64 0), .vbcast (f3 1 2 0 0 false 0x180), .vldu (f3 1 64 0 0 false 2),
    .vldu (f3 1 2 0 0 false 0x10)] = true ∧
    refusedAs 0x0E [.vcfg (f3 1 0 0 0 false 0x0E)] = true ∧ refusedAs 0x14 [.vcfg (f3 1 0 0 0 false 0x14)] = true := by decide +kernel

theorem test_illFormed_vectorUnused : refusedAs 0x403 [
    .vadd ⟨1, 2, 3, 0, false, false, false, true, 0, 0⟩, .vadd (f3 1 2 3 0 false 1), .vsqrt (f3 1 2 3), .vmov ⟨1, 2, 0, 0, false, false, true, false, 0, 0⟩,
    .vcmp (f3 1 2 3 0 false 8), .vclass (f3 1 2 3), .mand (f3 1 2 3 1), .mnot (f3 1 2 3), .mpopc (f3 1 2 3), .mset (f3 1 2 0), .vmsk (f3 1 2 3),
    .vred (f3 1 2 3), .vscan (f3 1 2 0 0 false 8), .vdot (f3 1 2 3 0 false 1), .vdotg (f3 1 2 3 0 false 9), .vsac (f3 1 2 3 0 false 1),
    .vslup (f3 1 2 0 0 false 128), .vperm (f3 1 2 3 0 false 1), .vunzip (f3 1 2 3 0 false 2), .vpack4 (f3 1 2 3), .vunpk4 (f3 1 2 3 0 false 1),
    .vcfg (f3 1 2 0), .vsetl (f3 1 2 3), .vtag (f3 1 2 0 0 false 1), .vrotb (f3 1 0 0), .vrotb (f3 0 0 0 0 false 128), .vdead (f3 1 2 0),
    .vmvAe (f3 1 2 0 0 false 0x200), .vmvEa (f3 1 2 3), .vbcast (f3 1 2 0 0 false 1), .vid (f3 1 2 0), .vrecip (f3 1 2 3), .vldu (f3 1 2 0 0 false 0x22)]
    = true := by decide +kernel

theorem test_illFormed_vectorMemory : refusedAs 0x402 [
    .vld (fm 1 2 0 0x0E), .vlds (fm 1 2 3 0x10), .vlds (fm 1 2 64 2), .vld (fm 1 2 0 3), .vld ⟨1, 2, 0, 0, false, 1, false, 1, 0, 2, 0⟩,
    .vldseg ⟨1, 2, 0, 0, false, 0, false, 1, 0, 2, 0⟩, .vldm (fm 0 2 64 0), .vpref (fm 0 2 0 0x10), .vst (fm 1 2 0 0x0F), .vsts (fm 1 2 64 2),
    .vstx (fm 1 2 3 0x11), .vstm (fm 1 2 64 0), .vamoadd (fm 1 2 3 5), .vwait (fm 1 2 3 2), .vwait (fm 1 2 3 0x0C 1),
    .vwait ⟨1, 2, 3, 0, false, 0, false, 3, 0, 2, 1⟩, .vsave (fm 250 2 6 0), .vrest (fm 250 2 6 0), .rpSend (fm 1 2 0 0x0A), .rpSend (fm 1 2 6 2),
    .rpRecv (fm 1 2 3 0x0C)] = true := by decide +kernel

theorem test_illFormed_vectorMemoryUnused : refusedAs 0x403 [
    .vld (fm 0 2 1 2), .vld ⟨0, 2, 0, 0, false, 0, false, 2, 0, 2, 0⟩, .vldm (fm 0 2 1 2), .vldm (fm 0 2 1 0 8), .vpref (fm 1 2 0 2), .vst (fm 1 2 1 2),
    .vst ⟨1, 2, 0, 0, true, 0, false, 0, 0, 2, 0⟩, .vstm (fm 1 2 1 2), .vspill (fm 1 2 1 0), .vfill (fm 1 2 0 2), .vwait ⟨1, 2, 3, 0, false, 0, false, 4, 0, 2, 1⟩,
    .vwait (fm 1 2 3 2 0x11), .vsave (fm 1 2 3 2), .rpSend (fm 1 2 8 2), .rpRecv (fm 1 2 0 2 1)] = true := by decide +kernel

theorem test_illFormed_matrix : refusedAs 0x402 [
    .mma (fx 32 7 0 0 0 3), .mma (fx 32 3 0 249 0 3), .mma (fx 32 3 0 0 0 12), .mma (fx 33 3 0 0 0 0), .mma (fx 32 3 0 0 1 0),
    .mma ⟨32, 3, 0, 0, 0, 6, true, 0, 0, 0⟩, .mma ⟨4, 3, 0, 0, 0, 3, true, 0, 0, 0⟩, .mma ⟨250, 3, 0, 0, 0, 3, true, 0, 0, 0⟩,
    .mmasp (fx 32 3 0 0 0 1), .mzero (fx 0 7 0 0 0 0), .mzero (fx 0 3 0 0 0 12), .mvat2v (fx 1 0 0 0 0 12), .mv2vat (fx 1 0 0 0 0 0), .mv2t (fx 1 7 0 0 0 3),
    .mt2v (fx 1 1 0 255 0 3), .mshape (fc 0 1 2 12), .mldvat (fc 0 1 2 0x3FF), .mstvat (fc 0 1 2 0x2FE)] = true ∧
    refusedAs 0x403 [.mma (fx 32 3 0 0 0 3 0x20), .mma ⟨32, 3, 0, 0, 0, 3, false, 0, 1, 0⟩, .mmasp ⟨32, 3, 0, 0, 0, 3, true, 0, 0, 0⟩, .mzero (fx 2 3 0 0 0 0),
      .mvat2v (fx 32 3 1 0 0 3), .mv2vat (fx 32 3 0 0 0 3 0x10), .mv2t (fx 32 3 0 0 1 3), .mt2v (fx 32 3 0 0 0 3 2), .mshape (fc 1 1 2 3),
      .mldt (fc 0 1 2 8), .mstt (fc 1 1 2 0), .mldvat (fc 1 1 2 0), .mrdshape (fc 1 1 0 0)] = true := by decide +kernel

/-- Table 22.4: an undefined OP of slot 1 reports 0x411; the unused IMM of slot 1 reports 0x413. -/
theorem test_illFormed_paired : refusedAs 0x411 [.epSlotVadd ⟨0, 1, 0, 0⟩ ⟨0x0F, 2, 3, 0, 0⟩, .apSlotAdd ⟨1, 2, 0⟩ ⟨0x11, 2, 3, 0, 0⟩] = true ∧
    refusedAs 0x413 [.epSlotVmov ⟨0, 1, 0, 0⟩ ⟨0, 2, 3, 0, 1⟩, .apSlotAddi ⟨1, 2, 9⟩ ⟨0x0D, 2, 3, 0, 1⟩] = true ∧
    refusedAs 0x403 [.epSlotVmul ⟨0, 1, 0, 1⟩ ⟨0, 2, 3, 0, 0⟩, .apSlotXor ⟨1, 2, 1⟩ ⟨0, 2, 3, 0, 0⟩, .apSlotSlli ⟨1, 2, 64⟩ ⟨0, 2, 3, 0, 0⟩,
      .apSlotLdi ⟨1, 2, 1⟩ ⟨0, 2, 3, 0, 0⟩] = true := by decide +kernel

/-- R272: a form of `swr` names its own register. -/
theorem test_illFormed_swrForms :
    [Instr.swr (fc 0 1 0 3), .swrVl (fc 0 1 0 1), .swrFcsr (fc 0 1 0 0), .swrSlots (fc 0 1 0 3), .swrEc (fc 0 1 0 3), .swrRrb (fc 0 1 0 3)].all
      (fun i => !i.wellFormed) = true := by decide +kernel

/-- A word without operands with a field set (R171), and Table 8.10's words of classes 0x400 and 0x401. -/
theorem test_strayFields : [(0x1000000000000001, 0x403), (0x1002100000000000, 0x403), (0x1005001000000000, 0x403), (0x1007000000000001, 0x403),
    (0x3802000000000001, 0x403), (0x3803000000000001, 0x403), (0x3904000000000001, 0x403), (0x0D03001000000000, 0x403), (0x0300000000000000, 0x400),
    (0x7F00000000000000, 0x400), (0, 0x400), (0x181F000000000000, 0x401), (0x0C80000000000000, 0x401), (0x090B000000000000, 0x401),
    (0x8F00000000000000, 0x401)].all (fun p => match decode p.1 with | .error e => e.tval == p.2 | .ok _ => false) = true := by decide +kernel

/-! ### Decoding: a word of every instruction, put together from its format (Table 8.1), its function code (Table 8.9) and, for a
paired word, its slots (R161, R162 and Tables 8.5, 8.6). -/

/-- Each word decodes to its instruction, and that instruction is well formed. -/
def readsAll (ws : List (Nat × Instr)) : Bool :=
  ws.all fun p => decodeTableWord 64 p.1 == some p.2 && p.2.wellFormed

theorem test_decode_scalar : readsAll [
    (0x0100F51A80900000, .add ⟨61, 17, 42, 0, 9, 0⟩),
    (0x0101F51A80900000, .sub ⟨61, 17, 42, 0, 9, 0⟩),
    (0x0102F51A80900000, .mul ⟨61, 17, 42, 0, 9, 0⟩),
    (0x0103F51A80900000, .mulh ⟨61, 17, 42, 0, 9, 0⟩),
    (0x0104F51A80900000, .mulhu ⟨61, 17, 42, 0, 9, 0⟩),
    (0x0105F51A80900000, .div ⟨61, 17, 42, 0, 9, 0⟩),
    (0x0106F51A80900000, .divu ⟨61, 17, 42, 0, 9, 0⟩),
    (0x0107F51A80900000, .rem ⟨61, 17, 42, 0, 9, 0⟩),
    (0x0108F51A80900000, .remu ⟨61, 17, 42, 0, 9, 0⟩),
    (0x0109F51A80900000, .and ⟨61, 17, 42, 0, 9, 0⟩),
    (0x010AF51A80900000, .or ⟨61, 17, 42, 0, 9, 0⟩),
    (0x010BF51A80900000, .xor ⟨61, 17, 42, 0, 9, 0⟩),
    (0x010CF51A80900000, .andn ⟨61, 17, 42, 0, 9, 0⟩),
    (0x010DF51A80900000, .sll ⟨61, 17, 42, 0, 9, 0⟩),
    (0x010EF51A80900000, .srl ⟨61, 17, 42, 0, 9, 0⟩),
    (0x010FF51A80900000, .sra ⟨61, 17, 42, 0, 9, 0⟩),
    (0x0110F51A80900000, .slt ⟨61, 17, 42, 0, 9, 0⟩),
    (0x0111F51A80900000, .sltu ⟨61, 17, 42, 0, 9, 0⟩),
    (0x0112F51A80900000, .min ⟨61, 17, 42, 0, 9, 0⟩),
    (0x0113F51A80900000, .max ⟨61, 17, 42, 0, 9, 0⟩),
    (0x0114F51A80900000, .minu ⟨61, 17, 42, 0, 9, 0⟩),
    (0x0115F51A80900000, .maxu ⟨61, 17, 42, 0, 9, 0⟩),
    (0x0116F51AA5900000, .cmov ⟨61, 17, 42, 37, 9, 0⟩),
    (0x0117F51000900000, .clz ⟨61, 17, 0, 0, 9, 0⟩),
    (0x0118F51000900000, .ctz ⟨61, 17, 0, 0, 9, 0⟩),
    (0x0119F51000900000, .popc ⟨61, 17, 0, 0, 9, 0⟩),
    (0x011AF5100090220C, .bext ⟨61, 17, 0, 0, 9, 8716⟩),
    (0x011BF51000901000, .bins ⟨61, 17, 0, 0, 9, 4096⟩)] = true := by decide +kernel

theorem test_decode_immediate : readsAll [
    (0x020F516A00000005, .addi ⟨61, 17, 6, 42949672965⟩),
    (0x021F516A00000005, .andi ⟨61, 17, 6, 42949672965⟩),
    (0x022F516A00000005, .ori ⟨61, 17, 6, 42949672965⟩),
    (0x023F516A00000005, .xori ⟨61, 17, 6, 42949672965⟩),
    (0x024F51600000002B, .slli ⟨61, 17, 6, 43⟩),
    (0x025F51600000002B, .srli ⟨61, 17, 6, 43⟩),
    (0x026F51600000002B, .srai ⟨61, 17, 6, 43⟩),
    (0x027F516A00000005, .slti ⟨61, 17, 6, 42949672965⟩),
    (0x028F516A00000005, .sltiu ⟨61, 17, 6, 42949672965⟩),
    (0x029F406A00000005, .ldi ⟨61, 0, 6, 42949672965⟩),
    (0x02AF516A00000005, .ldhi ⟨61, 17, 6, 42949672965⟩),
    (0x02BF406A00000005, .adpc ⟨61, 0, 6, 42949672965⟩)] = true := by decide +kernel

theorem test_decode_loadStore : readsAll [
    (0x0803261000180010, .ld 3 ⟨9, 33, 0, 0, 1, 524304⟩),
    (0x0805261000180010, .ldz 1 ⟨9, 33, 0, 0, 1, 524304⟩),
    (0x080802148027FFF8, .st 0 ⟨0, 33, 18, 0, 2, 524280⟩),
    (0x080E261000000005, .ldAcq 2 ⟨9, 33, 0, 0, 0, 5⟩),
    (0x0813021480000001, .stRel 3 ⟨0, 33, 18, 0, 0, 1⟩)] = true := by decide +kernel

theorem test_decode_atomic : readsAll [
    (0x09001624C030001B, .amoAdd false ⟨5, 34, 19, 0, 3, 27⟩),
    (0x09811624C030001B, .amoAnd true ⟨5, 34, 19, 0, 3, 27⟩),
    (0x09021624C030001B, .amoOr false ⟨5, 34, 19, 0, 3, 27⟩),
    (0x09831624C030001B, .amoXor true ⟨5, 34, 19, 0, 3, 27⟩),
    (0x09041624C030001B, .amoMin false ⟨5, 34, 19, 0, 3, 27⟩),
    (0x09851624C030001B, .amoMax true ⟨5, 34, 19, 0, 3, 27⟩),
    (0x09061624C030001B, .amoMinu false ⟨5, 34, 19, 0, 3, 27⟩),
    (0x09871624C030001B, .amoMaxu true ⟨5, 34, 19, 0, 3, 27⟩),
    (0x09081624C030001B, .amoSwap false ⟨5, 34, 19, 0, 3, 27⟩),
    (0x09891624EC30001B, .amoCas true ⟨5, 34, 19, 44, 3, 27⟩),
    (0x090A1624C030001B, .amoFadd false ⟨5, 34, 19, 0, 3, 27⟩)] = true := by decide +kernel

theorem test_decode_branch : readsAll [
    (0x0C056A7FFFFFFFF0, .beq ⟨21, 42, 7, 68719476720⟩),
    (0x0C156A7FFFFFFFF1, .bne ⟨21, 42, 7, 68719476721⟩),
    (0x0C256A7FFFFFFFF2, .blt ⟨21, 42, 7, 68719476722⟩),
    (0x0C356A7FFFFFFFF3, .bge ⟨21, 42, 7, 68719476723⟩),
    (0x0C456A7FFFFFFFF4, .bltu ⟨21, 42, 7, 68719476724⟩),
    (0x0C556A7FFFFFFFF5, .bgeu ⟨21, 42, 7, 68719476725⟩),
    (0x0C60007123456789, .jmp ⟨0, 0, 7, 4886718345⟩),
    (0x0C70007123456789, .call ⟨0, 0, 7, 4886718345⟩)] = true := by decide +kernel

theorem test_decode_jump : readsAll [
    (0x0D00023000400000, .jr ⟨0, 35, 0, 0, 4, 0⟩),
    (0x0D0103E000000000, .jmpF ⟨0, 62, 0, 0, 0, 0⟩),
    (0x0D02014000FFFFFF, .callt ⟨0, 20, 0, 0, 15, 1048575⟩),
    (0x0D03000000000000, .ret)] = true := by decide +kernel

theorem test_decode_loopBranch : readsAll [
    (0x0E024E1FFFFFFFFE, .bvAny ⟨9, 14, 1, 68719476734⟩),
    (0x0E124E1FFFFFFFFE, .bvNone ⟨9, 14, 1, 68719476734⟩),
    (0x0E224E1FFFFFFFFE, .bvAll ⟨9, 14, 1, 68719476734⟩),
    (0x0E324E1FFFFFFFFE, .bvNall ⟨9, 14, 1, 68719476734⟩),
    (0x0E80000800000001, .brot ⟨0, 0, 0, 34359738369⟩),
    (0x0E90000800000001, .bloop ⟨0, 0, 0, 34359738369⟩)] = true := by decide +kernel

theorem test_decode_system : readsAll [
    (0x1000000000000000, .nop),
    (0x1001000000016ABC, .trap ⟨0, 0, 0, 0, 0, 5, 10940⟩),
    (0x1002000000000000, .eret),
    (0x1003B000000003FF, .srd ⟨44, 0, 0, 0, 0, 0, 1023⟩),
    (0x100402C000000014, .swr ⟨0, 44, 0, 0, 0, 0, 20⟩),
    (0x1005000000000000, .halt),
    (0x1006000000001555, .brk ⟨0, 0, 0, 0, 0, 0, 5461⟩),
    (0x1007000000000000, .syncAe),
    (0x100801300000800D, .tlbinv ⟨0, 19, 0, 0, 0, 2, 13⟩),
    (0x10090D4A40000002, .pgmig ⟨3, 20, 41, 0, 0, 0, 2⟩)] = true := by decide +kernel

theorem test_decode_specialWrite : readsAll [
    (0x100402C000000000, .swrVl ⟨0, 44, 0, 0, 0, 0, 0⟩),
    (0x100402C000000003, .swrFcsr ⟨0, 44, 0, 0, 0, 0, 3⟩),
    (0x100402C000000011, .swrSlots ⟨0, 44, 0, 0, 0, 0, 17⟩),
    (0x100402C000000019, .swrEc ⟨0, 44, 0, 0, 0, 0, 25⟩),
    (0x100402C00000001A, .swrRrb ⟨0, 44, 0, 0, 0, 0, 26⟩)] = true := by decide +kernel

theorem test_decode_elementwise : readsAll [
    (0x1800C86536B89000, .vadd ⟨200, 101, 54, 11, true, false, false, false, 9, 0⟩),
    (0x1801C80536BC9000, .vsub ⟨200, 5, 54, 11, true, true, false, false, 9, 0⟩),
    (0x1802C86507BA9000, .vmul ⟨200, 101, 7, 11, true, false, true, false, 9, 0⟩),
    (0x1803C86536B89000, .vmulh ⟨200, 101, 54, 11, true, false, false, false, 9, 0⟩),
    (0x1804C86536B89000, .vfma ⟨200, 101, 54, 11, true, false, false, false, 9, 0⟩),
    (0x1805C86536B89000, .vfms ⟨200, 101, 54, 11, true, false, false, false, 9, 0⟩),
    (0x1806C86536B89000, .vfnma ⟨200, 101, 54, 11, true, false, false, false, 9, 0⟩),
    (0x1807C80507BE9000, .vdiv ⟨200, 5, 7, 11, true, true, true, false, 9, 0⟩),
    (0x1808C86536B89000, .vrem ⟨200, 101, 54, 11, true, false, false, false, 9, 0⟩),
    (0x1809C86500B89000, .vsqrt ⟨200, 101, 0, 11, true, false, false, false, 9, 0⟩),
    (0x180AC86500B89000, .vrcp ⟨200, 101, 0, 11, true, false, false, false, 9, 0⟩),
    (0x180BC86500B89000, .vrsqrt ⟨200, 101, 0, 11, true, false, false, false, 9, 0⟩),
    (0x180CC86536B89000, .vmin ⟨200, 101, 54, 11, true, false, false, false, 9, 0⟩),
    (0x180DC86536B89000, .vmax ⟨200, 101, 54, 11, true, false, false, false, 9, 0⟩),
    (0x180EC86500B89000, .vabs ⟨200, 101, 0, 11, true, false, false, false, 9, 0⟩),
    (0x180FC86500B89000, .vneg ⟨200, 101, 0, 11, true, false, false, false, 9, 0⟩),
    (0x1810C86536B89000, .vand ⟨200, 101, 54, 11, true, false, false, false, 9, 0⟩),
    (0x1811C86536B89000, .vor ⟨200, 101, 54, 11, true, false, false, false, 9, 0⟩),
    (0x1812C86536B89000, .vxor ⟨200, 101, 54, 11, true, false, false, false, 9, 0⟩),
    (0x1813C86536B89000, .vandn ⟨200, 101, 54, 11, true, false, false, false, 9, 0⟩),
    (0x1814C86500B89000, .vnot ⟨200, 101, 0, 11, true, false, false, false, 9, 0⟩),
    (0x1815C86536B89000, .vsll ⟨200, 101, 54, 11, true, false, false, false, 9, 0⟩),
    (0x1816C86536B89000, .vsrl ⟨200, 101, 54, 11, true, false, false, false, 9, 0⟩),
    (0x1817C86536B89000, .vsra ⟨200, 101, 54, 11, true, false, false, false, 9, 0⟩),
    (0x1818C86500B89000, .vclz ⟨200, 101, 0, 11, true, false, false, false, 9, 0⟩),
    (0x1819C86500B89000, .vpopc ⟨200, 101, 0, 11, true, false, false, false, 9, 0⟩),
    (0x181AC86500B89000, .vcvt ⟨200, 101, 0, 11, true, false, false, false, 9, 0⟩),
    (0x181BC86500B89000, .vmov ⟨200, 101, 0, 11, true, false, false, false, 9, 0⟩),
    (0x181CC86536B09000, .vsel ⟨200, 101, 54, 11, false, false, false, false, 9, 0⟩),
    (0x181DC86500B89000, .vexp2 ⟨200, 101, 0, 11, true, false, false, false, 9, 0⟩),
    (0x181EC86500B89000, .vlog2 ⟨200, 101, 0, 11, true, false, false, false, 9, 0⟩)] = true := by decide +kernel

theorem test_decode_compare : readsAll [
    (0x19000F6536B80005, .vcmp ⟨15, 101, 54, 11, true, false, false, false, 0, 5⟩),
    (0x1901C86500B89000, .vclass ⟨200, 101, 0, 11, true, false, false, false, 9, 0⟩)] = true := by decide +kernel

theorem test_decode_mask : readsAll [
    (0x1A000D0E07003000, .mand ⟨13, 14, 7, 0, false, false, false, false, 3, 0⟩),
    (0x1A010D0E07003000, .mor ⟨13, 14, 7, 0, false, false, false, false, 3, 0⟩),
    (0x1A020D0E07003000, .mxor ⟨13, 14, 7, 0, false, false, false, false, 3, 0⟩),
    (0x1A030D0E07003000, .mandn ⟨13, 14, 7, 0, false, false, false, false, 3, 0⟩),
    (0x1A040D0E00000000, .mnot ⟨13, 14, 0, 0, false, false, false, false, 0, 0⟩),
    (0x1A05630E00280000, .mpopc ⟨99, 14, 0, 2, true, false, false, false, 0, 0⟩),
    (0x1A06630E00200000, .mfirst ⟨99, 14, 0, 2, false, false, false, false, 0, 0⟩),
    (0x1A070D0000000080, .mset ⟨13, 0, 0, 0, false, false, false, false, 0, 128⟩),
    (0x1A080D4D00280000, .vmsk ⟨13, 77, 0, 2, true, false, false, false, 0, 0⟩)] = true := by decide +kernel

theorem test_decode_reduction : readsAll [
    (0x1B00C86500B00005, .vred ⟨200, 101, 0, 11, false, false, false, false, 0, 5⟩),
    (0x1B01C86500B80003, .vscan ⟨200, 101, 0, 11, true, false, false, false, 0, 3⟩),
    (0x1B02C86536B00000, .vdot ⟨200, 101, 54, 11, false, false, false, false, 0, 0⟩),
    (0x1B03C86536B00007, .vdotg ⟨200, 101, 54, 11, false, false, false, false, 0, 7⟩),
    (0x1B04C86536B89000, .vsac ⟨200, 101, 54, 11, true, false, false, false, 9, 0⟩),
    (0x1B05C86536B00000, .vsacb ⟨200, 101, 54, 11, false, false, false, false, 0, 0⟩)] = true := by decide +kernel

theorem test_decode_permute : readsAll [
    (0x1C00C86500B8907F, .vslup ⟨200, 101, 0, 11, true, false, false, false, 9, 127⟩),
    (0x1C01C86500B89040, .vsldn ⟨200, 101, 0, 11, true, false, false, false, 9, 64⟩),
    (0x1C02C86536B89000, .vperm ⟨200, 101, 54, 11, true, false, false, false, 9, 0⟩),
    (0x1C03C86500B89000, .vcompress ⟨200, 101, 0, 11, true, false, false, false, 9, 0⟩),
    (0x1C04C86500B89000, .vexpand ⟨200, 101, 0, 11, true, false, false, false, 9, 0⟩),
    (0x1C05C86536B89000, .vzip ⟨200, 101, 54, 11, true, false, false, false, 9, 0⟩),
    (0x1C06C86536B89001, .vunzip ⟨200, 101, 54, 11, true, false, false, false, 9, 1⟩),
    (0x1C07C86500B89000, .vrev ⟨200, 101, 0, 11, true, false, false, false, 9, 0⟩)] = true := by decide +kernel

theorem test_decode_pack : readsAll [
    (0x1D00C86500B89000, .vpack4 ⟨200, 101, 0, 11, true, false, false, false, 9, 0⟩),
    (0x1D01C86536B89000, .vunpk4 ⟨200, 101, 54, 11, true, false, false, false, 9, 0⟩),
    (0x1D02C86536B89000, .vbscale ⟨200, 101, 54, 11, true, false, false, false, 9, 0⟩)] = true := by decide +kernel

theorem test_decode_configure : readsAll [
    (0x1E00C00000000FEC, .vcfg ⟨192, 0, 0, 0, false, false, false, false, 0, 4076⟩),
    (0x1E01213E00000000, .vsetl ⟨33, 62, 0, 0, false, false, false, false, 0, 0⟩),
    (0x1E02213E00000000, .vlq ⟨33, 62, 0, 0, false, false, false, false, 0, 0⟩),
    (0x1E03C03E00000000, .vtag ⟨192, 62, 0, 0, false, false, false, false, 0, 0⟩),
    (0x1E0400000000007F, .vrotb ⟨0, 0, 0, 0, false, false, false, false, 0, 127⟩),
    (0x1E05C0000000003F, .vdead ⟨192, 0, 0, 0, false, false, false, false, 0, 63⟩),
    (0x1E06C03E0000017F, .vmvAe ⟨192, 62, 0, 0, false, false, false, false, 0, 383⟩),
    (0x1E073EC0000000FF, .vmvEa ⟨62, 192, 0, 0, false, false, false, false, 0, 255⟩),
    (0x1E08C03E00480100, .vbcast ⟨192, 62, 0, 4, true, false, false, false, 0, 256⟩),
    (0x1E09C00000480000, .vid ⟨192, 0, 0, 4, true, false, false, false, 0, 0⟩)] = true := by decide +kernel

theorem test_decode_vectorMemory : readsAll [
    (0x20025B100CE8A5DA, .vld ⟨150, 49, 0, 12, true, 6, true, 0, 10, 11, 90⟩),
    (0x20065B133CE8A5DA, .vlds ⟨150, 49, 51, 12, true, 6, true, 0, 10, 11, 90⟩),
    (0x200A5B1FACE8A5DA, .vldx ⟨150, 49, 250, 12, true, 6, true, 0, 10, 11, 90⟩),
    (0x200E5B100C8FA5DA, .vldseg ⟨150, 49, 0, 12, true, 0, true, 7, 10, 11, 90⟩),
    (0x20125B133CE8A007, .vldm ⟨150, 49, 51, 12, true, 6, true, 0, 10, 0, 7⟩),
    (0x201403100C000181, .vpref ⟨0, 49, 0, 12, false, 0, false, 0, 0, 3, 1⟩),
    (0x20225B100C00A340, .vst ⟨150, 49, 0, 12, false, 0, false, 0, 10, 6, 64⟩),
    (0x20265B133C00A340, .vsts ⟨150, 49, 51, 12, false, 0, false, 0, 10, 6, 64⟩),
    (0x202A5B1FAC00A340, .vstx ⟨150, 49, 250, 12, false, 0, false, 0, 10, 6, 64⟩),
    (0x202E5B100C03A340, .vstseg ⟨150, 49, 0, 12, false, 0, false, 3, 10, 6, 64⟩),
    (0x20325B133C00A005, .vstm ⟨150, 49, 51, 12, false, 0, false, 0, 10, 0, 5⟩),
    (0x20365B1FAC00A6C0, .vamoadd ⟨150, 49, 250, 12, false, 0, false, 0, 10, 13, 64⟩),
    (0x20425B100000007F, .vspill ⟨150, 49, 0, 0, false, 0, false, 0, 0, 0, 127⟩),
    (0x20465B100000007F, .vfill ⟨150, 49, 0, 0, false, 0, false, 0, 0, 0, 127⟩),
    (0x204A5B1FAC020388, .vwait ⟨150, 49, 250, 12, false, 0, false, 2, 0, 7, 8⟩),
    (0x204E5B1690000003, .vsave ⟨150, 49, 105, 0, false, 0, false, 0, 0, 0, 3⟩),
    (0x20525B1690000003, .vrest ⟨150, 49, 105, 0, false, 0, false, 0, 0, 0, 3⟩)] = true := by decide +kernel

theorem test_decode_packet : readsAll [
    (0x21025B102C010600, .rpSend ⟨150, 49, 2, 12, false, 0, false, 1, 0, 12, 0⟩),
    (0x21065B105C000180, .rpRecv ⟨150, 49, 5, 12, false, 0, false, 0, 0, 3, 0⟩)] = true := by decide +kernel

theorem test_decode_matrix : readsAll [
    (0x280082EC8CB6901F, .mma ⟨32, 5, 6, 200, 101, 11, false, 9, 0, 31⟩),
    (0x280482EC8CB69015, .mmasp ⟨32, 5, 6, 200, 101, 11, false, 9, 0, 21⟩),
    (0x2808028C80009000, .mzero ⟨0, 5, 0, 200, 0, 0, false, 9, 0, 0⟩),
    (0x280C828C8CB6902F, .mvat2v ⟨32, 5, 0, 200, 101, 11, false, 9, 0, 47⟩),
    (0x2810828C8CB69020, .mv2vat ⟨32, 5, 0, 200, 101, 11, false, 9, 0, 32⟩),
    (0x281482EC80169001, .mv2t ⟨32, 5, 6, 200, 0, 11, false, 9, 0, 1⟩),
    (0x281882EC80169000, .mt2v ⟨32, 5, 6, 200, 0, 11, false, 9, 0, 0⟩)] = true := by decide +kernel

theorem test_decode_matrixControl : readsAll [
    (0x290002958000000B, .mshape ⟨0, 41, 22, 0, 0, 0, 11⟩),
    (0x2901029580000006, .mldt ⟨0, 41, 22, 0, 0, 0, 6⟩),
    (0x2902029580000005, .mstt ⟨0, 41, 22, 0, 0, 0, 5⟩),
    (0x2903029580003FC0, .mldvat ⟨0, 41, 22, 0, 0, 0, 16320⟩),
    (0x29040295800001FE, .mstvat ⟨0, 41, 22, 0, 0, 0, 510⟩),
    (0x2905C80000000007, .mrdshape ⟨50, 0, 0, 0, 0, 0, 7⟩)] = true := by decide +kernel

theorem test_decode_copy : readsAll [
    (0x300000AADC9D8001, .cpy ⟨0, 10, 43, 28, 39, 6, 1⟩),
    (0x3001D4AADC9D8001, .cpy2d ⟨53, 10, 43, 28, 39, 6, 1⟩),
    (0x3002D4AADC9D8001, .cpyBb ⟨53, 10, 43, 28, 39, 6, 1⟩),
    (0x3003D4A000000000, .cwaitAny ⟨53, 10, 0, 0, 0, 0, 0⟩),
    (0x3004D4A000000000, .cwaitAll ⟨53, 10, 0, 0, 0, 0, 0⟩),
    (0x3005D4A000000000, .cffr ⟨53, 10, 0, 0, 0, 0, 0⟩),
    (0x3006D400009C0000, .cdone ⟨53, 0, 0, 0, 39, 0, 0⟩),
    (0x300700A000000000, .cclr ⟨0, 10, 0, 0, 0, 0, 0⟩)] = true := by decide +kernel

theorem test_decode_byteBarrier : readsAll [
    (0x310000AAC0000000, .bbInit ⟨0, 10, 43, 0, 0, 0, 0⟩),
    (0x310100AAC0000000, .bbExpect ⟨0, 10, 43, 0, 0, 0, 0⟩),
    (0x310200AAC0000000, .bbArrive ⟨0, 10, 43, 0, 0, 0, 0⟩),
    (0x310300AAC0000000, .bbWait ⟨0, 10, 43, 0, 0, 0, 0⟩),
    (0x3104D4A000000000, .bbTest ⟨53, 10, 0, 0, 0, 0, 0⟩)] = true := by decide +kernel

theorem test_decode_trellisBarrier : readsAll [
    (0x320000000000001F, .barArrive ⟨0, 0, 0, 0, 0, 0, 31⟩),
    (0x320100AAC0000012, .barWait ⟨0, 10, 43, 0, 0, 0, 18⟩),
    (0x3202000AC000000F, .barSync ⟨0, 0, 43, 0, 0, 0, 15⟩),
    (0x320300A000000010, .barMset ⟨0, 10, 0, 0, 0, 0, 16⟩),
    (0x3204D40000000011, .barGen ⟨53, 0, 0, 0, 0, 0, 17⟩)] = true := by decide +kernel

theorem test_decode_ordering : readsAll [
    (0x3800000000004005, .fence ⟨0, 0, 0, 0, 0, 1, 5⟩),
    (0x3801000000000ABC, .fencePath ⟨0, 0, 0, 0, 0, 0, 2748⟩),
    (0x3802000000000000, .pbar),
    (0x3803000000000000, .fenceDur),
    (0x3804D4AAC0000000, .stStamp ⟨53, 10, 43, 0, 0, 0, 0⟩),
    (0x3805D4AAC0000000, .ldAsof ⟨53, 10, 43, 0, 0, 0, 0⟩),
    (0x3806D40AC0000000, .clkRd ⟨53, 0, 43, 0, 0, 0, 0⟩),
    (0x380702B000000000, .clkWait ⟨0, 43, 0, 0, 0, 0, 0⟩)] = true := by decide +kernel

theorem test_decode_claim : readsAll [
    (0x390000A00000003F, .cfetch ⟨0, 10, 0, 0, 0, 0, 63⟩),
    (0x3901D4000000003E, .cfwait ⟨53, 0, 0, 0, 0, 0, 62⟩),
    (0x3902D4A000000000, .lnch ⟨53, 10, 0, 0, 0, 0, 0⟩),
    (0x3903D4AAC0000000, .claimWork ⟨53, 10, 43, 0, 0, 0, 0⟩),
    (0x3904000000000000, .yield),
    (0x3905D4AADC000000, .digPost ⟨53, 10, 43, 28, 0, 0, 0⟩),
    (0x3906D4AADC000000, .digWait ⟨53, 10, 43, 28, 0, 0, 0⟩)] = true := by decide +kernel

theorem test_decode_deprecated : readsAll [
    (0x7E00C86536B09000, .vmac ⟨200, 101, 54, 11, false, false, false, false, 9, 0⟩),
    (0x7E01C86500B89000, .vrecip ⟨200, 101, 0, 11, true, false, false, false, 9, 0⟩),
    (0x7E02C86500B00000, .vsum ⟨200, 101, 0, 11, false, false, false, false, 0, 0⟩),
    (0x7E03C82100B8000B, .vldu ⟨200, 33, 0, 11, true, false, false, false, 0, 11⟩)] = true := by decide +kernel

theorem test_decode_epPair : readsAll [
    (0x80C8659021FC06DE, .epSlotVadd ⟨200, 101, 9, 0⟩ ⟨16, ⟨254, 3, 6, 0x1E⟩⟩),
    (0x81C8659021FC06DE, .epSlotVsub ⟨200, 101, 9, 0⟩ ⟨16, ⟨254, 3, 6, 0x1E⟩⟩),
    (0x82C8659021FC06DE, .epSlotVmul ⟨200, 101, 9, 0⟩ ⟨16, ⟨254, 3, 6, 0x1E⟩⟩),
    (0x83C8659021FC06DE, .epSlotVmin ⟨200, 101, 9, 0⟩ ⟨16, ⟨254, 3, 6, 0x1E⟩⟩),
    (0x84C8659021FC06DE, .epSlotVmax ⟨200, 101, 9, 0⟩ ⟨16, ⟨254, 3, 6, 0x1E⟩⟩),
    (0x85C8659021FC06DE, .epSlotVand ⟨200, 101, 9, 0⟩ ⟨16, ⟨254, 3, 6, 0x1E⟩⟩),
    (0x86C8659021FC06DE, .epSlotVor ⟨200, 101, 9, 0⟩ ⟨16, ⟨254, 3, 6, 0x1E⟩⟩),
    (0x87C8659021FC06DE, .epSlotVxor ⟨200, 101, 9, 0⟩ ⟨16, ⟨254, 3, 6, 0x1E⟩⟩),
    (0x88C8659021FC06DE, .epSlotVmov ⟨200, 101, 9, 0⟩ ⟨16, ⟨254, 3, 6, 0x1E⟩⟩),
    (0x89C8659021FC06DE, .epSlotVcvt ⟨200, 101, 9, 0⟩ ⟨16, ⟨254, 3, 6, 0x1E⟩⟩),
    (0x8AC8659AA1FC06DE, .epSlotVslli ⟨200, 101, 9, 21⟩ ⟨16, ⟨254, 3, 6, 0x1E⟩⟩),
    (0x8BC8659AA1FC06DE, .epSlotVsrli ⟨200, 101, 9, 21⟩ ⟨16, ⟨254, 3, 6, 0x1E⟩⟩),
    (0x8CC8659AA1FC06DE, .epSlotVsrai ⟨200, 101, 9, 21⟩ ⟨16, ⟨254, 3, 6, 0x1E⟩⟩),
    (0x8DC8659021FC06DE, .epSlotVneg ⟨200, 101, 9, 0⟩ ⟨16, ⟨254, 3, 6, 0x1E⟩⟩),
    (0x8EC8659021FC06DE, .epSlotVabs ⟨200, 101, 9, 0⟩ ⟨16, ⟨254, 3, 6, 0x1E⟩⟩),
    (0x90C8659AA1FC06DE, .epSlotVaddi ⟨200, 101, 9, 21⟩ ⟨16, ⟨254, 3, 6, 0x1E⟩⟩)] = true := by decide +kernel

theorem test_decode_apPair : readsAll [
    (0xC0F6A00011049AA0, .apSlotAdd ⟨61, 42, 0⟩ ⟨8, ⟨130, 77, 5, 0⟩⟩),
    (0xC1F6A00011049AA0, .apSlotSub ⟨61, 42, 0⟩ ⟨8, ⟨130, 77, 5, 0⟩⟩),
    (0xC2F6A00011049AA0, .apSlotAnd ⟨61, 42, 0⟩ ⟨8, ⟨130, 77, 5, 0⟩⟩),
    (0xC3F6A00011049AA0, .apSlotOr ⟨61, 42, 0⟩ ⟨8, ⟨130, 77, 5, 0⟩⟩),
    (0xC4F6A00011049AA0, .apSlotXor ⟨61, 42, 0⟩ ⟨8, ⟨130, 77, 5, 0⟩⟩),
    (0xD0F6A80011049AA0, .apSlotAddi ⟨61, 42, 4096⟩ ⟨8, ⟨130, 77, 5, 0⟩⟩),
    (0xD1F6A01F91049AA0, .apSlotSlli ⟨61, 42, 63⟩ ⟨8, ⟨130, 77, 5, 0⟩⟩),
    (0xD2F6A01091049AA0, .apSlotSrli ⟨61, 42, 33⟩ ⟨8, ⟨130, 77, 5, 0⟩⟩),
    (0xD3F40FFF11049AA0, .apSlotLdi ⟨61, 0, 8190⟩ ⟨8, ⟨130, 77, 5, 0⟩⟩)] = true := by decide +kernel

/-! ### Scalar operations: results by hand, for a = −8 and b = 3 (Tables 9.2 and 9.4) -/

def r5 : FR := ⟨5, 1, 2, 3, 0, 0⟩

theorem test_scalar : [(Instr.add r5, (0xFFFFFFFFFFFFFFFB : Word)), (.sub r5, 0xFFFFFFFFFFFFFFF5), (.mul r5, 0xFFFFFFFFFFFFFFE8),
    (.mulh r5, 0xFFFFFFFFFFFFFFFF), (.mulhu r5, 2), (.div r5, 0xFFFFFFFFFFFFFFFE), (.divu r5, 0x5555555555555552),
    (.rem r5, 0xFFFFFFFFFFFFFFFE), (.remu r5, 2), (.and r5, 0), (.or r5, 0xFFFFFFFFFFFFFFFB), (.xor r5, 0xFFFFFFFFFFFFFFFB),
    (.andn r5, 0xFFFFFFFFFFFFFFF8), (.sll r5, 0xFFFFFFFFFFFFFFC0), (.srl r5, 0x1FFFFFFFFFFFFFFF), (.sra r5, 0xFFFFFFFFFFFFFFFF),
    (.slt r5, 1), (.sltu r5, 0), (.min r5, 0xFFFFFFFFFFFFFFF8), (.max r5, 3), (.minu r5, 3), (.maxu r5, 0xFFFFFFFFFFFFFFF8),
    (.cmov r5, 0xFFFFFFFFFFFFFFF8), (.clz r5, 0), (.ctz r5, 3), (.popc r5, 61)].all (fun p => gives p.1 base p.2) = true := by decide +kernel

theorem test_immediate : [(Instr.addi ⟨5, 1, 0, 0xFFFFFFFFD⟩, (0xFFFFFFFFFFFFFFF5 : Word)), (.andi ⟨5, 1, 0, 0xFFFFFFFFD⟩, 0xFFFFFFFFFFFFFFF8),
    (.ori ⟨5, 1, 0, 0xFFFFFFFFD⟩, 0xFFFFFFFFFFFFFFFD), (.xori ⟨5, 1, 0, 0xFFFFFFFFD⟩, 5), (.slli ⟨5, 1, 0, 4⟩, 0xFFFFFFFFFFFFFF80),
    (.srli ⟨5, 1, 0, 4⟩, 0x0FFFFFFFFFFFFFFF), (.srai ⟨5, 1, 0, 4⟩, 0xFFFFFFFFFFFFFFFF), (.slti ⟨5, 1, 0, 0xFFFFFFFFD⟩, 1),
    (.sltiu ⟨5, 2, 0, 0xFFFFFFFFD⟩, 1), (.ldi ⟨5, 0, 0, 0xFFFFFFFFD⟩, 0xFFFFFFFFFFFFFFFD), (.ldhi ⟨5, 1, 0, 0x123456789⟩, 0x123456789FFFFFF8),
    (.adpc ⟨5, 0, 0, 0xFFFFFFFF0⟩, 0x1000)].all (fun p => gives p.1 base p.2) = true := by decide +kernel

/-- Table 9.2: −2^63 by −1; the zeros that `clz` and `ctz` find in 0; `cmov` with c = 0. -/
theorem test_scalarCorners :
    (let s := st (·.setA 1 0x8000000000000000 |>.setA 2 0xFFFFFFFFFFFFFFFF)
     gives (.div r5) s 0x8000000000000000 && gives (.rem r5) s 0 && gives (.clz ⟨5, 6, 0, 0, 0, 0⟩) s 64 && gives (.ctz ⟨5, 6, 0, 0, 0, 0⟩) s 64 &&
     gives (.cmov ⟨5, 1, 2, 6, 0, 0⟩) s 0xFFFFFFFFFFFFFFFF) = true := by decide +kernel

/-- R175: all four divisions by 0 take INT_DIV0, and a0 keeps its 0 (R154). -/
theorem test_divisionByZero : [Instr.div, .divu, .rem, .remu].all (fun f => traps (f ⟨5, 1, 6, 0, 0, 0⟩) base .intDiv0 0) = true ∧
    after (.addi ⟨0, 1, 0, 1⟩) base (fun t => (t.hart 0).aReg 0 == 0) = true := by decide +kernel

/-- R176, Table 9.3. -/
theorem test_bitFields :
    (let s := st (·.setA 1 0x8A5F3 |>.setA 2 0xAB |>.setA 5 0x1122334455667788)
     gives (.bext ⟨5, 1, 0, 0, 0, 0x20C⟩) s 0x8A && gives (.bext ⟨5, 1, 0, 0, 0, 0x220C⟩) s 0xFFFFFFFFFFFFFF8A &&
     gives (.bins ⟨5, 2, 0, 0, 0, 0x208⟩) s 0x112233445566AB88 && gives (.bins ⟨5, 2, 0, 0, 0, 0x1000⟩) s 0xAB) = true := by decide +kernel

/-- Operands that meet the hypotheses of the bit fields at both ends: one bit at 63, and all 64. -/
theorem witness_BitFieldResults : [0x07F, 0x1000].all (fun i : BitVec 20 =>
    0 < (i.extractLsb' 6 7).toNat && (i.extractLsb' 0 6).toNat + (i.extractLsb' 6 7).toNat ≤ 64) = true := by decide +kernel

/-- b ≠ 0, and b = 0. -/
theorem witness_DivisionResults : (runner base).aReg 2 ≠ 0 ∧ (runner base).aReg 6 = 0 := by decide +kernel

/-! ### Loads, stores and atomics (R178-R185): the eight bytes F1 02 83 04 05 06 07 88 at 0x100040, which is 0x40040 -/

/-- Bytes that every die holds at a physical address. -/
def withBytes (s : State) (pa : Nat) (bs : List Byte) : State := s.mapViews (·.poke pa (cleanBytes bs))

def mem0 : State := withBytes base 0x40040 [0xF1, 0x02, 0x83, 0x04, 0x05, 0x06, 0x07, 0x88]

/-- The little-endian value of `n` bytes that die 0 holds. -/
def peek0 (s : State) (pa n : Nat) : Nat := valueOf ((List.range n).map fun i => s.byteAt 0 (pa + i))

/-- The value of `n` bytes that hart 0 reads. -/
def read0 (s : State) (pa n : Nat) : Nat := valueOf ((List.range n).map fun i => s.hartByte 0 (pa + i))

theorem test_loads : [(Instr.ld 0 ⟨5, 4, 0, 0, 0, 0⟩, (0xFFFFFFFFFFFFFFF1 : Word)), (.ldz 0 ⟨5, 4, 0, 0, 0, 0⟩, 0xF1), (.ld 1 ⟨5, 4, 0, 0, 0, 2⟩, 0x0483),
    (.ldz 1 ⟨5, 4, 0, 0, 0, 0⟩, 0x02F1), (.ld 2 ⟨5, 4, 0, 0, 0, 4⟩, 0xFFFFFFFF88070605), (.ldz 2 ⟨5, 4, 0, 0, 0, 4⟩, 0x88070605),
    (.ld 3 ⟨5, 4, 0, 0, 0, 0⟩, 0x88070605048302F1), (.ldAcq 2 ⟨5, 4, 0, 0, 0, 3⟩, 0x048302F1)].all (fun p => gives p.1 mem0 p.2) = true := by decide +kernel

/-- R90, R178: the low bytes of b enter the buffer, and the hart reads them back; the die does not see them yet. -/
theorem test_store : after (.st 1 ⟨0, 4, 1, 0, 0, 0xFFFF8⟩) mem0 (fun t => read0 t 0x40038 4 == 0xFFF8 && peek0 t 0x40038 4 == 0 &&
    read0 t 0x40040 8 == 0x88070605048302F1) = true := by decide +kernel

/-- R96: nothing is buffered, so the release goes on at once; the store itself is buffered. -/
theorem test_storeRelease : after (.stRel 3 ⟨0, 4, 1, 0, 0, 2⟩) mem0 (fun t => read0 t 0x40040 8 == 0xFFFFFFFFFFFFFFF8) = true := by decide +kernel

/-- Table 9.8 on 8 bytes: old 0x88070605048302F1, b = 3, c = 9. -/
theorem test_atomics : [(Instr.amoAdd true ⟨5, 4, 2, 0, 0, 0⟩, 0x88070605048302F4), (.amoAnd true ⟨5, 4, 2, 0, 0, 0⟩, 1),
    (.amoOr true ⟨5, 4, 2, 0, 0, 0⟩, 0x88070605048302F3), (.amoXor true ⟨5, 4, 2, 0, 0, 0⟩, 0x88070605048302F2),
    (.amoMin true ⟨5, 4, 2, 0, 0, 0⟩, 0x88070605048302F1), (.amoMax true ⟨5, 4, 2, 0, 0, 0⟩, 3), (.amoMinu true ⟨5, 4, 2, 0, 0, 0⟩, 3),
    (.amoMaxu true ⟨5, 4, 2, 0, 0, 8⟩, 0x88070605048302F1), (.amoSwap true ⟨5, 4, 2, 0, 0, 0x1B⟩, 3),
    (.amoCas true ⟨5, 4, 2, 3, 0, 0⟩, 0x88070605048302F1)].all (fun p => after p.1 mem0 fun t =>
      (t.hart 0).aReg 5 == 0x88070605048302F1 && peek0 t 0x40040 8 == p.2) = true := by decide +kernel

/-- 4 bytes: the old value comes with its sign, and the bytes beyond are kept; `amo.cas` that finds c writes b; 1.5 + 2.25 = 3.75. -/
theorem test_atomicWord : after (.amoAdd false ⟨5, 4, 1, 0, 0, 0⟩) mem0 (fun t => (t.hart 0).aReg 5 == 0x048302F1 && peek0 t 0x40040 8 == 0x88070605048302E9) = true ∧
    after (.amoCas false ⟨5, 4, 2, 6, 0, 0⟩) ((withBytes mem0 0x40040 [9, 0, 0, 0]).setHart 0 (hart0.setA 6 9))
      (fun t => (t.hart 0).aReg 5 == 9 && peek0 t 0x40040 8 == 0x8807060500000003) = true ∧
    after (.amoFadd false ⟨5, 4, 6, 0, 0, 0⟩) ((withBytes base 0x40040 [0, 0, 0xC0, 0x3F]).setHart 0 (hart0.setA 6 0x40100000))
      (fun t => (t.hart 0).aReg 5 == 0x3FC00000 && peek0 t 0x40040 4 == 0x40700000) = true := by decide +kernel

/-- R179: MISALIGN first, then PAGE_FAULT, then PROT, then STAMP_REGION (R365); nothing is written. -/
theorem test_accessTraps : traps (.ld 3 ⟨5, 4, 0, 0, 0, 4⟩) base .misalign 0x100044 = true ∧
    traps (.ld 3 ⟨5, 6, 0, 0, 0, 0⟩) (st (·.setA 6 0x10000000000008)) .pageFault 0x10000000000008 = true ∧
    traps (.st 3 ⟨0, 6, 1, 0, 0, 0⟩) (st (·.setA 6 0x400000)) .prot 0x400000 = true ∧
    traps (.ld 0 ⟨5, 6, 0, 0, 0, 0⟩) (st (·.setA 6 0x300001)) .prot 0x300001 = true ∧
    traps (.amoAdd true ⟨5, 6, 2, 0, 0, 0⟩) (st (·.setA 6 0x200000)) .stampRegion 0x200000 = true ∧
    traps (.ld 0 ⟨5, 6, 0, 0, 0, 0⟩) (st (·.setA 6 0xFFFFFFFF10000)) .prot 0xFFFFFFFF10000 = true := by decide +kernel

/-- R70 to R72, R74, R75: a walk of six levels finds the leaf of level 0, sets ACC in memory, and both TLBs then hold it. -/
theorem test_walk :
    (let node := fun (s : State) pa (e : Nat) => withBytes s pa (bytesOf 8 e)
     let s := node (node (node (node (node (node base 0x10000 0x11001) 0x11000 0x12001) 0x12000 0x13001) 0x13000 0x14001) 0x14000 0x15001) (0x15000 + 8 * 0x20) 0x90007
     fine (translateMe 0x20BEEF .load { s with cores := [(0, { core0 with tlb := [] })] }) fun r t =>
       r.1 == 0x9BEEF && peek0 t 0x15100 8 == 0x90007 + 2 ^ 56 && (t.core 0).tlb.length == 1 && (t.die 0).tlb.length == 1) = true := by decide +kernel

/-- R93: a load that performed early answers with what it read then; a store by the hart, or an acquire, ends that. -/
theorem test_earlyLoad : (let s := (mem0.loadEarly 0 4 0x40040 8).updateAtHome 1 none 0 none 0x40040 [⟨0x55, false⟩]
    gives (.ldz 3 ⟨5, 4, 0, 0, 0, 0⟩) s 0x88070605048302F1 && gives (.ldz 0 ⟨5, 4, 0, 0, 0, 0⟩) (s.catchUp 0) 0x55 &&
      gives (.ldAcq 3 ⟨5, 4, 0, 0, 0, 3⟩) (s.catchUp 0) 0x8807060504830255) = true := by decide +kernel

/-- A load with its page mapped. -/
theorem witness_LoadResults : (List.range 4).all (fun sz => (offsetAddr ⟨5, 4, 0, 0, 0, 0x80000⟩ (st (·.setA 4 0x180000))).toNat % 2 ^ sz == 0 &&
    fine (translateMe 0x100000 .load mem0) fun x s₁ => fine (readPhys x.1 (2 ^ sz) s₁) fun bs _ => bs.all (!·.poi)) = true := by decide +kernel

theorem witness_StoreResults : (List.range 4).all (fun sz => (offsetAddr ⟨0, 4, 1, 0, 0, 8⟩ base).toNat % 2 ^ sz == 0 &&
    fine (translateMe 0x100048 .store base) fun x s₁ => fine (readyToWrite 0x100048 x.1 (2 ^ sz) x.2 (fun _ _ => false) s₁) fun _ _ => true) = true := by
  decide +kernel

/-- At every scope; the checks before the release change nothing. -/
theorem witness_AcquireReleaseResults : (runner base).aReg 4 = 0x100040 ∧
    (fine (translateMe 0x100040 .load base) fun x s₁ => fine (readPhys x.1 8 s₁) fun bs _ => bs.all (!·.poi)) = true ∧
    [0, 1, 2, 3, 4, 5].all (fun sc => fine (translateMe 0x100040 .store base) fun x s₁ =>
      fine (readyToWrite 0x100040 x.1 8 x.2 (fun _ _ => false) s₁) (fun _ s => s == s₁) && fine (releaseAt sc s₁) fun _ s₂ =>
        fine (translateMe 0x100040 .store s₂) fun x s₃ => fine (readyToWrite 0x100040 x.1 8 x.2 (fun _ _ => false) s₃) fun _ _ => true) = true := by
  decide +kernel

/-- An atomic that is a release and one that is not. -/
theorem witness_AtomicResults : [0x10, 0x0B].all (fun imm : BitVec 20 => fine (probeAtomic 0x100040 8 mem0) fun _ s₁ =>
    fine ((if imm.getLsbD 4 then releaseAt (imm.extractLsb' 0 3).toNat else pure ()) s₁) fun _ s₂ =>
      fine (probeAtomic 0x100040 8 s₂) fun x _ => x.1 == 0x40040) = true := by decide +kernel

/-- The least misaligned address of each size. -/
theorem witness_MisalignedAccessTraps : [(1, 1), (2, 1), (3, 4), (3, 7)].all (fun p : BitVec 2 × Word =>
    (offsetAddr ⟨5, 4, 0, 0, 0, 0⟩ (st (·.setA 4 p.2))).toNat % 2 ^ p.1.toNat != 0) = true ∧
    ((runner (st (·.setA 4 4))).aReg 4).toNat % 8 ≠ 0 ∧ ((runner (st (·.setA 4 2))).aReg 4).toNat % 4 ≠ 0 := by decide +kernel

theorem witness_BufferedStoreIsRead : ((base.hart 0).det = false → (base.hart 0).wcb = []) ∧ 1 ≠ 0 ∧ ¬(0x40040 ≤ 0x4003F ∧ 0x4003F < 0x40048) := by decide +kernel

/-- A translation that finds ACC and DTY set, one through the Cask window, a read, the checks of a store, and a release. -/
theorem witness_AccessFrame :
    (fine (translateMe 0x100040 .store base) fun x _ => pteAcc x.2 && pteDty x.2) = true ∧
    (fine (translateMe 0x000FFFFFFFF00040 .store base) fun x _ => x.1 == 2 ^ 48 + 0x40) = true ∧
    (fine (readPhys 0x40040 8 mem0) fun bs s₁ => bs.length == 8 && s₁.latent == []) = true ∧
    (fine (readAhead 4 0x40040 8 (mem0.loadEarly 0 4 0x40040 8)) fun bs s₁ => bs.length == 8 && (runner s₁).early == []) = true ∧
    (fine (readyToWrite 0x100040 0x40040 8 (leafFor 0x40000) (fun _ _ => false) base) fun _ _ => true) = true ∧
    (fine (releaseAt 3 base) fun _ _ => true) = true := by decide +kernel

/-- The words 10, 20, … 80 at 0x40040. -/
def words0 (s : State) : State := withBytes s 0x40040 (((List.range 8).map fun i => bytesOf 4 (10 * (i + 1))).flatten)

/-! ### Transfers of control (R186-R193): pc 0x1010 in the segment 0x1000 -/

/-- Control is at the address, SUPV is 0, and a63 holds the link. -/
def goes (i : Instr) (s : State) (pc : Word) (link : Word := 0) : Bool :=
  after i s fun t => (t.hart 0).pc == pc && !(t.hart 0).supv && (t.hart 0).aReg 63 == link

/-- OFF of −2 and of 1000 words, the latter outside the segment. -/
theorem test_branches :
    (let b := fun (a b : BitVec 6) (off : BitVec 36) => (⟨a, b, 0, off⟩ : FB)
     goes (.beq (b 1 1 0xFFFFFFFFE)) base 0x1000 && goes (.beq (b 1 2 1000)) base 0x1018 && goes (.bne (b 1 2 2)) base 0x1020 &&
     goes (.blt (b 1 2 2)) base 0x1020 && goes (.blt (b 2 1 2)) base 0x1018 && goes (.bge (b 2 1 2)) base 0x1020 && goes (.bge (b 1 2 2)) base 0x1018 &&
     goes (.bltu (b 2 1 2)) base 0x1020 && goes (.bltu (b 1 2 2)) base 0x1018 && goes (.bgeu (b 1 2 2)) base 0x1020 && goes (.bgeu (b 2 2 2)) base 0x1020 &&
     goes (.jmp (b 0 0 4)) base 0x1030 && goes (.call (b 0 0 4)) base 0x1030 0x1018 &&
     traps (.bne (b 1 2 1000)) base .segAbsent 0x2F50 && after (.call (b 0 0 1000)) base fun t => (t.hart 0).aReg 63 == 0) = true := by decide +kernel

/-- A core that holds the segment 0x2000 too, with a function table of 4 entries at 0x100040: entry 1 is valid, for 0x2008, with the
signature 0x3A5C1. -/
def far : State :=
  { withBytes (st fun h => { h with ftab := 0x00400000001000C0, a := [(1, 0x2008), (2, 1), (3, 4), (63, 0x2010)] }) 0x400D0
      (bytesOf 16 (0x2008 + 0x3A5C1 * 2 ^ 64 + 2 ^ 96)) with
    cores := [(0, { core0 with code := [(0, { landed := some true, va := 0x1000 }), (1, { landed := some true, va := 0x2000 })] })] }

theorem test_transfers : after (.jmpF ⟨0, 1, 0, 0, 0, 0⟩) far (fun t => (t.hart 0).pc == 0x2008 && (t.hart 0).seg == 0x2000) = true ∧
    after .ret far (fun t => (t.hart 0).pc == 0x2010) = true ∧ traps (.jr ⟨0, 1, 0, 0, 0, 0⟩) far .segAbsent 0x2008 = true ∧
    after (.jr ⟨0, 1, 0, 0, 0, 0⟩) (st (·.setA 1 0x1FF8)) (fun t => (t.hart 0).pc == 0x1FF8) = true ∧
    traps (.jr ⟨0, 2, 0, 0, 0, 0⟩) far .misalign 1 = true ∧ traps (.jmpF ⟨0, 1, 0, 0, 0, 0⟩) (st (·.setA 1 0x3000)) .segAbsent 0x3000 = true := by decide +kernel

/-- R353: the supervisor segment is reached with SUPV = 1 alone. -/
theorem test_transferInRoutine : after .ret (st fun h => { h.setA 63 0x300010 with supv := true }) (fun t => (t.hart 0).pc == 0x300010) = true ∧
    traps .ret (st (·.setA 63 0x300010)) .segAbsent 0x300010 = true := by decide +kernel

theorem test_tableCall : after (.callt ⟨0, 2, 0, 0, 0, 0x3A5C1⟩) far (fun t => (t.hart 0).pc == 0x2008 && (t.hart 0).aReg 63 == 0x1018) = true ∧
    traps (.callt ⟨0, 3, 0, 0, 0, 0x3A5C1⟩) far .prot 4 = true ∧
    traps (.callt ⟨0, 2, 0, 0, 0, 0x3A5C0⟩) far .sigMismatch 0x3A5C13A5C0 = true := by decide +kernel

/-- m1 = elements 0 to 3, m2 = elements 2 to 9; vl = 8. -/
theorem test_maskBranches :
    (let s := st fun h => (h.setM 1 0xF).setM 2 0x3FC
     goes (.bvAny ⟨1, 2, 0, 4⟩) s 0x1030 && goes (.bvNone ⟨1, 2, 0, 4⟩) s 0x1018 && goes (.bvAll ⟨1, 2, 0, 4⟩) s 0x1018 && goes (.bvNall ⟨1, 2, 0, 4⟩) s 0x1030 &&
     goes (.bvAll ⟨2, 2, 0, 4⟩) s 0x1030) = true := by decide +kernel

/-- R39: three stages, SL = 0b011, two iterations left: SL becomes 0b111, the masks m8 to m10 follow it, BASE moves on. -/
theorem test_loopBranches : after (.brot ⟨0, 0, 0, 0xFFFFFFFFE⟩) (st fun h => { h with lc := 2, ec := 0x203, rrb := 5 })
      (fun t => (t.hart 0).pc == 0x1000 && (t.hart 0).lc == 1 && (t.hart 0).ec == 0x207 && (t.hart 0).rrb == 6 &&
        (t.hart 0).mReg 8 == BitVec.allOnes 128 && (t.hart 0).mReg 10 == BitVec.allOnes 128 && (t.hart 0).mReg 11 == 0) = true ∧
    after (.bloop ⟨0, 0, 0, 0xFFFFFFFFE⟩) (st fun h => { h with lc := 2 }) (fun t => (t.hart 0).pc == 0x1000 && (t.hart 0).lc == 1) = true ∧
    goes (.bloop ⟨0, 0, 0, 0xFFFFFFFFE⟩) base 0x1018 = true := by decide +kernel

/-- A target inside the segment and one just beyond it. -/
theorem witness_BranchResults : (runner base).inSeg (target ⟨1, 1, 0, 0x1FD⟩ base) = true ∧ (runner base).inSeg (target ⟨1, 1, 0, 0x1FE⟩ base) = false ∧
    (runner base).aReg 1 = (runner base).aReg 1 ∧ (runner base).aReg 1 ≠ (runner base).aReg 2 := by decide +kernel

theorem witness_MaskBranchResults : ((runner base).epq = 0 ∧ (runner base).meq = 0) ∧
    (∀ n ∈ [(1, 0), (0, 1)], ¬((runner (st fun h => { h with epq := n.1, meq := n.2 })).epq = 0 ∧ (runner (st fun h => { h with epq := n.1, meq := n.2 })).meq = 0)) := by
  decide +kernel

theorem witness_TransferResults : (runner far).aReg 2 &&& 7 ≠ 0 ∧ (runner far).aReg 1 &&& 7 = 0 ∧ (runner far).inSeg ((runner far).aReg 1) = false ∧
    (runner far).inSeg 0x1FF8 = true ∧ (far.landedFor far.cur 0x2008) = true ∧ far.landedFor far.cur 0x3000 = false := by decide +kernel

theorem witness_TableCallResults : ((runner far).ftab >>> 52).toNat ≤ ((runner far).aReg 3).toNat ∧
    (fine (loadBytes 0x1000D0 16 far) fun bs s₁ => bs.all (!·.poi) && valueOf bs / 2 ^ 96 % 2 == 1 && valueOf bs / 2 ^ 64 % 2 ^ 20 == 0x3A5C1 &&
      s₁.landedFor s₁.cur 0x2008 && s₁.cur == far.cur) = true ∧
    (fine (loadBytes 0x1000C0 16 far) fun bs s₁ => valueOf bs / 2 ^ 96 % 2 == 0 && s₁.cur == far.cur) = true := by decide +kernel

theorem witness_LoopBranchResults : (runner base).lc = 0 ∧ (runner base).epq < 64 ∧ slAfter (runner base) = 0 ∧
    (let h := runner (st fun h => { h with lc := 1 })
     h.lc ≠ 0 ∧ slAfter h ≠ 0 ∧ h.inSeg 0x1000 = true ∧ h.inSeg 0x2000 = false) := by decide +kernel

/-! ### Exceptions and system instructions (21 R352-R356; 12 R271-R273) -/

/-- Hart 0 in its supervisor routine, entered from 0x1010 at element 3. -/
def inRoutine : State := st fun h => { h with supv := true, pc := 0x300008, seg := 0x300000, epc := 0x1010, evstart := 3, cause := 0x11, tval := 3 }

/-- R271: `trap` saves the next word's address, `brk` its own; a word that is no instruction reports its class. -/
theorem test_trapInstructions :
    after (.trap (fc 0 0 0 0x2ABC)) base (fun t => (t.hart 0).cause == 0x38 && (t.hart 0).tval == 0x2ABC && (t.hart 0).epc == 0x1018 && (t.hart 0).supv) = true ∧
    traps (.brk (fc 0 0 0 0x15)) base .brk 0x15 = true ∧ traps .reservedEncoding { base with badClass := 0x401 } .illegal 0x401 = true := by decide +kernel

/-- R354: the entry keeps every other register, and control goes to SUPVEC's segment; R356 undoes it. -/
theorem test_entryAndReturn : after (.divu ⟨5, 1, 6, 0, 0, 0⟩) (st fun h => { h with vstart := 2, lc := 9 })
      (fun t => (t.hart 0).vstart == 0 && (t.hart 0).lc == 9 && (t.hart 0).aReg 1 == 0xFFFFFFFFFFFFFFF8 && (t.hart 0).pc == 0x300000) = true ∧
    after .eret inRoutine (fun t => (t.hart 0).pc == 0x1010 && (t.hart 0).vstart == 3 && !(t.hart 0).supv) = true ∧ traps .eret base .priv 0 = true := by decide +kernel

/-- R345: a trap inside the routine ends the team, and its launch is FAULTED. -/
theorem test_faultInRoutine : after (.div ⟨5, 1, 6, 0, 0, 0⟩) inRoutine (fun t => (match t.team 0 with
    | some tm => tm.status == .ended
    | none => true) && (match t.launch 0 with
    | some l => l.faulted
    | none => true)) = true := by decide +kernel

/-- Table 12.12: reads of `sr.vl`, `sr.vlcap`, `sr.state`, `sr.kid`, `sr.clkw`, and of `sr.cause`; a register that is not listed. -/
theorem test_specialReads : [(0x000, (8 : Word)), (0x001, 0x80), (0x004, 0), (0x022, 7), (0x040, 0x3E8), (0x044, 0x0000008000800002)].all
      (fun p => gives (.srd (fc 5 0 0 p.1)) base p.2) = true ∧
    traps (.srd (fc 5 0 0 5)) base .priv 5 = true ∧ gives (.srd (fc 5 0 0 5)) inRoutine 0x11 = true ∧
    traps (.srd (fc 5 0 0 0x3F)) base .illegal 0x402 = true := by decide +kernel

/-- Reserved bits are dropped; what belongs to the supervisor takes PRIV; a read-only register takes ILLEGAL. -/
theorem test_specialWrites : after (.swr (fc 0 1 0 0x040)) base (fun t => (t.hart 0).clkw == 0xFFFFFFF8) = true ∧
    after (.swr (fc 0 1 0 0x010)) base (fun t => (t.hart 0).ftab == 0xFFFFFFFFFFFFFFF0) = true ∧
    after (.swr (fc 0 1 0 0x007)) inRoutine (fun t => (t.hart 0).epc == 0xFFFFFFFFFFFFFFF8) = true ∧
    traps (.swr (fc 0 1 0 0x007)) base .priv 7 = true ∧ traps (.swr (fc 0 1 0 0x022)) base .illegal 0x402 = true := by decide +kernel

theorem test_loopAndStatusWrites : after (.swrFcsr (fc 0 1 0 3)) (st (·.setA 1 0x34FF3F)) (fun t => (t.hart 0).fcsr == 0x41F1F) = true ∧
    traps (.swrFcsr (fc 0 1 0 3)) (st (·.setA 1 0x50000)) .illegal 0x50000 = true ∧
    after (.swrEc (fc 0 1 0 0x19)) (st (·.setA 1 0x2FF)) (fun t => (t.hart 0).ec == 0x207) = true ∧
    after (.swrRrb (fc 0 1 0 0x1A)) (st (·.setA 1 0xFF)) (fun t => (t.hart 0).rrb == 0x7E) = true ∧ traps (.swrVl (fc 0 2 0 0)) base .priv 0 = true ∧
    after (.swrVl (fc 0 2 0 0)) inRoutine (fun t => (t.hart 0).vl == 3) = true ∧
    after (.swrSlots (fc 0 6 0 0x11)) base (fun t => (t.hart 0).slots == 0 && (t.hart 0).desc.length == 8) = true := by decide +kernel

/-- R28: `sync.ae` waits for the EP; `halt` retires the hart with its buffers drained. -/
theorem test_syncAndHalt : after .nop base (fun t => (t.hart 0).pc == 0x1018) = true ∧
    after .syncAe base (fun t => (t.hart 0).pc == 0x1018) = true ∧
    after .syncAe (st fun h => { h with epq := 1 }) (fun t => (t.hart 0).pc == 0x1010 && (t.hart 0).wait == some .resync) = true ∧
    after .halt (st fun h => { h with det := true, wcb := [⟨0x40000, [⟨1, false⟩], 0, 0⟩] }) (fun t => (t.hart 0).status == .halted && (t.hart 0).wcb == [] &&
      (t.hart 0).sbuf.length == 1) = true := by decide +kernel

/-- R75: the entry of the page goes from both TLBs, the others stay; the hart waits and then completes. -/
theorem test_tlbinv : after (.tlbinv (fc 0 4 0 0)) inRoutine (fun t => (t.core 0).tlb.length == 4 && (t.hart 0).wait == some (.tlbinv [(0x40000, 0x10000)])) = true ∧
    after .tlbinvComplete (inRoutine.setHart 0 { inRoutine.hart 0 with wait := some (.tlbinv [(0x40000, 0x10000)]), sbuf := [⟨0x40040, [⟨7, false⟩], 0, 0⟩] })
      (fun t => (t.hart 0).released && (t.hart 0).wait == none && (t.hart 0).sbuf == [] && (t.byteAt 0 0x40040).val == 7) = true ∧
    traps (.tlbinv (fc 0 4 0 0)) base .priv 0 = true := by decide +kernel

/-- R80: 3 for a frame that is misaligned, 2 for a page without DUP; a move waits, and ends with the page at its new frame. -/
theorem test_pgmig :
    (let s := fun b => inRoutine.setHart 0 ((inRoutine.hart 0).setA 6 b)
     gives (.pgmig (fc 5 4 6 0)) (s 0x80001) 3 && gives (.pgmig (fc 5 4 6 1)) (s 0x80000) 2 &&
     after (.pgmig (fc 5 4 6 0)) (s 0x80000) fun t => (t.hart 0).wait == some (.pgmig 0x40000) &&
       after .pgmigComplete { t with ev := { hart := 0 } } fun u => (u.hart 0).wait == none && (Tbl.get none u.moving 0x40000).isNone &&
         u.byteAt 0 0x80040 == ⟨0, false⟩) = true := by decide +kernel

theorem canEnter_base : canEnter base 0 team0 := by
  unfold canEnter
  and_intros <;> decide +kernel

theorem witness_TrapEntry : canEnter base 0 team0 ∧ base.cur = 0 := ⟨canEnter_base, rfl⟩

theorem witness_TrapInstructions : canEnter base base.cur team0 := canEnter_base

/-- In the routine, and with no routine at all. -/
theorem witness_FaultInRoutineEndsTeam : inRoutine.teamOf 0 = some team0 ∧ team0.status = .running ∧ inRoutine.launch team0.launch = some launch0 ∧
    (inRoutine.hart 0).supv = true ∧ (({ base with parts := [(0, { level := 1, state := 1 })] } : State).part team0.part).supSeg = 0 := by decide +kernel

theorem witness_ReturnFromTrap : (runner inRoutine).supv = true ∧ (runner inRoutine).copyFails = [] ∧ (runner base).supv = false := by decide +kernel

/-- Each register of the two lists, and one of neither. -/
theorem witness_SpecialRegisterReads : settledEp base ∧ (specialRegisters base).length = 22 ∧ (supervisorRegisters base).length = 4 ∧
    (∀ p ∈ specialRegisters base ++ supervisorRegisters base, p.1 < 0x1000 ∧ p.1 ≠ 0x3F) := by
  unfold settledEp
  and_intros <;> decide +kernel

theorem witness_RegisterWrites : (runner inRoutine).supv = true ∧ (runner base).supv = false ∧ settledEp base ∧
    ((runner base).aReg 2 >>> 16).toNat % 8 < 5 ∧ 5 ≤ ((0x50000 : Word) >>> 16).toNat % 8 ∧
    ((runner base).aReg 2).toNat ≤ (base.die (dieOf base.cur)).vlcap.toNat ∧ (base.die 0).vlcap.toNat < ((runner base).aReg 3 + 0x80).toNat ∧
    (∃ l, base.launchOf base.cur = some l ∧ l.spliceOk = false) ∧
    (fine (latchSlots 0 (base.setHart 0 { runner base with slots := 0 })) fun _ _ => true) = true ∧
    (0x00A : Nat) ∉ [0x000, 0x002, 0x003, 0x005, 0x006, 0x007, 0x008, 0x010, 0x011, 0x018, 0x019, 0x01A, 0x040] ∧
    (∃ l, ({ base with launches := [(0, some { launch0 with raw := launch0.raw ||| 0x900000000 })] } : State).launchOf 0 = some l ∧
      l.spliceOk = true ∧ l.slotOnly = true) :=
  ⟨rfl, rfl, ⟨rfl, rfl⟩, by decide +kernel, by decide, by decide +kernel, by decide +kernel, ⟨launch0, rfl, by decide +kernel⟩, by decide +kernel, by decide,
    _, rfl, by decide +kernel, by decide +kernel⟩

theorem witness_SyncAndHalt : settledEp base ∧ (runner base).supv = false := ⟨⟨rfl, rfl⟩, rfl⟩

/-- For `tlbinv`, each mode of `pgmig`, and both events. -/
theorem witness_TranslationCare : (runner inRoutine).supv = true ∧ (runner inRoutine).released = false ∧ (runner base).supv = false ∧
    (fine (findLeaf 0 0 (some 0) 0x100040 inRoutine) fun e s₁ => (Tbl.get none s₁.moving (pteAddr e.leaf)).isNone && frameOk 0x80000 e.size &&
      !frameOk 0x80001 e.size && !pteDup e.leaf) = true ∧
    (fine (findLeaf 0 0 (some 0) 0x600000 { inRoutine with cores := [(0, { core0 with tlb := [⟨0, 0x600000, 0x10000, leafFor 0xA0000 (2 ^ 52), 0⟩] })] })
      fun e _ => pteDup e.leaf) = true ∧
    inRoutine.awake 0 = true ∧ (runner (inRoutine.setHart 0 { inRoutine.hart 0 with released := true })).released = true ∧
    inRoutine.translationHeld 0 [(0x40000, 0x10000)] = false ∧
    (inRoutine.setHart 0 { inRoutine.hart 0 with mbuf := [⟨0x40040, [⟨7, false⟩], 0, 0⟩] }).translationHeld 0 [(0x40000, 0x10000)] = true ∧
    ([1, 2, 3].map holderOf).length < 15 ∧ 15 ≤ (List.range 15).length ∧ holderOf 0x80000 ∉ (List.range 15).map (· + 1) ∧
    (([(0x40000, some ⟨0, 0x80000, 0x1000, 0x10000, 0⟩)] : Tbl (Option Move)).find? fun e => match e.2 with
      | some m => m.hart == 0
      | none => false) = some (0x40000, some ⟨0, 0x80000, 0x1000, 0x10000, 0⟩) ∧
    base.badNode 0 0x1000 = false ∧ { base with latent := [(0x1000, some {})] }.badNode 0 0x1000 = true ∧
    base.mayMove 0x40000 ⟨0, 0x80000, 0x1000, 0x10000, 0⟩ = true ∧
    { base with cellarPend := [⟨none, 0, 0x400000000000, [⟨1, false⟩], 0, 0, none⟩] }.mayMove 0x400000000000 ⟨0, 0x80000, 0x1000, 0x10000, 0⟩ = false := by
  decide +kernel

/-! ### Vector instructions (10): vl = 4; v8 and v9 are sources, v10 is the destination, m1 names elements 0 and 2 -/

/-- A register with a tag and its first elements. -/
def reg (t : BitVec 5) (xs : List Nat) : VReg :=
  { tag := t, data := ((List.range xs.length).foldl (fun d i => putBits d (tagWidth t) i (xs.getD i 0)) 0) }

/-- Hart 0 with registers, and vl = 4. -/
def vecs (rs : List (Nat × VReg)) : State :=
  st fun h => (rs.foldl (fun (h : Hart) r => h.setV r.1 r.2) { h with vl := 4 }).setM 1 5

/-- The first four elements of v10 after the instruction, which has completed, with FLAGS. -/
def makes (i : Instr) (s : State) (xs : List Nat) (flags : Word := 0) : Bool :=
  after i s fun t => (List.range xs.length).map ((t.hart 0).elem 10) == xs && (t.hart 0).fcsr &&& 0x1F == flags && (t.hart 0).pc == 0x1018

/-- f32: a = 1.5, −2, 4, 0.5; b = 2.25, 3, 0.5, 9; d = 1, 1, 1, 1. -/
def floats : State := vecs [(8, reg 0x0C [0x3FC00000, 0xC0000000, 0x40800000, 0x3F000000]),
  (9, reg 0x0C [0x40100000, 0x40400000, 0x3F000000, 0x41100000]), (10, reg 0x0C [0x3F800000, 0x3F800000, 0x3F800000, 0x3F800000])]

def ddd : F3 := f3 10 8 9

/-- Sums, differences, products and fused forms are exact here; 1.5 / 2.25 rounds, with NX. -/
theorem test_floatElements : [(Instr.vadd ddd, [0x40700000, 0x3F800000]), (.vsub ddd, [0xBF400000, 0xC0A00000]),
    (.vmul ddd, [0x40580000, 0xC0C00000]), (.vfma ddd, [0x408C0000, 0xC0A00000]), (.vfms ddd, [0x40180000, 0xC0E00000]),
    (.vfnma ddd, [0xC0180000, 0x40E00000]), (.vmin ddd, [0x3FC00000, 0xC0000000]), (.vmax ddd, [0x40100000, 0x40400000]),
    (.vabs (f3 10 8 0), [0x3FC00000, 0x40000000]), (.vneg (f3 10 8 0), [0xBFC00000, 0x40000000]), (.vrem ddd, [0x3FC00000, 0xC0000000]),
    (.vmov (f3 10 8 0), [0x3FC00000, 0xC0000000]), (.vcvt (f3 10 8 0), [0x3FC00000, 0xC0000000])].all (fun p => makes p.1 floats p.2) = true ∧
    makes (.vdiv ddd) floats [0x3F2AAAAB, 0xBF2AAAAB, 0x41000000, 0x3D638E39] 1 = true := by decide +kernel

/-- √2.25, 1/4, 1/√4, 2^3, log2 0.5; 1/0 gives ∞ with DZ. -/
theorem test_floatFunctions :
    (let s := fun x => vecs [(8, reg 0x0C [x, x, x, x]), (10, reg 0x0C [])]
     makes (.vsqrt (f3 10 8 0)) (s 0x40100000) [0x3FC00000] && makes (.vrcp (f3 10 8 0)) (s 0x40800000) [0x3E800000] &&
     makes (.vrsqrt (f3 10 8 0)) (s 0x40800000) [0x3F000000] && makes (.vexp2 (f3 10 8 0)) (s 0x40400000) [0x41000000] &&
     makes (.vlog2 (f3 10 8 0)) (s 0x3F000000) [0xBF800000] && makes (.vrcp (f3 10 8 0)) (s 0) [0x7F800000] 8 &&
     makes (.vsqrt (f3 10 8 0)) (s 0xBF800000) [0x7FC00001] 16) = true := by decide +kernel

/-- i32: a = −7, 5; b = 3, 3. -/
def ints : State := vecs [(8, reg 6 [0xFFFFFFF9, 5, 6, 7]), (9, reg 6 [3, 3, 3, 0]), (10, reg 6 [1, 1, 1, 1])]

theorem test_integerElements : [(Instr.vadd ddd, [0xFFFFFFFC, 8]), (.vmulh ddd, [0xFFFFFFFF, 0]), (.vand ddd, [1, 1]), (.vor ddd, [0xFFFFFFFB, 7]),
    (.vxor ddd, [0xFFFFFFFA, 6]), (.vandn ddd, [0xFFFFFFF8, 4]), (.vnot (f3 10 8 0), [6, 0xFFFFFFFA]), (.vsll ddd, [0xFFFFFFC8, 40]),
    (.vsrl ddd, [0x1FFFFFFF, 0]), (.vsra ddd, [0xFFFFFFFF, 0]), (.vclz (f3 10 8 0), [0, 29]), (.vpopc (f3 10 8 0), [30, 2])].all
      (fun p => makes p.1 ints p.2) = true ∧
    makes (.vdiv (f3 10 8 9 1)) ints [0xFFFFFFFE, 1, 2, 1] = true ∧ makes (.vrem (f3 10 8 9 1 true)) ints [0xFFFFFFFF, 0, 0, 0] = true := by decide +kernel

/-- R33, R204: elements 0 to 2 are written, and the divisor 0 at element 3 takes INT_DIV0 there. -/
theorem test_stopsAtElement : after (.vdiv ddd) ints (fun t => (List.range 4).map ((t.hart 0).elem 10) == [0xFFFFFFFE, 1, 2, 1] &&
    (t.hart 0).cause == 0x11 && (t.hart 0).tval == 3 && (t.hart 0).evstart == 3 && (t.hart 0).vstart == 0 && (t.hart 0).epc == 0x1010) = true := by decide +kernel

/-- R202: i32 7 and f16 0.5 into f32 give 7.5; `vneg` of i8 −128 gives −128, and 127 with saturation; R38: v192 rotates. -/
theorem test_mixedTags : makes (.vadd ddd) (vecs [(8, reg 6 [7]), (9, reg 0x0A [0x3800]), (10, reg 0x0C [])]) [0x40F00000] = true ∧
    makes (.vneg (f3 10 8 0)) (vecs [(8, reg 4 [0x80]), (10, reg 4 [])]) [0x80] = true ∧
    makes (.vneg (f3 10 8 0)) (vecs [(8, reg 4 [0x80]), (10, { reg 4 [] with sat := true })]) [0x7F] = true ∧
    makes (.vadd (f3 10 192 8)) ((vecs [(8, reg 2 [1]), (197, reg 2 [41]), (10, reg 2 [])]).setHart 0
      { (vecs [(8, reg 2 [1]), (197, reg 2 [41]), (10, reg 2 [])]).hart 0 with rrb := 5 }) [42] = true := by decide +kernel

/-- R383: taps 16, 14, 13 and 11; hart 0's instruction steps the LFSR of pipe 0 once, a mask operation does not, and an EP+EP word
steps both. -/
theorem test_tasterSteps : [0x8000, 0x2001, 0x1000, 0x0400, 0xB400, 2].map lfsrNext = [1, 0x4003, 0x2001, 0x0801, 0x6800, 4] ∧
    (let pipes := fun (s : State) => s.setCore 0 { s.core 0 with pipes := [(0, { lfsr := 0x8000 }), (1, { lfsr := 0x2001 })] }
     after (.vadd ddd) (pipes ints) fun t => ((t.core 0).pipe 0).lfsr == 1 && ((t.core 0).pipe 1).lfsr == 0x2001) = true ∧
    (after (.mand (f3 1 1 1)) (vecs []) fun t => ((t.core 0).pipe 0).lfsr == 1) = true ∧
    (after (.epSlotVmov ⟨4, 5, 0, 0⟩ ⟨8, 10, 11, 0, 0⟩) (vecs []) fun t => ((t.core 0).pipe 0).lfsr == 2 && ((t.core 0).pipe 1).lfsr == 2) = true := by decide +kernel

/-- R32, R33: a pre-emption within elements 0 to 31 leaves them written and the position (pc, 32); the instruction resumes there. -/
theorem test_resumes : (let long := (vecs [(8, reg 6 (List.replicate 64 3)), (9, reg 6 (List.replicate 64 1)), (10, reg 6 [])])
     let s := long.setHart 0 { long.hart 0 with vl := 64 }
     after (.vand ddd) (s.setHart 0 { s.hart 0 with cut := some 32 }) (fun t => (t.hart 0).elem 10 31 == 1 && (t.hart 0).elem 10 32 == 0 &&
       (t.hart 0).vstart == 32 && (t.hart 0).pc == 0x1010 && (t.hart 0).cut == none && (t.hart 0).epq == 0) &&
     after (.vand ddd) (s.setHart 0 { s.hart 0 with vstart := 32 }) fun t =>
       (t.hart 0).elem 10 31 == 0 && (t.hart 0).elem 10 32 == 1 && (t.hart 0).vstart == 0 && (t.hart 0).pc == 0x1018) = true := by decide +kernel

/-- R27, R195: a queue source gives its head and loses it; a source without an entry takes ILLEGAL 0x100 + n in the supervisor routine. -/
theorem test_queueSource : after (.vadd ⟨10, 3, 8, 0, false, true, false, false, 0, 0⟩)
      ((vecs []).setHart 0 { (vecs [(8, reg 2 [1, 2]), (10, reg 2 [])]).hart 0 with q := [(3, [⟨2, (reg 2 [40, 50]).data, 0⟩])] })
      (fun t => (t.hart 0).elem 10 0 == 41 && (t.hart 0).elem 10 1 == 52 && (t.hart 0).queue 3 == []) = true := by decide +kernel

theorem test_maskedElements : makes (.vadd (f3 10 8 9 1)) ints [0xFFFFFFFC, 1, 9, 1] = true ∧ makes (.vadd (f3 10 8 9 1 true)) ints [0xFFFFFFFC, 0, 9, 0] = true ∧
    makes (.vsel (f3 10 8 9 1)) ints [0xFFFFFFF9, 3, 6, 0] = true ∧ makes (.vid (f3 10 0 0)) ints [0, 1, 2, 3] = true ∧
    makes (.vbcast (f3 10 3 0 0 false 0x100)) ints [9, 9, 9, 9] = true := by decide +kernel

/-- Tables 10.4 and 10.5: a < b; the classes of −2 and of 0.5; non-zero elements. -/
theorem test_compare : after (.vcmp (f3 3 8 9 0 false 2)) floats (fun t => (t.hart 0).mReg 3 == 0xB) = true ∧
    after (.vmsk (f3 3 9 0)) ints (fun t => (t.hart 0).mReg 3 == 7) = true ∧
    makes (.vclass (f3 10 8 0)) (vecs [(8, reg 0x0C [0xFF800000, 0xC0000000, 0x80000001, 0x7FC00000]), (10, reg 2 [])]) [1, 2, 4, 512] = true := by decide +kernel

/-- R210, R211 below vl = 4: m1 = 0b0101, m2 = 0b0011; bits above are kept. -/
theorem test_masks :
    (let s := (vecs [(10, reg 2 [])]).setHart 0 (((vecs [(10, reg 2 [])]).hart 0).setM 2 3 |>.setM 3 0xF0)
     let m := fun i => after i s fun t => ((t.hart 0).mReg 3 == 0xF0 ||| (match i with
       | .mand _ => 1
       | .mor _ => 7
       | .mxor _ => 6
       | .mandn _ => 4
       | .mnot _ => 10
       | _ => 7))
     m (.mand (f3 3 1 2)) && m (.mor (f3 3 1 2)) && m (.mxor (f3 3 1 2)) && m (.mandn (f3 3 1 2)) && m (.mnot (f3 3 1 0)) &&
     m (.mset (f3 3 0 0 0 false 3)) && makes (.mpopc (f3 10 1 0)) s [2, 2, 2, 2] && makes (.mfirst (f3 10 1 0 2)) s [0, 0] &&
     makes (.mfirst (f3 10 6 0)) s [0xFFFFFFFF]) = true := by decide +kernel

/-- R61's example: 2^24, 1 and 1 at positions 0, 2 and 3 give 2^24 + 2; at positions 0, 1, 2 they give 2^24. Maximum and scan of ints. -/
theorem test_reductions : makes (.vred (f3 10 8 0 2)) ((vecs [(8, reg 0x0C [0x4B800000, 0x3F800000, 0x3F800000, 0x3F800000]), (10, reg 0x0C [])]).setHart 0
      (((vecs [(8, reg 0x0C [0x4B800000, 0x3F800000, 0x3F800000, 0x3F800000]), (10, reg 0x0C [])]).hart 0).setM 2 0xD)) [0x4B800001, 0] = true ∧
    makes (.vred (f3 10 8 0 0 false 2)) ints [7, 1] = true ∧ makes (.vscan (f3 10 8 0)) ints [0xFFFFFFF9, 0xFFFFFFFE, 4, 11] = true := by decide +kernel

/-- i8 sources with an i32 destination. -/
def bytes8 : State := vecs [(8, reg 4 [0xF9, 5, 6, 7]), (9, reg 4 [3, 3, 3, 0]), (10, reg 6 [1, 1, 1, 1])]

/-- Table 10.6's shape, and the products: −21 + 15 + 18 + 0 + 1; scale bytes of 2^(33+32−64) = 2. -/
theorem test_dots : makes (.vdot ddd) bytes8 [13, 1] = true ∧ makes (.vmac ddd) bytes8 [13, 1] = true ∧ makes (.vdotg (f3 10 8 9 0 false 1)) bytes8 [0xFFFFFFFB, 19, 1] = true ∧
    (let s := vecs [(8, reg 0x0C [0x3FC00000, 0x3F800000]), (9, reg 1 [0x2021, 0x2021, 0x2020, 0x2020]), (10, reg 0x0C [0x3F800000, 0])]
     makes (.vsac ddd) s [0x40800000, 0x40000000] && makes (.vsacb ddd) s [0x40C00000, 0]) = true := by decide +kernel

/-- Table 10.7 on i32 a = −7, 5, 6, 7 and b = 3, 3, 3, 0. -/
theorem test_permutes : makes (.vslup (f3 10 8 0 0 false 2)) ints [1, 1, 0xFFFFFFF9, 5] = true ∧ makes (.vsldn (f3 10 8 0 0 false 3)) ints [7, 0, 0, 0] = true ∧
    makes (.vperm ddd) ints [7, 7, 7, 0xFFFFFFF9] = true ∧ makes (.vcompress (f3 10 8 0 1)) ints [0xFFFFFFF9, 6, 1, 1] = true ∧
    makes (.vexpand (f3 10 8 0 1)) ints [0xFFFFFFF9, 1, 5, 1] = true ∧ makes (.vzip ddd) ints [0xFFFFFFF9, 3, 5, 3] = true ∧
    makes (.vunzip (f3 10 8 9 0 false 1)) ints [5, 7, 0, 0] = true ∧ makes (.vrev (f3 10 8 0)) ints [7, 6, 5, 0xFFFFFFF9] = true := by decide +kernel

/-- Table 10.8: the block of scale byte 0x61 (the rest of a q4 register's bytes is a free value, R46). -/
theorem test_q4 : (let s := vecs [(8, reg 0x0C [0x40C00000, 0xC0400000, 0x3F333333, 0x42C80000]), (9, reg 0 [0x61]), (10, reg 0x0C [])]
      makes (.vbscale ddd) s [0x40400000, 0xBFC00000, 0x3EB33333, 0x42480000]) = true ∧
    after (.vpack4 (f3 10 8 0)) (vecs [(8, reg 0x0C [0x40400000, 0xBFC00000, 0x3EB33333, 0x42480000]), (10, reg 0x11 [])])
      (fun t => (t.hart 0).fcsr == 1 && (t.hart 0).pc == 0x1018) = true ∧
    [(0x40400000, 5, 0), (0xBFC00000, 0xB, 0), (0x3EB33333, 1, 1), (0x42480000, 7, 1)].all (fun (p : Nat × Nat × Flags) =>
      convert 0x11 false .rne ⟨decodeFloat ⟨8, 23, 127, false⟩ p.1, true⟩ == p.2) = true ∧
    makes (.vunpk4 ddd) (vecs [(8, reg 0x11 [5, 0xB, 1, 7]), (9, reg 0 [0x61]), (10, reg 0x0C [])]) [0x40C00000, 0xC0400000, 0x3F800000, 0x41400000] = true := by decide +kernel

/-- R221 to R226: `vsetl` grants 100 of 100 and 128 of 200; `vlq` of 3 at vl = 4 is 3 × 64; `vrotb` −1 of 0 is 63. -/
theorem test_configuration : gives (.vsetl (f3 5 1 0)) (st (·.setA 1 100)) 100 = true ∧ gives (.vsetl (f3 5 1 0)) base 0x80 = true ∧
    gives (.vlq (f3 5 2 0)) (vecs []) 0xC0 = true ∧ after (.vrotb (f3 0 0 0 0 false 127)) base (fun t => (t.hart 0).rrb == 63) = true ∧
    after (.vcfg (f3 192 0 0 0 false 0x1CD)) base (fun t => [192, 194, 206].all (fun n => ((t.hart 0).vreg n).tag == 0x0D) && ((t.hart 0).vreg 208).tag == 2) = true ∧
    after (.vtag (f3 7 1 0)) (st (·.setA 1 0x2A)) (fun t => ((t.hart 0).vreg 7).tag == 0x0A && ((t.hart 0).vreg 7).sat) = true ∧
    after (.vdead (f3 8 0 0 0 false 1)) ints (fun t => [8, 9].all fun n => ((t.hart 0).vreg n).dead && !((t.hart 0).vreg n).dirty) = true := by decide +kernel

theorem test_scalarMoves : makes (.vmvAe (f3 10 3 0 0 false 0x102)) ints [1, 1, 9, 1] = true ∧ makes (.vmvAe (f3 10 3 0 0 false 4)) ints [1, 1, 1, 1] = true ∧
    gives (.vmvEa (f3 5 8 0 0 false 0x100)) ints 0xFFFFFFF9 = true ∧ gives (.vmvEa (f3 5 8 0)) ints 0xFFFFFFFFFFFFFFF9 = true ∧
    gives (.vmvEa (f3 5 9 0 0 false 3)) floats 9 = true := by decide +kernel

/-- R251's example 1.0, and 1/0; the sum 1.5 − 2 + 4 + 0.5 is 4. -/
theorem test_deprecated : makes (.vrecip (f3 10 8 0)) (vecs [(8, reg 0x0C [0x3F800000]), (10, reg 0x0C [])]) [0x3F7F8000, 0x7F800000] 9 = true ∧
    makes (.vsum (f3 10 8 0)) floats [0x40800000, 0x3F800000] = true := by decide +kernel

/-! ### Witnesses of the vector statements -/

/-- The registers among the sources. -/
def regsOf (ss : List VSrc) : List Nat := ss.filterMap fun
  | .reg n => some n
  | .queue _ => none

/-- A decidable form of the hypotheses about an instruction's operands: room, heads, tags and classes. -/
def operandsOk (s : State) (d : Nat) (ss : List VSrc) (faults : List (Bool × Word)) : Bool :=
  let h := runner s
  decide (h.epq < 64) && (queuesOf ss).all (fun q => h.queue q != []) && !h.supv && h.laneErr == none && h.cut == none && h.en == 0 &&
    (d :: regsOf ss).all (fun n => tagWidth (h.vreg (h.rot n)).tag != 64 || h.rot n % 2 == 0) && faults.all (fun p => !p.1)

/-- A decidable form of those of a row. -/
def rowOk (s : State) (lo : Nat) (r : Row) : Bool :=
  operandsOk s r.d r.ss (r.faults (runner s)) &&
    (List.range (runner s).vlen).all fun e => decide (e < lo) || !(r.mask (runner s)).getLsbD e || match r.res (runner s) e with
      | .ok _ => true
      | .error _ => false

theorem operandsOk_meets {s : State} {d : Nat} {ss : List VSrc} {fs : List (Bool × Word)} (h : operandsOk s d ss fs = true) :
    canSend s ss ∧ quiet (runner s) ∧ evenPairs (runner s) d ss ∧ ∀ p ∈ fs, p.1 = false := by
  simp only [operandsOk, Bool.and_eq_true, decide_eq_true_eq, Bool.not_eq_true', List.all_eq_true, bne_iff_ne, beq_iff_eq] at h
  obtain ⟨⟨⟨⟨⟨⟨⟨h1, h2⟩, h3⟩, h4⟩, h8⟩, h5⟩, h6⟩, h7⟩ := h
  refine ⟨⟨h1, h2, fun h => by rw [h3] at h; cases h⟩, ⟨h4, h5, h8⟩, ?_, h7⟩
  intro n hn hw
  have hm : n ∈ d :: regsOf ss := by
    rcases hn with rfl | hn
    · simp
    · exact List.mem_cons_of_mem _ (List.mem_filterMap.mpr ⟨_, hn, rfl⟩)
  have := h6 n hm
  simp [hw] at this
  exact this

theorem rowOk_meets {s : State} {lo : Nat} {r : Row} (h : rowOk s lo r = true) :
    canSend s r.ss ∧ quiet (runner s) ∧ evenPairs (runner s) r.d r.ss ∧ (∀ p ∈ r.faults (runner s), p.1 = false) ∧
      ∃ (val : Nat → Nat) (fl : Nat → Flags), ∀ e, lo ≤ e → e < (runner s).vlen → (r.mask (runner s)).getLsbD e →
        r.res (runner s) e = .ok (val e, fl e) := by
  simp only [rowOk, Bool.and_eq_true] at h
  obtain ⟨h1, h2, h3, h4⟩ := operandsOk_meets h.1
  refine ⟨h1, h2, h3, h4, fun e => match r.res (runner s) e with | .ok x => x.1 | _ => 0,
    fun e => match r.res (runner s) e with | .ok x => x.2 | _ => 0, fun e h1 h2 h3 => ?_⟩
  have := List.all_eq_true.mp h.2 e (List.mem_range.mpr h2)
  simp only [Bool.or_eq_true, decide_eq_true_eq, Bool.not_eq_true', Nat.not_lt.mpr h1, h3, false_or, reduceCtorEq] at this
  cases hr : r.res (runner s) e with
  | ok x => simp [hr]
  | error x => simp [hr] at this

/-- D shares no register with a source, in a decidable form. -/
def apartOk (s : State) (d : Nat) (ss : List VSrc) : Bool :=
  (regsOf ss).all fun n => pairOf (runner s) ((runner s).rot n) != pairOf (runner s) ((runner s).rot d)

theorem apartOk_meets {s : State} {d : Nat} {ss : List VSrc} (h : apartOk s d ss = true) : apart (runner s) d ss := by
  intro n hn
  have := List.all_eq_true.mp h n (List.mem_filterMap.mpr ⟨_, hn, rfl⟩)
  simpa using this

/-- The state with another start element. -/
def from_ (k : Word) (s : State) : State := s.setHart 0 { s.hart 0 with vstart := k }

/-- States that the rows find their operands in. -/
def operandStates : List State :=
  [floats, ints, vecs [(8, reg 0x0C [0x3F800000]), (10, reg 2 [])],
   vecs [(8, reg 0x0C [0x3F800000]), (9, reg 1 [0x2021, 0x2021, 0x2021, 0x2021]), (10, reg 0x0C [])],
   vecs [(8, reg 0x0C [0x3F800000]), (10, reg 0x11 [])], vecs [(8, reg 0x11 [5]), (9, reg 0 [0x61]), (10, reg 0x0C [])],
   vecs [(8, reg 0x0C [0x3F800000]), (9, reg 0 [0x61]), (10, reg 0x0C [])]]

/-- Every row has a state, with `sr.vstart` 0 and at the last element, with and without MU. -/
theorem witness_ElementwiseResults : [0, 3].all (fun k => (elementwiseRows (f3 10 8 9 1 true) 0 ++ elementwiseRows ddd 0).all fun r =>
    operandStates.any fun s => rowOk (from_ (BitVec.ofNat 64 k) (if r.i = .vdiv ddd ∨ r.i = .vrem ddd then floats else s)) k r) = true := by decide +kernel

theorem witness_CrossElementResults :
    (let up := crossRow (.vslup (f3 10 8 9 0 false 2)) (f3 10 8 9 0 false 2) [.reg 8] (nFaults (f3 10 8 9) [.reg 8]) fun _ e => .ok (some (.reg 8, e - 2))
     [0, 3].all fun k => (up :: crossRows ddd ++ crossRows (f3 10 8 9 1 true)).all fun r =>
       rowOk (from_ (BitVec.ofNat 64 k) ints) (if r.i = .vslup (f3 10 8 9 0 false 2) then max k 2 else k) r && apartOk ints r.d r.ss) = true := by decide +kernel

/-- The three that write element 0, `vdotg` and `vcompress`; and `sr.vstart` = vl. -/
theorem witness_ReductionResults : (zeroRows ddd).all (fun r => [ints, bytes8, vecs [(8, reg 0x0C [0x3F800000]), (9, reg 1 [0x2021]), (10, reg 0x0C [])]].any fun s =>
      operandsOk s r.d r.ss (r.faults (runner s)) && apartOk s r.d r.ss && (match r.res (runner s) 0 with
        | .ok _ => true
        | .error _ => false)) = true ∧
    (runner (from_ 4 ints)).vlen ≤ (runner (from_ 4 ints)).start ∧
    operandsOk bytes8 10 [.reg 8, .reg 9] (dotFaults (runner bytes8) 10 (.reg 8) (.reg 9)) = true ∧ apartOk bytes8 10 [.reg 8, .reg 9] = true ∧
    (List.range 2).all (fun j => match dotResult (runner bytes8) 10 (.reg 8) (.reg 9) (BitVec.allOnes 128) j (j * 2) (j * 2 + 2) with
      | .ok _ => true
      | .error _ => false) = true ∧
    operandsOk ints 10 [.reg 8] (nFaults ddd [.reg 8] (runner ints)) = true ∧
    ((runner ints).masked 1).all (fun k => match moveElem 10 (runner ints) (.reg 8) k 0 with
      | .ok _ => true
      | .error _ => false) = true := by decide +kernel

theorem witness_MaskResults : (3 : Nat) % 16 ≠ 0 ∧
    [[VSrc.reg 8, .reg 9], [.reg 8]].all (fun ss => operandsOk floats 10 ss (pairFaults (runner floats) none ss) &&
      (List.range 4).all fun e => firstPoison (runner floats) ss e == none) = true ∧ (runner floats).epq < 64 := by decide +kernel

/-- `vadd` with an f32 upper half of a pair, and with poison in element 0. -/
theorem witness_VectorOperandTraps :
    (let s := vecs [(8, reg 0x0D []), (10, reg 2 [])]
     (elementwiseRows (f3 10 9 9) 0).head?.any fun r => (r.faults (runner s)).any (·.1) && decide ((runner s).start < (runner s).vlen)) = true ∧
    (let s := vecs [(8, { reg 2 [1] with poison := 1 }), (9, reg 2 []), (10, reg 2 [])]
     (elementwiseRows ddd 0).head?.any fun r => operandsOk s r.d r.ss (r.faults (runner s)) && (r.mask (runner s)).getLsbD 0 &&
       match r.res (runner s) 0 with
       | .error (.poisonConsumed, t) => t == 0x800
       | _ => false) = true := by decide +kernel

theorem witness_ResumablePosition :
    (let s := ints.setHart 0 { ints.hart 0 with vl := 64, cut := some 32 }
     let h := runner s
     (elementwiseRows ddd 0).head?.any fun r => operandsOk (s.setHart 0 { h with cut := none }) r.d r.ss (r.faults h) && h.laneErr == none && h.en == 0 &&
       h.cut == some 32 && decide (h.start < 32 ∧ 32 < h.vlen ∧ 32 % 32 = 0) && (List.range 32).all fun e => (r.mask h).getLsbD e && match r.res h e with
         | .ok _ => true
         | .error _ => false) = true := by decide +kernel

theorem witness_ElementValues : tagIsInt 7 = true ∧ tagIsFloat 0x0D = true ∧ tagIsInt (VSrc.tag (runner ints) (.reg 8)) = true ∧ (runner ints).vlen ≤ 128 := by
  decide +kernel

theorem witness_ConfigurationResults : (runner ints).epq < 64 ∧ tagWidth 0x0C ≠ 64 ∧
    [8, 9, 10].all (fun n => tagWidth ((runner ints).vreg n).tag != 64 && !(n % 2 == 1 && tagWidth ((runner ints).vreg (n - 1)).tag == 64)) = true ∧
    tagListed 0x13 = true ∧ tagListed 0x14 = false ∧ operandsOk ints 10 [] [] = true ∧ (runner ints).isPairHigh 10 = false ∧
    (runner ints).start < (runner ints).vlen ∧ 3 < (runner ints).vlen ∧ (match scalarInto ddd 9 (runner ints) with
      | .ok _ => true
      | .error _ => false) = true ∧
    settledEp ints ∧ VSrc.pairHigh (runner ints) (.reg 8) = false ∧ VSrc.poison (runner ints) 3 (.reg 8) = false ∧
    ((f3 5 8 0 0 false 0x103).x.extractLsb' 7 2).toNat = 2 := by
  unfold settledEp
  and_intros <;> decide +kernel

/-- vl = 0, and operands of each class. -/
theorem witness_DeprecatedResults : (runner (st fun h => { h with vl := 0 })).vlen = 0 ∧ operandsOk (st fun h => { h with vl := 0 }) 10 [.reg 8, .reg 9] [] = true ∧
    apartOk (st fun h => { h with vl := 0 }) 10 [.reg 8, .reg 9] = true ∧
    operandsOk bytes8 10 [.reg 8, .reg 9] (dotFaults (runner bytes8) 10 (.reg 8) (.reg 9)) = true ∧ VSrc.poison (runner bytes8) 0 (.reg 10) = false ∧
    ((runner bytes8).masked 1).all (fun e => firstPoison (runner bytes8) [.reg 8, .reg 9] e == none) = true ∧
    operandsOk floats 10 [.reg 8] (OpClass.n.faults (runner floats) 10 [.reg 8]) = true ∧ ((runner floats).vreg 10).tag = 0x0C ∧
    VSrc.tag (runner floats) (.reg 8) = 0x0C ∧ (runner floats).isPairHigh 10 = false ∧ (runner floats).vlen ≠ 0 ∧
    ((runner floats).masked 0).all (fun e => !VSrc.poison (runner floats) e (.reg 8)) = true := by decide +kernel

/-! ### Vector memory instructions (11): vl = 4; the words 10, 20, 30, 40, 50, 60, 70, 80 at 0x100040 -/

/-- v10 and v11 hold 1, 1, 1, 1; v8 holds the indexes 3, 0, 2, 1; a5 = 8. -/
def vmem : State := words0 ((vecs [(8, reg 2 [3, 0, 2, 1]), (10, reg 2 [1, 1, 1, 1]), (11, reg 2 [1, 1, 1, 1])]).setHart 0
  ((vecs [(8, reg 2 [3, 0, 2, 1]), (10, reg 2 [1, 1, 1, 1]), (11, reg 2 [1, 1, 1, 1])]).hart 0 |>.setA 5 8))

/-- Loads into registers alone (QN = 1, WR = 1) with a mask, MU and SEG. -/
def toRegs (x : BitVec 8) (m : BitVec 4 := 0) (mu : Bool := false) (seg : BitVec 3 := 1) : FM := ⟨10, 4, x, m, mu, 0, true, seg, 0, 2, 0⟩

/-- The first four elements of v10 and those of v11. -/
def loads (i : Instr) (s : State) (xs ys : List Nat) : Bool :=
  after i s fun t => (List.range 4).map ((t.hart 0).elem 10) == xs && (List.range 4).map ((t.hart 0).elem 11) == ys && (t.hart 0).pc == 0x1018

theorem test_vectorLoads : loads (.vld (toRegs 0)) vmem [10, 20, 30, 40] [1, 1, 1, 1] = true ∧ loads (.vld (toRegs 0 1)) vmem [10, 1, 30, 1] [1, 1, 1, 1] = true ∧
    loads (.vld (toRegs 0 1 true)) vmem [10, 0, 30, 0] [1, 1, 1, 1] = true ∧ loads (.vlds (toRegs 5)) vmem [10, 30, 50, 70] [1, 1, 1, 1] = true ∧
    loads (.vldx (toRegs 8)) vmem [40, 10, 30, 20] [1, 1, 1, 1] = true ∧ loads (.vldseg (toRegs 0)) vmem [10, 30, 50, 70] [20, 40, 60, 80] = true ∧
    loads (.vpref ⟨0, 4, 0, 0, false, 0, false, 0, 0, 2, 0⟩) vmem [1, 1, 1, 1] [1, 1, 1, 1] = true := by decide +kernel

/-- R26: queue q2 alone; R76: a load whose element 2 is not mapped ends with vl = 2. -/
theorem test_vectorLoadQueue : after (.vld ⟨0, 4, 0, 0, false, 2, false, 0, 0, 2, 0⟩) vmem (fun t => ((t.hart 0).queue 2).length == 1 &&
      ((t.hart 0).head 2).mt == 2 && (t.hart 0).v == (vmem.hart 0).v) = true ∧
    after (.vlds (toRegs 5)) (vmem.setHart 0 ((vmem.hart 0).setA 4 0x400000 |>.setA 5 0x8000)) (fun t => (t.hart 0).vl == 2 && (t.hart 0).pc == 0x1018) = true ∧
    traps (.vld (toRegs 0)) (vmem.setHart 0 ((vmem.hart 0).setA 4 0x410000)) .pageFault 0x410000 = true ∧
    traps (.vld (toRegs 0)) (vmem.setHart 0 ((vmem.hart 0).setA 4 0x100041)) .misalign 0x100041 = true := by decide +kernel

/-- R76: the load that ends at element 2 leaves its queue entry. R93: a load of the second word has performed early. -/
theorem test_vectorLoadTrimmed : after (.vlds ⟨0, 4, 5, 0, false, 2, false, 0, 0, 2, 0⟩) (vmem.setHart 0 ((vmem.hart 0).setA 4 0x400000 |>.setA 5 0x8000))
      (fun t => (t.hart 0).vl == 2 && ((t.hart 0).queue 2).length == 1) = true ∧
    loads (.vld (toRegs 0)) (withBytes (vmem.loadEarly 0 4 0x40044 4) 0x40044 [99]) [10, 20, 30, 40] [1, 1, 1, 1] = true := by decide +kernel

/-- A slot of the type n32 whose base is 0x100040, readable and writable, in a launch of one element. -/
def slot0 (acc : Nat) : SlotDesc := { raw := BitVec.ofNat 512 (0x100040 + 2 * 2 ^ 224 * 2 ^ 224 + acc * 2 ^ 228 * 2 ^ 228) }

def slotted (acc : Nat) : State := words0 ((vecs [(10, reg 2 [1, 1, 1, 1])]).setHart 0
  { (vecs [(10, reg 2 [1, 1, 1, 1])]).hart 0 with vl := 1, desc := [slot0 acc] })

theorem test_slotAccess : after (.vldm ⟨10, 6, 6, 0, false, 0, true, 1, 0, 0, 0⟩) (slotted 1) (fun t => (t.hart 0).elem 10 0 == 10 && (t.hart 0).elem 10 1 == 1) = true ∧
    after (.vstm ⟨10, 6, 6, 0, false, 0, false, 0, 0, 0, 0⟩) (slotted 2) (fun t => read0 t 0x40040 4 == 1 && read0 t 0x40044 4 == 20) = true := by decide +kernel

def fromRegs (x : BitVec 8) (m : BitVec 4 := 0) (seg : BitVec 3 := 0) : FM := ⟨8, 4, x, m, false, 0, false, seg, 0, 2, 0⟩

/-- (Outside deterministic mode the order of a scatter's stores is a free choice, R102.) Four words from 0x40040 as hart 0 reads them after a store of v8 = 3, 0, 2, 1. -/
def stores (i : Instr) (xs : List Nat) (det : Bool := false) : Bool := after i (vmem.setHart 0 { vmem.hart 0 with det := det }) fun t => (List.range 4).map (fun k => read0 t (0x40040 + 4 * k) 4) == xs

theorem test_vectorStores : stores (.vst (fromRegs 0)) [3, 0, 2, 1] = true ∧ stores (.vst (fromRegs 0 1)) [3, 20, 2, 40] = true ∧
    stores (.vsts (fromRegs 5)) [3, 20, 0, 40] = true ∧ stores (.vstx (fromRegs 8)) [0, 1, 2, 3] true = true ∧
    stores (.vstseg ⟨10, 4, 0, 1, false, 0, false, 1, 0, 2, 0⟩) [1, 1, 30, 40] = true := by decide +kernel

/-- R235: v10 = 1s added at the indexes 3, 0, 2, 1; `vldu` from an odd address. -/
theorem test_addsAndUnaligned : after (.vamoadd ⟨10, 4, 8, 0, false, 0, false, 0, 0, 2, 0⟩) vmem
      (fun t => (List.range 4).map (fun k => peek0 t (0x40040 + 4 * k) 4) == [11, 21, 31, 41]) = true ∧
    loads (.vldu (f3 10 6 0 0 false 2)) (vmem.setHart 0 ((vmem.hart 0).setA 6 0x100041)) [0x14000000, 0x1E000000, 0x28000000, 0x32000000] [1, 1, 1, 1] = true := by
  decide +kernel

/-- R236, Table 11.4: 4 elements of n32 take 64 bytes; the last 8 hold tag 2 and vl 4. R237 reads tag and sat back (the bytes above
the elements become free values). -/
theorem test_spillAndFill : after (.vspill ⟨8, 4, 0, 0, false, 0, false, 0, 0, 0, 0⟩) vmem (fun t =>
      (List.range 4).map (fun k => read0 t (0x40040 + 4 * k) 4) == [3, 0, 2, 1] && read0 t 0x40078 8 == 0x402) = true ∧
    (let s := withBytes vmem 0x40078 (bytesOf 8 0x426)
     after (.vfill ⟨10, 4, 0, 0, false, 0, false, 0, 0, 0, 0⟩) s fun t => (t.hart 0).pc == 0x1018 &&
       ((t.hart 0).vreg 10).tag == 6 && ((t.hart 0).vreg 10).sat) = true := by decide +kernel

/-- R238: the descriptor of v8 goes to its place, and a saved register comes back with tag, sat, h, dirty. -/
theorem test_saveAndRestore : after (.vsave ⟨8, 4, 0, 0, false, 0, false, 0, 0, 0, 0⟩) vmem (fun t =>
      read0 t (0x40040 + 16) 2 == 2 && read0 t (0x40040 + 0x200 + 512 * 8) 4 == 3) = true ∧
    (let s := withBytes (withBytes vmem (0x40040 + 20) (bytesOf 2 0x832C)) (0x40040 + 0x200 + 512 * 10) (bytesOf 4 77)
     after (.vrest ⟨10, 4, 0, 0, false, 0, false, 0, 0, 0, 0⟩) s fun t => ((t.hart 0).vreg 10).tag == 0x0C && ((t.hart 0).vreg 10).sat &&
       ((t.hart 0).vreg 10).hw == 3 && ((t.hart 0).vreg 10).dirty && (t.hart 0).elem 10 0 == 77) = true := by decide +kernel

/-- R31: a 64-bit tag for v11. R367: at `sr.vstart` = vl nothing is stored and no cause of memory is raised. -/
theorem test_restoreOdd : traps (.vrest ⟨11, 4, 0, 0, false, 0, false, 0, 0, 0, 0⟩) (withBytes vmem (0x40040 + 22) (bytesOf 2 3)) .tagMismatch 11 = true ∧
    after (.vspill ⟨8, 6, 0, 0, false, 0, false, 0, 0, 0, 0⟩) (vmem.setHart 0 { vmem.hart 0 with vstart := 4 }) (fun t => (t.hart 0).pc == 0x1018) = true ∧
    after (.mset (f3 3 0 0 0 false 3)) (vmem.setHart 0 { vmem.hart 0 with vstart := 4 }) (fun t => (t.hart 0).mReg 3 == (vmem.hart 0).mReg 3) = true := by decide +kernel

/-- A hart that waits for the flag words 10 and 20 at the addresses of v8 (n64, a pair with v9), to be equal to those of
v10, for 5 ns (a6). -/
def waiting (a b : Nat) : State := words0 ((vecs [(8, { reg 2 [0x100040, 0x100044] with tag := 3 }), (10, reg 2 [a, b])]).setHart 0
  { ((vecs [(8, { reg 2 [0x100040, 0x100044] with tag := 3 }), (10, reg 2 [a, b])]).hart 0 |>.setA 6 5) with vl := 2 })

/-- `vwait.eq.n32 m3, v8, v10, a6`: X names the addresses, V the expected values. -/
def flagWait : FM := ⟨10, 6, 8, 0, false, 0, false, 0, 0, 2, 3⟩

/-- R239: met at once; waiting, met on a change, and over after 5 ns with element 1 unmet. -/
theorem test_vwait : after (.vwait flagWait) (waiting 10 20) (fun t => (t.hart 0).mReg 3 == 0 && (t.hart 0).pc == 0x1018) = true ∧
    after (.vwait flagWait) (waiting 10 21) (fun t => (t.hart 0).wait == some (.vwait 0 1 flagWait) && (t.hart 0).pc == 0x1010) = true ∧
    after .vwaitMet (withBytes (waitsIn (waiting 10 21) (.vwait 0 1 flagWait)) 0x40044 (bytesOf 4 21))
      (fun t => (t.hart 0).wait == none && (t.hart 0).mReg 3 == 0 && (t.hart 0).pc == 0x1018) = true ∧
    after .vwaitTimeout { waitsIn (waiting 10 21) (.vwait 0 1 flagWait) with now := 235 }
      (fun t => (t.hart 0).wait == none && (t.hart 0).mReg 3 == 2 && (t.hart 0).pc == 0x1018) = true := by decide +kernel

/-- A group of two ranks, rank 0 here, with the packet of rank 1 sent: its descriptor in a6 (Table 11.5). -/
def grouped (sent0 : Bool) : State :=
  let s := (vecs [(8, reg 2 [3, 0, 2, 1]), (10, reg 2 [1, 1, 1, 1])])
  let s := s.setHart 0 ((s.hart 0).setA 6 (BitVec.ofNat 64 (5 + 2 * 2 ^ 16)))
  let sent := if sent0 then [(0, 1), (1, 1)] else [(1, 1)]
  let fix := rpFix ⟨10, 6, 0, 0, false, 0, false, 0, 0, 2, 0⟩ (rpDescOf (BitVec.ofNat 64 (5 + 2 * 2 ^ 16))) 4
  let packets := (if sent0 then [(0, [3, 0, 2, 1])] else []) ++ [(1, [10, 20, 30, 40])]
  s.setDie 0 { s.die 0 with groups := [(5, some { launch := 0, owned := true, sent := sent, fixed := some fix, packets := packets })] }

def sendWord : FM := ⟨8, 6, 0, 0, false, 0, false, 0, 0, 2, 0⟩
def recvWord : FM := ⟨10, 6, 0, 0, false, 0, false, 0, 0, 2, 0⟩

/-- R241: the packet enters; the root's result is the sum of both, and the round ends; R242: after 50 µs rank 1 is missing. -/
theorem test_packets : after (.rpSend sendWord) (grouped false) (fun t => (t.hart 0).pc == 0x1018 && (match Tbl.get none (t.die 0).groups 5 with
      | some g => Tbl.get 0 g.sent 0 == 1 && Tbl.get [] g.packets 0 == [3, 0, 2, 1]
      | none => false)) = true ∧
    after (.rpRecv recvWord) (grouped true) (fun t => (List.range 4).map ((t.hart 0).elem 10) == [13, 20, 32, 41] && (match Tbl.get none (t.die 0).groups 5 with
      | some g => g.round == 1 && g.packets == []
      | none => false)) = true ∧
    after (.rpRecv recvWord) (grouped false) (fun t => (t.hart 0).wait == some (.rpRecv 0 recvWord)) = true := by decide +kernel

theorem test_packetEvents : after .rpAccept (waitsIn (grouped false) (.rpSend sendWord)) (fun t => (t.hart 0).wait == none && (t.hart 0).pc == 0x1018) = true ∧
    after .rpResult (waitsIn (grouped true) (.rpRecv 0 recvWord)) (fun t => (t.hart 0).wait == none && (t.hart 0).elem 10 1 == 20) = true ∧
    after .rpTimeout { waitsIn (grouped false) (.rpRecv 0 recvWord) with now := 2350000 }
      (fun t => (t.hart 0).cause == 0x28 && (t.hart 0).tval == 1 && (t.hart 0).supv) = true := by decide +kernel

/-! ### Witnesses of the statements about vector memory -/

/-- `readable` and `writable` of a state without stamped stores, duplicates and latent errors, in a decidable form. -/
def plainAt (s : State) (pa : Nat) : Bool := windowOf pa != .register && s.stampq.isEmpty && s.dups.isEmpty && s.latent.isEmpty

theorem plainAt_meets {s : State} {pa : Nat} (h : plainAt s pa = true) (n : Nat) (leaf : Word) (whole : Nat → Nat → Bool) :
    readable s pa n ∧ writable s pa n leaf whole := by
  simp only [plainAt, Bool.and_eq_true, bne_iff_ne, List.isEmpty_iff] at h
  obtain ⟨⟨⟨h1, h2⟩, h3⟩, h4⟩ := h
  have hl : ∀ p, s.latentAt p = none := by
    intro p
    unfold State.latentAt
    rw [h4]
    split <;> rfl
  exact ⟨.inr ⟨h1, by simp [h2], fun i _ => hl _⟩, .inr ⟨by simp [h2], by rw [h3]; simp [Tbl.get], fun i _ => .inl (hl _)⟩⟩

/-- The hypotheses about a load, but for what its decode and slot ask for: its destinations, its plan up to the failure `stop`, its
reads. -/
def loadOk (s : State) (f : LoadForm) (stop : Option Nat) : Bool :=
  let h := runner s
  (match f.dest.queue with
    | some q => decide ((h.queue q).length < 8) && !h.supv && decide (tagWidth f.mt ≤ 32)
    | none => true) && f.faults.all (fun p => !p.1) && f.dest.regs.all (fun r => tagWidth (h.vreg (h.rot r)).tag != 64 || h.rot r % 2 == 0) &&
  (f.dest.queue.isNone || h.start == 0) && h.en == 0 && h.cut == none && decide (h.start < h.vlen) &&
  fine (planElems f.rights .load f.bad f.addr (h.active 0) (opened f s)) fun x s₁ => x.2.map (·.e) == stop &&
    x.1.all fun p => p.fields.all fun y => plainAt s₁ y.2.1

/-- vl = 1, so that the one element of the slot's iteration space is all of it. -/
def vmemSlot : State := vmem.setHart 0 { vmem.hart 0 with vl := 1, desc := [slot0 1], size := 1 }

/-- Register destinations for every form, and a queue for `vld`; a failure at element 2 and at element 0; vl at `sr.vstart`. -/
theorem witness_VectorLoadResults : ((loadForms (toRegs 8) vmem).take 3).all (loadOk vmem · none) = true ∧
    ((loadForms (toRegs 8) vmem)[3]?.all (loadOk vmem · none)) = true ∧
    ((loadForms ⟨10, 6, 6, 0, false, 0, true, 1, 0, 0, 0⟩ vmemSlot)[4]?.all (loadOk vmemSlot · none)) = true ∧
    ((loadForms ⟨0, 4, 8, 0, false, 2, false, 0, 0, 2, 0⟩ vmem)[0]?.all (loadOk vmem · none)) = true ∧
    (runner (from_ 4 vmem)).vlen ≤ (runner (from_ 4 vmem)).start := by decide +kernel

theorem witness_segOk : segOk (runner vmem) (segRegs (runner vmem) 10 2) := by unfold segOk; decide +kernel

theorem witness_slotOk : slotOk ⟨10, 6, 6, 0, false, 0, true, 1, 0, 0, 0⟩ vmemSlot [1, 3, 4] false := by unfold slotOk; decide +kernel

/-- The hypotheses about a store, in the same way. -/
def storeOk (s : State) (f : StoreForm) (stop : Option Nat) : Bool :=
  let h := runner s
  f.faults.all (fun p => !p.1) && h.en == 0 && h.cut == none && decide (h.start < h.vlen) &&
  fine (planElems f.rights .store f.bad f.addr (h.active 0) s) fun x s₁ => x.2.map (·.e) == stop &&
    x.1.all fun p => (f.regs.all fun r => !VSrc.poison (runner s₁) p.e (.reg r)) && p.fields.all fun y => plainAt s₁ y.2.1

theorem witness_VectorStoreResults : ((storeForms (fromRegs 8) vmem).take 4).all (storeOk vmem · none) = true ∧
    (let s := vmem.setHart 0 { vmem.hart 0 with vl := 1, desc := [slot0 2], size := 1 }
     (storeForms ⟨10, 6, 6, 0, false, 0, false, 0, 0, 0, 0⟩ s)[4]?.all (storeOk s · none)) = true := by decide +kernel

theorem witness_slotOk_store : slotOk ⟨10, 6, 6, 0, false, 0, false, 0, 0, 0, 0⟩
    (vmem.setHart 0 { vmem.hart 0 with vl := 1, desc := [slot0 2], size := 1 }) [2, 3, 4] false := by unfold slotOk; decide +kernel

/-- Strides of 0x8000 from 0x400000 run into the page 0x410000 at element 2; from 0x410000 at element 0. -/
theorem witness_RunAheadFault :
    (let s := fun a => vmem.setHart 0 ((vmem.hart 0).setA 4 a |>.setA 5 0x8000)
     ((loadForms (toRegs 5) (s 0x400000))[1]?.all (loadOk (s 0x400000) · (some 2))) && ((loadForms (toRegs 5) (s 0x410000))[1]?.all (loadOk (s 0x410000) · (some 0))) &&
     ((storeForms (fromRegs 5) (s 0x1F0000))[1]?.all (storeOk (s 0x1F0000) · (some 0))) &&
     ((storeForms (fromRegs 5) (s 0x100000))[1]?.all (storeOk (s 0x100000) · (some 2)))) = true := by decide +kernel

/-- One step of the chain of adds, for v10 at the index 3. -/
theorem witness_ScatterAddResults : (destFaults [10] (runner vmem) ++ indexFaults (runner vmem) 8).all (fun p => !p.1) = true ∧
    (fine (planElems (vmem.rightsOf 0) .atomic (misaligned 2 (fmBase ⟨10, 4, 8, 0, false, 0, false, 0, 0, 2, 0⟩ vmem))
      (indexAddr (runner vmem) 8 4 (fmBase ⟨10, 4, 8, 0, false, 0, false, 0, 0, 2, 0⟩ vmem)) [0] vmem) fun x s₁ => x.2.isNone && x.1.length == 1 &&
        fine (probeAtomic 0x10004C 4 s₁) fun _ _ => true) = true := by decide +kernel

theorem witness_UnalignedLoadResults : (runner vmem).vlen ≠ 0 ∧ (runner vmem).isPairHigh 10 = false ∧ operandsOk vmem 10 [] [] = true ∧
    (fine (translateParts 0 [(0x100041, 3), (0x100045, 3)] vmem) fun lo s₁ =>
      fine (translateParts 1 [(0x100044, 1), (0x100048, 1)] s₁) fun hi s₂ => (lo ++ hi).all fun p => plainAt s₂ p.1) = true := by decide +kernel

/-- Areas of v8 at 0x100040 for `vspill` and `vsave`, and `sr.vstart` at vl. -/
theorem witness_SpillAndSaveResults : (runner (from_ 4 vmem)).vlen ≤ (runner (from_ 4 vmem)).start ∧ (runner vmem).start < (runner vmem).vlen ∧
    (areaAddr (fm 8 4 0 0) vmem).toNat % 64 = 0 ∧ (runner vmem).isPairHigh 8 = false ∧
    (fine (translateArea 0x100040 64 .store vmem) fun _ s₁ => fine (translateArea 0x100040 ((runner vmem).image 8 4).length .store s₁) fun dps s₂ =>
      fine (translateArea 0x100078 8 .store s₂) fun eps s₃ => (dps ++ eps).all fun p => plainAt s₃ p.pa) = true ∧
    (fine (collect (savedRegs (fm 8 4 1 0)) (fun p => translateArea (0x100040 + BitVec.ofNat 64 (2 * p)) 2 .store) vmem) fun ds s₁ =>
      fine (collect (savedRegs (fm 8 4 1 0)) (fun p => translateArea (0x100040 + BitVec.ofNat 64 (0x200 + 512 * p)) 512 .store) s₁) fun is s₂ =>
        (ds.flatten ++ is.flatten).all fun p => plainAt s₂ p.pa) = true := by decide +kernel

/-- A slot whose descriptor names n32 with 4 elements, and an area whose descriptors are listed. -/
theorem witness_FillAndRestoreResults :
    (fine (translateArea 0x100040 64 .load (withBytes vmem 0x40078 (bytesOf 8 0x426))) fun ps s₁ => fine (readArea ps s₁) fun bs _ =>
      tagListed (BitVec.ofNat 5 (valueOf (bs.drop (bs.length - 8)))) && tagWidth (BitVec.ofNat 5 (valueOf (bs.drop (bs.length - 8)))) != 64) = true ∧
    (fine (collect (savedRegs (fm 8 4 1 0)) (fun p => translateArea (0x100040 + BitVec.ofNat 64 (2 * p)) 2 .load) vmem) fun ds s₁ =>
      fine (collect (savedRegs (fm 8 4 1 0)) (fun p => translateArea (0x100040 + BitVec.ofNat 64 (0x200 + 512 * p)) 512 .load) s₁) fun is s₂ =>
        fine (collect ds (fun ps => do return valueOf (← readArea ps)) s₂) fun descs s₃ =>
          descs.all (fun d => tagListed (BitVec.ofNat 5 d)) && (oddPair ((savedRegs (fm 8 4 1 0)).zip descs)).isNone &&
            fine (collect is readArea s₃) fun _ _ => true) = true ∧ oddPair [(10, 3), (11, 3)] = some 11 := by decide +kernel

/-- All flags met; one unmet with and without time; a waiting hart before and after its 5 ns. -/
theorem witness_FlagWaitResults :
    [(waiting 10 20, true), (waiting 10 21, false), (lookingAgain (waitsIn (waiting 10 21) (.vwait 0 1 flagWait)) 0, false)].all (fun p =>
      fine (vwaitChecks flagWait (runner p.1) p.1) fun ps u => fine (readFlags flagWait (runner p.1) ps 0 u) fun met u₂ =>
        (ps.all fun x => met.getLsbD x.e) == p.2 && ps != [] && u₂.now == p.1.now) = true ∧
    (runner (waiting 10 20)).start < (runner (waiting 10 20)).vlen ∧ (runner (from_ 4 vmem)).vlen ≠ 0 ∧
    (runner (from_ 4 vmem)).vlen ≤ (runner (from_ 4 vmem)).start ∧ ((runner (waiting 10 21)).aReg 6).toNat ≠ 0 ∧ (waitsIn (waiting 10 21) (.vwait 0 1 flagWait)).awake 0 = true := by decide +kernel

/-- The group of two ranks, for a first send, a second one, and the root. -/
def group5 (sent0 : Bool) : RGroup := ((Tbl.get none ((grouped sent0).die 0).groups 5).getD { launch := 9 })

theorem witness_PacketResults : ((runner (grouped false)).aReg 6).extractLsb' 40 24 = 0 ∧ (descOf sendWord (grouped false)).n = 2 ∧
    (descOf sendWord (grouped false)).rank = 0 ∧ (group5 false).launch = (grouped false).keyLaunch 0 ∧
    Tbl.get 0 (group5 false).sent 0 = (group5 false).round ∧ (group5 false).fixed = some (rpFix sendWord (descOf sendWord (grouped false)) 4) ∧
    (group5 true).round < Tbl.get 0 (group5 true).sent 0 ∧ operandsOk (grouped false) 8 [.reg 8] [] = true ∧
    [0, 1].all (fun r => decide ((group5 true).round < Tbl.get 0 (group5 true).sent r)) = true ∧
    Tbl.get 0 (group5 false).sent 0 ≤ (group5 false).round ∧ (waitsIn (grouped false) (.rpSend sendWord)).awake 0 = true ∧
    0 + (descOf recvWord (grouped false)).tmo * 47000 ≤ 2350000 := by decide +kernel

theorem witness_PacketTimeout_entry : canEnter (lookingAgain (waitsIn (grouped false) (.rpRecv 0 recvWord)) 0) 0 team0 :=
  ⟨rfl, by decide, rfl, by decide +kernel, by decide +kernel⟩

/-! ### Paired words (R161-R164): v8 = −7, 5, 6, 7; v9 = 3, 3, 3, 0; v10 = 1, 1, 1, 1; v11 = 2, 4, 6, 8, all i32 -/

def banks : State := vecs [(8, reg 6 [0xFFFFFFF9, 5, 6, 7]), (9, reg 6 [3, 3, 3, 0]), (10, reg 6 [1, 1, 1, 1]), (11, reg 6 [2, 4, 6, 8])]

/-- Slot 1 copies v11 to v10. -/
def slotMov : EpSlot := ⟨8, 10, 11, 0, 0⟩

/-- The first two elements of v8; v10 is 2, 4, 6, 8. -/
def pairs (i : Instr) (xs : List Nat) : Bool := after i banks fun t => (List.range 2).map ((t.hart 0).elem 8) == xs &&
  (List.range 4).map ((t.hart 0).elem 10) == [2, 4, 6, 8] && (t.hart 0).pc == 0x1018

theorem test_epPairs :
    (let a : EpArgs := ⟨8, 9, 0, 0⟩
     [(Instr.epSlotVadd a slotMov, [0xFFFFFFFC, 8]), (.epSlotVsub a slotMov, [0xFFFFFFF6, 2]), (.epSlotVmul a slotMov, [0xFFFFFFEB, 15]),
      (.epSlotVmin a slotMov, [0xFFFFFFF9, 3]), (.epSlotVmax a slotMov, [3, 5]), (.epSlotVand a slotMov, [1, 1]), (.epSlotVor a slotMov, [0xFFFFFFFB, 7]),
      (.epSlotVxor a slotMov, [0xFFFFFFFA, 6]), (.epSlotVmov a slotMov, [3, 3]), (.epSlotVcvt a slotMov, [3, 3]),
      (.epSlotVslli ⟨8, 9, 0, 4⟩ slotMov, [48, 48]), (.epSlotVsrli ⟨8, 8, 0, 4⟩ slotMov, [0x0FFFFFFF, 0]), (.epSlotVsrai ⟨8, 8, 0, 4⟩ slotMov, [0xFFFFFFFF, 0]),
      (.epSlotVneg a slotMov, [0xFFFFFFFD, 0xFFFFFFFD]), (.epSlotVabs ⟨8, 8, 0, 0⟩ slotMov, [7, 5]), (.epSlotVaddi ⟨8, 9, 0, 0x1F⟩ slotMov, [2, 2])].all
        fun p => pairs p.1 p.2) = true := by decide +kernel

/-- R163: v10 in slot 0, and v8 in slot 1. -/
theorem test_pairBank : traps (.epSlotVadd ⟨8, 10, 0, 0⟩ slotMov) banks .pairBank 10 = true ∧
    traps (.epSlotVadd ⟨8, 9, 0, 0⟩ ⟨8, 10, 8, 0, 0⟩) banks .pairBank 8 = true := by decide +kernel

/-- Table 8.6 on d = a2 = 3 and a = a1 = −8, with v10 copied beside it. -/
theorem test_apPairs :
    (let ok := fun (i : Instr) (v : Word) => after i banks fun t => (t.hart 0).aReg 2 == v && (t.hart 0).elem 10 3 == 8 && (t.hart 0).pc == 0x1018
     ok (.apSlotAdd ⟨2, 1, 0⟩ slotMov) 0xFFFFFFFFFFFFFFFB && ok (.apSlotSub ⟨2, 1, 0⟩ slotMov) 11 && ok (.apSlotAnd ⟨2, 1, 0⟩ slotMov) 0 &&
     ok (.apSlotOr ⟨2, 1, 0⟩ slotMov) 0xFFFFFFFFFFFFFFFB && ok (.apSlotXor ⟨2, 1, 0⟩ slotMov) 0xFFFFFFFFFFFFFFFB &&
     ok (.apSlotAddi ⟨2, 1, 0x1FFF⟩ slotMov) 0xFFFFFFFFFFFFFFF7 && ok (.apSlotSlli ⟨2, 1, 4⟩ slotMov) 0xFFFFFFFFFFFFFF80 &&
     ok (.apSlotSrli ⟨2, 1, 60⟩ slotMov) 15 && ok (.apSlotLdi ⟨2, 0, 0x1000⟩ slotMov) 0xFFFFFFFFFFFFF000) = true := by decide +kernel

/-- Every operation of slot 0 is ready on v8 and v9 and gives its elements; banks fit. -/
theorem witness_PairedWordResults : banksFit ⟨8, 9, 0, 0⟩ slotMov ∧ (runner banks).epq < 64 ∧ (runner banks).laneErr = none ∧ (runner banks).cut = none ∧ (runner banks).en = 0 ∧
    (slotRegs ⟨8, 10, 0, 0⟩).find? (2 ≤ · % 4) = some 10 ∧ (slotRegs ⟨8, 9, 0, 0⟩).find? (2 ≤ · % 4) = none ∧ (slotRegs ⟨10, 8, 0, 0⟩).find? (· % 4 < 2) = some 8 ∧
    ((epPairs ⟨8, 9, 0, 0⟩ slotMov).map (·.2)).all (fun op => match epWork op ⟨8, 9, 0, 0⟩, slotWork slotMov with
      | some w₀, some w₁ => [w₀, w₁].all fun w => operandsOk banks w.d w.ss (w.cls.faults (runner banks) w.d w.ss) &&
          (List.range 4).all fun e => match w.res (runner banks) e with
            | .ok _ => true
            | .error _ => false
      | _, _ => false) = true := by
  refine ⟨by unfold banksFit; decide +kernel, ?_⟩
  decide +kernel

/-! ### The matrix engine (12 R253-R261): shape i8, 8 × 8; v8 = 1 to 8; column 0 of t0 is 1s, column 1 is 1 at row 0 and −1 at row 7 -/

def shape8 : Word := 0x800080006

def tile0 : Tile :=
  { stamp := shape8, live := true
    data := ((List.range 8).foldl (fun d k => putField d (64 * k) 8 1) (0 : BitVec 262144)) ||| (0x0100 ||| 0xFF00 <<< 448) }

def mat : State :=
  let s := vecs [(8, reg 4 [1, 2, 3, 4, 5, 6, 7, 8]), (9, reg 0 [12, 9]), (10, reg 0x0C [0x3FC00000, 0x40000000])]
  { s.setHart 0 { s.hart 0 with vl := 2, mshape := shape8 } with
    cores := [(0, { core0 with tiles := [(0, tile0)], vat := [(16, { data := 5 })] })] }

/-- Words 0 and 1 of Vat row `r` of core 0. -/
def vat0 (t : State) (r : Nat) : List Nat := (List.range 2).map fun n => ((t.core 0).vatRow r).acc 6 n

def mm : FX := fx 8 0 0 16 0 6

/-- 5 + 36 = 41 and 1 − 8 = −7; with NEG, 5 − 36 and 7; the sparse row is 1, 2, 3, 4 at k = 0, 3, 5, 6. -/
theorem test_multiply : after (.mma mm) mat (fun t => vat0 t 16 == [41, 0xFFFFFFF9] && ((t.core 0).vatRow 16).live && (t.hart 0).pc == 0x1018) = true ∧
    after (.mma (fx 8 0 0 16 0 6 0x10)) mat (fun t => vat0 t 16 == [0xFFFFFFE1, 7]) = true ∧
    after (.mmasp mm) mat (fun t => vat0 t 16 == [15, 1]) = true ∧
    traps (.mma (fx 8 0 0 16 0 7)) mat .illegal 0x700 = true := by decide +kernel

/-- R260: f32 between v10 and Vat row 20; rows zeroed; i8 elements between v8 and tile row 3. -/
theorem test_matrixMoves : after (.mv2vat (fx 10 0 0 20 0 1)) mat (fun t => (List.range 2).map (((t.core 0).vatRow 20).acc 0x0C) == [0x3FC00000, 0x40000000]) = true ∧
    after (.mvat2v (fx 10 0 0 16 0 6)) mat (fun t => (t.hart 0).elem 10 0 == 0x40A00000 && (t.hart 0).elem 10 1 == 0) = true ∧
    after (.mzero (fx 0 1 0 16 0 0)) mat (fun t => vat0 t 16 == [0, 0] && !((t.core 0).vatRow 16).live) = true ∧
    after (.mv2t (fx 8 0 0 3 0 6)) mat (fun t => (List.range 2).map (((t.core 0).tile 0).elem (shapeOf shape8) 3) == [1, 2] &&
      ((t.core 0).tile 0).elem (shapeOf shape8) 2 0 == 1) = true ∧
    after (.mt2v (fx 8 0 0 7 0 6)) mat (fun t => (List.range 3).map ((t.hart 0).elem 8) == [1, 0xFF, 3]) = true := by decide +kernel

/-- R255: K = a6 = 16, N = a7 = 32 of i8; K = 12 does not fit; the stamp of t0. -/
theorem test_shape : after (.mshape (fc 0 6 7 6)) (mat.setHart 0 ((mat.hart 0).setA 6 16 |>.setA 7 32)) (fun t => (t.hart 0).mshape == 0x2000100006) = true ∧
    traps (.mshape (fc 0 6 7 6)) (mat.setHart 0 ((mat.hart 0).setA 6 12 |>.setA 7 32)) .illegal 0x800 = true ∧
    gives (.mrdshape (fc 5 0 0 0)) mat shape8 = true := by decide +kernel

/-- R261: 8 rows of 8 bytes from 0x100040 at a stride of 64; two Vat rows of 512 bytes. -/
theorem test_matrixMemory :
    (let s := words0 (mat.setHart 0 ((mat.hart 0).setA 6 64 |>.setA 7 512))
     after (.mldt (fc 0 4 6 0)) s (fun t => (List.range 8).map (((t.core 0).tile 0).elem (shapeOf shape8) 0) == [10, 0, 0, 0, 20, 0, 0, 0] &&
       ((t.core 0).tile 0).stamp == shape8 && ((t.core 0).tile 0).live) &&
     after (.mstt (fc 0 4 6 0)) s (fun t => (t.hart 0).mbuf.map (fun e => (e.pa, valueOf e.bytes)) ==
       [(0x40040, 0x101), (0x40080, 1), (0x400C0, 1), (0x40100, 1), (0x40140, 1), (0x40180, 1), (0x401C0, 1), (0x40200, 0xFF01)] ) &&
     after (.mldvat (fc 0 4 7 0x110)) s (fun t => vat0 t 16 == [10, 20] && ((t.core 0).vatRow 17).live) &&
     after (.mstvat (fc 0 4 7 0x110)) s (fun t => ((t.hart 0).mbuf.take 1).map (fun e => (e.pa, valueOf e.bytes)) == [(0x40040, 5)])) = true := by decide +kernel

/-- `mma` and `mmasp` with and without active columns, on the registers, and on the Vat for a float type. -/
theorem witness_MultiplyResults : shapeIs mat mm (shapeOf shape8) ∧ ownsTile mat 0 ∧
    (mulForms mm mat (shapeOf shape8)).all (fun f => !f.bad && f.tags.all (fun p => !p.1) && (match aRow false (f.term (myCoreOf mat) 0) 8 with
      | some as => (List.range 2).all fun n => (mmaColumn (shapeOf shape8) 6 .rne tile0 ((myCoreOf mat).vatRow 16) n n as).isSome
      | none => false)) = true ∧
    0 + 1 * min 8 2 ≤ 128 ∧ 0 < (runner mat).vlen ∧ (runner mat).start < groupRows mm ∧ ((myCoreOf mat).tile 0).stamp = (runner mat).mshape ∧
    (runner mat).en = 0 ∧ (runner mat).cut = none ∧ (runner (mat.setHart 0 { runner mat with vl := 0 })).vlen = 0 := by
  unfold shapeIs ownsTile
  and_intros <;> decide +kernel

/-- The accumulators of two rows, both register operands, a tile row under its stamp, and both kinds of shape. -/
theorem witness_MatrixMoveResults : 0 < (runner mat).vlen ∧ (runner mat).vlen ≤ 128 ∧ (runner mat).en = 0 ∧ (runner mat).cut = none ∧
    (rowNames (fx 10 0 0 20 0 1)).all (fun n => !(runner mat).isPairHigh ((runner mat).rot n)) = true ∧ 20 + 1 * 2 ≤ 128 ∧
    ((myCoreOf mat).vatRow 16).accPoison 6 0 = false ∧ (runner mat).elemPoison 10 1 = false ∧ shapeIs mat (fx 8 0 0 3 0 6) (shapeOf shape8) ∧ ownsTile mat 0 ∧
    ((runner mat).vreg 8).tag = tyTag 6 ∧ firstRow (fx 8 0 0 7 0 6) + 1 ≤ (shapeOf shape8).k ∧ ((myCoreOf mat).tile 0).elemPoison (shapeOf shape8) 7 1 = false ∧
    shapeFits 6 8 128 = true ∧ shapeFits 6 12 8 = false ∧ shapeFits 6 8 136 = false ∧ shapeFits 0 8 64 = true ∧ shapeFits 0 8 72 = false := by
  unfold shapeIs ownsTile
  and_intros <;> decide +kernel

/-- The footprints of `mldt`, `mstt`, `mldvat` and `mstvat`, read or written. -/
theorem witness_MatrixMemoryResults :
    (let s := words0 (mat.setHart 0 ((mat.hart 0).setA 6 64 |>.setA 7 512))
     (fine (footprint (fc 0 4 6 0) 8 8 .load s) fun ps s₁ => fine (readPathM ps s₁) fun bs _ => decide (bs.length ≤ 32768)) &&
     (fine (footprint (fc 0 4 6 0) 8 8 .store s) fun ps s₁ => ps.all fun p => plainAt s₁ p.pa) &&
     (fine (footprint (fc 0 4 7 0x110) 2 512 .load s) fun ps s₁ => fine (readPathM ps s₁) fun _ _ => true) &&
     (fine (footprint (fc 0 4 7 0x110) 2 512 .store s) fun ps s₁ => ps.all fun p => plainAt s₁ p.pa)) = true := by decide +kernel

/-! ### Copies and barriers (12_matrix R262-R266; 04 R84, R86) -/

/-- a6 = the Cask at 0x20, a7 = the source 0x100040, a8 = 0x50, a9 = 2 rows of 8 bytes, a10 = strides 16 and 32, a11 = the Cask at 0x100. -/
def cop : State := words0 (st fun h => { h with a := [(1, 1), (4, 0x100040), (6, 0xFFFFFFFF00020), (7, 0x100040), (8, 0x50), (9, 0x200000008),
  (10, 0x1000000020), (11, 0xFFFFFFFF00100), (12, 0xFFFFFFFF10000)] })

/-- A copy from a7 to a6 on tag 3. -/
def fcp (c : BitVec 6) (d : BitVec 6 := 0) (x : BitVec 14 := 0) : FC := ⟨d, 6, 7, c, 3, 0, x⟩

/-- The copy of tag 3 after an instruction. -/
def starts (i : Instr) (p : Copy → Bool) : Bool := after i cop fun t => (t.copyOn 0 3).any p && !(t.core 0).cdone.getLsbD 3

def withCopy (c : Copy) (s : State := cop) : State := s.setCore 0 { s.core 0 with copies := [(3, some c)] }

def copy0 : Copy := ⟨0, 0x100040, 0xFFFFFFFF00020, 0x50, 1, 0x50, 0, 0, false, none, false, 1, [], none⟩

/-- Table 12.5: the fields of a started copy; the stall on a busy tag; a length of 0; the checks of the range and of the length. -/
theorem test_copies : starts (.cpy (fcp 8)) (· == copy0) = true ∧
    starts (.cpy2d (fcp 9 10 1)) (fun c => c.rowLeft == 8 && c.rowsLeft == 2 && c.srcStride == 16 && c.dstStride == 32 && c.dur && c.twoD) = true ∧
    starts (.cpyBb (fcp 8 11)) (· == { copy0 with bar := some 0x100 }) = true ∧
    after (.cpy (fcp 8)) (withCopy copy0) (fun t => (t.hart 0).wait == some (.copyTag 3)) = true ∧
    after (.cpy (fcp 0)) cop (fun t => (t.core 0).cdone == 8 && (t.copyOn 0 3).isNone) = true ∧
    traps (.cpy ⟨0, 12, 7, 8, 3, 0, 0⟩) cop .prot 0xFFFFFFFF10000 = true ∧ traps (.cpy (fcp 9)) cop .illegal 0x800 = true ∧
    traps (.cpyBb (fcp 8 8)) (cop.setHart 0 ((cop.hart 0).setA 8 0x51)) .misalign 0x51 = true := by decide +kernel

/-- Tags 1 and 3 done; a1 = 0xA in the mask. -/
def tags : State := (cop.setCore 0 { cop.core 0 with cdone := 0xA }).setHart 0 ((cop.hart 0).setA 1 0x1A)

theorem test_tags : gives (.cdone ⟨5, 0, 0, 0, 3, 0, 0⟩) tags 1 = true ∧ gives (.cdone ⟨5, 0, 0, 0, 4, 0, 0⟩) tags 0 = true ∧
    gives (.cffr (fc 5 1 0)) tags 1 = true ∧ gives (.cffr (fc 5 0 0)) tags 0xFFFFFFFFFFFFFFFF = true ∧
    gives (.cwaitAny (fc 5 1 0)) tags 0xA = true ∧ after (.cwaitAll (fc 5 1 0)) tags (fun t => (t.hart 0).wait == some (.cwait true (fc 5 1 0))) = true ∧
    after (.cclr (fc 0 1 0)) { tags with cores := [(0, { core0 with cdone := 0xFF })] } (fun t => (t.core 0).cdone == 0xE5) = true := by decide +kernel

/-- The first line has 32 bytes, the second 48; they land in either order, and then the copy completes. -/
theorem test_copyLines : after .copyLineLand { withCopy copy0 with ev := { tag := 3 } } (fun t => (t.casks.peek (2 ^ 48 + 0x20) 1).map (·.val) == [10] &&
      (t.copyOn 0 3).any fun c => c.rowLeft == 0x30 && c.dst == 0xFFFFFFFF00040 && c.src == 0x100060) = true ∧
    after .copyLineLand { withCopy copy0 with ev := { tag := 3, line := 1 } } (fun t => (t.casks.peek (2 ^ 48 + 0x20) 1).map (·.val) == [0] &&
      (t.copyOn 0 3).any fun c => c.rowLeft == 0x50 && c.landed.length == 1) = true ∧
    after .copyComplete { withCopy { copy0 with rowsLeft := 0 } with ev := { tag := 3 } } (fun t => (t.core 0).cdone == 8 && (t.copyOn 0 3).isNone) = true := by decide +kernel

/-- R262: bytes that the copy lands over its own source are undefined, the others are the source's (a free value is nothing to compare). -/
theorem test_copyOverlap : ({ copy0 with dst := 0x100060 } : Copy).reads 0x100060 = true ∧ ({ copy0 with dst := 0x100060 } : Copy).reads 0x100090 = false ∧
    (copy0.landing 0xFFFFFFFF00020 [⟨7, false⟩] cop).1 = [⟨7, false⟩] ∧ (({ copy0 with dst := 0x100060 } : Copy).landing 0x100060 [⟨7, false⟩] cop).2.fresh = 1 := by
  decide +kernel

/-- R339: a copy stops at its first line that fails; a later one that would fail too does not end it. -/
theorem test_copyFirstFailure : after .copyFailure { withCopy { copy0 with src := 0x900000 } with ev := { tag := 3, line := 1 } } (fun t => (t.copyOn 0 3).isSome) = true := by
  decide +kernel

/-- A line of `cpy.bb` is counted; a line whose source is not mapped ends the copy, and the cause waits for the hart's boundary, where it is taken. -/
theorem test_copyFailure : after .copyLineLand { withCopy { copy0 with bar := some 0x100 } with ev := { tag := 3 } } (fun t => (t.byteBar 0 0x100).landed == 32) = true ∧
    after .copyFailure { withCopy { copy0 with src := 0x900000 } with ev := { tag := 3 } } (fun t => (t.copyOn 0 3).isNone && (t.core 0).cdone == 8 &&
      (t.hart 0).cause == 0x08 && (t.hart 0).tval == 0x900000) = true ∧
    after .copyIssueResume (waitsIn cop (.copyTag 3)) (fun t => (t.hart 0).wait == none) = true ∧
    after .cwaitWake (waitsIn tags (.cwait false (fc 5 1 0))) (fun t => (t.hart 0).wait == none && (t.hart 0).aReg 5 == 0xA) = true := by decide +kernel

/-- A byte barrier at 0x100 of the Cask with generation 5: ARR_INIT 2, ARR 1, LANDED 8, EXPECT 8. -/
def bars0 : State := (cop.setByteBar 0 0x100 none ⟨5, 2, 1, 8, 8⟩).setHart 0 ((cop.hart 0).setA 13 0)

/-- Table 4.6, R86: the last arrival completes the phase; a new object; more bytes expected. -/
theorem test_byteBarriers : after (.bbArrive (fc 0 11 13)) bars0 (fun t => t.byteBar 0 0x100 == ⟨6, 2, 2, 0, 0⟩) = true ∧
    after (.bbInit (fc 0 11 1)) bars0 (fun t => t.byteBar 0 0x100 == ⟨0, 1, 1, 0, 0⟩) = true ∧
    after (.bbExpect (fc 0 11 8)) bars0 (fun t => t.byteBar 0 0x100 == ⟨5, 2, 1, 8, 0x58⟩) = true ∧ gives (.bbTest (fc 5 11 0)) bars0 5 = true ∧
    traps (.bbInit (fc 0 11 13)) bars0 .illegal 0x800 = true ∧
    after (.bbArrive (fc 0 11 8)) (cop.setByteBar 0 0x100 none ⟨5, 2, 0, 0, 0⟩) (fun t => t.byteBar 0 0x100 == ⟨5, 2, 0, 0, 0⟩ && (t.hart 0).pc == 0x1018) = true ∧ traps (.bbTest (fc 5 6 0)) (bars0.setHart 0 ((bars0.hart 0).setA 6 0xFFFFFFFF00028)) .misalign 0xFFFFFFFF00028 = true := by decide +kernel

theorem test_byteBarrierWaits : after (.bbWait (fc 0 11 13)) bars0 (fun t => (t.hart 0).pc == 0x1018 && (t.hart 0).wait == none) = true ∧
    after (.bbWait (fc 0 11 14)) (bars0.setHart 0 ((bars0.hart 0).setA 14 5)) (fun t => (t.hart 0).pc == 0x1010 && (t.hart 0).wait == some (.bb (fc 0 11 14))) = true ∧
    after .bbWake (waitsIn bars0 (.bb (fc 0 11 13))) (fun t => (t.hart 0).pc == 0x1018 && (t.hart 0).wait == none) = true := by
  decide +kernel

/-- Trellis barrier 2 of the team: one arrival of two, generation 7. -/
def trellis (b : Barrier) : State := { base with teams := [(0, some { team0 with bars := [(2, b)], size := 2 })] }

def t27 : State := trellis ⟨2, 1, 7, none, none⟩

theorem test_trellis : after (.barArrive (fc 0 0 0 2)) t27 (fun t => t.barrier 0 2 == ⟨2, 0, 8, none, none⟩) = true ∧
    after (.barSync (fc 0 0 0 2)) t27 (fun t => t.barrier 0 2 == ⟨2, 0, 8, none, none⟩ && (t.hart 0).pc == 0x1018) = true ∧
    after (.barSync (fc 0 0 0 2)) (trellis ⟨2, 0, 7, none, none⟩) (fun t => t.barrier 0 2 == ⟨2, 1, 7, none, none⟩ && (t.hart 0).wait == some (.bar true 7 0 (fc 0 0 0 2))) = true ∧
    after (.barWait (fc 0 2 0 2)) t27 (fun t => (t.hart 0).pc == 0x1018) = true ∧
    after (.barMset (fc 0 6 0 2)) (t27.setHart 0 (hart0.setA 6 1)) (fun t => t.barrier 0 2 == ⟨1, 0, 8, none, none⟩) = true ∧
    traps (.barMset (fc 0 3 0 2)) t27 .illegal 0x800 = true ∧ gives (.barGen (fc 5 0 0 2)) t27 7 = true ∧ traps (.barGen (fc 5 0 0 18)) t27 .illegal 0x800 = true := by decide +kernel

/-- R104: the key of a DET hart that arrives goes to the harts that the phase lets through, whose later fence count is greater. -/
theorem test_barrierKeys : ((⟨2, 1, 7, none, none⟩ : Barrier).arrive (some ⟨0, 0, 5, 0, 0⟩)).passed = some ⟨0, 0, 5, 0, 0⟩ ∧
    after (.barWait (fc 0 2 0 2)) ((trellis ⟨2, 0, 7, none, some ⟨0, 0, 5, 0, 0⟩⟩).setHart 0 { hart0 with det := true }) (fun t => (t.hart 0).fcount == 6) = true := by
  decide +kernel

/-- R265: the wake, and the time-out after a[B] = 9 ns, 423 ticks. -/
theorem test_barrierEvents : after .barWake (waitsIn t27 (.bar true 6 0 (fc 0 0 3 2))) (fun t => (t.hart 0).pc == 0x1018 && (t.hart 0).wait == none) = true ∧
    after .barTimeout { waitsIn t27 (.bar true 7 0 (fc 0 0 3 2)) with now := 423 }
      (fun t => (t.hart 0).cause == 0x29 && (t.hart 0).tval == 2 && (t.hart 0).evstart == 1 && (t.hart 0).epc == 0x1010) = true ∧
    after .barTimeout { waitsIn t27 (.bar true 7 0 (fc 0 0 3 2)) with now := 422 } (fun t => (t.hart 0).wait == some (.bar true 7 0 (fc 0 0 3 2))) = true := by decide +kernel

/-- A check that passes and changes nothing, in a decidable form. -/
def passes (m : M Unit) (s : State) : Bool := fine (m s) fun _ t => t == s

theorem passes_ok {m : M Unit} {s : State} (h : passes m s = true) : m s = .ok () s := by
  unfold passes fine at h
  split at h
  · next x t e => rw [e]; simp at h; rw [h]
  · cases h

/-- Each copy, on ranges that it may name; a busy tag, and one of no bytes; a mask with a done tag, one with none. -/
theorem witness_CopyInstructions : (∀ f ∈ copyForms (fcp 8 11) cop 0x100, f.rows = 1 → f.ok → rangesAllowed (fcp 8 11) cop f) ∧
    ((copyForms (fcp 8 11) cop 0x100).map (·.rows)) = [1, 0, 1] ∧ (copyForms (fcp 9 10) cop 0).map (·.rows) = [1, 2, 1] ∧
    (withCopy copy0).copyOn (coreOf (withCopy copy0).cur) 3 = some copy0 ∧ cop.copyOn (coreOf cop.cur) 3 = none ∧
    ((myCoreOf tags).cdone &&& (runner tags).aReg 1).getLsbD 1 = true ∧ ((myCoreOf tags).cdone &&& (runner tags).aReg 1).getLsbD 0 = false ∧
    (myCoreOf tags).cdone &&& (runner tags).aReg 0 = 0 := by
  refine ⟨?_, by and_intros <;> decide +kernel⟩
  intro f hf _ _
  simp only [copyForms, List.mem_cons, List.not_mem_nil, or_false] at hf
  rcases hf with rfl | rfl | rfl <;>
    refine ⟨passes_ok ?_, passes_ok ?_, passes_ok ?_, passes_ok ?_⟩ <;> decide +kernel

/-- The operand of `cpy.bb` is a barrier of the share. -/
theorem witness_barrierOffset : (fine (barrierOffset 0xFFFFFFFF00100 cop) fun off t => off == 0x100 && t == cop) = true := by decide +kernel

/-- The copy writes 0x600000, a page with the duplicates of dies 1 and 2, and has waited from 0 to `now`. -/
def heldCopy (since : Option Nat) (now : Nat := 0) : State :=
  let c := { copy0 with dst := 0x600000, held := since.map ((0xA0000, ·)) }
  let s := cop.setCore 0 { cop.core 0 with copies := [(3, some c)], tlb := ⟨0, 0x600000, 0x10000, leafFor 0xA0000 (2 ^ 52), 0⟩ :: pages }
  { s with dups := [(0xA0000, [1, 2])], now := now, ev := { tag := 3, dies := 2 } }

/-- R79, R263, R359: the line waits; after 20 µs the copy fails with MIGRATION_TIMEOUT, and die 1, which has acknowledged, is dropped. -/
theorem test_copyHeld : after .copyLineLand (heldCopy none 5) (fun t => (t.copyOn 0 3).any (·.held == some (0xA0000, 5))) = true ∧
    after .copyFailure (heldCopy (some 5) 940004) (fun t => (t.copyOn 0 3).isSome) = true ∧
    after .copyFailure (heldCopy (some 5) 940005) (fun t => (t.copyOn 0 3).isNone && (t.core 0).cdone == 8 && (t.hart 0).cause == 0x0A &&
      (t.hart 0).tval == 0x600000 && t.dups == [(0xA0000, [2])]) = true := by decide +kernel

/-- A line that can land, one whose source is not mapped, one that must wait, a copy that is done, and the two waits. -/
theorem witness_CopyEvents : (withCopy copy0).copyOn 0 3 = some copy0 ∧ copy0.open 0 = true ∧ copy0.open 1 = true ∧
    (fine (copyRead 0 copy0 copy0.lineLen (withCopy copy0)) fun bs s₁ => bs.length == 32 &&
      fine (translateCopy 0 copy0 copy0.dst .store s₁) fun x s₂ => windowOf x.1 != .register && s₂.dups == []) = true ∧
    (match moveLine 0 { copy0 with src := 0x900000 } cop with
      | .error (.trap _ _ _) _ => true
      | _ => false) = true ∧
    (∀ x ∈ (withCopy { copy0 with rowsLeft := 0, dur := true }).cellarPend, x.hart ≠ none) ∧
    ((waitsIn cop (.copyTag 3)).hart 0).wait = some (.copyTag 3) ∧ (waitsIn cop (.copyTag 3)).awake 0 = true ∧
    (waitsIn cop (.copyTag 3)).copyOn (coreOf 0) 3 = none ∧ ((waitsIn tags (.cwait false (fc 5 1 0))).hart 0).wait = some (.cwait false (fc 5 1 0)) ∧
    (waitsIn tags (.cwait false (fc 5 1 0))).awake 0 = true ∧ (tags.core 0).cdone &&& (tags.hart 0).aReg 1 ≠ 0 ∧
    (tags.core 0).cdone &&& (tags.hart 2).aReg 1 = (tags.hart 2).aReg 1 ∧
    (match moveLine 0 { copy0 with dst := 0x600000 } (heldCopy none) with
      | .ok (.held f) t => f == 0xA0000 && t.silentHolders f == [2]
      | _ => false) = true ∧
    (∀ k < (0 : Nat), copy0.open k = true → lineFails 0 (copy0.skip k) cop = false) ∧
    ({ copy0 with src := 0x900000 } : Copy).open 0 = true ∧ lineFails 0 { copy0 with src := 0x900000 } cop = true := by
  and_intros <;> decide +kernel

/-- Arrival counts at both ends and beyond; both values of the test; a wait. -/
theorem witness_ByteBarrierResults : (fine (barrierOffset ((runner bars0).aReg 11) bars0) fun off t => off == 0x100 && t == bars0) = true ∧
    ((cop.setByteBar 0 0x100 none ⟨5, 2, 0, 0, 0⟩).byteBar 0 0x100).arr = 0 ∧ ((runner bars0).aReg 1).toNat = 1 ∧ ((runner bars0).aReg 13).toNat = 0 ∧ 2 ^ 16 ≤ ((runner bars0).aReg 4).toNat ∧
    (fine (releaseAt 2 bars0) fun _ _ => true) = true ∧ (bars0.byteBar 0 0x100).gen = 5 ∧
    (let w := waitsIn { bars0 with ev := { hart := 0 } } (.bb (fc 0 11 13))
     (w.hart 0).wait = some (.bb (fc 0 11 13)) ∧ w.awake 0 = true ∧
      (fine (barrierOffset ((runner (lookingAgain w 0)).aReg 11) (lookingAgain w 0)) fun off t => off == 0x100 && t == lookingAgain w 0) = true ∧
      ((runner (lookingAgain w 0)).aReg 13).toNat ≠ 5) := by decide +kernel

theorem witness_ByteBarrierPhase : (bars0.byteBar 0 0x100) = ⟨5, 2, 1, 8, 8⟩ ∧ (5 < 2 ^ 32 ∧ 2 < 2 ^ 16 ∧ 0 < 2 ^ 16 ∧ 8 < 2 ^ 32) ∧
    ¬(caskBase 0 + 0x100 ≤ caskBase 0 + 0xFF ∧ caskBase 0 + 0xFF < caskBase 0 + 0x110) := by decide +kernel

/-- Barriers of the team and of the die; each branch's premises; the wait with its generation changed, and its time-out. -/
theorem witness_TrellisBarrierResults : barrierExists (fc 0 0 0 2) t27 ∧
    barrierExists (fc 0 0 0 18) { t27 with launches := [(0, some { launch0 with raw := launch0.raw ||| 2 ^ 33 })] } ∧
    (fine (releaseAt 2 t27) fun _ s₁ => (s₁.barrier 0 2).gen == 7 && ((s₁.setBarrier 0 2 (arrivedOnce (s₁.barrier 0 2) s₁.myKey)).barrier 0 2).gen == 8) = true ∧
    (arrivedOnce ⟨2, 0, 7, none, none⟩ none).gen = 7 ∧ (runner t27).vstart = 0 ∧ t27.participants 0 2 = 2 ∧
    (let w := waitsIn { t27 with now := 423 } (.bar true 7 0 (fc 0 0 3 2))
     (w.hart 0).wait = some (.bar true 7 0 (fc 0 0 3 2)) ∧ w.awake 0 = true ∧ ((lookingAgain w 0).barrier 0 2).gen = 7 ∧
      (runner (lookingAgain w 0)).aReg 3 ≠ 0 ∧ 0 + ((runner (lookingAgain w 0)).aReg 3).toNat * 47 ≤ w.now) := by
  refine ⟨.inl (by decide), .inr ⟨{ launch0 with raw := launch0.raw ||| 2 ^ 33 }, rfl, by decide +kernel⟩, ?_⟩
  and_intros <;> decide +kernel

/-! ### Order, stamps, clocks, digests (05_ordering; 11_memory R244-R248; 12_matrix R267-R270) -/

/-- A store of hart 0 to the Cellar that no L2 has applied. -/
def owes : State := st fun h => { h with sbuf := [⟨0x400000000040, [⟨1, false⟩], 0, 0⟩] }

/-- R95, R99, R111: with nothing outstanding fences complete; with a buffered Cellar store they stall where it matters; a stall's end. -/
theorem test_fences : [Instr.fence (fc 0 0 0 1), .fence (fc 0 0 0 5), .fencePath (fc 0 0 0 0x41), .fenceDur].all (fun i => after i base fun t => (t.hart 0).pc == 0x1018) = true ∧
    [Instr.fence (fc 0 0 0 0), .fencePath (fc 0 0 0 0x101), .fencePath (fc 0 0 0 1)].all (fun i => after i owes fun t => (t.hart 0).pc == 0x1018) = true ∧
    [(Instr.fence (fc 0 0 0 1), Wait.fence 1 []), (.fencePath (fc 0 0 0 0x81F), .fencePath 0x20), (.fenceDur, .fenceDur)].all (fun p => after p.1 owes fun t =>
      (t.hart 0).pc == 0x1010 && (t.hart 0).wait == some p.2) = true ∧
    after .fenceDone (waitsIn base (.fence 3 [])) (fun t => (t.hart 0).wait == none && (t.hart 0).released) = true ∧
    after .fenceDurDone (waitsIn base .fenceDur) (fun t => (t.hart 0).wait == none && (t.hart 0).released) = true ∧
    after .fenceDurDone (waitsIn owes .fenceDur) (fun t => (t.hart 0).wait == some .fenceDur) = true := by decide +kernel

/-- R112, R245: an epoch without Cellar stores is counted at once; one with a store waits for it. -/
theorem test_pbar : after .pbar base (fun t => (t.hart 0).pcount == 1 && (t.hart 0).epoch == 1 && (t.hart 0).pbars == []) = true ∧
    after .pbar owes (fun t => (t.hart 0).pcount == 0 && (t.hart 0).pbars == [1] && (t.hart 0).pc == 0x1018) = true ∧
    after .pbarComplete (st fun h => { h with pbars := [1] }) (fun t => (t.hart 0).pcount == 1 && (t.hart 0).pbars == []) = true := by decide +kernel

/-- 100 ns after a beat with the bounds 20 and 30; a6 is a stamped cell, a7 = 20 and a8 = 150. -/
def timed : State := { (st fun h => ((h.setA 6 0x200040).setA 7 20).setA 8 150) with dies := [(0, { clock := ⟨20, 30, 0⟩ })], now := 4700 }

/-- R105: the latest value is 30 + 100 + 1, at ±2 ppm. -/
theorem test_stamp : after (.stStamp (fc 5 6 2)) timed (fun t => (t.hart 0).aReg 5 == 131 && (t.hart 0).lastStamp == 131 &&
      t.stampq == [⟨0x50040, 3, 131, 0, 0, 0, false, 0, none⟩]) = true ∧ traps (.stStamp (fc 5 4 2)) timed .stampRegion 0x100040 = true ∧
    traps (.stStamp (fc 5 9 2)) (timed.setHart 0 ((timed.hart 0).setA 9 0x200050)) .misalign 0x200050 = true ∧
    after (.clkRd (fc 5 0 6)) timed (fun t => (t.hart 0).aReg 5 == 119 && (t.hart 0).aReg 6 == 131) = true := by decide +kernel

/-- A queued stamped store of 3 at 131, with the mark at 132 on every die; the cell has value 9 at stamp 50. -/
def stampedAt (mark : Nat) : State :=
  let s := withBytes timed 0x50040 (bytesOf 8 9 ++ bytesOf 8 50)
  { s.setDie 0 { s.die 0 with mark := mark } with stampq := [⟨0x50040, 3, 131, 0, 0, 2, false, 0, none⟩] }

/-- R107, R108: visible once the mark is past the stamp; the old version becomes the previous one. R109: the value as of 20 is too old, as of 150 held. -/
theorem test_stampVisible : after .commitWait (stampedAt 132) (fun t => t.cell 0 0x50040 == ⟨3, 131, 9, 50⟩ && t.stampq == []) = true ∧
    after .commitWait (stampedAt 131) (fun t => t.cell 0 0x50040 == ⟨9, 50, 0, 0⟩ && t.stampq.length == 1) = true ∧
    gives (.ldAsof (fc 5 6 9)) ((stampedAt 132).setHart 0 (((stampedAt 132).hart 0).setA 9 60)) 9 = true ∧
    gives (.ldAsof (fc 5 6 7)) (stampedAt 132) 0 = true ∧
    after (.ldAsof (fc 5 6 8)) (stampedAt 132) (fun t => (t.hart 0).wait == some (.ldAsof (fc 5 6 8))) = true ∧
    after (.ldAsof (fc 5 6 7)) { stampedAt 132 with stampq := [⟨0x50040, 3, 131, 0, 0, 0, false, 0, none⟩] } (fun t => (t.hart 0).wait == some (.ldAsof (fc 5 6 7))) = true ∧
    after .commitWait { stampedAt 132 with dups := [(0x50000, [2])], dupSizes := [(0x50000, 0x10000)] } (fun t => t.stampq.length == 1) = true ∧
    after .ldAsofRead (waitsIn (stampedAt 132) (.ldAsof (fc 5 6 7))) (fun t => (t.hart 0).wait == none && (t.hart 0).aReg 5 == 0) = true := by decide +kernel

/-- R248: the earliest value, 119, is past 20 and not past 150. -/
theorem test_clkWait : after (.clkWait (fc 0 7 0)) timed (fun t => (t.hart 0).pc == 0x1018 && (t.hart 0).wait == none) = true ∧
    after (.clkWait (fc 0 8 0)) timed (fun t => (t.hart 0).wait == some (.clk (fc 0 8 0))) = true ∧
    traps (.clkWait (fc 0 8 0)) (timed.setHart 0 { timed.hart 0 with clkw := 8 }) .clockWide 12 = true ∧
    after .clkWaitWake (waitsIn timed (.clk (fc 0 7 0))) (fun t => (t.hart 0).pc == 0x1018) = true ∧
    after .clockWide ((waitsIn timed (.clk (fc 0 8 0))).setHart 0 { (waitsIn timed (.clk (fc 0 8 0))).hart 0 with clkw := 8 })
      (fun t => (t.hart 0).cause == Cause.clockWide.code.setWidth 64 && (t.hart 0).tval == 12) = true := by decide +kernel

/-- Code slot 1 is fetching 0x100000. -/
def fetching : State := (withBytes base 0x40008 [7]).setCore 0 { core0 with code := (1, { landed := some false, va := 0x100000, pa := 0x40000 }) :: core0.code }

/-- R267: the fetch starts, but not into the slot of the current segment, nor of a segment that another slot holds. -/
theorem test_codeFetch : after (.cfetch (fc 0 4 0 2)) (st (·.setA 4 0x110040)) (fun t => (t.hart 0).cause == 0x08) = true ∧
    after (.cfetch (fc 0 4 0 2)) base (fun t => (Tbl.get {} (t.core 0).code 2).landed == some false && (Tbl.get {} (t.core 0).code 2).pa == 0x40000) = true ∧
    traps (.cfetch (fc 0 4 0 0)) base .illegal 0x300 = true ∧ after (.cfetch (fc 0 4 0 2)) fetching (fun t => (Tbl.get {} (t.core 0).code 2).landed == none) = true ∧
    gives (.cfwait (fc 5 0 0 0)) base 1 = true ∧ gives (.cfwait (fc 5 0 0 3)) base 0 = true ∧
    after (.cfwait (fc 5 0 0 1)) fetching (fun t => (t.hart 0).wait == some (.cfwait (fc 5 0 0 1))) = true ∧
    after .cfwaitWake (waitsIn base (.cfwait (fc 5 0 0 0))) (fun t => (t.hart 0).aReg 5 == 1 && (t.hart 0).wait == none) = true := by decide +kernel

/-- A slot with no fetch under way has nothing that lands. -/
theorem test_codeLands : after .cfetchLand { fetching with ev := { slot := 2 } } (fun t => (t.core 0).code == (fetching.core 0).code) = true := by decide +kernel

/-- A counter at 0x100040 with next 5 and limit 9. -/
def counter : State := withBytes base 0x40040 (bytesOf 8 5 ++ bytesOf 8 9)

/-- R44: a claim of 3 of the 4 left, of 9 of them, and of none; 0 and 129 are not counts. -/
theorem test_claim : after (.claimWork (fc 5 4 2)) counter (fun t => (t.hart 0).aReg 5 == 5 && (t.hart 0).vl == 3 && peek0 t 0x40040 8 == 8) = true ∧
    after (.claimWork (fc 5 4 3)) counter (fun t => (t.hart 0).vl == 4 && peek0 t 0x40040 8 == 9) = true ∧
    after (.claimWork (fc 5 4 3)) (withBytes counter 0x40040 [9]) (fun t => (t.hart 0).aReg 5 == 9 && (t.hart 0).vl == 0 && peek0 t 0x40040 8 == 9) = true ∧
    traps (.claimWork (fc 5 4 6)) counter .vlIllegal 0 = true ∧ traps (.claimWork (fc 5 4 6)) (counter.setHart 0 (hart0.setA 6 129)) .vlIllegal 129 = true ∧
    after .yield base (fun t => (t.team 0).any (·.yielding)) = true := by decide +kernel

/-- The standard's example: SM3 of "abc" begins 66 C7 F0 F4 62 EE ED D9; the cell's step was 4. -/
theorem test_digestPost : after (.digPost ⟨5, 4, 6, 2, 0, 0, 0⟩) ((withBytes (withBytes base 0x40080 [0x61, 0x62, 0x63]) 0x40048 [4]).setHart 0 (hart0.setA 6 0x100080))
    (fun t => (t.hart 0).aReg 5 == 0xD9EDEE62F4F0C766 && read0 t 0x40040 8 == 0xD9EDEE62F4F0C766 && read0 t 0x40048 8 == 5) = true := by decide +kernel

/-- A cell with the digest 7 at step 3; b = 7 in a6. -/
def digests (want mine : Word) : State := (withBytes base 0x40040 (bytesOf 8 7 ++ bytesOf 8 3)).setHart 0 ((hart0.setA 6 mine).setA 7 want)

def digWord : FC := ⟨5, 4, 6, 7, 0, 0, 0⟩

theorem test_digestWait : gives (.digWait digWord) (digests 2 7) 2 = true ∧ gives (.digWait digWord) (digests 3 7) 0 = true ∧
    after (.digWait digWord) (digests 3 8) (fun t => (t.hart 0).aReg 5 == 1 && t.log.pending.length == 1 && t.events.pending.length == 1) = true ∧
    after (.digWait digWord) (digests 4 7) (fun t => (t.hart 0).wait == some (.dig digWord)) = true ∧
    after .digWaitWake (waitsIn (digests 3 7) (.dig digWord)) (fun t => (t.hart 0).wait == none && (t.hart 0).pc == 0x1018) = true := by decide +kernel

theorem witness_FenceResults : (runner base).released = false ∧ promisesHold (drainedState base) base.cur 0 ∧ ¬promisesHold (drainedState owes) owes.cur 1 ∧
    (drainedState base).pathDone 0 0x20 = true ∧ (drainedState owes).pathDone 0 0x20 = false ∧ notSpliced base ∧ (drainedState base).hartDurable 0 = true ∧
    (drainedState owes).hartDurable 0 = false ∧ base.awake 0 = true ∧ (waitsIn base (.fence 3 [])).awake 0 = true ∧ (waitsIn base (.fence 3 [])).storesDone 0 = true ∧
    base.countedApplied (base.clockOf (dieOf 0)) false = true := by
  refine ⟨rfl, .inl rfl, ?_, by decide +kernel, by decide +kernel, ?_, by and_intros <;> decide +kernel⟩
  · rintro (h | ⟨h, -⟩)
    · cases h
    · exact absurd h (by decide)
  · intro l h
    cases Option.some.inj h
    decide +kernel

theorem notSpliced_of {s : State} (h : s.launchOf s.cur = some launch0) : notSpliced s := by
  intro l h'
  rw [h] at h'
  cases Option.some.inj h'
  decide +kernel

theorem witness_PersistBarrierResults : notSpliced base ∧ base.hartDurable base.cur = true := ⟨notSpliced_of rfl, by decide +kernel⟩

theorem witness_StampResults : notSpliced timed ∧ clockNarrow timed ∧ ((runner timed).aReg 6).toNat % 32 = 0 ∧
    (fine (translateMe 0x200040 .stampStore timed) fun x s₁ => fine (holdForDup 0x200040 x.2 s₁) (fun _ s₂ => s₂ == s₁) && fine (releaseAt (stampScope s₁ x.1 (pteStampFabric x.2)) s₁) fun _ _ => true) = true ∧
    (stampedAt 132).dueStamped = some ⟨0x50040, 3, 131, 0, 0, 2, false, 0, none⟩ ∧
    (∀ e ∈ (stampedAt 132).stampq, (stampedAt 132).dupAt e.pa 32 = none) ∧ timed.dueStamped = none ∧
    (fine (translateMe 0x200040 .stampLoad (stampedAt 132)) fun x u₁ => 20 < u₁.markAt (pteStampFabric x.2) x.1 0 && u₁.stampq.all (fun e => 20 < e.stamp) &&
      (u₁.cell 0 x.1).pstamp ≤ 20) = true ∧ (waitsIn (stampedAt 132) (.ldAsof (fc 5 6 7))).awake 0 = true :=
  ⟨notSpliced_of rfl, by unfold clockNarrow; and_intros <;> decide +kernel⟩

/-- Stamps above, between and below the versions, at the edges of the three clauses. -/
theorem witness_StampedCellVersions : (9 : Nat) ≤ 9 ∧ ((5 : Nat) ≤ 8 ∧ (8 : Nat) < 9) ∧ ((4 : Nat) < 5 ∧ (4 : Nat) < 9) := by decide

theorem witness_ClockInstructions : clockNarrow timed ∧ ¬clockNarrow (timed.setHart 0 { timed.hart 0 with clkw := 8 }) ∧
    ¬((timed.interval 0).1 ≤ ((runner timed).aReg 7).toNat) ∧ (timed.interval 0).1 ≤ ((runner timed).aReg 8).toNat ∧
    (waitsIn timed (.clk (fc 0 7 0))).awake 0 = true ∧ canEnter (lookingAgain (waitsIn timed (.clk (fc 0 8 0))) 0) 0 team0 :=
  by unfold clockNarrow canEnter; and_intros <;> decide +kernel

theorem witness_CodeFetchResults : base.slotCurrent 0 2 = false ∧ base.slotCurrent 0 0 = true ∧ (fine (translateMe 0x100000 .fetch base) fun _ s₁ =>
      !(myCoreOf s₁).holdsElsewhere 2 0x100000) = true ∧ (myCoreOf fetching).holdsElsewhere 2 0x100000 = true ∧
    (Tbl.get {} (fetching.core 0).code 1).landed = some false ∧ (waitsIn base (.cfwait (fc 5 0 0 0))).awake 0 = true := by decide +kernel

theorem witness_ClaimResults : notSpliced counter ∧ 1 ≤ ((runner counter).aReg 2).toNat ∧ ((runner counter).aReg 2).toNat ≤ 128 ∧ ((runner counter).aReg 4).toNat % 16 = 0 ∧
    (fine (probeAtomic 0x100040 16 counter) fun _ _ => true) = true ∧ ((runner counter).aReg 6).toNat = 0 ∧
    128 < ((129 : Word)).toNat ∧ base.teamOf base.cur = some team0 :=
  ⟨notSpliced_of rfl, by and_intros <;> decide +kernel⟩

theorem witness_DigestResults : (3 < 2 ^ 32) ∧ ((runner base).aReg 4).toNat % 16 = 0 ∧
    (fine (translateArea 0x100080 3 .load base) fun ps s₁ => fine (translateMe 0x100040 .load s₁) fun _ s₂ =>
      fine (translateMe 0x100040 .store s₂) fun y s₃ => fine (readArea ps s₃) fun bs s₄ => bs.all (!·.poi) && fine (readPhys y.1 16 s₄) fun old s₅ =>
        old.all (!·.poi) && fine (readyToWrite 0x100040 y.1 16 y.2 (fun _ _ => false) s₅) (fun _ s => s == s₅) && fine (releaseAt 4 s₅) fun _ s₆ =>
          fine (readyToWrite 0x100040 y.1 16 y.2 (fun _ _ => false) s₆) fun _ _ => true) = true ∧
    [digests 2 7, digests 3 7, digests 3 8, digests 4 7].all (fun s => fine (translateMe 0x100040 .load s) fun x s₁ =>
      fine (readPhys x.1 16 s₁) fun bs _ => bs.all (!·.poi) && valueOf (bs.take 8) == 7 && valueOf (bs.drop 8) == 3) = true ∧
    (waitsIn (digests 3 7) (.dig digWord)).awake 0 = true := by decide +kernel

/-! ### Launches, teams and runs (06_launch; 07_splicing R135, R143; 12_matrix R268) -/

/-- A record of Table 6.1 for one tile, entry 0x100000, one segment; with flags, E_0 and S. -/
def recordOf (kid : Nat) (flags : Nat := 0) (e : Nat := 1) (s : Nat := 1) : Nat :=
  kid + flags * 2 ^ 32 + 0x100000 * 2 ^ 64 + (e + 2 ^ 32 + 2 ^ 64 + 2 ^ 96) * 2 ^ 128 + 0x0001000100010001 * 2 ^ 128 * 2 ^ 128 +
    (s + 2 ^ 16) * 2 ^ 320 + 2 ^ 672

def launchWith (raw : Nat) (more : Launch → Launch := id) : Launch := more { part := 0, addr := 0x100000, raw := BitVec.ofNat 1024 raw }

/-- The page tables of partition 0 in memory, with one page of 64 KiB at 0x100000. -/
def walked (s : State) : State :=
  let node := fun (s : State) pa (e : Nat) => withBytes s pa (bytesOf 8 e)
  node (node (node (node (node (node s 0x10000 0x11001) 0x11000 0x12001) 0x12000 0x13001) 0x13000 0x14001) 0x14000 0x15001) 0x15080
    (leafFor 0x40000).toNat

/-- R116, R268: `lnch` of a record waits; the answer is 0 for one that is queued, and its rejection code for another. -/
theorem test_lnch : after (.lnch (fc 5 4 0)) base (fun t => (t.hart 0).wait == some (.lnch (fc 5 4 0))) = true ∧
    traps (.lnch (fc 5 6 0)) (st (·.setA 6 0x100044)) .misalign 0x100044 = true ∧
    (let s := fun kid s => waitsIn (withBytes (walked base) 0x40040 (bytesOf 128 (recordOf kid 0 1 s))) (.lnch (fc 5 4 0))
     after .lnchAnswer (s 8 1) (fun t => (t.hart 0).aReg 5 == 0 && (t.hart 0).wait == none && (t.launch 1).any fun l => l.kid == 8) &&
     after .lnchAnswer (s 7 1) (fun t => (t.hart 0).aReg 5 == 9 && (t.launch 1).isNone) && after .lnchAnswer (s 8 33) (fun t => (t.hart 0).aReg 5 == 4)) = true := by decide +kernel

/-- R118: one record for each condition but the last three. -/
theorem test_rejection : [(recordOf 8, 0), (recordOf 8 0x20, 1), (recordOf 8 + 2 ^ 64, 2), (recordOf 8 - 2 ^ 672, 2), (recordOf 8 - 2 ^ 256, 3), (recordOf 8 0 1 0, 4),
    (recordOf 8 + 8 * 2 ^ 352, 5), (recordOf 8 + 32 * 2 ^ 640, 6), (recordOf 8 + 8 * 2 ^ 512, 7), (recordOf 8 2 + 223 * 2 ^ 336, 8), (recordOf 7, 9), (recordOf 0, 9),
    (recordOf 8 + 2 ^ 368, 10)].all (fun p => base.rejection (launchWith p.1) (List.replicate 8 {}) == p.2) = true := by decide +kernel

/-- One launch is queued in partition 0, and nothing runs. -/
def queued (l : Launch := launchWith (recordOf 8)) : State :=
  { walked { State.reset with cores := [(0, { tlb := pages })], parts := [(0, { level := 1, state := 1, w2 := 0x10000, supvec := 0x300001 })],
                              svc := { State.reset.svc with booted := true } } with launches := [(0, some l)], nextLaunch := 1 }

/-- R121: the team goes to the lowest core of the lowest die, and the fetch of its segment begins. -/
theorem test_admission : after .admitTeam queued (fun t => (t.team 0).any (fun x => x.cores == [0] && x.status == .fetching && x.ix == 0 && x.die == 0) &&
      (t.core 0).team == some 0 && (Tbl.get {} (t.core 0).code 0).landed == some false && (Tbl.get {} (t.core 0).code 0).pa == 0x40000 &&
      (t.launch 0).any fun l => l.status == .running && l.nextTeam == 1) = true ∧
    after .admitTeam { queued with svc := { queued.svc with selftests := [(0, ⟨0, 0, 0, 0, 0, 0, 0, 0, 0, 0, 0, 0, 0, 0, false⟩)] } } (fun t => t.teams == []) = true := by decide +kernel

/-- R125: a whole millisecond. -/
theorem test_age : after .ageTick { queued (launchWith (recordOf 8) ({ · with readyAt := some 10 })) with now := 47000010 } (fun t => (t.launch 0).any (·.age == 1)) = true ∧
    after .ageTick { queued (launchWith (recordOf 8) ({ · with readyAt := some 10 })) with now := 47000009 } (fun t => (t.launch 0).any (·.age == 0)) = true := by decide +kernel

/-- A team of the launch on core 0, whose segment has landed. -/
def landed (ts : TStatus) (raw : Nat := recordOf 8) (f : Team → Team := id) (h : Hart := {}) : State :=
  { queued (launchWith raw ({ · with status := .running, nextTeam := 1 })) with
    teams := [(0, some (f { team0 with status := ts }))], nextTeam := 1, harts := [(0, h)]
    cores := [(0, { tlb := pages, team := some 0, code := [(0, { landed := some true, va := 0x100000, pa := 0x40000 })] })] }

/-- Table 2.5: pc, a1, a3, a4, kid; a slot on its way holds the start. -/
theorem test_hartStart : after .hartStart (landed .fetching) (fun t => (t.team 0).any (·.status == .running) && (t.hart 0).status == .running &&
      (t.hart 0).pc == 0x100000 && (t.hart 0).aReg 1 == 0x100000 && (t.hart 0).aReg 3 == 0 && (t.hart 0).aReg 4 == 1 && (t.hart 0).kid == 8) = true ∧
    after .hartStart ((landed .fetching).setCore 0 { (landed .fetching).core 0 with code := [(0, { landed := some false, va := 0x100000 })] })
      (fun t => (t.team 0).any (·.status == .fetching)) = true := by decide +kernel

/-- R135: a tile-body launch of two tiles with one team: the halted team runs tile 1; with one tile it ends. -/
theorem test_runs : after .tileRunStart (landed .running (recordOf 8 1 2) id { status := .halted, size := 1 }) (fun t => (t.team 0).any (fun x => x.tile == 1) &&
      (t.hart 0).status == .running && (t.hart 0).pc == 0x100000) = true ∧
    after .tileRunStart (landed .running (recordOf 8 1 1) id { status := .halted, size := 1 }) (fun t => (t.hart 0).status == .halted) = true ∧
    after .stageSwitch (landed .switching) (fun t => (t.team 0).any (·.status == .running) && (t.hart 0).pc == 0x100000) = true := by decide +kernel

/-- R43, R124: the team ends and frees its core; the launch ends, and its queue has completed one; CVAL goes to the flag, and the status after it. -/
theorem test_ends : after .teamEnd (landed .running (recordOf 8) id { status := .halted, size := 1 }) (fun t => (t.team 0).any (·.status == .ended) && (t.core 0).team == none) = true ∧
    after .launchComplete (landed .ended) (fun t => (t.launch 0).isNone && t.teams == [] && Tbl.get 0 (t.part 0).completed 0 == 1) = true ∧
    after .launchComplete (landed .ended (recordOf 8 + 0x100080 * 2 ^ 512 + 0x55 * 2 ^ 576)) (fun t => (t.launch 0).isNone && peek0 t 0x40080 8 == 0x55 && peek0 t 0x40088 8 == 0) = true ∧
    after .launchComplete (landed .running) (fun t => (t.launch 0).isSome) = true := by decide +kernel

/-- R348, R364: a check stops the partitions that it names; a supervisor slot that is not on its way does not land. -/
theorem test_machineCheck : after .machineCheck { base with ev := { cause := 0x19, dies := 1, pa := 0x40000 } } (fun t => (t.part 0).state == 2 && (t.hart 0).status != .running) = true ∧
    after .supervisorSlotLanded base (fun t => t == base) = true := by decide +kernel

theorem witness_LaunchInstruction : ((runner base).aReg 4).toNat % 8 = 0 ∧ (fine (releaseAt 3 base) fun _ _ => true) = true ∧
    (let s := waitsIn (withBytes (walked base) 0x40040 (bytesOf 128 (recordOf 8))) (.lnch (fc 5 4 0))
     (s.hart 0).wait = some (.lnch (fc 5 4 0)) ∧ (s.hart 0).status = .running ∧
     (fine (readVirtual 0 0 none none leadRights 0x100040 128 (lookingAgain s 0)) fun bs u₁ => bs.all (!·.poi) &&
       fine (handleRecord 0 0x100040 bs u₁) fun code v => code == 0 && v.cur == 0 && (v.hart 0).wait == none) = true) :=
  by and_intros <;> decide +kernel

/-- A record that none of the ten conditions rejects, and one that the first and the second reject. -/
theorem witness_LaunchRejection : (∀ r ∈ rejectionReasons base (launchWith (recordOf 8)) [], ¬r) ∧ (rejectionReasons base (launchWith (recordOf 8 0x20)) [])[0] ∧
    (rejectionReasons base (launchWith (recordOf 8 + 2 ^ 64)) [])[1] ∧ ¬(rejectionReasons base (launchWith (recordOf 8 + 2 ^ 64)) [])[0] := by
  refine ⟨?_, ?_, ?_, ?_⟩
  · simp only [rejectionReasons, List.forall_mem_cons, List.not_mem_nil, false_and, exists_false, or_false, false_imp_iff, implies_true, and_true]
    decide +kernel
  · exact .inl (by decide +kernel)
  · exact .inl (by decide +kernel)
  · rintro (h | ⟨d, h, -⟩)
    · exact absurd h (by decide +kernel)
    · cases h

theorem witness_AdmissionResults : (queued.part 0).state = 1 ∧ (∀ t ∈ queued.svc.selftests, t.1 ≠ 0) ∧
    (match queued.candidates 0 (queued.effs 0) with
      | [x] => (match queued.findPlaces x.launch (queued.needsOf x.li x.launch) (queued.diesOf 0) with
        | .ok ps => ps.length == 1 && fine (seatAll x.li ps (queued.setPart 0 { queued.part 0 with rr := Tbl.set 63 (queued.part 0).rr x.eff x.launch.queue })) fun _ _ => true
        | .error _ => false)
      | _ => false) = true ∧
    (let s := landed .stopping (recordOf 8) ({ · with save := some 0x800000 }) { status := .running, size := 1 }
     s.team 0 = some { team0 with status := .stopping, save := some 0x800000 } ∧ s.savable { team0 with status := .stopping, save := some 0x800000 } = true ∧
      s.allHalted { team0 with status := .stopping, save := some 0x800000 } = false) :=
  by and_intros <;> decide +kernel

theorem witness_AgeTick : (queued (launchWith (recordOf 8) ({ · with readyAt := some 10 }))).launch 0 = some (launchWith (recordOf 8) ({ · with readyAt := some 10 })) ∧
    10 + (0 + 1) * 47000000 ≤ 47000010 := by decide +kernel

/-- A team that is fetching, one that switches stages, and one whose run of a tile body is over. -/
theorem witness_RunStartResults : team0.harts.Nodup ∧
    (∀ ts ∈ [TStatus.fetching, .switching], (landed ts).team 0 = some { team0 with status := ts } ∧ (∀ c ∈ team0.cores, ((landed ts).core c).fetching = false) ∧
      (landed ts).startAcquired { team0 with status := ts } = true ∧ (landed ts).missingEntry { team0 with status := ts } = none ∧
      (fine (refillShare { team0 with status := ts } (landed ts)) (fun e w => e == none && fine (beginRun 0 w) fun _ _ => true)) = true ∧
      (landed ts).launch ((landed ts).stageLaunchIx { team0 with status := ts }) = some (launchWith (recordOf 8) ({ · with status := .running, nextTeam := 1 })) ∧
      (fine (beginRun 0 (landed ts)) fun _ _ => true) = true) ∧
    (let s := landed .running (recordOf 8 1 2) id { status := .halted, size := 1 }
     s.runOver 0 = some (team0, 0, 1) ∧ s.spliced team0 = false ∧ (fine (beginRun 0 (s.toRun 0 team0 (0, 1))) fun _ _ => true) = true) :=
  by and_intros <;> decide +kernel

/-- A launch of which one team has faulted and another runs. -/
def faultedLaunch : State := { landed .running with launches := [(0, some (launchWith (recordOf 8) ({ · with status := .running, nextTeam := 1, faulted := true })))] }

/-- R347: the other team ends with no result of its own; R346: a team asked to stop ends if it has halted. -/
theorem test_faultedEnd : after .launchComplete faultedLaunch (fun t => (t.team 0).any (·.status == .ended) && (t.core 0).team == none) = true ∧
    after .teamEnd (landed .stopping (recordOf 8) id { status := .halted, size := 1 }) (fun t => (t.team 0).any (·.status == .ended)) = true := by decide +kernel

theorem witness_EndResults :
    (let s := landed .running (recordOf 8) id { status := .halted, size := 1 }
     s.team 0 = some team0 ∧ s.allHalted team0 = true ∧ s.teamQuiet team0 = true ∧ s.nextRun team0 = none) ∧
    (let s := landed .ended
     let l := launchWith (recordOf 8) ({ · with status := .running, nextTeam := 1 })
     s.launch 0 = some l ∧ s.endsAs 0 l = some .ok ∧ l.faulted = false ∧ (fine (completionHeld 0 l s) fun x _ => !x) = true ∧ l.chain.length ≤ 1 ∧ launchesOf s l.part = [(0, l)] ∧ (s.part 0).w3 = 0 ∧
      (fine (completionHeld 0 l s) fun _ w => fine (writeCompletion l .ok w) fun _ v => v.launches == s.launches && v.parts == s.parts) = true) ∧
    (faultedLaunch.launch 0).any (·.faulted) = true ∧ faultedLaunch.liveTeams 0 ≠ [] := by
  and_intros <;> decide +kernel

theorem witness_SupervisorSlotResults : let s := (waitsIn base (.trapEntry 0x11 0 0x1010 0 unitAp)).setCore 0 { core0 with sup := { landed := some false, va := 0x300000, pa := 0x60000 } }
    (s.core 0).sup.landed = some false ∧ (s.hart 0).wait = some (.trapEntry 0x11 0 0x1010 0 unitAp) := ⟨rfl, rfl⟩

theorem witness_MachineCheckStopsPartitions : ({ base with ev := { cause := 0x1A, dies := 1 } } : State).ev.cause = 0x1A ∧ (base.part 0).state = 1 ∧ (base.part 1).state ≠ 1 ∧
    0 ∈ base.servedBy 0 1 ∧ base.servedBy (memoryUnit 0x40000) 4 = [2] ∧ base.launch 0 = some launch0 ∧
    launch0.part = 0 ∧ launch0.nextTeam ≠ 0 ∧ base.team 0 = some team0 ∧ team0.launch = 0 ∧
    (launchWith (recordOf 8)).nextTeam = 0 ∧ (launchWith (recordOf 8)).status = .queued := by decide +kernel

/-! ### Events of the memory system (02 R25, R28; 04 R79; 05 R90-R92, R111) -/

theorem test_pipeline : after .apDecodeResume (waitsIn (st fun h => { h with epq := 64 }) .epFull) (fun t => (t.hart 0).epq == 63 && (t.hart 0).wait == none) = true ∧
    after .apResync (waitsIn (st fun h => { h with epq := 5, meq := 2 }) .resync) (fun t => (t.hart 0).epq == 0 && (t.hart 0).meq == 0 && (t.hart 0).wait == none) = true := by
  decide +kernel

/-- A store of 7 at 0x40040 in the buffer of hart 0, after one of 9 to the same byte or to another. -/
def twoStores (first : Nat) (ix : Nat) : State :=
  { (st fun h => { h with sbuf := [⟨first, [⟨9, false⟩], 0, 0⟩, ⟨0x40040, [⟨7, false⟩], 0, 0⟩] }) with ev := { idx := ix } }

/-- The page of the stores has a duplicate (R79). -/
def dupHeldStores (ix : Nat) : State := { twoStores 0x40041 ix with dups := [(0x40000, [2])], dupSizes := [(0x40000, 0x10000)] }

/-- R90, R92: a later store may go first, but not past one to its byte; it is seen on its die alone, and then on its way to the others. -/
theorem test_storeApplied : after .storeAppliedToL2 (twoStores 0x40041 1) (fun t => peek0 t 0x40040 1 == 7 && (t.byteAt 1 0x40040).val == 0 && (t.hart 0).sbuf.length == 1 &&
      t.net.length == 1) = true ∧ after .storeAppliedToL2 (twoStores 0x40040 1) (fun t => peek0 t 0x40040 1 == 0 && (t.hart 0).sbuf.length == 2) = true ∧
    after .storeAppliedToL2 (dupHeldStores 1) (fun t => peek0 t 0x40040 1 == 0 && (t.hart 0).sbuf.length == 2) = true := by decide +kernel

/-- A write of die 0 that dies 1 and 2 have not applied. -/
def onItsWay : NetWrite := ⟨0, 1, [1, 0, 0, 0, 0, 0, 0, 0], 0x40040, [⟨7, false⟩], none, false, none, [], [1, 2]⟩

/-- The die that made the write has applied it. -/
def sent (d : Nat) : State := { (withBytes base 0x40048 [1]).setDie 0 { base.die 0 with seen := [(0, 1)] } with net := [onItsWay], ev := { die := d } }

theorem test_writeApply : after .writeApply (sent 2) (fun t => (t.byteAt 2 0x40040).val == 7 && (t.byteAt 1 0x40040).val == 0 && t.seenBy 2 0 == 1) = true ∧
    after .writeApply (sent 3) (fun t => (t.byteAt 3 0x40040).val == 0) = true := by decide +kernel

/-- R111, R112: a pending store becomes durable, the one of a later epoch only after it. -/
def cellar (ix : Nat) : State := { base with cellarPend := [⟨some 0, 0, 0x400000000040, [⟨5, false⟩], 0, 1, some 0⟩, ⟨some 0, 1, 0x400000000080, [⟨6, false⟩], 0, 2, some 1⟩], ev := { idx := ix } }

theorem test_cellarAccept : after .cellarAccept (cellar 0) (fun t => (t.media.get 0x400000000040).val == 5 && t.cellarPend.length == 1) = true ∧
    after .cellarAccept (cellar 1) (fun t => t.cellarPend.length == 2) = true := by decide +kernel

/-- A peer's access at 0x40040. -/
def peer (op : FabricOp) : State := { mem0 with ev := { pa := 0x40040, fop := op } }

theorem test_fabric : after .fabricWindowAccess (peer (.write [1, 2])) (fun t => peek0 t 0x40040 2 == 0x201) = true ∧
    after .fabricWindowAccess (peer (.amo 0 true 0xF 0)) (fun t => peek0 t 0x40040 8 == 0x8807060504830300) = true ∧
    after .fabricWindowAccess (peer (.amo 11 true 0xF 0)) (fun t => peek0 t 0x40040 8 == 0x88070605048302F1) = true ∧
    after .fabricWindowAccess (peer (.read 8)) (fun t => peek0 t 0x40040 8 == 0x88070605048302F1) = true := by decide +kernel

/-- A peer's write meets the duplicates of dies 1 and 2, since time 0 where `since` says so. -/
def peerDup (since : Option Nat) (now : Nat) : State :=
  { peer (.write [1, 2]) with dups := [(0x40000, [1, 2])], dupSizes := [(0x40000, 0x10000)], now := now
                              peerHeld := since.toList.map fun x => (0x40000, some x), ev := { pa := 0x40040, fop := .write [1, 2], dies := 2 } }

/-- R79, R359: it waits, and after 20 µs is not performed; die 1, which has acknowledged, holds the page no more. -/
theorem test_peerWaits : after .fabricWindowAccess (peerDup none 5) (fun t => t.peerHeld == [(0x40000, some 5)] && peek0 t 0x40040 2 == peek0 mem0 0x40040 2) = true ∧
    after .fabricWindowAccess (peerDup (some 5) 940005) (fun t => t.dups == [(0x40000, [2])] && t.peerHeld == [] && t.log.pending.length == 1 &&
      peek0 t 0x40040 2 == peek0 mem0 0x40040 2) = true := by decide +kernel

/-- Hart 0 waits for the duplicates of the frame 0x40000, which die 3 and peer 1 hold. -/
def dupWait (since : Nat) : State := { waitsIn base (.dup 0x40000 since 0x100040) with dups := [(0x40000, [3, 9])], now := 940000 }

theorem test_duplicates : after .dupWritePerform (dupWait 0) (fun t => t.dups == [] && (t.hart 0).wait == none && (t.hart 0).pc == 0x1010) = true ∧
    after .migrationTimeout { dupWait 0 with ev := { dies := 8 } } (fun t => t.dups == [(0x40000, [9])] && (t.hart 0).cause == 0x0A && (t.hart 0).tval == 0x100040) = true ∧
    after .migrationTimeout { dupWait 1 with ev := { dies := 8 } } (fun t => (t.hart 0).wait == some (.dup 0x40000 1 0x100040)) = true := by decide +kernel

theorem witness_PipelineResumes : (waitsIn (st fun h => { h with epq := 64 }) .epFull).awake 0 = true ∧ 0 < ((waitsIn (st fun h => { h with epq := 64 }) .epFull).hart 0).epq ∧
    (waitsIn base .resync).awake 0 = true ∧
    (({ waitsIn base .resync with teams := [(0, some { team0 with status := .stopping })] } : State).hart 0).status = .running ∧
    ({ waitsIn base .resync with teams := [(0, some { team0 with status := .stopping })] } : State).teamOf 0 = some { team0 with status := .stopping } := by
  decide +kernel

theorem witness_WriteEvents : ((twoStores 0x40041 1).hart 0).det = false ∧ mayApplyStore ((twoStores 0x40041 1).hart 0).sbuf 1 = true ∧ homeOf 0x40040 ≠ fabricAgent ∧
    (twoStores 0x40041 1).dupAt 0x40040 1 = none ∧ (dupHeldStores 1).dupAt 0x40040 1 = some 0x40000 ∧
    (sent 2).mayApply onItsWay 2 = true ∧ homeOf 0x40040 ≠ 2 ∧ 0x40041 + 1 ≤ 2 ^ 48 ∧
    (∀ e ∈ (cellar 0).cellarPend, rangesMeet e.pa e.bytes.length 0x400000000040 1 = true → ∀ q ∈ e.place, 0 ≤ q) ∧ (cellar 0).epochOpen 0 0 = false := by decide +kernel

theorem witness_SharedPageEvents : peerReaches 0x40040 8 = true ∧ inRecovery (0x40040 + 2 - 1) = false ∧ 0x40040 % 8 = 0 ∧ inRecovery 0x40040 = false ∧
    ((((peer (.amo 0 true 0xF 0)).catchUp 0).findErrors 0 0x40040 8 {}).viewOf 0).peek 0x40040 8 = cleanBytes [0xF1, 0x02, 0x83, 0x04, 0x05, 0x06, 0x07, 0x88] ∧
    (dupWait 0).heldFrame = some 0x40000 ∧ (dupWait 0).awake 0 = true ∧ 0 + 940000 ≤ (dupWait 0).now ∧ (dupWait 0).silentHolders 0x40000 = [3, 9] ∧
    mem0.movesAt 0x40040 8 = false ∧ mem0.dupAt 0x40040 8 = none ∧
    (peerDup none 0).dupAt 0x40040 2 = some 0x40000 ∧ Tbl.get none (peerDup none 0).peerHeld 0x40000 = none ∧
    Tbl.get none (peerDup (some 5) 940005).peerHeld 0x40000 = some 5 ∧ (peerDup (some 5) 940005).silentHolders 0x40000 = [2] ∧ canEnter (dupWait 0) 0 team0 := by
  unfold canEnter
  and_intros <;> decide +kernel

/-! ### The service die (15 R313-R327): master 3 owns the module under term 5, and its record stands in slot 2 of port 1 -/

def record0 : CmdRec := ⟨1, 2, 0, 9, 3, 5, 0, 0, 0, 0, 0, 0, 0, 0, false⟩

/-- No launch, partition 0 of the dies 0 to 3, and the record. -/
def owned (r : CmdRec) : State :=
  { walked State.reset with cmd := r, parts := [(0, { level := 1, state := 1, w2 := 0x10000, supvec := 0x300000 })],
                            svc := { State.reset.svc with booted := true, owner := some 3, term := 5, lastTerm := 5 } }

/-- What a slot then holds: the record's sequence number, the status and the value. -/
def answers (i : Instr) (s : State) (status : Nat) (v : Nat := 0) (p : State → Bool := fun _ => true) : Bool :=
  after i s fun t => (Tbl.get 0 (t.port 1).resp 2).toNat == 9 + 256 * status + 2 ^ 64 * v && p t

/-- R314 to R317: who may do what. -/
theorem test_rights : answers .unfreeze (owned { record0 with master := 16 }) 0x13 = true ∧ answers .unfreeze (owned { record0 with master := 4, term := 4 }) 0x10 = true ∧
    answers .unfreeze (owned { record0 with master := 4 }) 0x11 0 (fun t => t.svc.frozen == 0x10) = true ∧
    answers .unfreeze (owned { record0 with term := 6 }) 0x12 = true ∧ answers .unfreeze (owned { record0 with w1 := 1 }) 0x13 = true ∧
    answers .unlistedCommandCode (owned { record0 with code := 0xC }) 0x13 = true ∧
    answers .attest (owned { record0 with master := 4, w6 := 1 }) 0x13 = true := by decide +kernel

/-- R403: a launch record whose page tables have a node in a hole of the address space cannot be read. -/
theorem test_launchNodeOutside : answers .launch { State.reset with
      cmd := { record0 with w1 := 0x100040 }, parts := [(0, { level := 1, state := 1, w2 := 0x600000000000 })], svc := (owned record0).svc } 0x13 0x100040 = true := by
  decide +kernel

/-- The owner's commands, and a claim where there is no owner, and where there is one. -/
theorem test_ownership : answers .claim { owned { record0 with master := 4, term := 6 } with svc := { booted := true, lastTerm := 5, frozen := 0x20 } } 0 0
      (fun t => t.svc.owner == some 4 && t.svc.term == 6 && t.svc.lastTerm == 6 && t.svc.frozen == 0x20) = true ∧
    answers .claim { owned { record0 with master := 4, term := 5 } with svc := { booted := true, lastTerm := 5 } } 0x12 = true ∧ answers .claim (owned record0) 0x10 = true ∧
    answers .handover (owned { record0 with w0 := 7 }) 0 0 (fun t => t.svc.owner == some 7 && t.svc.term == 6) = true ∧
    answers .freeze (owned { record0 with w0 := 7 }) 0 0 (fun t => t.svc.frozen == 0x80) = true ∧ answers .freeze (owned { record0 with w0 := 3 }) 0 0 (fun t => t.svc.frozen == 0) = true ∧
    answers .unfreeze { owned { record0 with w0 := 7 } with svc := { (owned record0).svc with frozen := 0x81 } } 0 0 (fun t => t.svc.frozen == 1) = true := by decide +kernel

/-- R116, R403: a record that is queued, one without a partition, one at a bad address. -/
theorem test_launchCommand : answers .launch (withBytes (owned { record0 with w1 := 0x100040 }) 0x40040 (bytesOf 128 (recordOf 8))) 0 0 (fun t => (t.launch 0).any (·.kid == 8)) = true ∧
    answers .launch (owned { record0 with w0 := 1, w1 := 0x100040 }) 0x13 = true ∧ answers .launch (owned { record0 with w1 := 0x200040 }) 0x13 0x200040 = true ∧
    answers .launch (owned { record0 with w1 := 0x100044 }) 0x13 = true := by decide +kernel

/-- R326, R400: 8 bytes are read into the data buffer of slot 2; 8 bytes of it are written; the Cellar answers once they are durable. -/
theorem test_readAndWrite : answers .read (withBytes (owned { record0 with w0 := 0x40040, w1 := 8 }) 0x40040 [0x11, 0x22]) 0 0
      (fun t => Tbl.get 0 (t.port 1).data 0x2000 == 0x11 && Tbl.get 0 (t.port 1).data 0x2001 == 0x22) = true ∧
    answers .read (owned { record0 with w0 := 0x700000000000, w1 := 8 }) 0 0 (fun t => Tbl.get 0 (t.port 1).data 0x2000 == 3 && Tbl.get 0 (t.port 1).data 0x2004 == 5) = true ∧
    answers .read (owned { record0 with w0 := 0x40040, w1 := 4 }) 0x13 = true ∧
    answers .write ((owned { record0 with w0 := 0x40040, w1 := 8 }).fillData 1 2 0 [0x33]) 0 0 (fun t => peek0 t 0x40040 8 == 0x33) = true ∧
    after .write ((owned { record0 with w0 := 0x400000000040, w1 := 8 }).fillData 1 2 0 [0x33]) (fun t => t.svc.writes.length == 1 && t.cellarPend != []) = true := by decide +kernel

/-- A register write of a value to an offset of the published windows. -/
def wr (off v : Nat) (f : State → State := id) : State := f ((owned { record0 with w0 := BitVec.ofNat 64 (0x700000000000 + off), w1 := 8 }).fillData 1 2 0 (bytesOf 8 v))

/-- R327, R343, R352: each register that the owner writes, with a value that it takes, and ones that it does not. -/
theorem test_registers : answers .supvecWrite (wr 0x808 0xFFF0000000123456) 0 0 (fun t => (t.part 1).supvec == 0x123000) = true ∧
    answers .supvecWrite { wr 0x800 0x5000 with launches := [(0, some launch0)] } 0x14 = true ∧
    answers .logbaseWrite (wr 0x10000 0x80000) 0 0 (fun t => t.log.base == 0x80000) = true ∧ answers .logbaseWrite (wr 0x10000 0x80020) 0x13 = true ∧
    answers .loglenWrite (wr 0x10008 0x80) 0 0 (fun t => t.log.len == 0x80) = true ∧ answers .loglenWrite (wr 0x10008 0x60) 0x13 = true ∧
    answers .tailWrite (wr 0x10018 2 ({ · with log := { head := 3 } })) 0 0 (fun t => t.log.tail == 2) = true ∧
    answers .tailWrite (wr 0x10018 4 ({ · with log := { head := 3 } })) 0 0 (fun t => t.log.tail == 0) = true ∧
    answers .dropClear (wr 0x10028 3 ({ · with log := { drops := [(1, 6)] } })) 0 0 (fun t => Tbl.get 0 t.log.drops 1 == 4) = true ∧
    answers .evtailWrite (wr 0x20008 2 ({ · with events := { head := 3 } })) 0 0 (fun t => t.events.tail == 2) = true ∧
    answers .evdropClear (wr 0x20010 3 ({ · with events := { drop := 6 } })) 0 0 (fun t => t.events.drop == 4) = true := by decide +kernel

/-- R318: a partition of die 5 takes a free slot; a slot that the level does not have, a die in use, a pool in the Cellar. -/
theorem test_partition : answers .partition (owned { record0 with w0 := 3, w1 := 5, w2 := 0x20000, w6 := 1 }) 0 0
      (fun t => (t.part 5).state == 1 && (t.part 5).level == 3 && (t.part 5).w2 == 0x20000 && (t.part 0).state == 1) = true ∧
    answers .partition (owned { record0 with w0 := 3, w1 := 2 }) 0 0 (fun t => (t.part 2).state == 1 && (t.part 0).state == 0 && (t.part 0).supvec == 0x300000) = true ∧
    answers .partition (owned { record0 with w0 := 1, w1 := 2 }) 0x13 = true ∧ answers .partition (owned { record0 with w0 := 3, w1 := 2, w5 := 0x400000000000 }) 0x13 = true ∧
    answers .partition { owned { record0 with w0 := 3, w1 := 2 } with launches := [(0, some launch0)] } 0x14 = true := by decide +kernel

/-- R390: core 2 of die 1 fails and a spare core takes its place: one unit found, one mended, none left. -/
theorem test_selftest : after .selftest (owned record0) (fun t => t.svc.selftests == [(0, record0)]) = true ∧ answers .selftest (owned { record0 with w0 := 3 }) 0x13 = true ∧
    answers .selftestComplete { owned record0 with svc := { (owned record0).svc with selftests := [(0, record0)] },
                                                   ev := { failing := [BitVec.ofNat 32 (coreUnit 34 1)] } } 0 0x10001
      (fun t => (t.core 34).degraded && t.svc.selftests == [] && t.log.pending.length == 1 && ((t.coresOfDie 1).contains 28)) = true := by decide +kernel

/-- R320, R321: the report starts with the nonce; RECOVER leaves the golden image to boot and no owner. -/
theorem test_attestAndRecover : after .attest (owned { record0 with w0 := 0x0807060504030201 }) (fun t => t.svc == (owned record0).svc) = true ∧
    after .recover (owned record0) (fun t => t.svc.golden && !t.svc.booted && t.svc.owner == none) = true := by decide +kernel

/-- R313, Table 15.2: each code gives its operation, and a WRITE of a register its own. -/
theorem test_commandCodes : [(1, Instr.launch), (2, .read), (3, .write), (4, .claim), (5, .handover), (6, .freeze), (7, .unfreeze), (8, .partition), (9, .selftest), (0xA, .attest), (0xB, .recover),
      (0, .unlistedCommandCode), (0xC, .unlistedCommandCode), (0xFF, .unlistedCommandCode)].all (fun p => decodeCommand { record0 with code := p.1 } == p.2) = true ∧
    [(0x800, Instr.supvecWrite), (0x838, .supvecWrite), (0x10000, .logbaseWrite), (0x10008, .loglenWrite), (0x10018, .tailWrite), (0x10020, .dropClear), (0x10040, .dropClear),
      (0x20008, .evtailWrite), (0x20010, .evdropClear), (0x840, .write), (0x10010, .write)].all (fun p => decodeCommand { record0 with code := 3, w0 := 0x700000000000 + p.1, w1 := 8 } == p.2) = true := by decide +kernel

/-- Every branch of the rights: a master of 16, a frozen one, a former owner's and another's, a stale term, an unused word. -/
theorem witness_CommandRights : ((Instr.unfreeze, 7, 1) ∈ commandTable) ∧ ¬carries (owned { record0 with master := 16 }) ∧ carries (owned record0) ∧
    isFrozen { owned record0 with svc := { (owned record0).svc with frozen := 8 } } = true ∧ isFrozen (owned record0) = false ∧
    readsStatus record0 7 = false ∧ readsPublished record0 7 = false ∧ (owned record0).svc.owner = some 3 ∧ ownerCommand 7 = true ∧
    (∃ r : CmdRec, r.code = 4 ∧ unusedZero { r with w0 := 1 } 0 = false ∧ (owned record0).svc.owner ≠ some 4) ∧
    ({ record0 with term := 6 } : CmdRec).term ≠ (owned record0).svc.term ∧ unusedZero { record0 with w1 := 1 } 1 = false := by
  unfold carries
  and_intros
  all_goals first | exact ⟨{ record0 with code := 4, master := 4 }, by decide +kernel⟩ | decide +kernel

/-- The owner's record is permitted for each command, and another master's for those that any may issue. -/
theorem permitted_owned {code words : Nat} {r : CmdRec} (hm : r.master = 3) (ha : r.alien = false) (ht : r.term = 5) (hu : unusedZero r words = true) :
    permitted (owned r) code words := by
  refine ⟨⟨?_, ha⟩, ?_, hu, ?_⟩
  · show r.master.toNat ≤ 15
    rw [hm]; decide
  · intro h
    exact absurd h (by show ¬((0 : BitVec 16).getLsbD r.master.toNat = true); rw [hm]; decide)
  · rw [if_pos (by show (owned r).svc.owner = some r.master.toNat; rw [hm]; rfl)]
    intro _
    exact ht

theorem permitted_record0 {code words : Nat} : permitted (owned record0) code words := permitted_owned rfl rfl rfl
  (List.all_eq_true.mpr fun x hx => by simpa [record0] using List.mem_of_mem_drop hx)

/-- A WRITE of a page with two holders, for which it waits since time 0. -/
def dupWrite : State := { walked (owned { record0 with w0 := 0x40040, w1 := 8 }) with
  cmd := { record0 with w0 := 0x40040, w1 := 8 }
  dups := [(0x40000, [1, 2])], dupSizes := [(0x40000, 0x10000)], now := 940000, svc := { (owned record0).svc with held := some (0x40000, 0) }, ev := { dies := 2 } }

/-- R79: the WRITE waits, and after 20 µs is answered BUSY without effect; die 1, which has acknowledged, holds the page no more. -/
theorem test_heldWrite : after .write { dupWrite with now := 939999 } (fun t => t.cmdq.length == 1) = true ∧
    answers .write dupWrite 0x14 0 (fun t => t.dups == [(0x40000, [2])] && peek0 t 0x40040 1 == 0 && t.log.pending.length == 1) = true := by decide +kernel

/-- No hypothesis of these commands but `permitted`, at every number of operand words. -/
theorem witness_OwnershipCommands : ∀ c ∈ [(record0.code.toNat, 7), (4, 0), (5, 1), (6, 1), (7, 1)], permitted (owned record0) c.1 c.2 :=
  fun _ _ => permitted_record0

/-- The golden image with an enrolled key, its controls holding an image. -/
def inGolden : State := { owned record0 with svc := { (owned record0).svc with golden := true, ownerKeys := [7], controls := [(0, 0x33)] } }

theorem witness_takesImage (h : Config.signedBy 7 [0x33] = true) : inGolden.takesImage = true := by
  have hi : inGolden.svc.image = [0x33] := by decide +kernel
  have hk : inGolden.svc.golden = true ∧ inGolden.svc.ownerKeys = [7] := ⟨rfl, rfl⟩
  simpa [State.takesImage, Service.ownerSigned, hi, hk] using h

theorem witness_AccessCommands : (∀ c ∈ [(1, 2), (2, 2), (3, 2), (0xA, 4)], permitted (owned record0) c.1 c.2) ∧
    ((owned record0).part 0).state = 1 ∧ ((owned record0).part 1).state = 0 ∧
    (fine (leadRead 0 0x200040 128 (owned record0)) fun r _ => r.isNone) = true ∧
    (fine (leadRead 0 0x100040 128 (withBytes (owned record0) 0x40040 (bytesOf 128 (recordOf 8)))) fun r u => r.any fun bs =>
      fine (handleRecord 0 0x100040 bs u) fun st _ => st == 0) = true ∧
    (match leadRead 0 0x100040 128 { State.reset with parts := [(0, { level := 1, state := 1, w2 := 0x600000000000 })] } with
      | .error (.fault _) _ => true
      | _ => false) = true ∧
    memoryRange 0x40040 8 = true ∧ inCellar 0x40040 = false ∧ memoryRange 0x400000000040 8 = true ∧ inCellar 0x400000000040 = true ∧
    inRecovery 0x400000000047 = false ∧ inRecovery (recoveryBase + 8 - 1) = true ∧ memoryRange recoveryBase 8 = true ∧
    (owned record0).dupAt 0x40040 8 = none ∧ dupWrite.dupAt 0x40040 8 = some 0x40000 ∧ dupWrite.silentHolders 0x40000 = [2] ∧
    (owned record0).takesImage = false ∧ portWindow record0.port % 0x10000 = 0 := by
  refine ⟨fun _ _ => permitted_record0, ?_⟩
  and_intros <;> decide +kernel

theorem witness_RegisterCommands : permitted (wr 0x800 0x5000) 3 2 ∧ launchesOf (wr 0x800 0x5000) 0 = [] ∧
    launchesOf { wr 0x800 0x5000 with launches := [(0, some launch0)] } 0 ≠ [] ∧ (registerWord (wr 0x10008 0x80)).toNat = 2 ^ 7 ∧ (registerWord (wr 0x10008 0x60)).toNat = 0x60 := by
  unfold permitted carries
  and_intros <;> decide +kernel

theorem witness_PartitionCommands : (∀ c ∈ [(8, 7), (9, 1), (0xB, 0)], permitted (owned record0) c.1 c.2) ∧ diesFor 1 2 = none ∧ diesFor 3 5 = some [5] ∧
    poolsOk record0 = true ∧ poolsOk { record0 with w5 := 0x400000000000 } = false ∧ (owned record0).holdsLaunch [0] = false ∧
    ({ owned record0 with launches := [(0, some launch0)] } : State).holdsLaunch [0] = true ∧
    ({ owned record0 with svc := { (owned record0).svc with selftests := [(0, record0)] } } : State).svc.selftests.find? (·.1 == 0) = some (0, record0) :=
  ⟨fun _ _ => permitted_record0, by and_intros <;> decide +kernel⟩

/-! ### Clocks, the drain, boot, and reliability (01 R16; 02 R36; 05 R105; 17 R330; 20 R343; 23 R380-R388) -/

/-- R16, R105: at 4700 ticks, with the interval 119 to 131, a beat of 120 to 140 does not contain 100 ns; one of 90 to 125 does. -/
theorem test_beat : after .syncBeat { timed with ev := { lo := 120, hi := 140 } } (fun t => (t.die 0).clock == ⟨20, 30, 0⟩) = true ∧
    after .syncBeat { timed with ev := { lo := 90, hi := 125 } } (fun t => (t.die 0).clock == ⟨119, 125, 4700⟩) = true := by decide +kernel

/-- R105: 50 ticks later the dies other than 0 read 101 ns at the earliest. -/
theorem test_marks : after .packageMarkUpdate timed (fun t => t.now == 4750 && t.packageMark == 101 && (t.die 0).mark == 101 && (t.die 7).mark == 101) = true ∧
    after .fabricMarkExchange { timed with packageMark := 90, ev := { lo := 80 } } (fun t => t.fabricMark == 80 && (t.die 3).fmark == 80) = true := by decide +kernel

theorem test_cap : after .vlcapChange { base with ev := { dies := 2, cap := 96 } } (fun t => (t.die 1).vlcap == 96 && (t.die 0).vlcap == 128 && t.events.pending.length == 1) = true ∧
    after .vlcapChange { base with ev := { dies := 2, cap := 97 } } (fun t => (t.die 1).vlcap == 128) = true := by decide +kernel

/-- R330, Table 17.4: the Recovery Page of slot 0 has format 1 and the package mark 77. -/
theorem test_drain : after .powerFailDrain { base with packageMark := 77 } (fun t => !t.svc.powered && t.launches == [] &&
      valueOf (t.media.peek (recoveryPage 0) 2) == 1 && valueOf (t.media.peek (recoveryPage 0 + 16) 8) == 77) = true ∧
    after .boot { State.reset with ev := { good := true } } (fun t => t.svc.booted && !t.svc.golden) = true ∧
    after .boot { State.reset with ev := { good := true, strap := true } } (fun t => t.svc.booted && t.svc.golden) = true ∧
    after .boot State.reset (fun t => t.svc.booted && t.svc.golden) = true ∧
    after .boot { State.reset with ev := { good := true, badMap := true }, svc := { State.reset.svc with coreMap := [(2, some [5])] } } (fun t => t.svc.coreMap == []) = true ∧
    after .boot { State.reset with ev := { good := true, badTerm := true }, svc := { lastTerm := 6, term := 6 } } (fun t => t.svc.lastTerm == 7) = true := by decide +kernel

/-- R325: the owner lapses with its last port. -/
theorem test_portLost : after .portNoActiveLane { owned record0 with ports := [(1, { bound := some 3 })], ev := { port := 1 } } (fun t => (t.port 1).bound == none && t.svc.owner == none) = true ∧
    after .portNoActiveLane { owned record0 with ports := [(1, { bound := some 3 }), (2, { bound := some 3 })], ev := { port := 1 } } (fun t => t.svc.owner == some 3) = true := by decide +kernel

/-- R327, R348: a MACHINE_CHECK event enters the queue with the SEQ that its record gets, 4, or with 0 where the record is dropped. -/
theorem test_heldEvents : (let q : Events := { held := [(1, (5 : BitVec 512)), (2, (6 : BitVec 512))] }
    (q.counted 4).pending = [(5 + 4 * 2 ^ 128 : BitVec 512)] ∧ (q.counted 0).pending = [(5 : BitVec 512)] ∧ (q.counted 0).held = [(1, (6 : BitVec 512))]) := by
  decide +kernel

/-- R380, R387: an error that the scrubber finds becomes poison and a record; a corrected one is recorded. -/
theorem test_scrub : after .scrubBurst { base with latent := [(0x40040, some {})], ev := { pa := 0x40040 } } (fun t => t.latent == [] && t.log.pending.length == 1 && (t.byteAt 0 0x40040).poi) = true ∧
    after .scrubBurst { base with ev := { pa := 0x40040 } } (fun t => t.log.pending.length == 0) = true ∧
    after .filterClear { base with spare := { base.spare with filter := [(0, 5)], repeats := [(0, [(1, 2)])] } } (fun t => t.spare == base.spare) = true ∧
    after .wearLevelMove base (· == base) = true := by decide +kernel

/-- The filter of stack 0 holds the row 9 of bank 2 already, which the repeat table has `n` times; a corrected error of it is found. -/
def repeated (n : Nat) : State :=
  let f := (filterBits (rowKey 2 9)).foldl (fun f b => f ||| BitVec.twoPow 65536 b) (0 : BitVec 65536)
  { base with spare := { base.spare with filter := [(0, f)], repeats := if n = 0 then [] else [(0, [(rowKey 2 9, n)])] }
              ev := { pa := 0x40040, good := true, bank := 2, row := 9 } }

/-- R380, R381: the first repeat enters the table, and the fourth begins the row's copy. -/
theorem test_repeats : after .scrubBurst (repeated 0) (fun t => t.spare.repeats == [(0, [(rowKey 2 9, 1)])] && t.log.pending == []) = true ∧
    after .scrubBurst (repeated 3) (fun t => t.spare.repeats == [] && t.spare.copying == [(rowId 0 2 9, 0)]) = true := by decide +kernel

/-- R381: a row of stack 1, bank 2. R385: lane 3 of pipe 1 fails; with the spare in use the core is degraded. -/
theorem test_sparing : after .rowSpareBurst { base with spare := { base.spare with copying := [(rowId 1 2 9, 0)] } } (fun t => t.spare.copying == [(rowId 1 2 9, 1)]) = true ∧
    after .rowSpareRemap { base with spare := { base.spare with copying := [(rowId 1 2 9, 1)] } } (fun t => t.spare.copying == [] && t.spare.remapped == [rowId 1 2 9] && t.log.pending.length == 1) = true ∧
    after .laneSpareSwitch { base.setCore 0 { core0 with pipes := [(1, { failing := [3] })] } with ev := { pipe := 1 } } (fun t => ((t.core 0).pipe 1).spareFor == some 3 && !(t.core 0).degraded) = true ∧
    after .laneSpareSwitch { (base.setCore 0 { core0 with pipes := [(1, { failing := [3] })] }) with ev := { pipe := 1 }, svc := { base.svc with golden := true } }
      (fun t => ((t.core 0).pipe 1).spareFor == none) = true ∧
    after .laneSpareSwitch { base.setCore 0 { core0 with pipes := [(1, { spareFor := some 4, failing := [3] })] } with ev := { pipe := 1 } } (fun t => (t.core 0).degraded) = true := by decide +kernel

/-- R382: under the golden image a row's copy ends in no remap. -/
theorem test_goldenRow : after .rowSpareRemap { base with spare := { base.spare with copying := [(rowId 1 2 9, 1)] }, svc := { base.svc with golden := true } }
    (fun t => t.spare.remapped == []) = true := by decide +kernel

/-- A ring at 0x80000 of 64 records; a record of severity 1 waits. -/
def logging (l : Log := {}) : State := { base with log := { l with base := 0x80000, pending := [0x1000000000] } }

/-- R343: the bytes are written with SEQ 4 at place 3; the record then counts; a full log drops. R327: an event enters; at 256 it is dropped. -/
theorem test_logAndEvents : after .logWrite (logging { head := 3 }) (fun t => peek0 t 0x800C0 8 == 0x1000000004 && t.log.head == 3 && t.log.written.isSome) = true ∧
    after .logWrite (logging { head := 3, written := some [] }) (fun t => t.log.head == 4 && t.log.pending == []) = true ∧
    after .logWrite (logging { head := 0x41, tail := 1 }) (fun t => t.log.head == 0x41 && t.log.pending == [] && Tbl.get 0 t.log.drops 1 == 1) = true ∧
    after .eventWrite { base with events := { head := 0x101, tail := 2, pending := [7] } } (fun t => t.events.head == 0x102 && Tbl.get 0 t.events.ring 1 == 7) = true ∧
    after .eventWrite { base with events := { head := 0x102, tail := 2, pending := [7] } } (fun t => t.events.head == 0x102 && t.events.drop == 1) = true := by decide +kernel

/-- Dies' intervals and the mark about 100 ns, and a beat that contains it. -/
theorem witness_ClockEvents : clocksTrue { State.reset with dies := [(0, { clock := ⟨0, 5, 0⟩ })], now := 4700 } ∧ 90 * 47 ≤ timed.now ∧ timed.now ≤ 125 * 47 ∧
    (∃ t, exec .syncBeat { State.reset with dies := [(0, { clock := ⟨0, 5, 0⟩ })], now := 4700, ev := { lo := 90, hi := 125 } } = .next t) ∧ (2 : BitVec 8) ≠ 0 := by
  unfold clocksTrue
  exact ⟨by and_intros <;> decide +kernel, by decide +kernel, by decide +kernel, ⟨_, rfl⟩, by decide⟩

theorem witness_DrainAndBoot : base.svc.powered = true ∧ (base.part 0).state ≠ 0 ∧ ({ base with svc := { base.svc with powered := false } } : State).svc.powered = false ∧
    State.reset.svc.booted = false ∧ State.reset.svc.drained = none ∧ ({ State.reset with svc := { State.reset.svc with drained := some 4 } } : State).svc.drained = some 4 := by decide +kernel

theorem witness_SparingEvents : unitOf 0x40040 = some (0x40040, 32) ∧ ({ base with latent := [(0x40040, some {})] } : State).latentAt 0x40040 = some {} ∧ base.latentAt 0x40040 = none ∧
    inHbm 0x40040 = true ∧ ({ base with spare := { base.spare with copying := [(rowId 1 2 9, 1)] } } : State).spare.copying[0]? = some (rowId 1 2 9, 1) ∧
    (([(2 * 2 ^ 24 + 9) * 0x9E3779B1 % 2 ^ 32 / 2 ^ 16, 0, 1].all (0 : BitVec 65536).getLsbD) = false) ∧
    base.svc.golden = false ∧ (filterBits (rowKey 2 9)).all (Tbl.get 0 (repeated 3).spare.filter 0).getLsbD = true ∧
    (Tbl.get [] (repeated 0).spare.repeats 0).find? (·.1 == rowKey 2 9) = none ∧
    (Tbl.get [] (repeated 3).spare.repeats 0).find? (·.1 == rowKey 2 9) = some (rowKey 2 9, 3) ∧ (repeated 3).spare.copying = [] ∧
    ((List.range 256).map fun i => (i, 1)).find? (·.1 == rowKey 2 9) = none ∧ 256 ≤ ((List.range 256).map fun i => (i, 1)).length ∧
    ((base.setCore 0 { core0 with pipes := [(1, { failing := [3] })] }).core 0 |>.pipe 1).failing.head? = some 3 := by decide +kernel

theorem witness_LogAndEventWrites : (logging { head := 3 }).log.written = none ∧ (logging { head := 3 }).log.base ≠ 0 ∧
    (logging { head := 3 }).log.head.toNat - (logging { head := 3 }).log.tail.toNat < (logging { head := 3 }).log.len.toNat ∧ inHbm (0x800C0 + 63) = true ∧ 0x800C0 % 64 = 0 ∧
    (logging { head := 0x41, tail := 1 }).log.len.toNat ≤ 0x41 - 1 ∧ (logging { head := 3, written := some [] }).countedApplied [] false = true ∧
    256 ≤ (0x102 : Word).toNat - (2 : Word).toNat ∧ (0x101 : Word).toNat - (2 : Word).toNat < 256 := by decide +kernel

/-! ### Words, the step and reset -/

/-- The words that the spec calls undecodable (22, after R370), by class, and one with an unused field. -/
theorem test_undecodable : [(0x0300000000000000, (0x400 : Word)), (0, 0x400), (0x281C038000000000, 0x401), (0x1800040506010000, 0x403), (0x800104001E040C00, 0x411)].all (fun p : Word × Word =>
    match decode p.1 with
      | .error e => e.tval == p.2
      | .ok _ => false) = true := by decide +kernel

/-- Placed where the machine fetches right after reset, `addi a5, a0, 7` runs. -/
theorem test_stepAfterReset :
    encode (.addi ⟨5, 0, 0, 7⟩) = some 0x0201400000000007 ∧
    (match step (State.reset.withFetchWord 64 0x0201400000000007) with
      | .next t => (t.hart 0).pc == 8 && (t.hart 0).aReg 5 == 7
      | _ => false) = true := by decide +kernel

/-- The same words read from a landed segment by a hart of a team; a reserved word takes ILLEGAL with its class. -/
theorem test_step : (match step (base.withFetchWord 64 0x0201400000000007) with
      | .next t => (t.hart 0).pc == 0x1018 && (t.hart 0).aReg 5 == 7
      | _ => false) = true ∧
    (match step { (base.withFetchWord 64 0x0300000000000000).setCore 0 { (base.withFetchWord 64 0x0300000000000000).core 0 with sup := core0.sup } with agenda := [.run 0] } with
      | .next t => (t.hart 0).cause == 1 && (t.hart 0).tval == 0x400 && (t.hart 0).epc == 0x1010
      | _ => false) = true := by decide +kernel

/-- Every instruction that is encoded has a word, and the word of one reads back; a reserved word is of a listed major. -/
theorem witness_DecodeOfEncode : (Instr.add ⟨61, 61, 9, 0, 0, 0⟩).wellFormed = true ∧ encode (.add ⟨61, 61, 9, 0, 0, 0⟩) = some 0x0100F7D240000000 := by decide +kernel

theorem witness_EncodeOfDecode : decode 0x0100F7D240000000 = .ok (.add ⟨61, 61, 9, 0, 0, 0⟩) := by rfl

theorem witness_ReservedWords : (0x281C038000000000 : Word).getLsbD 63 = false ∧ (0x28, 50, 6, List.range 7) ∈ functionTable ∧
    (let s := base.withFetchWord 64 0x0300000000000000
     s.runnable 0 = true ∧ (match s.fetchWord 0 with
       | .ok w => w == 0x0300000000000000
       | .error _ => false) = true) ∧ decode 0x0300000000000000 = .error .reservedMajor :=
  ⟨by decide, by decide, ⟨by decide +kernel, by decide +kernel⟩, rfl⟩

/-- A hart that can run, whose word has landed; an event; a record that the service die takes. -/
theorem witness_StepRunsDecoded :
    (let s := base.withFetchWord 64 0x0201400000000007
     s.agenda = [.run 0] ∧ s.runnable 0 = true ∧ (s.hart 0).epq < 64 ∧ (st fun h => { h with epq := 64 }).runnable 0 = true ∧ (s.hart 0).pc &&& 7 = 0 ∧ (s.hart 0).inSeg (s.hart 0).pc = true ∧ (s.hart 0).supv = false ∧
     (match (s.core 0).slotOf (s.hart 0).pc with
       | some (j, sl) => j == 0 && sl.landed == some true && sl.poison == []
       | none => false) = true) ∧
    isEvent .packageMarkUpdate = true ∧ ({ owned record0 with cmdq := [record0] } : State).commandReady record0 = true := by
  and_intros <;> decide +kernel

theorem witness_StepKeepsMemoryCanonical : Memory.wf State.reset = true ∧ Memory.wf mem0 = true := by decide +kernel

end Sys2Proof.Tests
end

section
/-! SUPPORT. Time and the dies' clocks: which operations leave them alone, what an interval says of true time, and what each event of
the clocks leaves (01_package R16; 02 R36; 05 R105). -/

namespace Sys2Proof.Machine

open Sys2Proof.Claims

/-! ### What leaves time, the package mark and the clocks alone -/

/-- What `State.interval` and the package mark are judged by: the time, the package mark, and the clock of each die. -/
def State.times (s : State) : Nat × Nat × (Nat → Clock) := (s.now, s.packageMark, fun d => (s.die d).clock)

theorem State.times_eq_iff {s t : State} :
    t.times = s.times ↔ t.now = s.now ∧ t.packageMark = s.packageMark ∧ ∀ d, (t.die d).clock = (s.die d).clock := by
  simp [State.times, funext_iff]

/-- Steps that each leave the times alone leave them alone together. -/
theorem times_foldl {β : Type} (l : List β) (f : State → β → State) (hf : ∀ s x, (f s x).times = s.times) (s : State) :
    (l.foldl f s).times = s.times :=
  List.foldlRecOn (motive := fun t => t.times = s.times) l f rfl fun t ht x _ => (hf t x).trans ht

theorem times_setDie (s : State) (d : Nat) {x : Die} (hx : x.clock = (s.die d).clock) : (s.setDie d x).times = s.times := by
  refine State.times_eq_iff.2 ⟨rfl, rfl, fun e => ?_⟩
  by_cases he : e = d
  · subst he
    rw [State.die_setDie_same, hx]
  · rw [State.die_setDie_ne s x he]

@[simp] theorem times_setView (s : State) (d : Nat) (v : View) : (s.setView d v).times = s.times := by
  unfold State.setView
  split
  · rfl
  · exact times_setDie s d rfl

@[simp] theorem times_settle (s : State) (d pa n : Nat) : (s.settle d pa n).times = s.times := by
  unfold State.settle
  split
  · rfl
  · exact times_setDie s d rfl

@[simp] theorem times_pokeWhere (s : State) (d : Nat) (ok : Nat → Bool) (k : Option DetKey) (n : Option Nat) (pa : Nat)
    (bs : List PByte) : (s.pokeWhere d ok k n pa bs).times = s.times := by
  induction bs generalizing s pa with
  | nil => rfl
  | cons b bs ih =>
    rw [State.pokeWhere, ih]
    split
    · cases n <;> simp
    · rfl

@[simp] theorem times_takeBack (s : State) (e home pa : Nat) : (s.takeBack e home pa).times = s.times := by
  simp [State.takeBack]

@[simp] theorem times_keepKeys (s : State) (k : DetKey) (pa n : Nat) : (s.keepKeys k pa n).times = s.times := by
  refine times_foldl _ _ ?_ s
  exact fun _ _ => rfl

@[simp] theorem times_applyAtHome (s : State) (w : NetWrite) : (s.applyAtHome w).1.times = s.times := by
  unfold State.applyAtHome
  refine (times_foldl _ _ (fun t e => ?_) _).trans ((times_pokeWhere ..).trans ?_)
  · exact (times_foldl _ _ (fun u pa => times_takeBack u e _ pa) _).trans (times_pokeWhere ..)
  · split
    · split
      · exact times_foldl _ _ (fun u pa => times_keepKeys u _ pa 1) _
      · rfl
    · rfl

@[simp] theorem times_cellarSend (s : State) (n : Option Nat) (e d k pa : Nat) (bs : List PByte) :
    (s.cellarSend n e d k pa bs).times = s.times := by
  unfold State.cellarSend
  split <;> rfl

@[simp] theorem times_coverUnits (s : State) (pa n : Nat) : (s.coverUnits pa n).times = s.times := rfl

@[simp] theorem times_caskWrite (s : State) (key : Option DetKey) (compared : Bool) (pa : Nat) (bs : List PByte) :
    (s.caskWrite key compared pa bs).times = s.times := by
  induction bs generalizing s pa with
  | nil => rfl
  | cons b bs ih =>
    rw [State.caskWrite, ih]
    split
    · rfl
    · split
      · split
        · exact times_keepKeys ..
        · rfl
      · rfl

@[simp] theorem times_spoilCask (s : State) (a n : Nat) : (s.spoilCask a n).times = s.times := by
  induction n generalizing s a with
  | zero => rfl
  | succ n ih => exact ih _ _

@[simp] theorem times_spoilBarriers (s : State) (pa n : Nat) : (s.spoilBarriers pa n).times = s.times := by
  refine times_foldl _ _ (fun t e => ?_) s
  split
  · split
    · split
      · exact times_spoilCask ..
      · rfl
    · rfl
  · rfl

@[simp] theorem times_originate (s : State) (d : Nat) (n : Option Nat) (e : Nat) (key : Option DetKey) (c : Bool) (pa : Nat)
    (bs : List PByte) : (s.originate d n e key c pa bs).times = s.times := by
  unfold State.originate
  split
  · simp
  · have hhome : ∀ (t : State) (w : NetWrite), (if homeOf pa = d then t.applyAtHome w else (t, w)).1.times = t.times := by
      intro t w
      split <;> simp
    refine (hhome _ _).trans ?_
    split <;> simp [times_setDie]

@[simp] theorem times_applyAll (s : State) (n : Nat) : (s.applyAll n).times = s.times :=
  times_foldl _ _ (fun _ _ => times_originate ..) _

@[simp] theorem times_freeCores (s : State) (ti : Nat) (t : Team) : (s.freeCores ti t).times = s.times := by
  refine (times_foldl _ _ ?_ _).trans (times_foldl _ _ ?_ s)
  · exact fun _ _ => rfl
  · exact fun _ _ => rfl

@[simp] theorem times_countRun (s : State) (t : Team) : (s.countRun t).times = s.times := by
  unfold State.countRun
  dsimp only
  split <;> rfl

@[simp] theorem times_setTeam (s : State) (ti : Nat) (t : Team) : (s.setTeam ti t).times = s.times := rfl
@[simp] theorem times_setLaunch (s : State) (li : Nat) (l : Launch) : (s.setLaunch li l).times = s.times := rfl

@[simp] theorem times_killTeam (s : State) (ti : Nat) : (s.killTeam ti).times = s.times := by
  have hstores : ∀ (ns : List Nat) (u : State), (ns.foldl State.applyAll u).times = u.times := fun ns => times_foldl ns _ times_applyAll
  unfold State.killTeam
  split
  · rfl
  · split
    · rfl
    · dsimp only
      split
      all_goals
        simp only [times_setLaunch, times_setTeam]
        split <;> split <;> simp [hstores]

@[simp] theorem times_stopFaulted (s : State) (li : Nat) : (s.stopFaulted li).times = s.times := by
  unfold State.stopFaulted
  split
  · split
    · exact times_foldl _ _ times_killTeam s
    · rfl
  · rfl

/-! ### The teams of faulted launches stop -/

/-- The live teams of every FAULTED launch stop (R347, R351). -/
def State.stopAllFaulted (s : State) : State := (s.launches.map (·.1)).foldl State.stopFaulted s

theorem times_stopAllFaulted (s : State) : s.stopAllFaulted.times = s.times := times_foldl _ _ times_stopFaulted s

theorem stopFaulted_eq_self {s : State} {li : Nat} (h : ∀ l, s.launch li = some l → l.faulted = true → s.liveTeams li = []) :
    s.stopFaulted li = s := by
  unfold State.stopFaulted
  split
  · split
    · rw [h _ ‹_› ‹_›, List.foldl_nil]
    · rfl
  · rfl

theorem stopAllFaulted_eq_self {s : State} (h : ∀ li l, s.launch li = some l → l.faulted = true → s.liveTeams li = []) :
    s.stopAllFaulted = s :=
  List.foldlRecOn (motive := fun t => t = s) _ _ rfl fun _ ht li _ => by rw [ht, stopFaulted_eq_self (h li)]

/-! ### A change of several dies -/

/-- Every die of a list changed alike: the events of the clocks and of the cap end in one such change. -/
def State.changeDies (s : State) (l : List Nat) (f : Die → Die) : State := l.foldl (fun s d => s.setDie d (f (s.die d))) s

theorem changeDies_eq (s : State) (l : List Nat) (f : Die → Die) : s.changeDies l f = { s with dies := (s.changeDies l f).dies } := by
  induction l generalizing s with
  | nil => rfl
  | cons d l ih => exact ih (s.setDie d (f (s.die d)))

theorem die_changeDies (f : Die → Die) {l : List Nat} (hl : l.Nodup) (s : State) (d : Nat) :
    (s.changeDies l f).die d = if d ∈ l then f (s.die d) else s.die d := by
  induction l generalizing s with
  | nil => simp [State.changeDies]
  | cons e l ih =>
    obtain ⟨he, hl⟩ := List.nodup_cons.1 hl
    refine (ih hl (s.setDie e (f (s.die e)))).trans ?_
    by_cases hd : d = e
    · subst hd
      simp [he]
    · simp [hd, State.die_setDie_ne]

theorem mem_allDies {d : Nat} : d ∈ allDies ↔ d < 8 := List.mem_range

/-- A change of all dies reaches each of the eight. -/
theorem die_changeDies_allDies (s : State) (f : Die → Die) {d : Nat} (hd : d < 8) : (s.changeDies allDies f).die d = f (s.die d) := by
  rw [die_changeDies f (show allDies.Nodup from List.nodup_range), if_pos (mem_allDies.2 hd)]

/-! ### Intervals and true time -/

/-- While the beats have been true, an interval contains true time: its bounds move away by at least what the reference may drift. -/
theorem interval_contains_now {s : State} (h : clocksTrue s) {d : Nat} (hd : d < 8) :
    (s.interval d).1 * 47 ≤ s.now ∧ s.now ≤ (s.interval d).2 * 47 := by
  obtain ⟨hlo, hhi, hbeat⟩ := h.1 d hd
  simp only [State.interval, ceilDiv, nsTicks]
  omega

/-- At its beat a die's interval is what its clock holds. -/
theorem interval_at_beat {s : State} {d : Nat} (h : (s.die d).clock.beat = s.now) :
    s.interval d = ((s.die d).clock.lo, (s.die d).clock.hi) := by
  simp [State.interval, h, ceilDiv, nsTicks]

theorem isLeast_leastEarliest (s : State) : isLeast s.leastEarliest fun d => (s.interval d).1 := by
  have hmin : ((s.interval 0).1 :: allDies.map fun d => (s.interval d).1).min? = some s.leastEarliest := List.min?_cons'
  obtain ⟨hmem, hle⟩ := List.min?_eq_some_iff.1 hmin
  refine ⟨fun d hd => hle _ (List.mem_cons_of_mem _ (List.mem_map_of_mem (mem_allDies.2 hd))), ?_⟩
  rcases List.mem_cons.1 hmem with h0 | h
  · exact ⟨0, by omega, h0.symm⟩
  · obtain ⟨d, hd, he⟩ := List.mem_map.1 h
    exact ⟨d, mem_allDies.1 hd, he⟩

/-! ### What keeps the clocks true -/

/-- Time may pass, and the package mark may rise to what true time has reached. -/
theorem clocksTrue_of_clock_eq {s t : State} (h : clocksTrue s) (hclock : ∀ d, d < 8 → (t.die d).clock = (s.die d).clock)
    (hnow : s.now ≤ t.now) (hmark : t.packageMark * 47 ≤ t.now) : clocksTrue t := by
  refine ⟨fun d hd => ?_, hmark⟩
  obtain ⟨hlo, hhi, hbeat⟩ := h.1 d hd
  rw [hclock d hd]
  exact ⟨hlo, hhi, Nat.le_trans hbeat hnow⟩

/-- What changes no clock of a die keeps them true. -/
theorem clocksTrue_changeDies {s : State} (h : clocksTrue s) {f : Die → Die} (hf : ∀ x, (f x).clock = x.clock) :
    clocksTrue (s.changeDies allDies f) := by
  have hnow : (s.changeDies allDies f).now = s.now := by rw [changeDies_eq]
  have hmark : (s.changeDies allDies f).packageMark = s.packageMark := by rw [changeDies_eq]
  refine clocksTrue_of_clock_eq h (fun d hd => ?_) (Nat.le_of_eq hnow.symm) (by rw [hnow, hmark]; exact h.2)
  rw [die_changeDies_allDies s f hd, hf]

/-- A die may take a clock that bounds true time now. -/
theorem clocksTrue_setDie {s : State} (h : clocksTrue s) (d : Nat) {x : Die} (hbeat : x.clock.beat = s.now)
    (hlo : x.clock.lo * 47 ≤ s.now) (hhi : s.now ≤ x.clock.hi * 47) : clocksTrue (s.setDie d x) := by
  refine ⟨fun e he => ?_, h.2⟩
  by_cases hed : e = d
  · subst hed
    rw [State.die_setDie_same, hbeat]
    exact ⟨hlo, hhi, Nat.le_refl _⟩
  · rw [State.die_setDie_ne s x hed]
    exact h.1 e he

/-! ### SYNC_BEAT -/

/-- Die `ev.die` takes what its interval has in common with the beat. -/
def State.afterBeat (s : State) : State :=
  s.setDie s.ev.die { s.die s.ev.die with
    clock := ⟨max (s.interval s.ev.die).1 s.ev.lo, min (s.interval s.ev.die).2 s.ev.hi, s.now⟩ }

/-- A beat that contains true time is taken; any other is no beat. -/
theorem exec_syncBeat (s : State) :
    exec .syncBeat s = .next (if s.ev.die < 8 ∧ s.ev.lo * 47 ≤ s.now ∧ s.now ≤ s.ev.hi * 47 then s.afterBeat else s) := by
  show execSyncBeat s = _
  unfold execSyncBeat
  simp only [Bool.and_eq_true, decide_eq_true_eq, and_assoc]
  exact (apply_ite Host.Outcome.next _ s.afterBeat s).symm

theorem interval_afterBeat (s : State) : s.afterBeat.interval s.ev.die =
    (max (s.interval s.ev.die).1 s.ev.lo, min (s.interval s.ev.die).2 s.ev.hi) := by
  rw [interval_at_beat] <;> simp [State.afterBeat]

theorem clocksTrue_syncBeat {s t : State} (h : clocksTrue s) (ht : exec .syncBeat s = .next t) : clocksTrue t := by
  rw [exec_syncBeat, Host.Outcome.next.injEq] at ht
  subst ht
  split
  case isTrue hc =>
    obtain ⟨hd, hlo, hhi⟩ := hc
    obtain ⟨hlo', hhi'⟩ := interval_contains_now h hd
    exact clocksTrue_setDie h _ rfl (by dsimp only; omega) (by dsimp only; omega)
  case isFalse => exact h

/-! ### PACKAGE_MARK_UPDATE -/

/-- The state at the end of the cycle that an update lets pass, before the mark is formed. -/
def State.cyclePassed (s : State) : State := { s.stopAllFaulted with now := s.now + 50 }

/-- The package mark that an update forms. -/
def State.nextPackageMark (s : State) : Nat := max s.packageMark s.cyclePassed.leastEarliest

theorem exec_packageMarkUpdate (s : State) : exec .packageMarkUpdate s = .next
    ({ s.cyclePassed with packageMark := s.nextPackageMark }.changeDies allDies fun x => { x with mark := s.nextPackageMark }) := by
  obtain ⟨hnow, hmark, -⟩ := State.times_eq_iff.1 (times_stopAllFaulted s)
  unfold State.nextPackageMark State.cyclePassed
  rw [← hnow, ← hmark]
  rfl

/-- A cycle passes: the clocks stay true. -/
theorem clocksTrue_cyclePassed {s : State} (h : clocksTrue s) : clocksTrue s.cyclePassed := by
  obtain ⟨-, hmark, hclock⟩ := State.times_eq_iff.1 (times_stopAllFaulted s)
  refine clocksTrue_of_clock_eq h (fun d _ => hclock d) (Nat.le_add_right _ 50) ?_
  show s.stopAllFaulted.packageMark * 47 ≤ s.now + 50
  have := h.2
  omega

/-- The mark that an update forms has not passed true time, as no earliest value has. -/
theorem nextPackageMark_le_now {s : State} (h : clocksTrue s) : s.nextPackageMark * 47 ≤ s.now + 50 := by
  obtain ⟨d, hd, hleast⟩ := (isLeast_leastEarliest s.cyclePassed).2
  have hle : s.cyclePassed.leastEarliest * 47 ≤ s.now + 50 := hleast ▸ (interval_contains_now (clocksTrue_cyclePassed h) hd).1
  have hmark := h.2
  unfold State.nextPackageMark
  omega

theorem clocksTrue_packageMarkUpdate {s t : State} (h : clocksTrue s) (ht : exec .packageMarkUpdate s = .next t) : clocksTrue t := by
  rw [exec_packageMarkUpdate, Host.Outcome.next.injEq] at ht
  subst ht
  refine clocksTrue_changeDies ?_ fun _ => rfl
  exact ⟨(clocksTrue_cyclePassed h).1, nextPackageMark_le_now h⟩

theorem packageMarkUpdate_spec (s : State) : ∃ t m, exec .packageMarkUpdate s = .next t ∧
    isLeast m (fun d => (s.cyclePassed.interval d).1) ∧
    t = { s.stopAllFaulted with now := s.now + 50, packageMark := max s.packageMark m, dies := t.dies } ∧
    ∀ d, d < 8 → t.die d = { s.stopAllFaulted.die d with mark := t.packageMark } := by
  refine ⟨_, _, exec_packageMarkUpdate s, isLeast_leastEarliest s.cyclePassed, changeDies_eq _ _ _, fun d hd => ?_⟩
  rw [die_changeDies_allDies _ _ hd, changeDies_eq]
  rfl

/-! ### FABRIC_MARK_EXCHANGE -/

/-- The fabric mark that an exchange forms. -/
def State.nextFabricMark (s : State) : Nat := max s.fabricMark (min s.ev.lo s.packageMark - s.ev.hi)

theorem exec_fabricMarkExchange (s : State) : exec .fabricMarkExchange s = .next
    ({ s with fabricMark := s.nextFabricMark }.changeDies allDies fun x => { x with fmark := s.nextFabricMark }) := rfl

theorem clocksTrue_fabricMarkExchange {s t : State} (h : clocksTrue s) (ht : exec .fabricMarkExchange s = .next t) : clocksTrue t := by
  rw [exec_fabricMarkExchange, Host.Outcome.next.injEq] at ht
  subst ht
  refine clocksTrue_changeDies ?_ fun _ => rfl
  exact h

theorem fabricMarkExchange_spec (s : State) : ∃ t, exec .fabricMarkExchange s = .next t ∧ t.fabricMark = s.nextFabricMark ∧
    (∀ d, d < 8 → t.die d = { s.die d with fmark := t.fabricMark }) ∧ t.harts = s.harts ∧ t.packageMark = s.packageMark := by
  refine ⟨_, exec_fabricMarkExchange s, ?_, fun d hd => ?_, ?_, ?_⟩
  · rw [changeDies_eq]
  · rw [die_changeDies_allDies _ _ hd, changeDies_eq]
    rfl
  · rw [changeDies_eq]
  · rw [changeDies_eq]

/-! ### VLCAP_CHANGE -/

/-- The dies that a change of the cap names. -/
def State.namedDies (s : State) : List Nat := allDies.filter s.ev.dies.getLsbD

theorem mem_namedDies {s : State} {d : Nat} (hd : d < 8) : d ∈ s.namedDies ↔ s.ev.dies.getLsbD d = true := by
  simp [State.namedDies, mem_allDies, hd]

/-- A word of eight bits that is not 0 names a die. -/
theorem namedDies_ne_nil {s : State} (h : s.ev.dies ≠ 0) : s.namedDies ≠ [] := by
  intro hnil
  refine h (BitVec.eq_of_getLsbD_eq fun d hd => ?_)
  have hnot : d ∉ s.namedDies := by simp [hnil]
  simpa [mem_namedDies hd] using hnot

/-- An allowed cap is set in the dies named, and the event is raised on the first of them. -/
theorem exec_vlcapChange {s : State} {d : Nat} {ds : List Nat} (hds : s.namedDies = d :: ds) (hc : capOk s.ev.cap = true) :
    exec .vlcapChange s = .next ((s.changeDies s.namedDies fun x => { x with vlcap := s.ev.cap }).raiseEvent d evPowerCap 0xFF
      (s.ev.dies.toNat + s.ev.cap.toNat * 256)) := by
  show execVlcapChange s = _
  unfold execVlcapChange
  rw [hds]
  unfold State.namedDies at hds
  simp only [hds, hc, if_true]
  rfl

theorem vlcapChange_spec {s : State} (hc : capOk s.ev.cap = true) (h : s.ev.dies ≠ 0) : ∃ t, exec .vlcapChange s = .next t ∧
    (∀ d, d < 8 → t.die d = if s.ev.dies.getLsbD d then { s.die d with vlcap := s.ev.cap } else s.die d) ∧
    t.harts = s.harts ∧ t.events.pending.length = s.events.pending.length + 1 := by
  obtain ⟨d, ds, hds⟩ := List.exists_cons_of_ne_nil (namedDies_ne_nil h)
  refine ⟨_, exec_vlcapChange hds hc, fun e he => ?_, ?_, ?_⟩
  · have hnodup : s.namedDies.Nodup := List.nodup_range.filter _
    refine (die_changeDies _ hnodup s e).trans ?_
    simp only [mem_namedDies he]
  · rw [changeDies_eq]
    rfl
  · rw [changeDies_eq]
    simp [State.raiseEvent]

end Sys2Proof.Machine

namespace Sys2Proof.Proofs
open Sys2Proof.Machine Sys2Proof.Claims

/-- Settles O50: `interval_contains_now` for the intervals, a `clocksTrue_…` lemma per event for their being kept, and what each event
leaves. -/
theorem clockEvents : Obligations.ClockEvents := by
  intro s
  refine ⟨fun h d hd => interval_contains_now h hd, ?_, ?_, ?_, fabricMarkExchange_spec s, ?_⟩
  · rintro t h (hbeat | hupdate | hexchange)
    · exact clocksTrue_syncBeat h hbeat
    · exact clocksTrue_packageMarkUpdate h hupdate
    · exact clocksTrue_fabricMarkExchange h hexchange
  · intro d hd hlo hhi
    have hexec : exec .syncBeat s = .next s.afterBeat := by rw [exec_syncBeat, if_pos ⟨hd, hlo, hhi⟩]
    exact ⟨_, hexec, rfl, congrArg Prod.fst (interval_afterBeat s), congrArg Prod.snd (interval_afterBeat s)⟩
  · exact ⟨stopAllFaulted_eq_self, packageMarkUpdate_spec s⟩
  · intro hcap hdies
    exact vlcapChange_spec (by simpa [capOk, or_assoc] using hcap) hdies

end Sys2Proof.Proofs
end
